-- ==== Sys2Proof/Word.lean ====
section
/-! DEFINITION. The block's plainest types: bytes, ports and table slots. -/

namespace Sys2Proof

/-- A byte of a message, of a surface or of frame memory. -/
abbrev Byte := BitVec 8

/-- A port, and the client link of the same number (00_scope.md, Numbering). -/
abbrev Port := Fin 4

/-- A slot of the surface table (R57). -/
abbrev SurfSlot := Fin 48

/-- A slot of the window table (R95). -/
abbrev WinSlot := Fin 24

/-- A table with one entry for each of `n` numbered things. -/
abbrev Table (α : Type) (n : Nat) := Vector α n

end Sys2Proof
end

