-- ==== Sys2Proof/Syntax.lean ====
section
/-! DEFINITION. The commands of the block: one constructor for each row of spec/opcode_table.json, in the table's order.

A request command carries the request as it stands on the wire: the port whose link carries it, its tag and its payload
bytes. Its payload is any list of bytes, so a request with a wrong length, handle or encoding is a form of its row. -/

namespace Sys2Proof

/-- The commands (log entries 2 to 6 and 13 say how each row is read as a command). -/
inductive Instr where
  /-- SELECT_ACTIVE (R3): CLn_SEL_N of link `n` goes active. -/
  | selectActive (n : Port)
  /-- SELECT_INACTIVE (R7): CLn_SEL_N of link `n` goes inactive. -/
  | selectInactive (n : Port)
  /-- NOP (R8): a transaction on link `n` that carries a NOP frame. -/
  | nop (n : Port) (tag : Byte) (payload : List Byte)
  /-- DEVICE_RESET (R17): RESET_N is asserted and released, or power comes up; `selN` says whether CLn_SEL_N of link N is
  asserted at the release. -/
  | deviceReset (sel0 sel1 sel2 sel3 : Bool)
  /-- UNKNOWN_KIND (R23): a request whose kind byte is not a request kind. -/
  | unknownKind (n : Port) (kind tag : Byte) (payload : List Byte)
  /-- IDENTIFY (R150). -/
  | identify (n : Port) (tag : Byte) (payload : List Byte)
  /-- OPEN (R29, R30). -/
  | openSession (n : Port) (tag : Byte) (payload : List Byte)
  /-- CLOSE (R31). -/
  | closeSession (n : Port) (tag : Byte) (payload : List Byte)
  /-- QUERY_SESSION (R151). -/
  | querySession (n : Port) (tag : Byte) (payload : List Byte)
  /-- SET_TIMING (R39, R40). -/
  | setTiming (n : Port) (tag : Byte) (payload : List Byte)
  /-- FRAME_BOUNDARY (R44): the last active pixel of the frame is output. -/
  | frameBoundary
  /-- STALE (R145): the window in slot `w` becomes stale. -/
  | stale (w : WinSlot)
  /-- CREATE_SURFACE (R61, R62). -/
  | createSurface (n : Port) (tag : Byte) (payload : List Byte)
  /-- DESTROY_SURFACE (R69, R70). -/
  | destroySurface (n : Port) (tag : Byte) (payload : List Byte)
  /-- QUERY_SURFACE (R152). -/
  | querySurface (n : Port) (tag : Byte) (payload : List Byte)
  /-- QUERY_MEMORY (R155). -/
  | queryMemory (n : Port) (tag : Byte) (payload : List Byte)
  /-- QUERY_PANEL (R154). -/
  | queryPanel (n : Port) (tag : Byte) (payload : List Byte)
  /-- WRITE (R79). -/
  | write (n : Port) (tag : Byte) (payload : List Byte)
  /-- FILL (R80). -/
  | fill (n : Port) (tag : Byte) (payload : List Byte)
  /-- COPY (R81). -/
  | copy (n : Port) (tag : Byte) (payload : List Byte)
  /-- CHECKSUM (R82). -/
  | checksum (n : Port) (tag : Byte) (payload : List Byte)
  /-- JOB_COMPLETION (R91): the in-flight job completes. -/
  | jobCompletion
  /-- CREATE_WINDOW (R100, R101). -/
  | createWindow (n : Port) (tag : Byte) (payload : List Byte)
  /-- QUERY_WINDOW (R153). -/
  | queryWindow (n : Port) (tag : Byte) (payload : List Byte)
  /-- QUERY_LOAD (R156). -/
  | queryLoad (n : Port) (tag : Byte) (payload : List Byte)
  /-- COMMIT (R114). -/
  | commit (n : Port) (tag : Byte) (payload : List Byte)
  /-- ACQUIRE_ALERT (R136). -/
  | acquireAlert (n : Port) (tag : Byte) (payload : List Byte)
  /-- RELEASE_ALERT (R137). -/
  | releaseAlert (n : Port) (tag : Byte) (payload : List Byte)
  /-- QUERY_ALERT (R157). -/
  | queryAlert (n : Port) (tag : Byte) (payload : List Byte)
  /-- PIXEL_CLOCK (R42): one pixel clock passes. -/
  | pixelClock
  /-- BYTE_CLOCKED (R1): one rising edge of CLn_CLK, with CLn_DI at level `di`. -/
  | byteClocked (n : Port) (di : Bool)
  deriving DecidableEq, Repr

end Sys2Proof
end

