-- ==== Sys2Proof/Decode.lean ====
section
/-! DEFINITION. The command a table word spells. No row of spec/opcode_table.json gives bits ("fields" is empty in every row and
none has "fixed"), so no word spells a command (log entry 22). What arrives on a link is read by Machine/Links.lean. -/

namespace Sys2Proof

/-- The command that the `nbits` bits of `w` spell by the table: none, for no row gives bits. -/
def decodeTableWord (_nbits _w : Nat) : Option Instr := none

end Sys2Proof
end

