-- ==== Sys2Proof/Config.lean ====
section
/-! DEFINITION. The capacities of revision 1 of the part, and the free values: what the spec leaves open. -/

namespace Sys2Proof.Config

/-- Requests a request queue holds (R9). -/
def requestDepth : Nat := 4
/-- Responses a response queue holds (R12). -/
def responseDepth : Nat := 4
/-- Events an event queue holds (R13). -/
def eventDepth : Nat := 16
/-- The largest request payload (R7). -/
def maxPayload : Nat := 1024
/-- Bytes of a page of frame memory (R54). -/
def pageSize : Nat := 4096
/-- Pages of frame memory (R54). -/
def pages : Nat := 4096
/-- Pages in the reserve of one port (R60). -/
def reserve : Nat := 640
/-- Pages in the shared pool (R60). -/
def pool : Nat := 1536
/-- Surfaces one port may own (R57). -/
def surfacesPerPort : Nat := 16
/-- Windows one port may own (R95). -/
def windowsPerPort : Nat := 8
/-- Jobs of one port queued or in flight (R74). -/
def jobDepth : Nat := 4
/-- Pending commits of the device (R124). -/
def commitDepth : Nat := 8
/-- Pending commits of one port (R114). -/
def commitsPerPort : Nat := 2
/-- Operations of one commit (R113). -/
def opsPerCommit : Nat := 16
/-- Generations of a surface slot (R58). -/
def surfaceGenerations : Nat := 1024
/-- Generations of a window slot (R96). -/
def windowGenerations : Nat := 2048

/-- FREE VALUE, log entry 8: how many more pixels the in-flight job has written when the model next looks, at draw `k`.
R87 gives the order of a job's writes and R55 leaves their pace open. -/
opaque drawnPixels (k : Nat) : Nat

/-- FREE VALUE, log entry 9: whether the scan engine fetches the source pixel of window slot `w` at panel column `c` during
the pixel clock of draw `k`. R47 gives the line period of a fetch and not the moment within it. -/
opaque fetchNow (k w c : Nat) : Bool

/-- FREE VALUE, log entry 10: which of the session controllers with work left acts next, at draw `k`.
R22 and R34 leave the order of different ports open. -/
opaque nextController (k : Nat) : Nat

end Sys2Proof.Config
end

