-- ==== Sys2Proof/Machine/State.lean ====
section
/-! DEFINITION. The state of the block as plain data, one structure for each of its seven blocks (00_scope.md, Block diagram),
and the state right after device reset. -/

namespace Sys2Proof.Machine

/-! ### Client links (chapter 1) -/

/-- The transaction states of a link (R2). -/
inductive TransState where
  | idle | active | ignored
  deriving DecidableEq, Repr

/-- A request as received (R9); its payload length is the length of the list. -/
structure Request where
  kind : Byte
  tag : Byte
  payload : List Byte
  deriving DecidableEq, Repr

/-- A response (R12): its payload begins with the request kind and the status byte. -/
structure Response where
  tag : Byte
  payload : List Byte
  deriving DecidableEq, Repr

/-- An event with the sequence number it took at its posting (R13, R14). -/
structure Event where
  seq : Byte
  payload : List Byte
  deriving DecidableEq, Repr

/-- The three header flags (R11), or the records that the current header reported them (R4). -/
structure LinkFlags where
  overrun : Bool
  frameError : Bool
  eventsLost : Bool
  deriving DecidableEq, Repr

/-- The queue an outbound frame was copied from (R3). -/
inductive Origin where
  | responseQueue | eventQueue
  deriving DecidableEq, Repr

/-- The copy of the outbound frame of a transaction; `origin` is none for an IDLE frame and once a teardown has removed the
entry (R3, R16). -/
structure OutFrame where
  bytes : List Byte
  origin : Option Origin
  deriving DecidableEq, Repr

/-- The state of one client link. -/
structure Link where
  /-- Transaction state (R2); CLn_SEL_N is asserted exactly while it is not idle. -/
  trans : TransState
  /-- Request queue, oldest first (R9). -/
  requests : List Request
  /-- Response queue, oldest first (R12). -/
  responses : List Response
  /-- Event queue, oldest first (R13). -/
  events : List Event
  /-- OVERRUN, FRAME_ERROR, EVENTS_LOST (R11). -/
  flags : LinkFlags
  /-- Which flags the current header reported and no new occurrence has set since (R4). -/
  reported : LinkFlags
  /-- Event sequence counter (R14). -/
  seq : BitVec 8
  /-- Outbound frame of the transaction in progress (R3). -/
  out : Option OutFrame
  /-- Inbound bytes clocked in the transaction (R7); as many outbound bytes have been shifted (R1). -/
  inBytes : List Byte
  /-- Bits sampled of the byte not yet finished, first sampled first (R1). -/
  inBits : List Bool
  /-- CLn_DO: none is high impedance (R1, R2). -/
  dout : Option Bool
  deriving DecidableEq, Repr

/-! ### Session controllers (chapter 2) -/

/-- The port states (R19). -/
inductive PortState where
  | closed | opened | closing
  deriving DecidableEq, Repr

/-- Which request began the teardown (R19). -/
inductive ClosingCause where
  | none | close | takeover
  deriving DecidableEq, Repr

/-- What the head request waits on (R19, R25). -/
inductive HeadWait where
  | none | responseRoom | jobRoom | jobRefs | teardown
  deriving DecidableEq, Repr

/-- The session record of one port (R19). -/
structure Session where
  state : PortState
  number : Nat
  label : BitVec 32
  cause : ClosingCause
  pendingLabel : Option (BitVec 32)
  headWait : HeadWait
  deriving DecidableEq, Repr

/-! ### Scan engine (chapter 3) -/

/-- A 24-bit colour. -/
structure Rgb where
  red : Byte
  green : Byte
  blue : Byte
  deriving DecidableEq, Repr

/-- A polarity of the timing record (R38). -/
inductive Polarity where
  | activeHigh | activeLow
  deriving DecidableEq, Repr

/-- The timing record (R38). -/
structure Timing where
  hactive : Nat
  hfront : Nat
  hsync : Nat
  hback : Nat
  vactive : Nat
  vfront : Nat
  vsync : Nat
  vback : Nat
  hsyncPolarity : Polarity
  vsyncPolarity : Polarity
  dePolarity : Polarity
  divider : Nat
  background : Rgb
  deriving DecidableEq, Repr

/-- The scan states. -/
inductive ScanState where
  | unconfigured | running
  deriving DecidableEq, Repr

/-- A source pixel the scan engine has fetched for a line: the window, the panel column and the bytes as read (R47, R49). -/
structure Fetched where
  win : WinSlot
  col : Nat
  bytes : List Byte
  deriving DecidableEq, Repr

/-- The state of the scan engine. -/
structure Scan where
  /-- The timing record; absent while UNCONFIGURED (R38, R53). -/
  timing : Option Timing
  /-- The frame counter (R45). -/
  frame : BitVec 32
  /-- Line number and pixel clock number that the output has reached; none while UNCONFIGURED (R42, R52). -/
  pos : Option (Nat × Nat)
  /-- What was fetched for the line now being output (R47, log entry 9). -/
  shown : List Fetched
  /-- What has been fetched so far for the next active line (R47, log entry 9). -/
  fetched : List Fetched
  deriving DecidableEq, Repr

/-- UNCONFIGURED or RUNNING: RUNNING exactly when a timing record is stored (R39, R53, log entry 16). -/
def Scan.scanState (c : Scan) : ScanState := if c.timing.isSome then .running else .unconfigured

/-! ### Surface manager (chapter 4) -/

/-- The pixel formats (R56). -/
inductive Format where
  | p16 | p32 | p32a
  deriving DecidableEq, Repr

/-- A surface record (R57); its handle is its slot and the slot's generation (R58). -/
structure Surface where
  owner : Port
  width : Nat
  height : Nat
  format : Format
  direct : Bool
  stride : Nat
  pageCount : Nat
  pageList : List Nat
  shownRefs : Nat
  queuedRefs : Nat
  jobRefs : Nat
  deriving DecidableEq, Repr

/-- A slot of the surface table: its generation, and its surface unless it is FREE (R57, R58). -/
structure SurfaceEntry where
  gen : Nat
  surface : Option Surface
  deriving DecidableEq, Repr

/-- The state of the surface manager. The page map is `freePages`, ascending, and the surfaces' page lists (log entry 16). -/
structure Surfaces where
  slots : Table SurfaceEntry 48
  freePages : List Nat
  pageCount : Table Nat 4
  surfCount : Table Nat 4
  deriving DecidableEq, Repr

/-- Frame memory: a canonical list of addresses and bytes (R72, log entry 7). -/
abbrev Memory := List Host.Cell

/-! ### Drawing engine (chapter 5) -/

/-- What a job does, with what only its kind holds (R77). -/
inductive Work where
  | write (bytes : List Byte)
  | fill (pixel : List Byte)
  | copy (source sx sy : Nat)
  | checksum
  deriving DecidableEq, Repr

/-- A job record (R77). -/
structure Job where
  number : Nat
  port : Port
  target : Nat
  x : Nat
  y : Nat
  w : Nat
  h : Nat
  notify : Bool
  work : Work
  deriving DecidableEq, Repr

/-- The job in flight: its record, the source pixels a COPY took at its choice, row by row (R89), and how many pixels it
has written (R87, log entry 8). -/
structure InFlight where
  job : Job
  taken : List (List Byte)
  written : Nat
  deriving DecidableEq, Repr

/-- The engine states (R74). -/
inductive EngineState where
  | idle | busy
  deriving DecidableEq, Repr

/-- The state of the drawing engine (R74). -/
structure Drawing where
  queues : Table (List Job) 4
  inFlight : Option InFlight
  pointer : Port
  issued : Table Nat 4
  completed : Table Nat 4
  deriving DecidableEq, Repr

/-- BUSY while a job is in flight, IDLE while none is (R74, log entry 16). -/
def Drawing.engineState (d : Drawing) : EngineState := if d.inFlight.isSome then .busy else .idle

/-! ### Layout controller (chapters 6 to 8) -/

/-- The bands, from bottom to top (R104). -/
inductive Band where
  | base | main | overlay | alert
  deriving DecidableEq, Repr

/-- The state of a window in one layout (R99). -/
inductive WindowState where
  | reserved | stacked | withdrawn
  deriving DecidableEq, Repr

/-- A surface description (R107). -/
structure SourceDesc where
  handle : Nat
  width : Nat
  height : Nat
  format : Format
  deriving DecidableEq, Repr

/-- A window's record in one layout (R98), less handle and owner, which are the table's, and age and stale, which are kept
once for the applied record. -/
structure WindowRec where
  state : WindowState
  band : Band
  x : Int
  y : Int
  width : Nat
  height : Nat
  source : Option SourceDesc
  sx : Nat
  sy : Nat
  opacity : Byte
  fill : Rgb
  visible : Bool
  deadline : Nat
  deriving DecidableEq, Repr

/-- The four band lists of a layout, each from bottom to top (R104). -/
structure Bands where
  base : List WinSlot
  main : List WinSlot
  overlay : List WinSlot
  alert : List WinSlot
  deriving DecidableEq, Repr

/-- A layout: a record for each slot that holds a window, and the band lists (R98, R104). -/
structure Layout where
  recs : Table (Option WindowRec) 24
  bands : Bands
  deriving DecidableEq, Repr

/-- Age, stale and refreshed mark of a window of the applied layout (R98, R143). -/
structure Freshness where
  age : Nat
  stale : Bool
  refreshed : Bool
  deriving DecidableEq, Repr

/-- A commit operation as its request carries it (R113, R162): `w` is the window handle, and a field that may hold a value
outside its range is kept as the number it is. -/
inductive Op where
  | place (w : Nat) (x y : Int) (width height : Nat)
  | source (w present surface sx sy : Nat)
  | style (w : Nat) (opacity : Byte) (fill : Rgb)
  | band (w code : Nat)
  | restack (w mode ref : Nat)
  | showWindow (w : Nat)
  | hideWindow (w : Nat)
  | freshness (w deadline : Nat)
  | touch (w : Nat)
  | destroy (w : Nat)
  deriving DecidableEq, Repr

/-- A pending commit record (R124). -/
structure Pending where
  port : Port
  tag : Byte
  fence : Nat
  reached : Bool
  ops : List Op
  refreshed : List WinSlot
  deriving DecidableEq, Repr

/-- The state of the layout controller. -/
structure LayoutController where
  /-- Window table: the owner of the window in each slot, none for a FREE slot (R95). -/
  owners : Table (Option Port) 24
  gens : Table Nat 24
  winCount : Table Nat 4
  applied : Layout
  projected : Layout
  fresh : Table Freshness 24
  /-- Load tables, one entry for each active line; no entries while UNCONFIGURED (R109). -/
  appliedLoad : List Nat
  projectedLoad : List Nat
  /-- Pending commit queue, oldest first (R124). -/
  commits : List Pending
  /-- Holder of the alert token (R135). -/
  holder : Option Port
  /-- Alert waiting list, position 1 first (R135). -/
  waiting : List Port
  deriving DecidableEq, Repr

/-! ### Output pins -/

/-- The panel output pins (R43, R52): `clock` says whether PNL_CLK runs (it is held low otherwise), the others are levels. -/
structure PanelPins where
  clock : Bool
  hs : Bool
  vs : Bool
  de : Bool
  data : BitVec 24
  deriving DecidableEq, Repr

/-- The output pins but CLn_DO: `attention` says for each link whether CLn_ATN_N is asserted (R15). -/
structure Pins where
  attention : Table Bool 4
  panel : PanelPins
  deriving DecidableEq, Repr

/-! ### The block -/

/-- The state of the HW424. -/
structure State where
  links : Table Link 4
  sessions : Table Session 4
  scan : Scan
  surfaces : Surfaces
  mem : Memory
  drawing : Drawing
  layouts : LayoutController
  pins : Pins
  /-- The model's own counter, at which the free values of Config are read (log entry 18). -/
  free : Nat
  /-- The commands that wait, first in first out. -/
  pending : List Instr
  deriving DecidableEq, Repr

/-- Why the block stops: nothing the spec describes stops it, so there is no reason (INVENTORY.md, Faults). -/
inductive Fault where
  deriving DecidableEq, Repr

/-- Why a command has no meaning. -/
inductive Refusal where
  /-- Raised by exec alone, for a row that has no meaning yet; safe. No arm raises it: every row has its meaning. -/
  | notModelled (mnemonic : String)
  deriving DecidableEq, Repr

/-! ### Reset values -/

/-- No flag set. -/
def LinkFlags.clear : LinkFlags := ⟨false, false, false⟩

/-- A link after device reset with its select released (R17). -/
def Link.reset : Link where
  trans := .idle
  requests := []
  responses := []
  events := []
  flags := .clear
  reported := .clear
  seq := 0
  out := none
  inBytes := []
  inBits := []
  dout := none

/-- A session controller after device reset (R37). -/
def Session.reset : Session where
  state := .closed
  number := 0
  label := 0
  cause := .none
  pendingLabel := none
  headWait := .none

/-- The scan engine after device reset (R53). -/
def Scan.reset : Scan where
  timing := none
  frame := 0
  pos := none
  shown := []
  fetched := []

/-- The surface manager after device reset (R73). -/
def Surfaces.reset : Surfaces where
  slots := Vector.replicate 48 ⟨0, none⟩
  freePages := List.range' 0 4096
  pageCount := Vector.replicate 4 0
  surfCount := Vector.replicate 4 0

/-- The drawing engine after device reset (R94). -/
def Drawing.reset : Drawing where
  queues := Vector.replicate 4 []
  inFlight := none
  pointer := 0
  issued := Vector.replicate 4 0
  completed := Vector.replicate 4 0

/-- A layout without windows (R111). -/
def Layout.empty : Layout where
  recs := Vector.replicate 24 none
  bands := ⟨[], [], [], []⟩

/-- Age 0, not stale, no refreshed mark (R98, R143). -/
def Freshness.new : Freshness := ⟨0, false, false⟩

/-- The layout controller after device reset (R111, R134, R148). -/
def LayoutController.reset : LayoutController where
  owners := Vector.replicate 24 none
  gens := Vector.replicate 24 0
  winCount := Vector.replicate 4 0
  applied := .empty
  projected := .empty
  fresh := Vector.replicate 24 .new
  appliedLoad := []
  projectedLoad := []
  commits := []
  holder := none
  waiting := []

/-- The panel pins while UNCONFIGURED (R52). -/
def PanelPins.quiet : PanelPins := ⟨false, false, false, false, 0⟩

/-- The output pins after device reset (R17, R53). -/
def Pins.reset : Pins := ⟨Vector.replicate 4 false, .quiet⟩

/-- The block right after device reset, every select released (log entry 15), no command waiting. -/
def State.reset : State where
  links := Vector.replicate 4 .reset
  sessions := Vector.replicate 4 .reset
  scan := .reset
  surfaces := .reset
  mem := []
  drawing := .reset
  layouts := .reset
  pins := .reset
  free := 0
  pending := []

end Sys2Proof.Machine
end

