-- ==== Sys2Proof/Machine/Ops.lean ====
section
/-! DEFINITION. The named operations the meanings are built from: tables, the state's parts, frame memory, and the counters
whose values run in a cycle. -/

namespace Sys2Proof.Machine

/-! ### Tables -/

/-- The entry of slot `i`. -/
def tget {α : Type} {n : Nat} (t : Table α n) (i : Fin n) : α := t[i.val]

/-- The table with the entry of slot `i` replaced. -/
def tput {α : Type} {n : Nat} (t : Table α n) (i : Fin n) (a : α) : Table α n := t.set i.val a

/-- The table with the entry of slot `i` changed. -/
def tmod {α : Type} {n : Nat} (t : Table α n) (i : Fin n) (f : α → α) : Table α n := tput t i (f (tget t i))

/-- All slots of a table, ascending. Irreducible, so that no unifier walks through it; the kernel evaluates it all the same. -/
@[irreducible] def allSlots (n : Nat) : List (Fin n) :=
  (List.range' 0 n).filterMap (fun i => if h : i < n then some ⟨i, h⟩ else none)

/-- The four ports, ascending. -/
def allPorts : List Port := [0, 1, 2, 3]

/-! ### Parts of the state -/

/-- Link CLn. -/
def State.link (s : State) (n : Port) : Link := tget s.links n

/-- The session record of port `n`. -/
def State.session (s : State) (n : Port) : Session := tget s.sessions n

def State.withLink (s : State) (n : Port) (l : Link) : State := { s with links := tput s.links n l }
def State.withSession (s : State) (n : Port) (c : Session) : State := { s with sessions := tput s.sessions n c }
def State.withScan (s : State) (c : Scan) : State := { s with scan := c }
def State.withSurfaces (s : State) (m : Surfaces) : State := { s with surfaces := m }
def State.withMem (s : State) (m : Memory) : State := { s with mem := m }
def State.withDrawing (s : State) (d : Drawing) : State := { s with drawing := d }
def State.withLayouts (s : State) (c : LayoutController) : State := { s with layouts := c }
def State.withPins (s : State) (p : Pins) : State := { s with pins := p }

/-- The free-value counter moves on, so that the next free value is a fresh one. -/
def State.tick (s : State) : State := { s with free := s.free + 1 }

/-- The commands that wait are replaced. -/
def State.withPending (s : State) (q : List Instr) : State := { s with pending := q }

/-- Link CLn changed by `f`. -/
def State.mapLink (s : State) (n : Port) (f : Link → Link) : State := s.withLink n (f (s.link n))

/-- The session record of port `n` changed by `f`. -/
def State.mapSession (s : State) (n : Port) (f : Session → Session) : State := s.withSession n (f (s.session n))

/-- Head wait of port `n` set. -/
def State.setHeadWait (s : State) (n : Port) (w : HeadWait) : State := s.mapSession n (fun c => { c with headWait := w })

/-! ### Cycles -/

/-- The next number of the sequence 1, 2, …, `top`, 1, 2, … (R20, R75). -/
def nextInCycle (top v : Nat) : Nat := if v ≥ top then 1 else v + 1

/-- The generation after `g`, of `count` generations (R58, R96). -/
def nextGeneration (count g : Nat) : Nat := if g + 1 ≥ count then 0 else g + 1

/-! ### Frame memory (R72, log entry 7) -/

/-- What an address the list does not hold reads as (DESIGN CHOICE, log entry 7). -/
def Memory.unlisted : Byte := 0

/-- The byte at address `a`. -/
def Memory.read : Memory → Nat → Byte
  | [], _ => Memory.unlisted
  | (x, c) :: m, a => if x = a then c else Memory.read m a

/-- The memory with byte `b` at address `a`, in canonical form. -/
def Memory.write : Memory → Nat → Byte → Memory
  | [], a, b => if b = Memory.unlisted then [] else [(a, b)]
  | (x, c) :: m, a, b =>
    if a < x then (if b = Memory.unlisted then (x, c) :: m else (a, b) :: (x, c) :: m)
    else if a = x then (if b = Memory.unlisted then m else (a, b) :: m)
    else (x, c) :: Memory.write m a b

/-- The memory with the bytes `bs` from address `a` upward. -/
def Memory.writeBytes : Memory → Nat → List Byte → Memory
  | m, _, [] => m
  | m, a, b :: bs => Memory.writeBytes (Memory.write m a b) (a + 1) bs

/-- Every byte of the pages `ps` becomes zero (R62). -/
def Memory.zeroPages (m : Memory) (ps : List Nat) : Memory :=
  m.filter (fun c => !(ps.contains (c.1 / Config.pageSize)))

/-- The canonical form: addresses strictly rising, and no entry equal to what an unlisted address reads as. -/
def Memory.wf : Memory → Bool
  | [] => true
  | [(_, c)] => c != Memory.unlisted
  | (x, c) :: (y, d) :: m => decide (x < y) && (c != Memory.unlisted) && Memory.wf ((y, d) :: m)

end Sys2Proof.Machine
end

