-- ==== Sys2Proof/Machine/Flags.lean ====
section
/-! DEFINITION. The three header flags of a link, their reports (R4, R11), and the attention line (R15). -/

namespace Sys2Proof.Machine

/-- OVERRUN set by a new occurrence: a report of it in the current header is withdrawn (R4, R7). -/
def Link.setOverrun (l : Link) : Link :=
  { l with flags := { l.flags with overrun := true }, reported := { l.reported with overrun := false } }

/-- FRAME_ERROR set by a new occurrence (R4, R7). -/
def Link.setFrameError (l : Link) : Link :=
  { l with flags := { l.flags with frameError := true }, reported := { l.reported with frameError := false } }

/-- EVENTS_LOST set by a new occurrence (R4, R13). -/
def Link.setEventsLost (l : Link) : Link :=
  { l with flags := { l.flags with eventsLost := true }, reported := { l.reported with eventsLost := false } }

/-- EVENTS_LOST cleared at teardown start; a report of it no longer refers to a set flag (R16). -/
def Link.clearEventsLost (l : Link) : Link :=
  { l with flags := { l.flags with eventsLost := false }, reported := { l.reported with eventsLost := false } }

/-- The flags a delivered header leaves: each flag it reported, and that was not set anew, is cleared (R11). -/
def LinkFlags.afterDelivery (flags reported : LinkFlags) : LinkFlags where
  overrun := flags.overrun && !reported.overrun
  frameError := flags.frameError && !reported.frameError
  eventsLost := flags.eventsLost && !reported.eventsLost

/-- The flags byte of the outbound header (R158): OVERRUN bit 7, FRAME_ERROR bit 6, EVENTS_LOST bit 5. -/
def LinkFlags.byte (f : LinkFlags) : Byte :=
  (if f.overrun then 0x80 else 0) ||| (if f.frameError then 0x40 else 0) ||| (if f.eventsLost then 0x20 else 0)

/-- Whether CLn_ATN_N is asserted (R15). -/
def Link.attention (l : Link) : Bool :=
  !l.responses.isEmpty || !l.events.isEmpty || l.flags.overrun || l.flags.frameError || l.flags.eventsLost

end Sys2Proof.Machine
end

