-- ==== Sys2Proof/Machine/Operands.lean ====
section
/-! DEFINITION. How fields are read from and written into messages (chapter 10): byte order, codes of enumerated values, the
payload lengths of every kind, and the commit operations. -/

namespace Sys2Proof.Machine

/-! ### Fields (00_scope.md, Numbers and byte order; R159) -/

/-- The unsigned byte at offset `o`. -/
def field8 (p : List Byte) (o : Nat) : Nat := (p.getD o 0).toNat

/-- The unsigned 2-byte field at offset `o`, most significant byte first. -/
def field16 (p : List Byte) (o : Nat) : Nat := field8 p o * 256 + field8 p (o + 1)

/-- The 2-byte two's complement field at offset `o` (R159). -/
def signed16 (p : List Byte) (o : Nat) : Int :=
  if field16 p o < 32768 then (field16 p o : Int) else (field16 p o : Int) - 65536

/-- The 4 bytes at offset `o` as one value, most significant byte first. -/
def field32 (p : List Byte) (o : Nat) : BitVec 32 :=
  BitVec.ofNat 32 (field16 p o * 65536 + field16 p (o + 2))

/-- The colour at offset `o`: red, green, blue (R159). -/
def fieldRgb (p : List Byte) (o : Nat) : Rgb := ⟨p.getD o 0, p.getD (o + 1) 0, p.getD (o + 2) 0⟩

/-- One byte of a message. -/
def bytes8 (v : Nat) : List Byte := [BitVec.ofNat 8 v]

/-- A 2-byte field, most significant byte first. -/
def bytes16 (v : Nat) : List Byte := [BitVec.ofNat 8 (v / 256), BitVec.ofNat 8 v]

/-- A 4-byte field, most significant byte first. -/
def bytes32 (v : BitVec 32) : List Byte := bytes16 (v.toNat / 65536) ++ bytes16 (v.toNat % 65536)

/-- A 2-byte two's complement field (R159). -/
def bytesSigned16 (v : Int) : List Byte := bytes16 (v % 65536).toNat

/-- A colour field. -/
def bytesRgb (c : Rgb) : List Byte := [c.red, c.green, c.blue]

/-- A no (0) or yes (1) field (R160). -/
def bytesBool (b : Bool) : List Byte := [if b then 1 else 0]

/-- A yes or no read from its code; none for any other code (R160). -/
def boolOfCode : Nat → Option Bool
  | 0 => some false
  | 1 => some true
  | _ => none

/-! ### Codes (R160) -/

/-- The request kinds, NOP apart (R160). -/
inductive Kind where
  | identify | openSession | closeSession | querySession | queryPanel | querySurface | queryMemory | queryWindow | queryLoad
  | queryAlert | setTiming | createSurface | destroySurface | write | fill | copy | checksum | createWindow | commit
  | acquireAlert | releaseAlert
  deriving DecidableEq, Repr

/-- The kind byte of NOP (R160). -/
def nopCode : Byte := 0x00

/-- The code of a request kind (R160). -/
def Kind.code : Kind → Byte
  | .identify => 0x01
  | .openSession => 0x02
  | .closeSession => 0x03
  | .querySession => 0x10
  | .queryPanel => 0x11
  | .querySurface => 0x12
  | .queryMemory => 0x13
  | .queryWindow => 0x14
  | .queryLoad => 0x15
  | .queryAlert => 0x16
  | .setTiming => 0x20
  | .createSurface => 0x30
  | .destroySurface => 0x31
  | .write => 0x40
  | .fill => 0x41
  | .copy => 0x42
  | .checksum => 0x43
  | .createWindow => 0x50
  | .commit => 0x51
  | .acquireAlert => 0x60
  | .releaseAlert => 0x61

/-- Every request kind but NOP. -/
def Kind.all : List Kind :=
  [.identify, .openSession, .closeSession, .querySession, .queryPanel, .querySurface, .queryMemory, .queryWindow, .queryLoad,
    .queryAlert, .setTiming, .createSurface, .destroySurface, .write, .fill, .copy, .checksum, .createWindow, .commit,
    .acquireAlert, .releaseAlert]

/-- The request kind a code stands for, if any (R160). -/
def Kind.ofCode (b : Byte) : Option Kind := Kind.all.find? (fun k => k.code = b)

/-- Whether a payload length is one R161 allows for the kind. -/
def Kind.lengthOk : Kind → Nat → Bool
  | .identify, n | .closeSession, n | .querySession, n | .queryPanel, n | .queryMemory, n | .queryLoad, n | .queryAlert, n
  | .acquireAlert, n | .releaseAlert, n => n = 0
  | .openSession, n => n = 4
  | .querySurface, n | .destroySurface, n => n = 2
  | .queryWindow, n => n = 2
  | .setTiming, n => n = 17
  | .createSurface, n => n = 6
  | .createWindow, n => n = 4
  | .write, n => 12 ≤ n && n ≤ 1024
  | .fill, n => n = 15
  | .copy, n => n = 17
  | .checksum, n => n = 10
  | .commit, n => 4 ≤ n && n ≤ 1024

/-- The length of the response payload of a kind (R163). -/
def Kind.responseLength : Kind → Nat
  | .identify => 29
  | .openSession | .closeSession => 3
  | .querySession => 15
  | .queryPanel => 27
  | .setTiming => 4
  | .createSurface => 8
  | .destroySurface => 4
  | .querySurface => 18
  | .queryMemory => 14
  | .createWindow => 4
  | .queryWindow => 56
  | .queryLoad => 14
  | .queryAlert => 7
  | .acquireAlert => 4
  | .releaseAlert => 3
  | .write | .fill | .copy | .checksum => 4
  | .commit => 7

/-- The statuses (R160 and 9.4). -/
inductive Status where
  | ok | unknownKind | badLength | badArgument | noSession | noPanel | timingLocked | noMemory | surfaceTableFull
  | noSuchSurface | surfaceLocked | formatMismatch | badRect | windowTableFull | noSuchWindow | notOwner | overBudget
  | commitLimit | badStackRef | noAlertToken | alertOccupied | alertInUse
  deriving DecidableEq, Repr

/-- The code of a status (R160). -/
def Status.code : Status → Byte
  | .ok => 0x00
  | .unknownKind => 0x01
  | .badLength => 0x02
  | .badArgument => 0x03
  | .noSession => 0x04
  | .noPanel => 0x05
  | .timingLocked => 0x06
  | .noMemory => 0x07
  | .surfaceTableFull => 0x08
  | .noSuchSurface => 0x09
  | .surfaceLocked => 0x0A
  | .formatMismatch => 0x0B
  | .badRect => 0x0C
  | .windowTableFull => 0x0D
  | .noSuchWindow => 0x0E
  | .notOwner => 0x0F
  | .overBudget => 0x10
  | .commitLimit => 0x11
  | .badStackRef => 0x12
  | .noAlertToken => 0x13
  | .alertOccupied => 0x14
  | .alertInUse => 0x15

/-- The code of a polarity (R160). -/
def Polarity.code : Polarity → Nat
  | .activeHigh => 0
  | .activeLow => 1

/-- The polarity a code stands for (R160). -/
def polarityOfCode : Nat → Option Polarity
  | 0 => some .activeHigh
  | 1 => some .activeLow
  | _ => none

/-- The code of a pixel format (R56). -/
def Format.code : Format → Nat
  | .p16 => 1
  | .p32 => 2
  | .p32a => 3

/-- The pixel format a code stands for (R56). -/
def formatOfCode : Nat → Option Format
  | 1 => some .p16
  | 2 => some .p32
  | 3 => some .p32a
  | _ => none

/-- The code of a band (R160). -/
def Band.code : Band → Nat
  | .base => 0
  | .main => 1
  | .overlay => 2
  | .alert => 3

/-- The band a code stands for (R160). -/
def bandOfCode : Nat → Option Band
  | 0 => some .base
  | 1 => some .main
  | 2 => some .overlay
  | 3 => some .alert
  | _ => none

/-- The restack modes (R120). -/
inductive StackMode where
  | top | bottom | above | below
  deriving DecidableEq, Repr

/-- The restack mode a code stands for (R160). -/
def stackModeOfCode : Nat → Option StackMode
  | 0 => some .top
  | 1 => some .bottom
  | 2 => some .above
  | 3 => some .below
  | _ => none

/-- The code of a port state (R160). -/
def PortState.code : PortState → Nat
  | .closed => 0
  | .opened => 1
  | .closing => 2

/-- The code of a window state (R160). -/
def WindowState.code : WindowState → Nat
  | .reserved => 1
  | .stacked => 2
  | .withdrawn => 3

/-- The results of the alert requests (R136, R137). -/
inductive AlertResult where
  | none | granted | waiting | released | leftWaiting | notHeld
  deriving DecidableEq, Repr

/-- The code of an alert result (R160). -/
def AlertResult.code : AlertResult → Nat
  | .none => 0
  | .granted => 1
  | .waiting => 2
  | .released => 3
  | .leftWaiting => 4
  | .notHeld => 5

/-- A port number field; none, and an empty list position, is 0xFF (R160). -/
def portCode : Option Port → Nat
  | some n => n.val
  | none => 0xFF

/-! ### Response payloads (R163) -/

/-- A response payload: kind, status and the fields that follow. -/
def reply (k : Kind) (st : Status) (fields : List Byte) : List Byte := k.code :: st.code :: fields

/-- A refusal sends every field after the status as 0 (R163). -/
def refusal (k : Kind) (st : Status) : List Byte := reply k st (List.replicate (k.responseLength - 2) 0)

/-- The payload of a COMMIT response: operation index, fence and line (R114). -/
def commitReply (st : Status) (index fence line : Nat) : List Byte :=
  reply .commit st (bytes8 index ++ bytes16 fence ++ bytes16 line)

/-- A refusal decided by R23 before the request is carried out. A COMMIT refused BAD_LENGTH carries operation index 255 (R113,
R114, log entry 12). -/
def refusalAtHead (k : Kind) (st : Status) : List Byte :=
  if k = .commit ∧ st = .badLength then commitReply st 255 0 0 else refusal k st

/-- The response to a kind that is no request kind: the kind value as received, and UNKNOWN_KIND (R163). -/
def unknownKindReply (kind : Byte) : List Byte := [kind, Status.unknownKind.code]

/-! ### Records -/

/-- The timing record laid out from offset `o` of a payload, if its polarity codes are known (R161, R38). -/
def timingOfBytes (p : List Byte) : Option Timing :=
  match polarityOfCode (field8 p 10), polarityOfCode (field8 p 11), polarityOfCode (field8 p 12) with
  | some h, some v, some d =>
    some
      { hactive := field16 p 0
        hfront := field8 p 2
        hsync := field8 p 3
        hback := field8 p 4
        vactive := field16 p 5
        vfront := field8 p 7
        vsync := field8 p 8
        vback := field8 p 9
        hsyncPolarity := h
        vsyncPolarity := v
        dePolarity := d
        divider := field8 p 13
        background := fieldRgb p 14 }
  | _, _, _ => none

/-- The 17 bytes of a timing record (R161, R163). -/
def bytesTiming (t : Timing) : List Byte :=
  bytes16 t.hactive ++ bytes8 t.hfront ++ bytes8 t.hsync ++ bytes8 t.hback ++ bytes16 t.vactive ++ bytes8 t.vfront ++
    bytes8 t.vsync ++ bytes8 t.vback ++ bytes8 t.hsyncPolarity.code ++ bytes8 t.vsyncPolarity.code ++
    bytes8 t.dePolarity.code ++ bytes8 t.divider ++ bytesRgb t.background

/-! ### Commit operations (R162) -/

/-- The operation the 12 bytes `b` carry; none for an operation code other than 1 to 10. -/
def opOfBytes (b : List Byte) : Option Op :=
  let w := field16 b 1
  match field8 b 0 with
  | 1 => some (.place w (signed16 b 3) (signed16 b 5) (field16 b 7) (field16 b 9))
  | 2 => some (.source w (field8 b 3) (field16 b 4) (field16 b 6) (field16 b 8))
  | 3 => some (.style w (b.getD 3 0) (fieldRgb b 4))
  | 4 => some (.band w (field8 b 3))
  | 5 => some (.restack w (field8 b 3) (field16 b 4))
  | 6 => some (.showWindow w)
  | 7 => some (.hideWindow w)
  | 8 => some (.freshness w (field8 b 3))
  | 9 => some (.touch w)
  | 10 => some (.destroy w)
  | _ => none

/-- The window handle an operation names. -/
def Op.window : Op → Nat
  | .place w _ _ _ _ => w
  | .source w _ _ _ _ => w
  | .style w _ _ => w
  | .band w _ => w
  | .restack w _ _ => w
  | .showWindow w => w
  | .hideWindow w => w
  | .freshness w _ => w
  | .touch w => w
  | .destroy w => w

/-- The first `count` operations of the bytes after the fixed part, 12 bytes each (R161). -/
def opChunks : Nat → List Byte → List (List Byte)
  | 0, _ => []
  | k + 1, b => b.take 12 :: opChunks k (b.drop 12)

end Sys2Proof.Machine
end

