-- ==== Sys2Proof/Machine/Links.lean ====
section
/-! DEFINITION. The client links (chapter 1): framing and its CRC, the transaction states, the choice and delivery of the
outbound frame, the judgement of the inbound frame, and the posting of events. -/

namespace Sys2Proof.Machine

/-! ### Bits and the link CRC (R1, R7) -/

/-- The eight bits of a byte, most significant first. -/
def bitsOfByte (b : Byte) : List Bool :=
  [b.getLsbD 7, b.getLsbD 6, b.getLsbD 5, b.getLsbD 4, b.getLsbD 3, b.getLsbD 2, b.getLsbD 1, b.getLsbD 0]

/-- The byte whose bits, most significant first, are `bs`. -/
def byteOfBits (bs : List Bool) : Byte := bs.foldl (fun acc b => (acc <<< 1) ||| (if b then 1 else 0)) 0

/-- One message bit of the 16-bit CRC with generator x¹⁶ + x¹² + x⁵ + 1 (R7). -/
def crc16Bit (r : BitVec 16) (b : Bool) : BitVec 16 :=
  if (r.getLsbD 15 ^^ b) then (r <<< 1) ^^^ 0x1021 else r <<< 1

/-- The 16-bit CRC of a message: register all ones at first, bits most significant first, no inversion (R7). -/
def crc16 (bytes : List Byte) : BitVec 16 :=
  bytes.foldl (fun r b => (bitsOfByte b).foldl crc16Bit r) 0xFFFF

/-- Header and payload followed by their CRC, most significant byte first (R4, R7). -/
def withCrc (body : List Byte) : List Byte := body ++ bytes16 (crc16 body).toNat

/-- The inbound frame that carries a request (R158). -/
def Request.frame (r : Request) : List Byte :=
  withCrc (r.kind :: r.tag :: (bytes16 r.payload.length ++ r.payload))

/-! ### The outbound frame (R3 to R5) -/

/-- The kinds of outbound frames (R158). -/
inductive OutKind where
  | idle | response | event
  deriving DecidableEq, Repr

/-- The code of an outbound kind (R158). -/
def OutKind.code : OutKind → Byte
  | .idle => 0x00
  | .response => 0x01
  | .event => 0x02

/-- The credits: free entries of the request queue (R4). -/
def Link.credits (l : Link) : Nat := Config.requestDepth - l.requests.length

/-- The complete outbound frame: header with the flags and credits of the moment, payload, CRC (R4). -/
def Link.outFrame (l : Link) (k : OutKind) (tag : Byte) (payload : List Byte) : List Byte :=
  withCrc ([k.code, tag, l.flags.byte] ++ bytes8 l.credits ++ bytes16 payload.length ++ payload)

/-- The frame chosen when select goes active: the head response, else the head event, else an IDLE frame (R3, R5). -/
def Link.chosen (l : Link) : OutFrame :=
  match l.responses, l.events with
  | r :: _, _ => ⟨l.outFrame .response r.tag r.payload, some .responseQueue⟩
  | [], e :: _ => ⟨l.outFrame .event e.seq e.payload, some .eventQueue⟩
  | [], [] => ⟨l.outFrame .idle 0 [], none⟩

/-- The bit the link presents next: of the outbound frame, or of a 0x00 filler byte after it (R1, R6). -/
def Link.nextOutBit (l : Link) : Bool :=
  match l.out with
  | some f => ((f.bytes.getD l.inBytes.length 0).getLsbD (7 - l.inBits.length))
  | none => false

/-- CLn_DO of a link in a transaction follows the next outbound bit (R1). -/
def Link.drive (l : Link) : Link := { l with dout := some l.nextOutBit }

/-- Select goes active on the link (R2, R3, R4). On a link that is not IDLE, select is active already (log entry 3). -/
def Link.selectActive (l : Link) : Link :=
  match l.trans with
  | .idle =>
    Link.drive { l with trans := .active, out := some l.chosen, reported := l.flags, inBytes := [], inBits := [] }
  | .active | .ignored => l

/-! ### Clocking (R1, R2, R6) -/

/-- A sampled bit joins the unfinished byte; the eighth completes it (R1). -/
def Link.sample (l : Link) (di : Bool) : Link :=
  if l.inBits.length + 1 < 8 then { l with inBits := l.inBits ++ [di] }
  else { l with inBytes := l.inBytes ++ [byteOfBits (l.inBits ++ [di])], inBits := [] }

/-- One rising edge of CLn_CLK with CLn_DI at `di`, and the falling edge after it (R1, log entry 13). In IGNORED nothing is
collected and 0x00 is driven (R2); while select is released edges are ignored (R1). -/
def Link.clockEdge (l : Link) (di : Bool) : Link :=
  match l.trans with
  | .active => (l.sample di).drive
  | .ignored => { l with dout := some false }
  | .idle => l

/-- Whole bytes clocked, most significant bits first. -/
def Link.clockBytes (l : Link) (bytes : List Byte) : Link :=
  bytes.foldl (fun l b => (bitsOfByte b).foldl Link.clockEdge l) l

/-! ### The inbound frame (R7, R8) -/

/-- What the link makes of the bytes collected in a transaction (R7). -/
inductive Inbound where
  | nothing | frameError | nop
  | request (r : Request)
  deriving DecidableEq, Repr

/-- The judgement of the collected bytes: the first matching row of R7's table. Bytes after the CRC are ignored. -/
def judge (bytes : List Byte) : Inbound :=
  if bytes.all (fun b => b = 0) then .nothing
  else if bytes.length < 4 then .frameError
  else
    let len := field16 bytes 2
    if len > Config.maxPayload then .frameError
    else if bytes.length < 4 + len + 2 then .frameError
    else if field16 bytes (4 + len) ≠ (crc16 (bytes.take (4 + len))).toNat then .frameError
    else if bytes.getD 0 0 = nopCode then .nop
    else .request ⟨bytes.getD 0 0, bytes.getD 1 0, (bytes.drop 4).take len⟩

/-- What becomes of a judged frame: a request joins the tail of the request queue, or finds it full and OVERRUN is set; an
invalid frame sets FRAME_ERROR; a NOP and filler do nothing (R7, R8, R9). -/
def Link.receive (l : Link) : Inbound → Link
  | .nothing => l
  | .nop => l
  | .frameError => l.setFrameError
  | .request r =>
    if l.requests.length < Config.requestDepth then { l with requests := l.requests ++ [r] } else l.setOverrun

/-! ### Delivery (R10, R11) -/

/-- Whether every byte of the outbound frame has been shifted (R10). -/
def Link.delivered (l : Link) : Bool :=
  match l.out with
  | some f => decide (f.bytes.length ≤ l.inBytes.length)
  | none => false

/-- Whether the delivery takes a response from the response queue (R10). -/
def Link.deliversResponse (l : Link) : Bool :=
  match l.out with
  | some f => l.delivered && decide (f.origin = some .responseQueue)
  | none => false

/-- A delivered frame leaves the queue it came from, and the flags its header reported are cleared (R10, R11). -/
def Link.deliver (l : Link) : Link :=
  match l.out with
  | some f =>
    if l.delivered then
      let l := { l with flags := l.flags.afterDelivery l.reported }
      match f.origin with
      | some .responseQueue => { l with responses := l.responses.tail }
      | some .eventQueue => { l with events := l.events.tail }
      | none => l
    else l
  | none => l

/-- The transaction is over: no outbound frame, no reports, no bytes, CLn_DO at high impedance (R1, R2, R4). -/
def Link.endTransaction (l : Link) : Link :=
  { l with trans := .idle, out := none, reported := .clear, inBytes := [], inBits := [], dout := none }

/-- Select goes inactive on a link in ACTIVE: the inbound frame is judged and the outbound frame's delivery decided, in one
event (R2, R7, R10; log entry 11). -/
def Link.finishTransaction (l : Link) : Link := ((l.receive (judge l.inBytes)).deliver).endTransaction

/-! ### Events and teardown (R13, R14, R16) -/

/-- An event is posted: appended with the next sequence number, or discarded with EVENTS_LOST set at a full queue; the counter
advances in both cases (R13, R14). -/
def Link.post (l : Link) (payload : List Byte) : Link :=
  if l.events.length < Config.eventDepth then
    { l with events := l.events ++ [⟨l.seq, payload⟩], seq := l.seq + 1 }
  else { l.setEventsLost with seq := l.seq + 1 }

/-- Teardown start on the port: response and event queues emptied, EVENTS_LOST cleared, and the entry of a frame being
shifted is gone (R16). -/
def Link.teardownStart (l : Link) : Link :=
  { l.clearEventsLost with
    responses := []
    events := []
    out := l.out.map (fun f => { f with origin := none }) }

/-- The event sequence counter at the opening of a session (R14). -/
def Link.openSession (l : Link) : Link := { l with seq := 0 }

/-- An event posted to the link of port `n` (R13). -/
def State.post (s : State) (n : Port) (payload : List Byte) : State := s.mapLink n (fun l => l.post payload)

end Sys2Proof.Machine
end

