-- ==== Sys2Proof/Machine/Surfaces.lean ====
section
/-! DEFINITION. The surface manager (chapter 4): formats, stride and pages, handles, page accounts, pixels in frame memory,
creation and destruction, reference counts and locks. -/

namespace Sys2Proof.Machine

/-! ### Formats, stride and pages (R56) -/

/-- Bytes of a pixel (R56). -/
def Format.bytes : Format → Nat
  | .p16 => 2
  | .p32 => 4
  | .p32a => 4

/-- The stride: the row's pixel bytes rounded up to a multiple of 64 (R56). -/
def strideOf (width : Nat) (f : Format) : Nat := (width * f.bytes + 63) / 64 * 64

/-- The page count: stride times height in pages, rounded up (R56). -/
def pagesOf (width height : Nat) (f : Format) : Nat :=
  (strideOf width f * height + (Config.pageSize - 1)) / Config.pageSize

/-! ### Handles (R58, R59) -/

/-- The handle of a surface slot at a generation (R58). -/
def surfaceHandle (slot : SurfSlot) (gen : Nat) : Nat := gen * 64 + slot.val

/-- The slot field of a surface handle, if it is 0 to 47 (R58). -/
def surfaceSlotOf (handle : Nat) : Option SurfSlot :=
  if h : handle % 64 < 48 then some ⟨handle % 64, h⟩ else none

/-- The surface a handle names: slot field in range, slot not FREE, generation current (R58). -/
def Surfaces.named (m : Surfaces) (handle : Nat) : Option (SurfSlot × Surface) :=
  match surfaceSlotOf handle with
  | none => none
  | some i =>
    match (tget m.slots i).surface with
    | none => none
    | some f => if handle / 64 = (tget m.slots i).gen then some (i, f) else none

/-- A handle in a request of port `n`: NO_SUCH_SURFACE, then NOT_OWNER, else the surface (R59). -/
def Surfaces.resolve (m : Surfaces) (n : Port) (handle : Nat) : Except Status (SurfSlot × Surface) :=
  match m.named handle with
  | none => .error .noSuchSurface
  | some (i, f) => if f.owner = n then .ok (i, f) else .error .notOwner

/-- The surface in slot `i` changed by `f`; a FREE slot stays FREE. -/
def Surfaces.mapSurface (m : Surfaces) (i : SurfSlot) (f : Surface → Surface) : Surfaces :=
  { m with slots := tmod m.slots i (fun e => { e with surface := e.surface.map f }) }

/-- The surface in the slot a handle names by its slot field changed by `f`. -/
def Surfaces.mapHandle (m : Surfaces) (handle : Nat) (f : Surface → Surface) : Surfaces :=
  match surfaceSlotOf handle with
  | none => m
  | some i => m.mapSurface i f

/-! ### Reference counts and locks (R64 to R68) -/

/-- Locked: shown in the applied layout or named by a pending commit (R67). -/
def Surface.locked (f : Surface) : Bool := decide (0 < f.shownRefs) || decide (0 < f.queuedRefs)

/-- Writable as a drawing target: unlocked or DIRECT (R67, R68). -/
def Surface.writable (f : Surface) : Bool := !f.locked || f.direct

def Surface.raiseShown (f : Surface) : Surface := { f with shownRefs := f.shownRefs + 1 }
def Surface.lowerShown (f : Surface) : Surface := { f with shownRefs := f.shownRefs - 1 }
def Surface.raiseQueued (f : Surface) : Surface := { f with queuedRefs := f.queuedRefs + 1 }
def Surface.lowerQueued (f : Surface) : Surface := { f with queuedRefs := f.queuedRefs - 1 }
def Surface.raiseJobs (f : Surface) : Surface := { f with jobRefs := f.jobRefs + 1 }
def Surface.lowerJobs (f : Surface) : Surface := { f with jobRefs := f.jobRefs - 1 }

/-! ### Page accounts (R60) -/

/-- A page count's use of the shared pool (R60). -/
def sharedUse (pageCount : Nat) : Nat := pageCount - Config.reserve

/-- The pool use of the device: the sum of the four shared uses (R60). -/
def poolUse (counts : Table Nat 4) : Nat := (allPorts.map (fun n => sharedUse (tget counts n))).sum

/-! ### Pixels in frame memory (R49, R56, R165) -/

/-- The frame memory address of byte `o` of a surface, by its page list (R49). -/
def Surface.address (f : Surface) (o : Nat) : Option Nat :=
  (f.pageList[o / Config.pageSize]?).map (fun p => p * Config.pageSize + o % Config.pageSize)

/-- The byte offset of the pixel at a column and row (R49, R56). -/
def Surface.pixelOffset (f : Surface) (col row : Nat) : Nat := row * f.stride + col * f.format.bytes

/-- The stored bytes of the pixel at a column and row, lowest address first. Outside the page list it reads zero bytes, which
no run does (log entry 17). -/
def readPixel (m : Memory) (f : Surface) (col row : Nat) : List Byte :=
  match f.address (f.pixelOffset col row) with
  | some a => (List.range' a f.format.bytes).map (fun x => Memory.read m x)
  | none => List.replicate f.format.bytes Memory.unlisted

/-- The memory with the pixel at a column and row holding `bs`. Outside the page list nothing is written, which no run asks
for (log entry 17). -/
def writePixel (m : Memory) (f : Surface) (col row : Nat) (bs : List Byte) : Memory :=
  match f.address (f.pixelOffset col row) with
  | some a => Memory.writeBytes m a (bs.take f.format.bytes)
  | none => m

/-- The positions of a rectangle of `w` by `h` pixels, row by row from the top, each row from the left (R87). -/
def rectPositions (w h : Nat) : List (Nat × Nat) :=
  (List.range' 0 h).flatMap (fun j => (List.range' 0 w).map (fun i => (i, j)))

/-- The bytes of a rectangle's pixels in the order of R90. -/
def rectBytes (m : Memory) (f : Surface) (x y w h : Nat) : List Byte :=
  (rectPositions w h).flatMap (fun p => readPixel m f (x + p.1) (y + p.2))

/-! ### Creation (R61, R62) -/

/-- The lowest-numbered FREE slot (R62). -/
def Surfaces.freeSlot (m : Surfaces) : Option SurfSlot :=
  (allSlots 48).find? (fun i => (tget m.slots i).surface.isNone)

/-- What CREATE_SURFACE asks for, its codes read (R61). -/
structure SurfaceRequest where
  width : Nat
  height : Nat
  format : Format
  direct : Bool
  deriving DecidableEq, Repr

/-- Check 1 of R61: widths and heights 1 to 2048, a known format code, a known DIRECT code. -/
def surfaceRequestOf (p : List Byte) : Option SurfaceRequest :=
  match formatOfCode (field8 p 4), boolOfCode (field8 p 5) with
  | some f, some d =>
    if 1 ≤ field16 p 0 ∧ field16 p 0 ≤ 2048 ∧ 1 ≤ field16 p 2 ∧ field16 p 2 ≤ 2048 then
      some ⟨field16 p 0, field16 p 2, f, d⟩
    else none
  | _, _ => none

/-- The record of a new surface (R57, R62). -/
def newSurface (m : Surfaces) (n : Port) (q : SurfaceRequest) : Surface where
  owner := n
  width := q.width
  height := q.height
  format := q.format
  direct := q.direct
  stride := strideOf q.width q.format
  pageCount := pagesOf q.width q.height q.format
  pageList := m.freePages.take (pagesOf q.width q.height q.format)
  shownRefs := 0
  queuedRefs := 0
  jobRefs := 0

/-- The surface manager after a creation in slot `i` (R62): lowest free pages taken, accounts raised. -/
def Surfaces.create (m : Surfaces) (n : Port) (i : SurfSlot) (q : SurfaceRequest) : Surfaces where
  slots := tmod m.slots i (fun e => { e with surface := some (newSurface m n q) })
  freePages := m.freePages.drop (pagesOf q.width q.height q.format)
  pageCount := tmod m.pageCount n (· + pagesOf q.width q.height q.format)
  surfCount := tmod m.surfCount n (· + 1)

/-- CREATE_SURFACE carried out for port `n` (R61, R62): the state it leaves and the response payload. -/
def State.serveCreateSurface (s : State) (n : Port) (p : List Byte) : State × List Byte :=
  match surfaceRequestOf p with
  | none => (s, refusal .createSurface .badArgument)
  | some q =>
    if ¬ tget s.surfaces.surfCount n < Config.surfacesPerPort then (s, refusal .createSurface .surfaceTableFull)
    else
      match s.surfaces.freeSlot with
      | none => (s, refusal .createSurface .surfaceTableFull)
      | some i =>
        if poolUse (tmod s.surfaces.pageCount n (· + pagesOf q.width q.height q.format)) > Config.pool then
          (s, refusal .createSurface .noMemory)
        else
          let f := newSurface s.surfaces n q
          ((s.withSurfaces (s.surfaces.create n i q)).withMem (Memory.zeroPages s.mem f.pageList),
            reply .createSurface .ok
              (bytes16 (surfaceHandle i (tget s.surfaces.slots i).gen) ++ bytes16 f.stride ++ bytes16 f.pageCount))

/-! ### Destruction (R69 to R71) -/

/-- A page returned to the ascending list of free pages (R54). -/
def insertPage (p : Nat) : List Nat → List Nat
  | [] => [p]
  | q :: qs => if p ≤ q then p :: q :: qs else q :: insertPage p qs

/-- The surface in slot `i` destroyed: pages free with their bytes as they stand, accounts lowered, slot FREE with its
generation advanced (R70). -/
def Surfaces.free (m : Surfaces) (i : SurfSlot) : Surfaces :=
  match (tget m.slots i).surface with
  | none => m
  | some f =>
    { slots := tput m.slots i ⟨nextGeneration Config.surfaceGenerations (tget m.slots i).gen, none⟩
      freePages := f.pageList.foldr insertPage m.freePages
      pageCount := tmod m.pageCount f.owner (· - f.pageCount)
      surfCount := tmod m.surfCount f.owner (· - 1) }

/-- Every surface port `n` owns destroyed, and its counts 0 (R71). -/
def Surfaces.freeOwned (m : Surfaces) (n : Port) : Surfaces :=
  let m := (allSlots 48).foldl
    (fun m i => if (tget m.slots i).surface.any (fun f => f.owner = n) then m.free i else m) m
  { m with pageCount := tput m.pageCount n 0, surfCount := tput m.surfCount n 0 }

/-- What DESTROY_SURFACE comes to when it is judged (R69). -/
inductive DestroyDecision where
  | refused (st : Status)
  | waits
  | destroys (i : SurfSlot) (f : Surface)
  deriving DecidableEq, Repr

/-- DESTROY_SURFACE judged: existence and ownership, the lock, then job_refs (R69). -/
def Surfaces.judgeDestroy (m : Surfaces) (n : Port) (p : List Byte) : DestroyDecision :=
  match m.resolve n (field16 p 0) with
  | .error st => .refused st
  | .ok (i, f) => if f.locked then .refused .surfaceLocked else if 0 < f.jobRefs then .waits else .destroys i f

end Sys2Proof.Machine
end

