-- ==== Sys2Proof/Machine/Windows.lean ====
section
/-! DEFINITION. Windows, bands and the stack (chapter 6): handles, records, the band lists, the load tables, and how a window
comes into being and leaves. -/

namespace Sys2Proof.Machine

/-! ### Handles (R96, R97) -/

/-- The handle of a window slot at a generation (R96). -/
def windowHandle (slot : WinSlot) (gen : Nat) : Nat := gen * 32 + slot.val

/-- The slot field of a window handle, if it is 0 to 23 (R96). -/
def windowSlotOf (handle : Nat) : Option WinSlot :=
  if h : handle % 32 < 24 then some ⟨handle % 32, h⟩ else none

/-- The window a handle names, with its owner: slot field in range, slot not FREE, generation current (R96). -/
def LayoutController.named (c : LayoutController) (handle : Nat) : Option (WinSlot × Port) :=
  match windowSlotOf handle with
  | none => none
  | some w =>
    match tget c.owners w with
    | none => none
    | some n => if handle / 32 = tget c.gens w then some (w, n) else none

/-! ### Layouts and band lists (R98, R104) -/

/-- The record of a window in the layout. -/
def Layout.record (l : Layout) (w : WinSlot) : Option WindowRec := tget l.recs w

/-- The record of a window changed by `f`. -/
def Layout.mapRecord (l : Layout) (w : WinSlot) (f : WindowRec → WindowRec) : Layout :=
  { l with recs := tmod l.recs w (fun r => r.map f) }

/-- The list of a band, bottom to top (R104). -/
def Bands.list (b : Bands) : Band → List WinSlot
  | .base => b.base
  | .main => b.main
  | .overlay => b.overlay
  | .alert => b.alert

/-- The list of one band replaced. -/
def Bands.setList (b : Bands) (k : Band) (ws : List WinSlot) : Bands :=
  match k with
  | .base => { b with base := ws }
  | .main => { b with main := ws }
  | .overlay => { b with overlay := ws }
  | .alert => { b with alert := ws }

/-- A window deleted from the list that holds it; the others keep their order (R104). -/
def Bands.remove (b : Bands) (w : WinSlot) : Bands where
  base := b.base.filter (· != w)
  main := b.main.filter (· != w)
  overlay := b.overlay.filter (· != w)
  alert := b.alert.filter (· != w)

/-- A list with `w` directly above `ref` (R104, R120). -/
def insertAbove (ref w : WinSlot) : List WinSlot → List WinSlot
  | [] => [w]
  | x :: xs => if x = ref then x :: w :: xs else x :: insertAbove ref w xs

/-- A list with `w` directly below `ref` (R104, R120). -/
def insertBelow (ref w : WinSlot) : List WinSlot → List WinSlot
  | [] => [w]
  | x :: xs => if x = ref then w :: x :: xs else x :: insertBelow ref w xs

/-- The windows of a layout's stack from bottom to top (R48, R104). -/
def Layout.stack (l : Layout) : List WinSlot := l.bands.base ++ l.bands.main ++ l.bands.overlay ++ l.bands.alert

/-- Whether a window is STACKED in the layout. -/
def Layout.isStacked (l : Layout) (w : WinSlot) : Bool := (l.record w).any (fun r => r.state = .stacked)

/-- Whether a window is WITHDRAWN in the layout. -/
def Layout.isWithdrawn (l : Layout) (w : WinSlot) : Bool := (l.record w).any (fun r => r.state = .withdrawn)

/-- The window moved to the top of a band: removed from its list, appended at the end of the band's, STACKED there (R104). -/
def Layout.moveToTop (l : Layout) (w : WinSlot) (k : Band) : Layout :=
  { Layout.mapRecord l w (fun r => { r with state := .stacked, band := k }) with
    bands := (l.bands.remove w).setList k ((l.bands.remove w).list k ++ [w]) }

/-- A RESERVED window is first made STACKED at the top of MAIN (R115). -/
def Layout.stackIfReserved (l : Layout) (w : WinSlot) : Layout :=
  if (l.record w).any (fun r => r.state = .reserved) then l.moveToTop w .main else l

/-- The window taken out of the layout, its record kept as WITHDRAWN (R99, R104). -/
def Layout.withdraw (l : Layout) (w : WinSlot) : Layout :=
  { Layout.mapRecord l w (fun r => { r with state := .withdrawn }) with bands := l.bands.remove w }

/-- The window leaves the layout and its record ceases to exist (R103). -/
def Layout.forget (l : Layout) (w : WinSlot) : Layout where
  recs := tput l.recs w none
  bands := l.bands.remove w

/-- Every window of port `n` withdrawn from the layout (R106). -/
def Layout.withdrawOwned (l : Layout) (owners : Table (Option Port) 24) (n : Port) : Layout :=
  (allSlots 24).foldl (fun l w => if tget owners w = some n then l.withdraw w else l) l

/-! ### The load of a line (R46, R108, R109) -/

/-- htotal (R38). -/
def Timing.htotal (t : Timing) : Nat := t.hactive + t.hfront + t.hsync + t.hback

/-- vtotal (R38). -/
def Timing.vtotal (t : Timing) : Nat := t.vactive + t.vfront + t.vsync + t.vback

/-- The line budget of a timing record (R46). -/
def Timing.budget (t : Timing) : Nat := 6 * t.htotal

/-- The line budget in force: 0 while UNCONFIGURED (R46). -/
def Scan.budget (c : Scan) : Nat :=
  match c.timing with
  | some t => t.budget
  | none => 0

/-- The columns of a window that lie on a panel of `hactive` columns (R108). -/
def WindowRec.columns (r : WindowRec) (hactive : Nat) : Nat :=
  (min (hactive : Int) (r.x + r.width) - max 0 r.x).toNat

/-- Whether the window's rows include row `y` of the panel (R108). -/
def WindowRec.coversRow (r : WindowRec) (y : Nat) : Bool := decide (r.y ≤ (y : Int)) && decide ((y : Int) < r.y + r.height)

/-- Whether the window covers the panel pixel at column `px` and row `py` (R48). -/
def WindowRec.covers (r : WindowRec) (px py : Nat) : Bool :=
  decide (r.x ≤ (px : Int)) && decide ((px : Int) < r.x + r.width) && r.coversRow py

/-- The cost of a window on a line (R108). -/
def WindowRec.cost (r : WindowRec) (hactive line : Nat) : Nat :=
  match r.source with
  | none => 0
  | some d =>
    if r.state = .stacked ∧ r.visible = true ∧ r.coversRow line = true then r.columns hactive * d.format.bytes else 0

/-- The cost of the window in slot `w` of a layout on a line. -/
def Layout.slotCost (l : Layout) (hactive line : Nat) (w : WinSlot) : Nat :=
  match l.record w with
  | none => 0
  | some r => r.cost hactive line

/-- The load of a line: the sum of the costs of all windows (R109). -/
def Layout.lineLoad (l : Layout) (hactive line : Nat) : Nat := ((allSlots 24).map (l.slotCost hactive line)).sum

/-- The load table of a layout: one entry for each active line, none while UNCONFIGURED (R109). -/
def loadTable (t : Option Timing) (l : Layout) : List Nat :=
  match t with
  | none => []
  | some t => (List.range' 0 t.vactive).map (l.lineLoad t.hactive)

/-- The lowest line, counted from `line`, whose load exceeds the budget (R114, R122). -/
def firstOver (budget : Nat) : Nat → List Nat → Option Nat
  | _, [] => none
  | line, x :: xs => if budget < x then some line else firstOver budget (line + 1) xs

/-- Both load tables computed again from their layouts (R109). -/
def LayoutController.reload (c : LayoutController) (t : Option Timing) : LayoutController :=
  { c with appliedLoad := loadTable t c.applied, projectedLoad := loadTable t c.projected }

/-- The load tables computed again after an event that changes a layout (R109). -/
def State.reload (s : State) : State := s.withLayouts (s.layouts.reload s.scan.timing)

/-! ### Creation (R100, R101) -/

/-- The record of a new window (R98). -/
def newWindow (width height : Nat) : WindowRec where
  state := .reserved
  band := .main
  x := 0
  y := 0
  width := width
  height := height
  source := none
  sx := 0
  sy := 0
  opacity := 255
  fill := ⟨0, 0, 0⟩
  visible := false
  deadline := 0

/-- The lowest-numbered FREE window slot (R101). -/
def LayoutController.freeSlot (c : LayoutController) : Option WinSlot :=
  (allSlots 24).find? (fun w => (tget c.owners w).isNone)

/-- The layout controller after a window is reserved in slot `w` (R101). -/
def LayoutController.reserve (c : LayoutController) (n : Port) (w : WinSlot) (width height : Nat) : LayoutController :=
  { c with
    owners := tput c.owners w (some n)
    winCount := tmod c.winCount n (· + 1)
    applied := { c.applied with recs := tput c.applied.recs w (some (newWindow width height)) }
    projected := { c.projected with recs := tput c.projected.recs w (some (newWindow width height)) }
    fresh := tput c.fresh w .new }

/-- CREATE_WINDOW carried out for port `n` (R100, R101). -/
def State.serveCreateWindow (s : State) (n : Port) (p : List Byte) : State × List Byte :=
  if s.scan.timing.isNone then (s, refusal .createWindow .noPanel)
  else if ¬ (1 ≤ field16 p 0 ∧ field16 p 0 ≤ 2048 ∧ 1 ≤ field16 p 2 ∧ field16 p 2 ≤ 2048) then
    (s, refusal .createWindow .badArgument)
  else if ¬ tget s.layouts.winCount n < Config.windowsPerPort then (s, refusal .createWindow .windowTableFull)
  else
    match s.layouts.freeSlot with
    | none => (s, refusal .createWindow .windowTableFull)
    | some w =>
      (s.withLayouts (s.layouts.reserve n w (field16 p 0) (field16 p 2)),
        reply .createWindow .ok (bytes16 (windowHandle w (tget s.layouts.gens w))))

/-! ### References of windows to surfaces (R64) -/

/-- The surface a source description names changed by `f`. -/
def Surfaces.mapSource (m : Surfaces) (d : Option SourceDesc) (f : Surface → Surface) : Surfaces :=
  match d with
  | none => m
  | some d => m.mapHandle d.handle f

/-- The source of a window that is STACKED in a layout (R64). -/
def Layout.shownSource (l : Layout) (w : WinSlot) : Option SourceDesc :=
  match l.record w with
  | some r => if r.state = .stacked then r.source else none
  | none => none

/-! ### Withdrawal and freeing (R103, R106) -/

/-- The window in slot `w` withdrawn from the applied layout, its source's shown_refs lowered (R106). -/
def State.withdrawApplied (s : State) (w : WinSlot) : State :=
  (s.withSurfaces (s.surfaces.mapSource (s.layouts.applied.shownSource w) Surface.lowerShown)).withLayouts
    { s.layouts with applied := s.layouts.applied.withdraw w }

/-- The layout controller after the window of port `n` in slot `w` is freed (R103). -/
def LayoutController.release (c : LayoutController) (w : WinSlot) (n : Port) : LayoutController :=
  { c with
    owners := tput c.owners w none
    gens := tmod c.gens w (nextGeneration Config.windowGenerations)
    winCount := tmod c.winCount n (· - 1)
    applied := c.applied.forget w
    projected := c.projected.forget w
    fresh := tput c.fresh w .new }

/-- The window in slot `w` freed: it leaves both layouts, its source's shown_refs falls if it was STACKED in the applied layout,
its slot is FREE with the generation advanced, and its owner's count falls (R103). -/
def State.freeWindow (s : State) (w : WinSlot) : State :=
  match tget s.layouts.owners w with
  | none => s
  | some n =>
    (s.withSurfaces (s.surfaces.mapSource (s.layouts.applied.shownSource w) Surface.lowerShown)).withLayouts
      (s.layouts.release w n)

/-- Every window port `n` owns freed (R35). -/
def State.freeWindowsOf (s : State) (n : Port) : State :=
  (allSlots 24).foldl (fun s w => if tget s.layouts.owners w = some n then s.freeWindow w else s) s

end Sys2Proof.Machine
end

