-- ==== Sys2Proof/Machine/Alert.lean ====
section
/-! DEFINITION. The alert token (chapter 8, 8.1): its holder and waiting list, ACQUIRE_ALERT, RELEASE_ALERT, and its passing. -/

namespace Sys2Proof.Machine

/-- The payload of ALERT_GRANTED: the event code and nothing else (R139, R164). -/
def alertGrantedPayload : List Byte := [0x04]

/-- The token with a holder and a waiting list. -/
def LayoutController.withToken (c : LayoutController) (holder : Option Port) (waiting : List Port) : LayoutController :=
  { c with holder := holder, waiting := waiting }

/-- The token passes: to the port at position 1, which is sent ALERT_GRANTED, or to none (R138, R139). -/
def State.passToken (s : State) : State :=
  match s.layouts.waiting with
  | q :: rest => (s.withLayouts (s.layouts.withToken (some q) rest)).post q alertGrantedPayload
  | [] => s.withLayouts (s.layouts.withToken none [])

/-- A port's position on the waiting list, the first at 1 (R135). -/
def alertPosition (waiting : List Port) (n : Port) : Nat := waiting.findIdx (· = n) + 1

/-- The response payload of ACQUIRE_ALERT. -/
def acquireReply (r : AlertResult) (position : Nat) : List Byte :=
  reply .acquireAlert .ok (bytes8 r.code ++ bytes8 position)

/-- The response payload of RELEASE_ALERT when its status is OK. -/
def releaseReply (r : AlertResult) : List Byte := reply .releaseAlert .ok (bytes8 r.code)

/-- ACQUIRE_ALERT carried out for port `n` (R136). -/
def State.serveAcquireAlert (s : State) (n : Port) : State × List Byte :=
  match s.layouts.holder with
  | none => (s.withLayouts (s.layouts.withToken (some n) s.layouts.waiting), acquireReply .granted 0)
  | some h =>
    if h = n then (s, acquireReply .granted 0)
    else if n ∈ s.layouts.waiting then (s, acquireReply .waiting (alertPosition s.layouts.waiting n))
    else
      (s.withLayouts (s.layouts.withToken (some h) (s.layouts.waiting ++ [n])),
        acquireReply .waiting (s.layouts.waiting.length + 1))

/-- A window of port `n` is STACKED in band ALERT of the applied or of the projected layout (R137). -/
def LayoutController.usesAlert (c : LayoutController) (n : Port) : Bool :=
  c.applied.bands.alert.any (fun w => tget c.owners w = some n) ||
    c.projected.bands.alert.any (fun w => tget c.owners w = some n)

/-- RELEASE_ALERT carried out for port `n` (R137). -/
def State.serveReleaseAlert (s : State) (n : Port) : State × List Byte :=
  if s.layouts.holder = some n then
    if s.layouts.usesAlert n then (s, refusal .releaseAlert .alertInUse)
    else (s.passToken, releaseReply .released)
  else if n ∈ s.layouts.waiting then
    (s.withLayouts (s.layouts.withToken s.layouts.holder (s.layouts.waiting.filter (· != n))), releaseReply .leftWaiting)
  else (s, releaseReply .notHeld)

/-- Teardown start of port `n` at the token (R140): it leaves the waiting list, or the token passes at once. -/
def State.dropToken (s : State) (n : Port) : State :=
  if s.layouts.holder = some n then s.passToken
  else s.withLayouts (s.layouts.withToken s.layouts.holder (s.layouts.waiting.filter (· != n)))

end Sys2Proof.Machine
end

