-- ==== Sys2Proof/Machine/Drawing.lean ====
section
/-! DEFINITION. The drawing engine (chapter 5): requests and their judgement, job numbers, the arbiter, the writes of a job and
their order, the CRC of CHECKSUM, completion and abort. -/

namespace Sys2Proof.Machine

/-! ### Outstanding jobs and job numbers (R74 to R76) -/

/-- The in-flight job, if it is port `n`'s. -/
def Drawing.inFlightOf (d : Drawing) (n : Port) : Option Job :=
  match d.inFlight with
  | none => none
  | some f => if f.job.port = n then some f.job else none

/-- The outstanding jobs of port `n`: the in-flight job if it is the port's, and its job queue (R74). -/
def Drawing.outstanding (d : Drawing) (n : Port) : List Job := (d.inFlightOf n).toList ++ tget d.queues n

/-- The job number after `v` (R75). -/
def nextJobNumber (v : Nat) : Nat := nextInCycle 65535 v

/-- A job number is complete when it is 0 or no outstanding job of the port carries it (R76). -/
def Drawing.isComplete (d : Drawing) (n : Port) (f : Nat) : Bool :=
  decide (f = 0) || (d.outstanding n).all (fun j => j.number != f)

/-! ### Requests and their judgement (R78 to R82) -/

/-- What a drawing request carries beside target, rectangle and notify. -/
inductive DrawBody where
  | write (bytes : List Byte)
  | fill (colour : Rgb) (alpha : Byte)
  | copy (source sx sy : Nat)
  | checksum
  deriving DecidableEq, Repr

/-- A drawing request as read from its payload; `notify` is none for an unknown code. -/
structure DrawRequest where
  target : Nat
  x : Nat
  y : Nat
  w : Nat
  h : Nat
  notify : Option Bool
  body : DrawBody
  deriving DecidableEq, Repr

/-- Target, rectangle and the given rest, read at the offsets of R161. -/
def drawRequest (p : List Byte) (notify : Option Bool) (body : DrawBody) : DrawRequest :=
  ⟨field16 p 0, field16 p 2, field16 p 4, field16 p 6, field16 p 8, notify, body⟩

def writeRequest (p : List Byte) : DrawRequest := drawRequest p (boolOfCode (field8 p 10)) (.write (p.drop 12))

def fillRequest (p : List Byte) : DrawRequest :=
  drawRequest p (boolOfCode (field8 p 10)) (.fill (fieldRgb p 11) (p.getD 14 0))

def copyRequest (p : List Byte) : DrawRequest :=
  drawRequest p (boolOfCode (field8 p 10)) (.copy (field16 p 11) (field16 p 13) (field16 p 15))

/-- CHECKSUM carries no notify field and always notifies (R82). -/
def checksumRequest (p : List Byte) : DrawRequest := drawRequest p (some true) .checksum

/-- A colour and alpha as the stored bytes of one pixel (R80, R165). -/
def fillPixel (f : Format) (c : Rgb) (alpha : Byte) : List Byte :=
  match f with
  | .p16 =>
    let v := c.red.toNat / 8 * 2048 + c.green.toNat / 4 * 32 + c.blue.toNat / 8
    [BitVec.ofNat 8 v, BitVec.ofNat 8 (v / 256)]
  | .p32 => [c.blue, c.green, c.red, 0]
  | .p32a => [c.blue, c.green, c.red, alpha]

/-- A rectangle lies within a surface, the sums formed without wrapping (R78). -/
def Surface.holdsRect (f : Surface) (x y w h : Nat) : Bool :=
  decide (1 ≤ w) && decide (1 ≤ h) && decide (x + w ≤ f.width) && decide (y + h ≤ f.height)

/-- The work of an accepted request, or the first failing check of R78. -/
def Surfaces.judgeDrawing (m : Surfaces) (n : Port) (q : DrawRequest) : Except Status (Bool × Work) :=
  match q.notify with
  | none => .error .badArgument
  | some notify =>
    match m.resolve n q.target with
    | .error st => .error st
    | .ok (_, t) =>
      match q.body with
      | .copy source sx sy =>
        match m.resolve n source with
        | .error st => .error st
        | .ok (_, f) =>
          if ¬ t.holdsRect q.x q.y q.w q.h then .error .badRect
          else if ¬ f.holdsRect sx sy q.w q.h then .error .badRect
          else if f.format ≠ t.format then .error .formatMismatch
          else if ¬ t.writable then .error .surfaceLocked
          else .ok (notify, .copy source sx sy)
      | .write bytes =>
        if ¬ t.holdsRect q.x q.y q.w q.h then .error .badRect
        else if bytes.length ≠ q.w * q.h * t.format.bytes then .error .badLength
        else if ¬ t.writable then .error .surfaceLocked
        else .ok (notify, .write bytes)
      | .fill colour alpha =>
        if ¬ t.holdsRect q.x q.y q.w q.h then .error .badRect
        else if ¬ t.writable then .error .surfaceLocked
        else .ok (notify, .fill (fillPixel t.format colour alpha))
      | .checksum =>
        if ¬ t.holdsRect q.x q.y q.w q.h then .error .badRect else .ok (notify, .checksum)

/-! ### References of jobs to surfaces (R66) -/

/-- The references a job holds raised or lowered by `f`: on its target and, for COPY, on its source (R66). -/
def Surfaces.mapJob (m : Surfaces) (j : Job) (f : Surface → Surface) : Surfaces :=
  match j.work with
  | .copy source _ _ => (m.mapHandle j.target f).mapHandle source f
  | .write _ | .fill _ | .checksum => m.mapHandle j.target f

/-! ### The writes of a job (R87 to R89) -/

/-- Two rectangles of `w` by `h` pixels share at least one pixel (R89). -/
def rectsMeet (x y sx sy w h : Nat) : Bool :=
  decide (x < sx + w) && decide (sx < x + w) && decide (y < sy + h) && decide (sy < y + h)

/-- The order in which the pixels of a rectangle are written, as positions within it (R87, R89). -/
def Job.writeOrder (j : Job) : List (Nat × Nat) :=
  match j.work with
  | .copy source sx sy =>
    if source = j.target ∧ rectsMeet j.x j.y sx sy j.w j.h = true then
      if sy < j.y then (List.range' 0 j.h).reverse.flatMap (fun b => (List.range' 0 j.w).map (fun a => (a, b)))
      else if sy = j.y ∧ sx < j.x then
        (List.range' 0 j.h).flatMap (fun b => (List.range' 0 j.w).reverse.map (fun a => (a, b)))
      else rectPositions j.w j.h
    else rectPositions j.w j.h
  | .write _ | .fill _ => rectPositions j.w j.h
  | .checksum => []

/-- The bytes a job writes at a position of its rectangle, in a surface whose pixels have `bpp` bytes (R88, R89). -/
def InFlight.pixelAt (f : InFlight) (bpp : Nat) (p : Nat × Nat) : List Byte :=
  match f.job.work with
  | .write bytes => (bytes.drop ((p.2 * f.job.w + p.1) * bpp)).take bpp
  | .fill pixel => pixel
  | .copy _ _ _ => f.taken.getD (p.2 * f.job.w + p.1) []
  | .checksum => []

/-- The memory after the job writes the pixels at the positions `ps` (R87). -/
def InFlight.writePositions (f : InFlight) (t : Surface) (m : Memory) (ps : List (Nat × Nat)) : Memory :=
  ps.foldl (fun m p => writePixel m t (f.job.x + p.1) (f.job.y + p.2) (f.pixelAt t.format.bytes p)) m

/-- The in-flight job writes its next `k` pixels (R87). -/
def State.writeNext (s : State) (k : Nat) : State :=
  match s.drawing.inFlight with
  | none => s
  | some f =>
    match s.surfaces.named f.job.target with
    | none => s
    | some (_, t) =>
      (s.withMem (f.writePositions t s.mem ((f.job.writeOrder.drop f.written).take k))).withDrawing
        { s.drawing with inFlight := some { f with written := f.written + k } }

/-- The in-flight job goes on writing for a while: by a free number of pixels, short of the last one, whose writing is its
completion (R87, R91, log entry 8). -/
def State.drawOn (s : State) : State :=
  match s.drawing.inFlight with
  | none => s
  | some f =>
    (s.writeNext (min (Config.drawnPixels s.free) (f.job.writeOrder.length - 1 - f.written))).tick

/-! ### The CRC of CHECKSUM (R90) -/

/-- One bit of the 32-bit CRC of R90, in the reflected form that takes bits least significant first. -/
def crc32Bit (r : BitVec 32) (b : Bool) : BitVec 32 :=
  if (r.getLsbD 0 ^^ b) then (r >>> 1) ^^^ 0xEDB88320 else r >>> 1

/-- The 32-bit CRC: register all ones at first, bits of each byte least significant first, inverted at the end (R90). -/
def crc32 (bytes : List Byte) : BitVec 32 :=
  ~~~ (bytes.foldl (fun r b => (bitsOfByte b).reverse.foldl crc32Bit r) 0xFFFFFFFF)

/-- The CRC a job reports: R90 over its rectangle for CHECKSUM, 0 for the others (R92). -/
def Job.crc (j : Job) (m : Memory) (t : Surfaces) : BitVec 32 :=
  match j.work with
  | .checksum =>
    match t.named j.target with
    | some (_, f) => crc32 (rectBytes m f j.x j.y j.w j.h)
    | none => 0
  | .write _ | .fill _ | .copy _ _ _ => 0

/-! ### The arbiter (R85) -/

/-- The port whose job queue the arbiter takes from: the first non-empty one from the pointer on (R85). -/
def Drawing.choice (d : Drawing) : Option Port :=
  [d.pointer, d.pointer + 1, d.pointer + 2, d.pointer + 3].find? (fun n => !(tget d.queues n).isEmpty)

/-- The source pixels a COPY takes when it is chosen, row by row (R89). -/
def Job.takes (j : Job) (m : Memory) (t : Surfaces) : List (List Byte) :=
  match j.work with
  | .copy source sx sy =>
    match t.named source with
    | some (_, f) => (rectPositions j.w j.h).map (fun p => readPixel m f (sx + p.1) (sy + p.2))
    | none => []
  | .write _ | .fill _ | .checksum => []

/-- A choice, made when the engine is IDLE and a job queue is not empty (R85). -/
def State.choose (s : State) : State :=
  match s.drawing.inFlight with
  | some _ => s
  | none =>
    match s.drawing.choice with
    | none => s
    | some n =>
      match tget s.drawing.queues n with
      | [] => s
      | j :: rest =>
        s.withDrawing
          { s.drawing with
            queues := tput s.drawing.queues n rest
            inFlight := some ⟨j, j.takes s.mem s.surfaces, 0⟩
            pointer := n + 1 }

/-! ### Acceptance (R83, R84) -/

/-- The record of an accepted request (R77). -/
def DrawRequest.job (q : DrawRequest) (n : Port) (number : Nat) (notify : Bool) (work : Work) : Job :=
  ⟨number, n, q.target, q.x, q.y, q.w, q.h, notify, work⟩

/-- A job accepted: numbered, queued, its references added, and a choice made if the engine is IDLE (R83). -/
def State.acceptJob (s : State) (j : Job) : State :=
  ((s.withSurfaces (s.surfaces.mapJob j Surface.raiseJobs)).withDrawing
    { s.drawing with
      queues := tmod s.drawing.queues j.port (· ++ [j])
      issued := tput s.drawing.issued j.port j.number }).choose

/-- A drawing request of kind `k` carried out for port `n` (R78, R83, R84). -/
def State.serveDrawing (s : State) (n : Port) (k : Kind) (q : DrawRequest) : State × List Byte :=
  match s.surfaces.judgeDrawing n q with
  | .error st => (s, refusal k st)
  | .ok (notify, work) =>
    let number := nextJobNumber (tget s.drawing.issued n)
    (s.acceptJob (q.job n number notify work), reply k .ok (bytes16 number))

/-! ### Completion (R91, R92) -/

/-- The event code of JOB_DONE (R160). -/
def jobDonePayload (j : Job) (crc : BitVec 32) : List Byte :=
  [0x02] ++ bytes16 j.number ++ [Status.ok.code] ++ bytes32 crc

/-- The fence of each pending commit of port `n` that names job `f` is reached (R76, R91). -/
def LayoutController.reachFences (c : LayoutController) (n : Port) (f : Nat) : LayoutController :=
  { c with commits := c.commits.map (fun p => if p.port = n ∧ p.fence = f then { p with reached := true } else p) }

/-- The bookkeeping of a completion once the job's writes are made: completed, fences, references, JOB_DONE, and the engine
IDLE (R91). -/
def State.retireJob (s : State) (j : Job) : State :=
  let done := (((s.withDrawing
      { s.drawing with completed := tput s.drawing.completed j.port j.number, inFlight := none }).withLayouts
      (s.layouts.reachFences j.port j.number)).withSurfaces (s.surfaces.mapJob j Surface.lowerJobs))
  if j.notify then done.post j.port (jobDonePayload j (j.crc s.mem s.surfaces)) else done

/-- The completion of the in-flight job, up to the examination of its port's head: the rest of its writes, its bookkeeping, and
the next choice (R91). With no job in flight nothing completes (log entry 3). -/
def State.completeJob (s : State) : State :=
  match s.drawing.inFlight with
  | none => s
  | some f => ((s.writeNext (f.job.writeOrder.length - f.written)).retireJob f.job).choose

/-! ### Abort (R93) -/

/-- The references of the jobs `js` removed. -/
def Surfaces.dropJobs (m : Surfaces) (js : List Job) : Surfaces := js.foldl (fun m j => m.mapJob j Surface.lowerJobs) m

/-- Teardown start of port `n` in the drawing engine (R93): the job in flight, if it is the port's, stops wherever it has
reached, the port's job queue is emptied, the references are removed, and a choice is made if a job was aborted. -/
def State.abortJobs (s : State) (n : Port) : State :=
  match s.drawing.inFlightOf n with
  | some _ =>
    let s := s.drawOn
    ((s.withSurfaces (s.surfaces.dropJobs (s.drawing.outstanding n))).withDrawing
      { s.drawing with queues := tput s.drawing.queues n [], inFlight := none }).choose
  | none =>
    (s.withSurfaces (s.surfaces.dropJobs (s.drawing.outstanding n))).withDrawing
      { s.drawing with queues := tput s.drawing.queues n [] }

/-- The job numbers of port `n` at the opening of a session (R75). -/
def Drawing.openSession (d : Drawing) (n : Port) : Drawing :=
  { d with issued := tput d.issued n 0, completed := tput d.completed n 0 }

end Sys2Proof.Machine
end

