-- ==== Sys2Proof/Machine/Commits.lean ====
section
/-! DEFINITION. Commits (chapter 7): the operations, their validation against the trial layout, the budget check, acceptance, and
application at a frame boundary. -/

namespace Sys2Proof.Machine

/-! ### The effect of an operation on a layout (R115 to R121) -/

/-- The description of a surface taken when a source is set (R107). -/
def sourceDescOf (m : Surfaces) (handle : Nat) : Option SourceDesc :=
  (m.named handle).map (fun p => ⟨handle, p.2.width, p.2.height, p.2.format⟩)

/-- The window moved within a list by a restack mode (R120). -/
def restackList (mode : StackMode) (ref : Option WinSlot) (w : WinSlot) (ws : List WinSlot) : List WinSlot :=
  match mode, ref with
  | .top, _ => ws.filter (· != w) ++ [w]
  | .bottom, _ => w :: ws.filter (· != w)
  | .above, some r => insertAbove r w (ws.filter (· != w))
  | .below, some r => insertBelow r w (ws.filter (· != w))
  | .above, none => ws
  | .below, none => ws

/-- RESTACK's effect: the window moved within its band (R120). -/
def Layout.restack (l : Layout) (w : WinSlot) (mode : StackMode) (ref : Option WinSlot) : Layout :=
  match l.record w with
  | none => l
  | some r => { l with bands := l.bands.setList r.band (restackList mode ref w (l.bands.list r.band)) }

/-- An operation carried out on a layout for the window in slot `w`: first its insertion if it is RESERVED and the operation is
not DESTROY (R115), then the operation's own effect (R116 to R121). -/
def Op.carryOut (op : Op) (m : Surfaces) (w : WinSlot) (l : Layout) : Layout :=
  match op with
  | .place _ x y width height =>
    (l.stackIfReserved w).mapRecord w (fun r => { r with x := x, y := y, width := width, height := height })
  | .source _ present surface sx sy =>
    (l.stackIfReserved w).mapRecord w (fun r =>
      { r with source := if present = 1 then sourceDescOf m surface else none, sx := sx, sy := sy })
  | .style _ opacity fill => (l.stackIfReserved w).mapRecord w (fun r => { r with opacity := opacity, fill := fill })
  | .band _ code =>
    match bandOfCode code with
    | some k => (l.stackIfReserved w).moveToTop w k
    | none => l.stackIfReserved w
  | .restack _ code ref =>
    match stackModeOfCode code with
    | some mode => (l.stackIfReserved w).restack w mode (windowSlotOf ref)
    | none => l.stackIfReserved w
  | .showWindow _ => (l.stackIfReserved w).mapRecord w (fun r => { r with visible := true })
  | .hideWindow _ => (l.stackIfReserved w).mapRecord w (fun r => { r with visible := false })
  | .freshness _ deadline => (l.stackIfReserved w).mapRecord w (fun r => { r with deadline := deadline })
  | .touch _ => l.stackIfReserved w
  | .destroy _ => l.withdraw w

/-! ### Validation (R114 to R121) -/

/-- The fit rule (R107). -/
def fits (sx sy width height srcWidth srcHeight : Nat) : Bool :=
  decide (sx + width ≤ srcWidth) && decide (sy + height ≤ srcHeight)

/-- The window an operation of port `n` names, with its trial record: NO_SUCH_WINDOW if the handle names none or one WITHDRAWN in
the trial layout, then NOT_OWNER (R97, R115). -/
def LayoutController.resolveIn (c : LayoutController) (l : Layout) (n : Port) (handle : Nat) :
    Except Status (WinSlot × WindowRec) :=
  match c.named handle with
  | none => .error .noSuchWindow
  | some (w, owner) =>
    match l.record w with
    | none => .error .noSuchWindow
    | some r =>
      if r.state = .withdrawn then .error .noSuchWindow
      else if owner = n then .ok (w, r) else .error .notOwner

/-- A RESTACK reference: a window of the committing port, STACKED in the trial layout in the moved window's band there, and
not the moved window (R120). -/
def LayoutController.refOk (c : LayoutController) (l : Layout) (n : Port) (w : WinSlot) (ref : Nat) : Bool :=
  match c.named ref, l.record w with
  | some (v, owner), some r =>
    decide (owner = n) && decide (v ≠ w) &&
      (l.record v).any (fun q => decide (q.state = .stacked) && decide (q.band = r.band))
  | _, _ => false

/-- The checks of an operation's arguments and those of its kind, for the window `w` with trial record `r` (R116 to R121). -/
def Op.refusedBy (op : Op) (c : LayoutController) (m : Surfaces) (n : Port) (l : Layout) (w : WinSlot) (r : WindowRec) :
    Option Status :=
  match op with
  | .place _ x y width height =>
    if ¬ (-2048 ≤ x ∧ x ≤ 2047 ∧ -2048 ≤ y ∧ y ≤ 2047 ∧ 1 ≤ width ∧ width ≤ 2048 ∧ 1 ≤ height ∧ height ≤ 2048) then
      some .badArgument
    else
      match r.source with
      | none => none
      | some d => if fits r.sx r.sy width height d.width d.height then none else some .badRect
  | .source _ present surface sx sy =>
    if ¬ (present ≤ 1 ∧ sx ≤ 2047 ∧ sy ≤ 2047) then some .badArgument
    else if present = 0 then none
    else
      match m.resolve n surface with
      | .error st => some st
      | .ok (_, f) => if fits sx sy r.width r.height f.width f.height then none else some .badRect
  | .style _ _ _ => none
  | .band _ code =>
    match bandOfCode code with
    | none => some .badArgument
    | some .alert =>
      if c.holder ≠ some n then some .noAlertToken
      else if l.bands.alert.any (· != w) then some .alertOccupied
      else none
    | some .base => none
    | some .main => none
    | some .overlay => none
  | .restack _ code ref =>
    match stackModeOfCode code with
    | none => some .badArgument
    | some .top => none
    | some .bottom => none
    | some .above => if c.refOk (l.stackIfReserved w) n w ref then none else some .badStackRef
    | some .below => if c.refOk (l.stackIfReserved w) n w ref then none else some .badStackRef
  | .showWindow _ => none
  | .hideWindow _ => none
  | .freshness _ _ => none
  | .touch _ => none
  | .destroy _ => none

/-- One operation judged against the trial layout, and carried out on it if every check passes (R115). -/
def LayoutController.tryOp (c : LayoutController) (m : Surfaces) (n : Port) (l : Layout) (op : Op) : Except Status Layout :=
  match c.resolveIn l n op.window with
  | .error st => .error st
  | .ok (w, r) =>
    match op.refusedBy c m n l w r with
    | some st => .error st
    | none => .ok (op.carryOut m w l)

/-- The operations judged in their order from index `i`, each against the trial layout the earlier ones have left: the trial
layout and the operations read, or the first failure with its index (R114). -/
def LayoutController.tryOps (c : LayoutController) (m : Surfaces) (n : Port) :
    Nat → List (List Byte) → Layout → Except (Status × Nat) (Layout × List Op)
  | _, [], l => .ok (l, [])
  | i, b :: bs, l =>
    match opOfBytes b with
    | none => .error (.badArgument, i)
    | some op =>
      match c.tryOp m n l op with
      | .error st => .error (st, i)
      | .ok l' =>
        match c.tryOps m n (i + 1) bs l' with
        | .error e => .error e
        | .ok (l'', ops) => .ok (l'', op :: ops)

/-! ### Acceptance (R123, R124) -/

/-- The handles of the surfaces that SOURCE operations name, one for each such operation (R65). -/
def namedSurfaces (ops : List Op) : List Nat :=
  ops.filterMap (fun op =>
    match op with
    | .source _ present surface _ _ => if present = 1 then some surface else none
    | _ => none)

/-- queued_refs raised or lowered by `f`, once for each SOURCE operation naming a surface (R65). -/
def Surfaces.mapQueued (m : Surfaces) (ops : List Op) (f : Surface → Surface) : Surfaces :=
  (namedSurfaces ops).foldl (fun m h => m.mapHandle h f) m

/-- The windows that operations of one of the kinds `p` name, each once. -/
def windowsOf (p : Op → Bool) (ops : List Op) : List WinSlot :=
  (allSlots 24).filter (fun w => ops.any (fun op => p op && decide (windowSlotOf op.window = some w)))

/-- The refreshed windows of a commit: named by a SOURCE or TOUCH, each once, less any that the commit destroys (R124). -/
def refreshedWindows (ops : List Op) : List WinSlot :=
  let refreshing := windowsOf (fun op => match op with | .source _ _ _ _ _ => true | .touch _ => true | _ => false) ops
  let destroyed := windowsOf (fun op => match op with | .destroy _ => true | _ => false) ops
  refreshing.filter (fun w => !(destroyed.contains w))

/-- The port's commits in the pending commit queue. -/
def LayoutController.commitsOf (c : LayoutController) (n : Port) : List Pending := c.commits.filter (fun p => p.port = n)

/-- A COMMIT accepted with the trial layout `l`: it becomes the projected layout, queued_refs rise, and the record joins the
queue (R123). -/
def State.acceptCommit (s : State) (n : Port) (tag : Byte) (l : Layout) (ops : List Op) : State :=
  let fence := tget s.drawing.issued n
  (s.withSurfaces (s.surfaces.mapQueued ops Surface.raiseQueued)).withLayouts
    { s.layouts with
      projected := l
      projectedLoad := loadTable s.scan.timing l
      commits := s.layouts.commits ++
        [⟨n, tag, fence, s.drawing.isComplete n fence, ops, refreshedWindows ops⟩] }

/-- COMMIT carried out for port `n` (R113, R114, R122, R123). -/
def State.serveCommit (s : State) (n : Port) (tag : Byte) (p : List Byte) : State × List Byte :=
  let count := field8 p 0
  if ¬ (1 ≤ count ∧ count ≤ Config.opsPerCommit ∧ p.length = 4 + 12 * count) then (s, commitReply .badLength 255 0 0)
  else if ¬ (s.layouts.commitsOf n).length < Config.commitsPerPort then (s, commitReply .commitLimit 255 0 0)
  else
    match s.layouts.tryOps s.surfaces n 0 (opChunks count (p.drop 4)) s.layouts.projected with
    | .error (st, i) => (s, commitReply st i 0 0)
    | .ok (l, ops) =>
      match firstOver s.scan.budget 0 (loadTable s.scan.timing l) with
      | some line => (s, commitReply .overBudget 255 0 line)
      | none => (s.acceptCommit n tag l ops, commitReply .ok 255 (tget s.drawing.issued n) 0)

/-! ### Removal at teardown start (R133) -/

/-- The pending commits of port `n` removed, their queued_refs lowered (R133). -/
def State.dropCommits (s : State) (n : Port) : State :=
  (s.withSurfaces
    ((s.layouts.commitsOf n).foldl (fun m p => m.mapQueued p.ops Surface.lowerQueued) s.surfaces)).withLayouts
    { s.layouts with commits := s.layouts.commits.filter (fun p => p.port ≠ n) }

/-! ### Application (R127, R144) -/

/-- The window's age restarted: 0, not stale, marked as refreshed (R144). -/
def LayoutController.restart (c : LayoutController) (w : WinSlot) : LayoutController :=
  { c with fresh := tput c.fresh w ⟨0, false, true⟩ }

/-- Whether an operation restarts the window's age at its place in the list: a SHOW that finds it not visible, or a FRESHNESS
(R144). -/
def Op.restarts (op : Op) (l : Layout) (w : WinSlot) : Bool :=
  match op with
  | .showWindow _ => (l.record w).any (fun r => !r.visible)
  | .freshness _ _ => true
  | _ => false

/-- shown_refs after the applied source of a window changes from `old` to `new` (R64). -/
def Surfaces.moveShown (m : Surfaces) (old new : Option SourceDesc) : Surfaces :=
  (m.mapSource new Surface.raiseShown).mapSource old Surface.lowerShown

/-- An operation other than DESTROY carried out on the applied layout for the window in slot `w`, with the references and the
age it changes (R127, R64, R144). -/
def State.applyChange (s : State) (op : Op) (w : WinSlot) : State :=
  let old := s.layouts.applied.shownSource w
  let l := op.carryOut s.surfaces w s.layouts.applied
  let c := { s.layouts with applied := l }
  (s.withSurfaces (s.surfaces.moveShown old (l.shownSource w))).withLayouts
    (if op.restarts s.layouts.applied w then c.restart w else c)

/-- An operation of a commit carried out at its application; a DESTROY frees the window at its place (R127). -/
def State.applyOp (s : State) (op : Op) : State :=
  match s.layouts.named op.window with
  | none => s
  | some (w, _) =>
    match op with
    | .destroy _ => s.freeWindow w
    | _ => s.applyChange op w

/-- The event code, tag and frame number of PRESENTED (R130, R164). -/
def presentedPayload (tag : Byte) (frame : BitVec 32) : List Byte := [0x01, tag] ++ bytes32 frame

/-- The commit `p`, already taken from the head of the queue, applied (R127, R130). -/
def State.applyCommit (s : State) (p : Pending) : State :=
  let s := p.ops.foldl State.applyOp s
  let s := s.withSurfaces (s.surfaces.mapQueued p.ops Surface.lowerQueued)
  let s := s.withLayouts (p.refreshed.foldl LayoutController.restart s.layouts)
  s.reload.post p.port (presentedPayload p.tag s.scan.frame)

/-- Step 2 of R126: commits applied from the head of the queue while the head is ready, at most `k` of them (R129). -/
def State.applyReady : Nat → State → State
  | 0, s => s
  | k + 1, s =>
    match s.layouts.commits with
    | [] => s
    | p :: rest =>
      if p.reached then
        State.applyReady k ((s.withLayouts { s.layouts with commits := rest }).applyCommit p)
      else s

end Sys2Proof.Machine
end

