-- ==== Sys2Proof/Machine/Scan.lean ====
section
/-! DEFINITION. The scan engine (chapter 3): the timing record, SET_TIMING, the line position, the fetch of source pixels, the
composition of the picture, and the panel output. -/

namespace Sys2Proof.Machine

/-! ### The timing record (R38 to R40) -/

/-- Every field in its range and both totals within their limits (R38). The polarities are of two values by their type. -/
def Timing.valid (t : Timing) : Bool :=
  decide (64 ≤ t.hactive ∧ t.hactive ≤ 1920 ∧ t.hactive % 8 = 0 ∧ 1 ≤ t.hfront ∧ t.hfront ≤ 255 ∧ 1 ≤ t.hsync ∧
    t.hsync ≤ 255 ∧ 1 ≤ t.hback ∧ t.hback ≤ 255 ∧ 48 ≤ t.vactive ∧ t.vactive ≤ 1200 ∧ 1 ≤ t.vfront ∧ t.vfront ≤ 63 ∧
    1 ≤ t.vsync ∧ t.vsync ≤ 63 ∧ 1 ≤ t.vback ∧ t.vback ≤ 63 ∧ 1 ≤ t.divider ∧ t.divider ≤ 16 ∧ t.htotal ≤ 2400 ∧
    t.vtotal ≤ 1300)

/-- The scan engine configured with a record: RUNNING, frame counter 0, at the first pixel clock of the vertical non-display
period (R39). -/
def Scan.configured (t : Timing) : Scan := ⟨some t, 0, some (t.vactive, 0), [], []⟩

/-- The load tables come into being with `vactive` lines of zero (R39, R109). -/
def LayoutController.sizeTables (c : LayoutController) (t : Timing) : LayoutController :=
  { c with appliedLoad := List.replicate t.vactive 0, projectedLoad := List.replicate t.vactive 0 }

/-- SET_TIMING carried out (R38 to R40). -/
def State.serveSetTiming (s : State) (p : List Byte) : State × List Byte :=
  match timingOfBytes p with
  | none => (s, refusal .setTiming .badArgument)
  | some t =>
    if ¬ t.valid then (s, refusal .setTiming .badArgument)
    else
      match s.scan.timing with
      | none =>
        ((s.withScan (.configured t)).withLayouts (s.layouts.sizeTables t), reply .setTiming .ok (bytes16 t.budget))
      | some r =>
        if t = r then (s, reply .setTiming .ok (bytes16 r.budget)) else (s, refusal .setTiming .timingLocked)

/-! ### The line position (R42) -/

/-- The line and pixel clock after `(line, clock)` (R42). -/
def Timing.next (t : Timing) (line clock : Nat) : Nat × Nat :=
  if clock + 1 < t.htotal then (line, clock + 1) else if line + 1 < t.vtotal then (line + 1, 0) else (0, 0)

/-- Whether the pixel clock is the last of the active slot of the last active line (R44). -/
def Timing.lastActive (t : Timing) (line clock : Nat) : Bool :=
  decide (line + 1 = t.vactive) && decide (clock + 1 = t.hactive)

/-! ### The fetch (R47, R49) -/

/-- The active line whose source bytes are read during line `line` (R47): the line below, or line 0 during the last line of the
vertical back porch. -/
def Timing.fetchLine (t : Timing) (line : Nat) : Option Nat :=
  if line + 1 = t.vtotal then some 0 else if line + 1 < t.vactive then some (line + 1) else none

/-- Whether the scan engine reads the window's source: visible, with a source, not stale (R49). -/
def LayoutController.fetches (c : LayoutController) (w : WinSlot) : Bool :=
  match c.applied.record w with
  | some r => r.visible && r.source.isSome && !(tget c.fresh w).stale
  | none => false

/-- The panel columns of the windows whose source is read for a line (R47, R48). -/
def LayoutController.fetchList (c : LayoutController) (hactive line : Nat) : List (WinSlot × Nat) :=
  c.applied.stack.flatMap (fun w =>
    match c.applied.record w with
    | some r =>
      if c.fetches w && r.coversRow line then
        (List.range' (max 0 r.x).toNat (r.columns hactive)).map (fun px => (w, px))
      else []
    | none => [])

/-- The stored bytes of the source pixel a window shows at a panel pixel (R49). -/
def State.sourcePixel (s : State) (w : WinSlot) (px py : Nat) : List Byte :=
  match s.layouts.applied.record w with
  | some r =>
    match r.source with
    | some d =>
      match s.surfaces.named d.handle with
      | some (_, f) => readPixel s.mem f (r.sx + (px - r.x).toNat) (r.sy + (py - r.y).toNat)
      | none => []
    | none => []
  | none => []

/-- Whether a source pixel has been fetched for the next active line. -/
def Scan.hasFetched (c : Scan) (w : WinSlot) (px : Nat) : Bool := c.fetched.any (fun f => f.win = w && f.col = px)

/-- The fetch during one pixel clock of line `line`: each source pixel of the line to come not yet read is read now or later in
the line, as a free value says, and at the last pixel clock all that are left are read (R47, log entry 9). -/
def State.fetch (s : State) (t : Timing) (line clock : Nat) : State :=
  match t.fetchLine line with
  | none => s
  | some y =>
    let now := (s.layouts.fetchList t.hactive y).filter (fun p =>
      !(s.scan.hasFetched p.1 p.2) && (decide (clock + 1 = t.htotal) || Config.fetchNow s.free p.1.val p.2))
    (s.withScan { s.scan with
      fetched := s.scan.fetched ++ now.map (fun p => ⟨p.1, p.2, s.sourcePixel p.1 p.2 y⟩) }).tick

/-! ### Composition (R48 to R51) -/

/-- A source pixel widened to 8 bits a component, with its alpha (R50, R165). -/
def widen (f : Format) (b : List Byte) : Rgb × Nat :=
  match f with
  | .p16 =>
    let v := field8 b 1 * 256 + field8 b 0
    let r := v / 2048
    let g := v / 32 % 64
    let bl := v % 32
    (⟨BitVec.ofNat 8 (r * 8 + r / 4), BitVec.ofNat 8 (g * 4 + g / 16), BitVec.ofNat 8 (bl * 8 + bl / 4)⟩, 255)
  | .p32 => (⟨b.getD 2 0, b.getD 1 0, b.getD 0 0⟩, 255)
  | .p32a => (⟨b.getD 2 0, b.getD 1 0, b.getD 0 0⟩, field8 b 3)

/-- The effective alpha of a window's pixel (R51). -/
def effectiveAlpha (opacity pa : Nat) : Nat := (opacity * pa + 127) / 255

/-- One component blended (R51). -/
def blendComponent (a : Nat) (s d : Byte) : Byte := BitVec.ofNat 8 ((s.toNat * a + d.toNat * (255 - a) + 127) / 255)

/-- A window's colour blended over the colour built so far (R51). -/
def blend (opacity : Byte) (pa : Nat) (c below : Rgb) : Rgb :=
  let a := effectiveAlpha opacity.toNat pa
  ⟨blendComponent a c.red below.red, blendComponent a c.green below.green, blendComponent a c.blue below.blue⟩

/-- The bytes fetched of a window at a column of the line being output. -/
def Scan.lookup (c : Scan) (w : WinSlot) (px : Nat) : List Byte :=
  match c.shown.find? (fun f => f.win = w && f.col = px) with
  | some f => f.bytes
  | none => []

/-- A window's colour and pa at a pixel it covers: the widened source pixel, or its fill colour with pa 255 when it has no source
or is stale (R49, R50). -/
def windowColour (r : WindowRec) (stale : Bool) (bytes : List Byte) : Rgb × Nat :=
  match r.source with
  | some d => if stale then (r.fill, 255) else widen d.format bytes
  | none => (r.fill, 255)

/-- The window of slot `w` blended, if it is visible and covers the pixel (R48). -/
def State.blendWindow (s : State) (px py : Nat) (below : Rgb) (w : WinSlot) : Rgb :=
  match s.layouts.applied.record w with
  | some r =>
    if r.visible && r.covers px py then
      let c := windowColour r (tget s.layouts.fresh w).stale (s.scan.lookup w px)
      blend r.opacity c.2 c.1 below
    else below
  | none => below

/-- The colour of the panel pixel at column `px` and row `py`: the windows of the applied layout from bottom to top over the
background (R48). -/
def State.pixel (s : State) (t : Timing) (px py : Nat) : Rgb :=
  s.layouts.applied.stack.foldl (s.blendWindow px py) t.background

/-! ### The panel output (R43, R52) -/

/-- The level of an output of a polarity, asserted or released (R43). -/
def Polarity.level (p : Polarity) (asserted : Bool) : Bool :=
  match p with
  | .activeHigh => asserted
  | .activeLow => !asserted

/-- Horizontal sync is asserted (R42, R43). -/
def Timing.inHsync (t : Timing) (clock : Nat) : Bool :=
  decide (t.hactive + t.hfront ≤ clock) && decide (clock < t.hactive + t.hfront + t.hsync)

/-- Vertical sync is asserted (R42, R43). -/
def Timing.inVsync (t : Timing) (line : Nat) : Bool :=
  decide (t.vactive + t.vfront ≤ line) && decide (line < t.vactive + t.vfront + t.vsync)

/-- Data-enable is asserted: the active slot of an active line (R43). -/
def Timing.inActive (t : Timing) (line clock : Nat) : Bool := decide (line < t.vactive) && decide (clock < t.hactive)

/-- A colour on the 24 data lines: red uppermost, then green, then blue (R43). -/
def Rgb.lines (c : Rgb) : BitVec 24 := c.red ++ c.green ++ c.blue

/-- The panel output pins at the line position, or quiet while UNCONFIGURED (R43, R52). -/
def State.panelPins (s : State) : PanelPins :=
  match s.scan.timing, s.scan.pos with
  | some t, some (line, clock) =>
    { clock := true
      hs := t.hsyncPolarity.level (t.inHsync clock)
      vs := t.vsyncPolarity.level (t.inVsync line)
      de := t.dePolarity.level (t.inActive line clock)
      data := if t.inActive line clock then (s.pixel t clock line).lines else 0 }
  | _, _ => .quiet

/-- The output pins as the rest of the state makes them (R15, R43, R52). -/
def State.pinValues (s : State) : Pins :=
  ⟨#v[(s.link 0).attention, (s.link 1).attention, (s.link 2).attention, (s.link 3).attention], s.panelPins⟩

/-- The output pins follow the state (R15, R43; log entry 14). -/
def State.settle (s : State) : State := s.withPins s.pinValues

end Sys2Proof.Machine
end

