-- ==== Sys2Proof/Machine/Queries.lean ====
section
/-! DEFINITION. IDENTIFY and the queries (chapter 9): each gives the response payload for a port and changes no state. -/

namespace Sys2Proof.Machine

/-- IDENTIFY's response: constants of the part (R150, R163). -/
def identifyReply : List Byte :=
  reply .identify .ok
    (bytes16 0x03A1 ++ bytes16 0x0424 ++ bytes8 1 ++ bytes8 4 ++ bytes8 48 ++ bytes8 Config.surfacesPerPort ++ bytes8 24 ++
      bytes8 Config.windowsPerPort ++ bytes16 Config.pages ++ bytes16 Config.pageSize ++ bytes16 Config.reserve ++
      bytes16 Config.pool ++ bytes8 Config.requestDepth ++ bytes8 Config.responseDepth ++ bytes8 Config.eventDepth ++
      bytes8 Config.jobDepth ++ bytes8 Config.commitDepth ++ bytes8 Config.commitsPerPort ++ bytes8 Config.opsPerCommit ++
      bytes16 Config.maxPayload)

/-- QUERY_SESSION's response (R151). -/
def State.querySessionReply (s : State) (n : Port) : List Byte :=
  let c := s.session n
  reply .querySession .ok
    (bytes8 c.state.code ++ bytes8 c.number ++ bytes32 c.label ++ bytes16 (tget s.drawing.issued n) ++
      bytes16 (tget s.drawing.completed n) ++ bytes8 (s.layouts.commitsOf n).length ++ bytes8 (tget s.layouts.winCount n) ++
      bytes8 (tget s.surfaces.surfCount n))

/-- QUERY_PANEL's response (R154). -/
def State.queryPanelReply (s : State) : List Byte :=
  match s.scan.timing with
  | none => reply .queryPanel .ok (List.replicate 25 0)
  | some t =>
    reply .queryPanel .ok (bytes8 1 ++ bytes8 1 ++ bytesTiming t ++ bytes32 s.scan.frame ++ bytes16 t.budget)

/-- QUERY_SURFACE's response (R152). -/
def State.querySurfaceReply (s : State) (n : Port) (p : List Byte) : List Byte :=
  match s.surfaces.resolve n (field16 p 0) with
  | .error st => refusal .querySurface st
  | .ok (i, f) =>
    reply .querySurface .ok
      (bytes16 (surfaceHandle i (tget s.surfaces.slots i).gen) ++ bytes8 f.owner.val ++ bytes16 f.width ++ bytes16 f.height ++
        bytes8 f.format.code ++ bytesBool f.direct ++ bytes16 f.stride ++ bytes16 f.pageCount ++ bytes8 f.shownRefs ++
        bytes8 f.queuedRefs ++ bytes8 f.jobRefs)

/-- QUERY_MEMORY's response (R155). -/
def State.queryMemoryReply (s : State) : List Byte :=
  reply .queryMemory .ok
    (bytes16 s.surfaces.freePages.length ++ bytes16 (poolUse s.surfaces.pageCount) ++
      allPorts.flatMap (fun n => bytes16 (tget s.surfaces.pageCount n)))

/-- The 26 bytes of a window record of QUERY_WINDOW (R163). -/
def Layout.recordBytes (l : Layout) (w : WinSlot) (r : WindowRec) (age : Nat) (stale : Bool) : List Byte :=
  let stacked := decide (r.state = .stacked)
  bytes8 r.state.code ++ bytes8 (if stacked then r.band else .main).code ++
    bytes8 (if stacked then (l.bands.list r.band).findIdx (· = w) else 0xFF) ++ bytesSigned16 r.x ++ bytesSigned16 r.y ++
    bytes16 r.width ++ bytes16 r.height ++ bytesBool r.source.isSome ++
    bytes16 (match r.source with | some d => d.handle | none => 0) ++ bytes16 r.sx ++ bytes16 r.sy ++ [r.opacity] ++
    bytesRgb r.fill ++ bytesBool r.visible ++ bytes8 r.deadline ++ bytes8 age ++ bytesBool stale

/-- QUERY_WINDOW's response (R153). A slot that holds a window has both records (R101, R103). -/
def State.queryWindowReply (s : State) (n : Port) (p : List Byte) : List Byte :=
  match s.layouts.named (field16 p 0) with
  | none => refusal .queryWindow .noSuchWindow
  | some (w, owner) =>
    if owner ≠ n then refusal .queryWindow .notOwner
    else
      match s.layouts.applied.record w, s.layouts.projected.record w with
      | some a, some j =>
        let f := tget s.layouts.fresh w
        reply .queryWindow .ok
          (bytes16 (windowHandle w (tget s.layouts.gens w)) ++ s.layouts.applied.recordBytes w a f.age f.stale ++
            s.layouts.projected.recordBytes w j 0 false)
      | _, _ => refusal .queryWindow .noSuchWindow

/-- The highest entry of a load table; 0 for a table of no entries (R156). -/
def peak (table : List Nat) : Nat := table.foldl max 0

/-- The lowest line that holds the highest entry; 0 when every entry is 0 (R156). -/
def peakLine (table : List Nat) : Nat := if peak table = 0 then 0 else table.findIdx (· = peak table)

/-- A port's share of the projected load on a line (R110). -/
def LayoutController.share (c : LayoutController) (hactive line : Nat) (n : Port) : Nat :=
  (((allSlots 24).filter (fun w => tget c.owners w = some n)).map (c.projected.slotCost hactive line)).sum

/-- The requesting port's share on the projected peak line (R156). -/
def State.peakShare (s : State) (n : Port) : Nat :=
  match s.scan.timing with
  | none => 0
  | some t =>
    if peak s.layouts.projectedLoad = 0 then 0 else s.layouts.share t.hactive (peakLine s.layouts.projectedLoad) n

/-- QUERY_LOAD's response (R156). -/
def State.queryLoadReply (s : State) (n : Port) : List Byte :=
  reply .queryLoad .ok
    (bytes16 s.scan.budget ++ bytes16 (peak s.layouts.appliedLoad) ++ bytes16 (peakLine s.layouts.appliedLoad) ++
      bytes16 (peak s.layouts.projectedLoad) ++ bytes16 (peakLine s.layouts.projectedLoad) ++ bytes16 (s.peakShare n))

/-- QUERY_ALERT's response (R157, R163). -/
def State.queryAlertReply (s : State) : List Byte :=
  reply .queryAlert .ok
    (bytes8 (portCode s.layouts.holder) ++ bytes8 s.layouts.waiting.length ++
      [0, 1, 2].flatMap (fun i => bytes8 (portCode s.layouts.waiting[i]?)))

end Sys2Proof.Machine
end

