-- ==== Sys2Proof/Machine/Sessions.lean ====
section
/-! DEFINITION. The session controllers (chapter 2): teardown in its two halves, the serving of requests by kind, and the
examination of the head of a request queue. -/

namespace Sys2Proof.Machine

/-! ### Sessions open and close (R20, R29, R36) -/

/-- The session number after `v` (R20). -/
def nextSessionNumber (v : Nat) : Nat := nextInCycle 255 v

/-- A session opens on port `n` with a label: number advanced, job numbers and event sequence counter 0 (R29, R36). -/
def State.openSession (s : State) (n : Port) (label : BitVec 32) : State :=
  ((s.mapSession n (fun c =>
      { c with
        state := .opened
        number := nextSessionNumber c.number
        label := label
        cause := .none
        pendingLabel := none })).mapLink n Link.openSession).withDrawing (s.drawing.openSession n)

/-- The port becomes CLOSED: number unchanged, label four zero bytes (R36). -/
def State.closeSession (s : State) (n : Port) : State :=
  s.mapSession n (fun c => { c with state := .closed, label := 0, cause := .none, pendingLabel := none })

/-- The request at the head leaves the request queue in the event in which its response is placed (R12, 2.2). -/
def Link.answerHead (l : Link) (tag : Byte) (payload : List Byte) : Link :=
  { l with requests := l.requests.tail, responses := l.responses ++ [⟨tag, payload⟩] }

/-- The head request of port `n` is served: its response placed, and head wait none (R22, R24). -/
def State.answer (s : State) (n : Port) (tag : Byte) (payload : List Byte) : State :=
  (s.mapLink n (fun l => l.answerHead tag payload)).setHeadWait n .none

/-! ### Teardown start (R32) -/

/-- The layout controller's part of teardown start: the port's pending commits and projected windows go, the projected load is
computed again, and its claim on the token ends (R106, R133, R140). -/
def State.teardownLayouts (s : State) (n : Port) : State :=
  let s := s.dropCommits n
  let s := s.withLayouts { s.layouts with projected := s.layouts.projected.withdrawOwned s.layouts.owners n }
  let s := s.withLayouts { s.layouts with projectedLoad := loadTable s.scan.timing s.layouts.projected }
  s.dropToken n

/-- Teardown start of port `n`, whole (R32). -/
def State.teardownStart (s : State) (n : Port) (cause : ClosingCause) (label : Option (BitVec 32)) : State :=
  (((s.mapSession n (fun c =>
      { c with state := .closing, cause := cause, pendingLabel := label, headWait := .teardown })).mapLink n
      Link.teardownStart).abortJobs n).teardownLayouts n

/-! ### Teardown finish (R35, R36) -/

/-- The resources of port `n` returned: its window slots freed, its surfaces destroyed, its counts 0 (R35). -/
def State.returnResources (s : State) (n : Port) : State :=
  let s := s.freeWindowsOf n
  let s := s.withLayouts { s.layouts with winCount := tput s.layouts.winCount n 0 }
  (s.withSurfaces (s.surfaces.freeOwned n)).reload

/-- The kind of the request that started a teardown. -/
def ClosingCause.kind : ClosingCause → Kind
  | .takeover => .openSession
  | .close => .closeSession
  | .none => .closeSession

/-- The port's new state by its closing cause (R36). -/
def State.endTeardown (s : State) (n : Port) : State :=
  match (s.session n).cause with
  | .takeover => s.openSession n ((s.session n).pendingLabel.getD 0)
  | .close => s.closeSession n
  | .none => s.closeSession n

/-- Teardown finish of port `n`: resources returned, the new state entered, and the request at the head answered OK with the
session number (R35, R36). -/
def State.teardownFinish (s : State) (n : Port) : State :=
  let k := (s.session n).cause.kind
  let s := (s.returnResources n).endTeardown n
  match (s.link n).requests with
  | r :: _ => s.answer n r.tag (reply k .ok (bytes8 (s.session n).number))
  | [] => s.setHeadWait n .none

/-! ### Serving a request (R23, R24, R26, R27, R29 to R31) -/

/-- What an examination of a head request comes to. -/
inductive Served where
  /-- Decided: the state it leaves, and the response payload to place. -/
  | answered (s : State) (payload : List Byte)
  /-- It waits at the head (R25). -/
  | waits (w : HeadWait)
  /-- It started a teardown and stays at the head (R30, R31). -/
  | held (s : State)
  /-- It started a teardown that finished in the same event and answered it (R34). -/
  | finished (s : State)

/-- A decision of the owning block. -/
def Served.ofPair (r : State × List Byte) : Served := .answered r.1 r.2

/-- A teardown starts on port `n`; while the scan engine is UNCONFIGURED it finishes in the same event (R30, R31, R34). -/
def State.beginTeardown (s : State) (n : Port) (cause : ClosingCause) (label : Option (BitVec 32)) : Served :=
  let t := s.teardownStart n cause label
  if s.scan.timing.isNone then .finished (t.teardownFinish n) else .held t

/-- OPEN: a session opens at once on a CLOSED port; on an OPEN port it is a takeover (R29, R30). -/
def State.serveOpen (s : State) (n : Port) (p : List Byte) : Served :=
  match (s.session n).state with
  | .closed =>
    let t := s.openSession n (field32 p 0)
    .answered t (reply .openSession .ok (bytes8 (t.session n).number))
  | .opened => s.beginTeardown n .takeover (some (field32 p 0))
  | .closing => .waits .teardown

/-- CLOSE on an OPEN port starts a teardown (R31). On a CLOSED port R23 has refused it. -/
def State.serveClose (s : State) (n : Port) : Served :=
  match (s.session n).state with
  | .closed => .answered s (refusal .closeSession .noSession)
  | .opened => s.beginTeardown n .close none
  | .closing => .waits .teardown

/-- DESTROY_SURFACE: refused, waiting on job_refs, or carried out (R27, R69, R70). -/
def State.serveDestroySurface (s : State) (n : Port) (p : List Byte) : Served :=
  match s.surfaces.judgeDestroy n p with
  | .refused st => .answered s (refusal .destroySurface st)
  | .waits => .waits .jobRefs
  | .destroys i f => .answered (s.withSurfaces (s.surfaces.free i)) (reply .destroySurface .ok (bytes16 f.pageCount))

/-- A drawing request waits for job room before any of its arguments is checked, and is then judged (R26, R78). -/
def State.serveDrawingKind (s : State) (n : Port) (k : Kind) (q : DrawRequest) : Served :=
  if (s.drawing.outstanding n).length < Config.jobDepth then .ofPair (s.serveDrawing n k q) else .waits .jobRoom

/-- A request that has passed the checks of R23, carried out according to its kind (R24). -/
def State.carryOut (s : State) (n : Port) (k : Kind) (r : Request) : Served :=
  match k with
  | .identify => .answered s identifyReply
  | .openSession => s.serveOpen n r.payload
  | .closeSession => s.serveClose n
  | .querySession => .answered s (s.querySessionReply n)
  | .queryPanel => .answered s s.queryPanelReply
  | .querySurface => .answered s (s.querySurfaceReply n r.payload)
  | .queryMemory => .answered s s.queryMemoryReply
  | .queryWindow => .answered s (s.queryWindowReply n r.payload)
  | .queryLoad => .answered s (s.queryLoadReply n)
  | .queryAlert => .answered s s.queryAlertReply
  | .setTiming => .ofPair (s.serveSetTiming r.payload)
  | .createSurface => .ofPair (s.serveCreateSurface n r.payload)
  | .destroySurface => s.serveDestroySurface n r.payload
  | .write => s.serveDrawingKind n .write (writeRequest r.payload)
  | .fill => s.serveDrawingKind n .fill (fillRequest r.payload)
  | .copy => s.serveDrawingKind n .copy (copyRequest r.payload)
  | .checksum => s.serveDrawingKind n .checksum (checksumRequest r.payload)
  | .createWindow => .ofPair (s.serveCreateWindow n r.payload)
  | .commit => .ofPair (s.serveCommit n r.tag r.payload)
  | .acquireAlert => .ofPair (s.serveAcquireAlert n)
  | .releaseAlert => .ofPair (s.serveReleaseAlert n)

/-- Whether a kind is served on a CLOSED port (R23). -/
def Kind.needsNoSession (k : Kind) : Bool := decide (k = .identify) || decide (k = .openSession)

/-- The checks of R23 in turn, and then the request's own meaning (R23, R24). -/
def State.serve (s : State) (n : Port) (r : Request) : Served :=
  match Kind.ofCode r.kind with
  | none => .answered s (unknownKindReply r.kind)
  | some k =>
    if ¬ k.lengthOk r.payload.length then .answered s (refusalAtHead k .badLength)
    else if (s.session n).state = .closed ∧ k.needsNoSession = false then .answered s (refusalAtHead k .noSession)
    else s.carryOut n k r

/-! ### Examination (R22, R25) -/

/-- One examination of the head of port `n`'s request queue: the state it leaves, and whether the next head is examined at once
(R22). -/
def State.examineHead (s : State) (n : Port) : State × Bool :=
  match (s.link n).requests with
  | [] => (s, false)
  | r :: _ =>
    if (s.session n).headWait = .teardown then (s, false)
    else if ¬ (s.link n).responses.length < Config.responseDepth then (s.setHeadWait n .responseRoom, false)
    else
      match s.serve n r with
      | .answered t payload => (t.answer n r.tag payload, true)
      | .waits w => (s.setHeadWait n w, false)
      | .held t => (t, false)
      | .finished t => (t, true)

/-- The session controller works through its queue, at most `k` heads, until it is empty, a request waits, the response queue is
full, or a teardown starts (R22). -/
def State.examineUpTo : Nat → Port → State → State
  | 0, _, s => s
  | k + 1, n, s => if (s.examineHead n).2 then State.examineUpTo k n (s.examineHead n).1 else (s.examineHead n).1

/-- The examination of port `n`'s head and of those that follow it at once. One more than the queue's length is enough: each
head served leaves the queue. -/
def State.examine (s : State) (n : Port) : State := State.examineUpTo ((s.link n).requests.length + 1) n s

end Sys2Proof.Machine
end

