-- ==== Sys2Proof/Machine/Boundary.lean ====
section
/-! DEFINITION. The frame boundary (R44, R126): its four steps, the aging of windows (R145), and the pixel clock that leads to
it (R42). -/

namespace Sys2Proof.Machine

/-! ### Step 1: windows of CLOSING ports withdrawn (R106, R126) -/

/-- Every window of the ports that are CLOSING withdrawn from the applied layout, and the applied load computed again. -/
def State.withdrawClosing (s : State) : State :=
  ((allSlots 24).foldl
    (fun s w =>
      match tget s.layouts.owners w with
      | some n => if (s.session n).state = .closing then s.withdrawApplied w else s
      | none => s) s).reload

/-! ### Step 2: ready commits applied (R126, R129) -/

def State.applyCommits (s : State) : State := State.applyReady s.layouts.commits.length s

/-! ### Step 3: aging (R145) -/

/-- The event code, window handle and frame number of STALE (R145, R164). -/
def stalePayload (handle : Nat) (frame : BitVec 32) : List Byte := [0x03] ++ bytes16 handle ++ bytes32 frame

/-- Whether a boundary ages a window: STACKED, visible, a deadline above 0, and no refreshed mark (R145). -/
def LayoutController.ages (c : LayoutController) (w : WinSlot) : Bool :=
  (c.applied.record w).any (fun r => decide (r.state = .stacked) && r.visible && decide (0 < r.deadline)) &&
    !(tget c.fresh w).refreshed

/-- The age after one more boundary, at most 255 (R145). -/
def nextAge (age : Nat) : Nat := if age < 255 then age + 1 else age

/-- The freshness deadline of a window's applied record (R143). -/
def LayoutController.deadline (c : LayoutController) (w : WinSlot) : Nat :=
  match c.applied.record w with
  | some r => r.deadline
  | none => 0

/-- The window in slot `w` aged, if the boundary ages it: its age rises, and at its deadline it becomes stale and STALE is
posted to its owner (R145). -/
def State.ageWindow (s : State) (w : WinSlot) : State :=
  if s.layouts.ages w then
    let f := tget s.layouts.fresh w
    let age := nextAge f.age
    if s.layouts.deadline w ≤ age ∧ f.stale = false then
      let t := s.withLayouts { s.layouts with fresh := tput s.layouts.fresh w { f with age := age, stale := true } }
      match tget s.layouts.owners w with
      | some n => t.post n (stalePayload (windowHandle w (tget s.layouts.gens w)) s.scan.frame)
      | none => t
    else s.withLayouts { s.layouts with fresh := tput s.layouts.fresh w { f with age := age } }
  else s

/-- Every refreshed mark cleared, at the end of step 3 (R143, R145). -/
def LayoutController.clearMarks (c : LayoutController) : LayoutController :=
  { c with fresh := c.fresh.map (fun f => { f with refreshed := false }) }

/-- Step 3 of R126: the windows aged in ascending slot order, then the marks cleared (R145). -/
def State.ageWindows (s : State) : State :=
  let s := (allSlots 24).foldl State.ageWindow s
  s.withLayouts s.layouts.clearMarks

/-! ### Step 4: teardowns finish (R34, R126) -/

/-- The ports that are CLOSING. -/
def State.closingPorts (s : State) : List Port := allPorts.filter (fun n => (s.session n).state = .closing)

/-- One act of the session controller of port `n`: its teardown finish if that is still to come, else one examination of its head.
The Bool says whether it has more to do. -/
def State.controllerAct (s : State) (n : Port) (finish : Bool) : State × Bool :=
  if finish then (s.teardownFinish n, true) else s.examineHead n

/-- The session controllers with work left act one after another, at most `k` acts; `todo` holds each with whether its teardown
finish is still to come. Which acts next is a free value where there is a choice (R22, R34, log entry 10). -/
def State.runControllers : Nat → List (Port × Bool) → State → State
  | 0, _, s => s
  | k + 1, todo, s =>
    match todo with
    | [] => s
    | [(n, finish)] =>
      let r := s.controllerAct n finish
      State.runControllers k (if r.2 then [(n, false)] else []) r.1
    | (n, finish) :: rest =>
      let i := Config.nextController s.free % (rest.length + 1)
      let p := ((n, finish) :: rest).getD i (n, finish)
      let r := s.tick.controllerAct p.1 p.2
      let others := ((n, finish) :: rest).eraseIdx i
      State.runControllers k (if r.2 then others ++ [(p.1, false)] else others) r.1

/-- Acts enough for every port of the list: its finish and one more than its queued requests. -/
def State.actsFor (s : State) (ns : List Port) : Nat := (ns.map (fun n => (s.link n).requests.length + 2)).sum

/-- Step 4 of R126: the session controller of each CLOSING port finishes its teardown and goes on with its queue (R34, R36). -/
def State.finishTeardowns (s : State) : State :=
  State.runControllers (s.actsFor s.closingPorts) (s.closingPorts.map (fun n => (n, true))) s

/-! ### The boundary (R44, R45, R126) -/

/-- The boundary event at the position after the last active pixel: the frame counter advances, the line just output is done
with, and the four steps follow. -/
def State.boundary (s : State) : State :=
  (((s.withScan { s.scan with frame := s.scan.frame + 1, shown := [], fetched := [] }).withdrawClosing.applyCommits
    ).ageWindows).finishTeardowns

/-- FRAME_BOUNDARY as a command: the scan engine outputs the frame up to its last active pixel, and the boundary is taken
there (R44, log entry 4). In UNCONFIGURED there is no boundary (R44, log entry 3). -/
def State.frameBoundary (s : State) : State :=
  match s.scan.timing with
  | none => s
  | some t =>
    let s := s.drawOn
    (s.withScan { s.scan with pos := some (t.vactive - 1, t.hactive) }).boundary

/-- The line position moved on by one pixel clock; at the start of a line, what was fetched for it is what is shown (R42, R47). -/
def Scan.advance (c : Scan) (t : Timing) (line clock : Nat) : Scan :=
  if clock + 1 < t.htotal then { c with pos := some (t.next line clock) }
  else { c with pos := some (t.next line clock), shown := c.fetched, fetched := [] }

/-- PIXEL_CLOCK: one pixel clock passes (R42). The job in flight goes on, the fetch for the next active line proceeds, the
position advances, and after the last active pixel of the frame the boundary is taken (R44). That the job's writes of a clock
come before the reads of that clock is the model's choice (R55, log entry 23). While UNCONFIGURED no pixel clock runs (R52). -/
def State.pixelClock (s : State) : State :=
  match s.scan.timing, s.scan.pos with
  | some t, some (line, clock) =>
    let s := s.drawOn.fetch t line clock
    let s := s.withScan (s.scan.advance t line clock)
    if t.lastActive line clock then s.boundary else s
  | _, _ => s

end Sys2Proof.Machine
end

