-- ==== Sys2Proof/Machine/Commands.lean ====
section
/-! DEFINITION. The commands that are events of the block itself: the pins of a link, device reset, the frame boundary, staleness,
job completion and the pixel clock. Each ends by letting the output pins follow. -/

namespace Sys2Proof.Machine

/-- The outcome of every command: the output pins follow the state it leaves (R15, R43). -/
def settled (s : State) : Host.Outcome State Fault Refusal := .next s.settle

/-! ### Select and clock of a link -/

/-- Select goes active on link `n` (R3). -/
def State.selectActive (s : State) (n : Port) : State := s.mapLink n Link.selectActive

/-- Whether the end of a transaction is an event at which the head is examined: a request joined an empty queue, or a response
was delivered while head wait is RESPONSE_ROOM (R22). -/
def State.examinesAtEnd (s : State) (n : Port) : Bool :=
  let l := s.link n
  (l.requests.isEmpty && !(l.receive (judge l.inBytes)).requests.isEmpty) ||
    (l.deliversResponse && decide ((s.session n).headWait = .responseRoom))

/-- Select goes inactive on link `n` (R2, R7, R10, R22). -/
def State.selectInactive (s : State) (n : Port) : State :=
  match (s.link n).trans with
  | .active =>
    let t := s.mapLink n Link.finishTransaction
    if s.examinesAtEnd n then t.examine n else t
  | .ignored => s.mapLink n Link.endTransaction
  | .idle => s

/-- SELECT_ACTIVE (R3). -/
def execSelectActive (n : Port) (s : State) : Host.Outcome State Fault Refusal := settled (s.selectActive n)

/-- SELECT_INACTIVE (R7). -/
def execSelectInactive (n : Port) (s : State) : Host.Outcome State Fault Refusal := settled (s.selectInactive n)

/-- BYTE_CLOCKED (R1): one rising edge with CLn_DI at `di`. -/
def execByteClocked (n : Port) (di : Bool) (s : State) : Host.Outcome State Fault Refusal :=
  settled (s.mapLink n (fun l => l.clockEdge di))

/-! ### Device reset -/

/-- A link after device reset: IDLE with select released, IGNORED with select asserted (R17). -/
def Link.afterReset (selected : Bool) : Link := { Link.reset with trans := if selected then .ignored else .idle }

/-- The block after device reset, with the selects as they stand at the release of RESET_N. The commands that wait are the
senders', and the free-value counter is the model's own: neither is reset (log entry 6). -/
def State.deviceReset (s : State) (sel0 sel1 sel2 sel3 : Bool) : State :=
  { State.reset with
    links := #v[.afterReset sel0, .afterReset sel1, .afterReset sel2, .afterReset sel3]
    free := s.free
    pending := s.pending }

/-- DEVICE_RESET (R17, R37, R53, R73, R94, R111, R134, R148). -/
def execDeviceReset (sel0 sel1 sel2 sel3 : Bool) (s : State) : Host.Outcome State Fault Refusal :=
  settled (s.deviceReset sel0 sel1 sel2 sel3)

/-! ### Frame boundary, staleness, pixel clock -/

/-- FRAME_BOUNDARY (R44, R126). -/
def execFrameBoundary (s : State) : Host.Outcome State Fault Refusal := settled s.frameBoundary

/-- The STALE event of window `w`: it comes about within a frame boundary, so the command is the boundary that makes the window
stale; where the next boundary would not, the event does not occur (R105, R145, log entry 5). -/
def State.becomeStale (s : State) (w : WinSlot) : State :=
  if (tget s.layouts.fresh w).stale = false ∧ (tget s.frameBoundary.layouts.fresh w).stale = true then s.frameBoundary else s

/-- STALE (R145). -/
def execStale (w : WinSlot) (s : State) : Host.Outcome State Fault Refusal := settled (s.becomeStale w)

/-- PIXEL_CLOCK (R42). -/
def execPixelClock (s : State) : Host.Outcome State Fault Refusal := settled s.pixelClock

/-! ### Job completion -/

/-- Port `n`'s head is examined again if it waits on its jobs (R22, R91). -/
def State.examineWaiting (s : State) (n : Port) : State :=
  if (s.session n).headWait = .jobRoom ∨ (s.session n).headWait = .jobRefs then s.examine n else s

/-- The in-flight job completes, and its port's head is examined if it waits on jobs (R91). -/
def State.jobCompletion (s : State) : State :=
  match s.drawing.inFlight with
  | none => s
  | some f => s.completeJob.examineWaiting f.job.port

/-- JOB_COMPLETION (R91). -/
def execJobCompletion (s : State) : Host.Outcome State Fault Refusal := settled s.jobCompletion

end Sys2Proof.Machine
end

