-- ==== Sys2Proof/Machine/Requests.lean ====
section
/-! DEFINITION. The commands that are requests of a client: each is one whole transaction on the port's link that carries the request
(11.1, log entry 2). What the request does is the serving of its kind (Machine/Sessions.lean), reached through the link,
the request queue and the examination of the head. -/

namespace Sys2Proof.Machine

/-- A link with select released: a transaction still in progress is ended first, as SELECT_INACTIVE ends it (log entry 2). -/
def State.release (s : State) (n : Port) : State :=
  match (s.link n).trans with
  | .idle => s
  | .active => s.selectInactive n
  | .ignored => s.selectInactive n

/-- The length of the outbound frame of the transaction in progress. -/
def Link.outLength (l : Link) : Nat :=
  match l.out with
  | some f => f.bytes.length
  | none => 0

/-- The bytes a client clocks to send a frame and collect the outbound frame: the frame, then 0x00 bytes up to the longer of the
two (11.1). -/
def clockedBytes (frame : List Byte) (outLength : Nat) : List Byte :=
  frame ++ List.replicate (outLength - frame.length) 0

/-- One whole transaction on link `n` that carries the request `r` (R3, R1, R7; 11.1). -/
def State.transact (s : State) (n : Port) (r : Request) : State :=
  let s := (s.release n).selectActive n
  (s.mapLink n (fun l => l.clockBytes (clockedBytes r.frame l.outLength))).selectInactive n

/-- NOP (R8). -/
def execNop (n : Port) (tag : Byte) (payload : List Byte) (s : State) : Host.Outcome State Fault Refusal :=
  settled (s.transact n ⟨nopCode, tag, payload⟩)

/-- UNKNOWN_KIND (R23). -/
def execUnknownKind (n : Port) (kind tag : Byte) (payload : List Byte) (s : State) : Host.Outcome State Fault Refusal :=
  settled (s.transact n ⟨kind, tag, payload⟩)

/-- IDENTIFY (R150). -/
def execIdentify (n : Port) (tag : Byte) (payload : List Byte) (s : State) : Host.Outcome State Fault Refusal :=
  settled (s.transact n ⟨Kind.identify.code, tag, payload⟩)

/-- OPEN (R29, R30). -/
def execOpenSession (n : Port) (tag : Byte) (payload : List Byte) (s : State) : Host.Outcome State Fault Refusal :=
  settled (s.transact n ⟨Kind.openSession.code, tag, payload⟩)

/-- CLOSE (R31). -/
def execCloseSession (n : Port) (tag : Byte) (payload : List Byte) (s : State) : Host.Outcome State Fault Refusal :=
  settled (s.transact n ⟨Kind.closeSession.code, tag, payload⟩)

/-- QUERY_SESSION (R151). -/
def execQuerySession (n : Port) (tag : Byte) (payload : List Byte) (s : State) : Host.Outcome State Fault Refusal :=
  settled (s.transact n ⟨Kind.querySession.code, tag, payload⟩)

/-- SET_TIMING (R39, R40). -/
def execSetTiming (n : Port) (tag : Byte) (payload : List Byte) (s : State) : Host.Outcome State Fault Refusal :=
  settled (s.transact n ⟨Kind.setTiming.code, tag, payload⟩)

/-- CREATE_SURFACE (R61, R62). -/
def execCreateSurface (n : Port) (tag : Byte) (payload : List Byte) (s : State) : Host.Outcome State Fault Refusal :=
  settled (s.transact n ⟨Kind.createSurface.code, tag, payload⟩)

/-- DESTROY_SURFACE (R69, R70). -/
def execDestroySurface (n : Port) (tag : Byte) (payload : List Byte) (s : State) : Host.Outcome State Fault Refusal :=
  settled (s.transact n ⟨Kind.destroySurface.code, tag, payload⟩)

/-- QUERY_SURFACE (R152). -/
def execQuerySurface (n : Port) (tag : Byte) (payload : List Byte) (s : State) : Host.Outcome State Fault Refusal :=
  settled (s.transact n ⟨Kind.querySurface.code, tag, payload⟩)

/-- QUERY_MEMORY (R155). -/
def execQueryMemory (n : Port) (tag : Byte) (payload : List Byte) (s : State) : Host.Outcome State Fault Refusal :=
  settled (s.transact n ⟨Kind.queryMemory.code, tag, payload⟩)

/-- QUERY_PANEL (R154). -/
def execQueryPanel (n : Port) (tag : Byte) (payload : List Byte) (s : State) : Host.Outcome State Fault Refusal :=
  settled (s.transact n ⟨Kind.queryPanel.code, tag, payload⟩)

/-- WRITE (R79). -/
def execWrite (n : Port) (tag : Byte) (payload : List Byte) (s : State) : Host.Outcome State Fault Refusal :=
  settled (s.transact n ⟨Kind.write.code, tag, payload⟩)

/-- FILL (R80). -/
def execFill (n : Port) (tag : Byte) (payload : List Byte) (s : State) : Host.Outcome State Fault Refusal :=
  settled (s.transact n ⟨Kind.fill.code, tag, payload⟩)

/-- COPY (R81). -/
def execCopy (n : Port) (tag : Byte) (payload : List Byte) (s : State) : Host.Outcome State Fault Refusal :=
  settled (s.transact n ⟨Kind.copy.code, tag, payload⟩)

/-- CHECKSUM (R82). -/
def execChecksum (n : Port) (tag : Byte) (payload : List Byte) (s : State) : Host.Outcome State Fault Refusal :=
  settled (s.transact n ⟨Kind.checksum.code, tag, payload⟩)

/-- CREATE_WINDOW (R100, R101). -/
def execCreateWindow (n : Port) (tag : Byte) (payload : List Byte) (s : State) : Host.Outcome State Fault Refusal :=
  settled (s.transact n ⟨Kind.createWindow.code, tag, payload⟩)

/-- QUERY_WINDOW (R153). -/
def execQueryWindow (n : Port) (tag : Byte) (payload : List Byte) (s : State) : Host.Outcome State Fault Refusal :=
  settled (s.transact n ⟨Kind.queryWindow.code, tag, payload⟩)

/-- QUERY_LOAD (R156). -/
def execQueryLoad (n : Port) (tag : Byte) (payload : List Byte) (s : State) : Host.Outcome State Fault Refusal :=
  settled (s.transact n ⟨Kind.queryLoad.code, tag, payload⟩)

/-- COMMIT (R114). -/
def execCommit (n : Port) (tag : Byte) (payload : List Byte) (s : State) : Host.Outcome State Fault Refusal :=
  settled (s.transact n ⟨Kind.commit.code, tag, payload⟩)

/-- ACQUIRE_ALERT (R136). -/
def execAcquireAlert (n : Port) (tag : Byte) (payload : List Byte) (s : State) : Host.Outcome State Fault Refusal :=
  settled (s.transact n ⟨Kind.acquireAlert.code, tag, payload⟩)

/-- RELEASE_ALERT (R137). -/
def execReleaseAlert (n : Port) (tag : Byte) (payload : List Byte) (s : State) : Host.Outcome State Fault Refusal :=
  settled (s.transact n ⟨Kind.releaseAlert.code, tag, payload⟩)

/-- QUERY_ALERT (R157). -/
def execQueryAlert (n : Port) (tag : Byte) (payload : List Byte) (s : State) : Host.Outcome State Fault Refusal :=
  settled (s.transact n ⟨Kind.queryAlert.code, tag, payload⟩)

end Sys2Proof.Machine
end

