-- ==== Sys2Proof/Machine/Dispatch.lean ====
section
/-! DEFINITION. The command dispatch: one arm for each constructor of Instr, each one call of its meaning. -/

namespace Sys2Proof.Machine

def exec (i : Instr) (s : State) : Host.Outcome State Fault Refusal :=
  match i with
  | .selectActive n => Sys2Proof.Machine.execSelectActive n s
  | .selectInactive n => Sys2Proof.Machine.execSelectInactive n s
  | .nop n tag p => Sys2Proof.Machine.execNop n tag p s
  | .deviceReset a b c d => Sys2Proof.Machine.execDeviceReset a b c d s
  | .unknownKind n kind tag p => Sys2Proof.Machine.execUnknownKind n kind tag p s
  | .identify n tag p => Sys2Proof.Machine.execIdentify n tag p s
  | .openSession n tag p => Sys2Proof.Machine.execOpenSession n tag p s
  | .closeSession n tag p => Sys2Proof.Machine.execCloseSession n tag p s
  | .querySession n tag p => Sys2Proof.Machine.execQuerySession n tag p s
  | .setTiming n tag p => Sys2Proof.Machine.execSetTiming n tag p s
  | .frameBoundary => Sys2Proof.Machine.execFrameBoundary s
  | .stale w => Sys2Proof.Machine.execStale w s
  | .createSurface n tag p => Sys2Proof.Machine.execCreateSurface n tag p s
  | .destroySurface n tag p => Sys2Proof.Machine.execDestroySurface n tag p s
  | .querySurface n tag p => Sys2Proof.Machine.execQuerySurface n tag p s
  | .queryMemory n tag p => Sys2Proof.Machine.execQueryMemory n tag p s
  | .queryPanel n tag p => Sys2Proof.Machine.execQueryPanel n tag p s
  | .write n tag p => Sys2Proof.Machine.execWrite n tag p s
  | .fill n tag p => Sys2Proof.Machine.execFill n tag p s
  | .copy n tag p => Sys2Proof.Machine.execCopy n tag p s
  | .checksum n tag p => Sys2Proof.Machine.execChecksum n tag p s
  | .jobCompletion => Sys2Proof.Machine.execJobCompletion s
  | .createWindow n tag p => Sys2Proof.Machine.execCreateWindow n tag p s
  | .queryWindow n tag p => Sys2Proof.Machine.execQueryWindow n tag p s
  | .queryLoad n tag p => Sys2Proof.Machine.execQueryLoad n tag p s
  | .commit n tag p => Sys2Proof.Machine.execCommit n tag p s
  | .acquireAlert n tag p => Sys2Proof.Machine.execAcquireAlert n tag p s
  | .releaseAlert n tag p => Sys2Proof.Machine.execReleaseAlert n tag p s
  | .queryAlert n tag p => Sys2Proof.Machine.execQueryAlert n tag p s
  | .pixelClock => Sys2Proof.Machine.execPixelClock s
  | .byteClocked n di => Sys2Proof.Machine.execByteClocked n di s

end Sys2Proof.Machine
end

