-- ==== Sys2Proof/Safety.lean ====
section
/-! DEFINITION. The terms that statements about the block are made in: what a transaction leaves on a link, when a request is served
at once, how references are counted, which windows a teardown takes, and the conditions that every state of a run meets. -/

namespace Sys2Proof.Machine

/-! ### Commands that carry a request -/

/-- The port and the request that a command's frame carries; none for the commands that are no frame. -/
def carried : Instr → Option (Port × Request)
  | .selectActive _ => none
  | .selectInactive _ => none
  | .nop n tag p => some (n, ⟨nopCode, tag, p⟩)
  | .deviceReset _ _ _ _ => none
  | .unknownKind n kind tag p => some (n, ⟨kind, tag, p⟩)
  | .identify n tag p => some (n, ⟨Kind.identify.code, tag, p⟩)
  | .openSession n tag p => some (n, ⟨Kind.openSession.code, tag, p⟩)
  | .closeSession n tag p => some (n, ⟨Kind.closeSession.code, tag, p⟩)
  | .querySession n tag p => some (n, ⟨Kind.querySession.code, tag, p⟩)
  | .setTiming n tag p => some (n, ⟨Kind.setTiming.code, tag, p⟩)
  | .frameBoundary => none
  | .stale _ => none
  | .createSurface n tag p => some (n, ⟨Kind.createSurface.code, tag, p⟩)
  | .destroySurface n tag p => some (n, ⟨Kind.destroySurface.code, tag, p⟩)
  | .querySurface n tag p => some (n, ⟨Kind.querySurface.code, tag, p⟩)
  | .queryMemory n tag p => some (n, ⟨Kind.queryMemory.code, tag, p⟩)
  | .queryPanel n tag p => some (n, ⟨Kind.queryPanel.code, tag, p⟩)
  | .write n tag p => some (n, ⟨Kind.write.code, tag, p⟩)
  | .fill n tag p => some (n, ⟨Kind.fill.code, tag, p⟩)
  | .copy n tag p => some (n, ⟨Kind.copy.code, tag, p⟩)
  | .checksum n tag p => some (n, ⟨Kind.checksum.code, tag, p⟩)
  | .jobCompletion => none
  | .createWindow n tag p => some (n, ⟨Kind.createWindow.code, tag, p⟩)
  | .queryWindow n tag p => some (n, ⟨Kind.queryWindow.code, tag, p⟩)
  | .queryLoad n tag p => some (n, ⟨Kind.queryLoad.code, tag, p⟩)
  | .commit n tag p => some (n, ⟨Kind.commit.code, tag, p⟩)
  | .acquireAlert n tag p => some (n, ⟨Kind.acquireAlert.code, tag, p⟩)
  | .releaseAlert n tag p => some (n, ⟨Kind.releaseAlert.code, tag, p⟩)
  | .queryAlert n tag p => some (n, ⟨Kind.queryAlert.code, tag, p⟩)
  | .pixelClock => none
  | .byteClocked _ _ => none

/-! ### What a whole transaction leaves (R3, R7 to R11) -/

/-- A link in IDLE after one whole transaction in which the client collected the complete outbound frame: the head response, or
the head event if there was no response, has left its queue; the reported flags are clear; `queue` is the request queue the
inbound frame leaves, and `overrun` says whether it found the queue full. -/
def Link.afterTransaction (l : Link) (queue : List Request) (overrun : Bool) : Link where
  trans := .idle
  requests := queue
  responses := l.responses.tail
  events := if l.responses.isEmpty then l.events.tail else l.events
  flags := ⟨overrun, false, false⟩
  reported := .clear
  seq := l.seq
  out := none
  inBytes := []
  inBits := []
  dout := none

/-- The state when request `r`, carried on link `n` by a whole transaction, has come to the head of an empty request queue. -/
def State.heard (s : State) (n : Port) (r : Request) : State := s.withLink n ((s.link n).afterTransaction [r] false)

/-- The state when a request of a quiet port `n` has been answered and nothing beside the port's link and head wait has changed:
the transaction has delivered what it could, and the response is at the tail of the response queue. -/
def State.replied (s : State) (n : Port) (tag : Byte) (payload : List Byte) : State :=
  { s with
    links := tput s.links n
      { (s.link n).afterTransaction [] false with responses := (s.link n).responses.tail ++ [⟨tag, payload⟩] }
    sessions := tput s.sessions n { s.session n with headWait := .none } }

/-- Port `n` is quiet: its link is IDLE, no request is queued, the response queue is within its depth, and no teardown holds the
head. A request sent to a quiet port is served, or begins to wait, in the transaction that brings it (R9, R22). -/
def State.quiet (s : State) (n : Port) : Prop :=
  (s.link n).trans = .idle ∧ (s.link n).requests = [] ∧ (s.link n).responses.length ≤ Config.responseDepth ∧
    (s.session n).headWait ≠ .teardown

/-! ### References to surfaces, counted (R64 to R66) -/

/-- The table whose entry of slot `i` is `f i`. Irreducible, so that no unifier walks through its slots. -/
@[irreducible] def tabulate {α : Type} {n : Nat} (f : Fin n → α) : Table α n := Vector.ofFn f

/-- 1 for the surface slot that a surface handle's slot field names, and 0 for every other (R58). -/
def refTo (handle : Nat) (i : SurfSlot) : Nat := if handle % 64 = i.val then 1 else 0

/-- The references a job holds on the surface in slot `i`: one on its target, and for COPY one on its source (R66). -/
def Job.refsOn (j : Job) (i : SurfSlot) : Nat :=
  refTo j.target i +
    match j.work with
    | .copy source _ _ => refTo source i
    | .write _ => 0
    | .fill _ => 0
    | .checksum => 0

/-- What an operation adds to queued_refs of the surface in slot `i`: one if it is a SOURCE that names it (R65). -/
def Op.refsOn (op : Op) (i : SurfSlot) : Nat :=
  match op with
  | .source _ present surface _ _ => if present = 1 then refTo surface i else 0
  | _ => 0

/-- What a window's applied record adds to shown_refs of the surface in slot `i`: one if it is STACKED with that source (R64). -/
def WindowRec.refsOn (r : WindowRec) (i : SurfSlot) : Nat :=
  match r.source with
  | some d => if r.state = .stacked then refTo d.handle i else 0
  | none => 0

/-- The surface manager with each surface record changed by `f`, which is told its slot; nothing else of it changes. -/
def Surfaces.changed (m : Surfaces) (f : SurfSlot → Surface → Surface) : Surfaces :=
  { m with slots := tabulate (fun i => ⟨(tget m.slots i).gen, (tget m.slots i).surface.map (f i)⟩) }

/-! ### The writes of the job in flight (R87 to R89) -/

/-- The record of a surface fit to hold its pixels: pages of its own, each once, a stride of whole 64-byte runs that holds a row,
and pages enough for every row (R49, R56). -/
def Surface.laidOut (f : Surface) : Prop :=
  f.pageList.Nodup ∧ f.stride % 64 = 0 ∧ f.width * f.format.bytes ≤ f.stride ∧ f.stride * f.height ≤ 4096 * f.pageList.length

/-- The positions of its rectangle in the order in which a job writes them: row by row from the top, each row from the left (R87),
but for a COPY within one surface whose rectangles share a pixel, where it is the table of R89. A CHECKSUM writes none. -/
def Job.order (j : Job) : List (Nat × Nat) :=
  let down := List.range j.h
  let right := List.range j.w
  match j.work with
  | .write _ => down.flatMap (fun b => right.map (fun a => (a, b)))
  | .fill _ => down.flatMap (fun b => right.map (fun a => (a, b)))
  | .copy source sx sy =>
    if source = j.target ∧ j.x < sx + j.w ∧ sx < j.x + j.w ∧ j.y < sy + j.h ∧ sy < j.y + j.h then
      if sy < j.y then down.reverse.flatMap (fun b => right.map (fun a => (a, b)))
      else if sy = j.y ∧ sx < j.x then down.flatMap (fun b => right.reverse.map (fun a => (a, b)))
      else down.flatMap (fun b => right.map (fun a => (a, b)))
    else down.flatMap (fun b => right.map (fun a => (a, b)))
  | .checksum => []

/-- The job's pixel for a position of its rectangle, in a surface whose pixels have `bytes` bytes: the request's bytes row by row, the
fill pixel, or the source pixel taken at the choice (R79, R80, R88, R89). -/
def InFlight.places (f : InFlight) (bytes : Nat) (p : Nat × Nat) (pixel : List Byte) : Prop :=
  pixel.length = bytes ∧
    ((∃ given, f.job.work = .write given ∧ pixel = (given.drop ((p.2 * f.job.w + p.1) * bytes)).take bytes) ∨
      f.job.work = .fill pixel ∨
      ∃ source sx sy, f.job.work = .copy source sx sy ∧ f.taken[p.2 * f.job.w + p.1]? = some pixel)

/-- The first `k` positions of the job's order hold the job's pixels in memory `m`, its target being `g`. -/
def InFlight.stands (f : InFlight) (m : Memory) (g : Surface) (k : Nat) : Prop :=
  ∀ p ∈ f.job.order.take k, ∀ pixel, f.places g.format.bytes p pixel →
    readPixel m g (f.job.x + p.1) (f.job.y + p.2) = pixel

/-- Address `x` is no byte of a pixel of the job's rectangle in its target (R49, R87). -/
def State.outside (s : State) (j : Job) (x : Nat) : Prop :=
  ∀ i g a b at', s.surfaces.named j.target = some (i, g) → a < j.w → b < j.h →
    g.address (g.pixelOffset (j.x + a) (j.y + b)) = some at' → ¬ (at' ≤ x ∧ x < at' + g.format.bytes)

/-- The frame memory and the drawing engine of `t` are those of `s`, but that the job in flight may have written on, by a number of
pixels that is a free value (log entry 8): the pixels up to some place in its order then hold its own, those beyond it and
every byte outside its rectangle read as before, and a CHECKSUM writes nothing (R87). -/
def State.drawsOn (s t : State) : Prop :=
  (s.drawing.inFlight = none → t.mem = s.mem ∧ t.drawing = s.drawing) ∧
  ∀ f, s.drawing.inFlight = some f →
    ∃ k, f.written ≤ k ∧ t.drawing = { s.drawing with inFlight := some { f with written := k } } ∧
      (f.job.work = .checksum → t.mem = s.mem) ∧
      (Memory.wf s.mem = true →
        (∀ x, s.outside f.job x → Memory.read t.mem x = Memory.read s.mem x) ∧
        ∀ i g, s.surfaces.named f.job.target = some (i, g) → g.laidOut → f.job.x + f.job.w ≤ g.width →
          f.job.y + f.job.h ≤ g.height →
          (f.stands s.mem g f.written → f.stands t.mem g k) ∧
            ∀ p ∈ f.job.order.drop k,
              readPixel t.mem g (f.job.x + p.1) (f.job.y + p.2) = readPixel s.mem g (f.job.x + p.1) (f.job.y + p.2))

/-! ### Windows that a teardown takes (R106) -/

/-- The window in slot `w` belongs to a port that is CLOSING. -/
def State.closes (s : State) (w : WinSlot) : Bool :=
  (tget s.layouts.owners w).any (fun n => decide ((s.session n).state = .closing))

/-- The layout with the windows that `p` picks WITHDRAWN: out of their lists, the others in their order (R104, R106). -/
def Layout.without (l : Layout) (p : WinSlot → Bool) : Layout where
  recs := tabulate (fun w => if p w then (l.record w).map (fun r => { r with state := .withdrawn }) else l.record w)
  bands :=
    ⟨l.bands.base.filter (fun w => !p w), l.bands.main.filter (fun w => !p w), l.bands.overlay.filter (fun w => !p w),
      l.bands.alert.filter (fun w => !p w)⟩

/-- The layout without the windows that `p` picks: no record, and out of their lists (R103). -/
def Layout.lacking (l : Layout) (p : WinSlot → Bool) : Layout where
  recs := tabulate (fun w => if p w then none else l.record w)
  bands := (l.without p).bands

/-- What the window in slot `w` adds to shown_refs of the surface in slot `i` by its record in the layout (R64). -/
def Layout.refsOn (l : Layout) (w : WinSlot) (i : SurfSlot) : Nat :=
  match l.record w with
  | some r => r.refsOn i
  | none => 0

/-- What the windows that `p` picks add to it together. -/
def Layout.refsTo (l : Layout) (p : WinSlot → Bool) (i : SurfSlot) : Nat :=
  (((allSlots 24).filter p).map (fun w => l.refsOn w i)).sum

/-! ### A teardown's two halves (R32, R35, R36) -/

/-- How often page `p` stands in the page list of a surface slot. -/
def SurfaceEntry.countPage (e : SurfaceEntry) (p : Nat) : Nat :=
  match e.surface with
  | none => 0
  | some f => f.pageList.count p

/-- `t` is `s` after the teardown start of port `n` by request `r`, which stays at the head: the port CLOSING with its cause and
label held; its response and event queues, its jobs, its pending commits, its projected windows and its claim on the token gone,
with the references they held; the rest as it stands. An aborted job stops where it is (log entry 8), and the engine makes its
next choice (R16, R32, R93, R106, R133, R140). -/
def State.startsTeardown (s : State) (n : Port) (cause : ClosingCause) (label : Option (BitVec 32)) (r : Request)
    (t : State) : Prop :=
  t.session n = { s.session n with state := .closing, cause := cause, pendingLabel := label, headWait := .teardown } ∧
  (∀ m, m ≠ n → t.session m = s.session m) ∧
  (t.link n).requests = [r] ∧ (t.link n).responses = [] ∧ (t.link n).events = [] ∧
  (t.link n).flags = ⟨false, false, false⟩ ∧ (t.link n).seq = (s.link n).seq ∧
  (∀ m, m ≠ n → (s.layouts.holder = some n → s.layouts.waiting.head? ≠ some m) → t.link m = s.link m) ∧
  t.layouts = { s.layouts with
    commits := s.layouts.commits.filter (fun p => p.port ≠ n)
    projected := s.layouts.projected.without (fun w => tget s.layouts.owners w = some n)
    projectedLoad := loadTable s.scan.timing (s.layouts.projected.without (fun w => tget s.layouts.owners w = some n))
    holder := t.layouts.holder
    waiting := t.layouts.waiting } ∧
  (s.layouts.holder ≠ some n →
    t.layouts.holder = s.layouts.holder ∧ t.layouts.waiting = s.layouts.waiting.filter (· != n)) ∧
  (s.layouts.holder = some n → s.layouts.waiting = [] → t.layouts.holder = none ∧ t.layouts.waiting = []) ∧
  (∀ q rest, s.layouts.holder = some n → s.layouts.waiting = q :: rest →
    t.layouts.holder = some q ∧ t.layouts.waiting = rest ∧ t.link q = (s.link q).post [0x04]) ∧
  t.surfaces = s.surfaces.changed (fun i f =>
    { f with
      jobRefs := f.jobRefs - ((s.drawing.outstanding n).map (fun j => j.refsOn i)).sum
      queuedRefs := f.queuedRefs -
        (((s.layouts.commits.filter (fun p => p.port = n)).flatMap (fun p => p.ops)).map
          (fun op => op.refsOn i)).sum }) ∧
  t.scan = s.scan ∧ t.drawing.issued = s.drawing.issued ∧ t.drawing.completed = s.drawing.completed ∧
  t.drawing.outstanding n = [] ∧ (∀ m, m ≠ n → t.drawing.outstanding m = s.drawing.outstanding m) ∧
  ((∀ f, s.drawing.inFlight = some f → f.job.port ≠ n) →
    t.mem = s.mem ∧ t.drawing = { s.drawing with queues := tput s.drawing.queues n [] }) ∧
  ∀ f, s.drawing.inFlight = some f → f.job.port = n →
    ((∀ m, m ≠ n → tget s.drawing.queues m = []) →
      t.drawing = { s.drawing with queues := tput s.drawing.queues n [], inFlight := none }) ∧
    (∀ (k : Fin 4) (j : Job) (rest : List Job), s.drawing.pointer + k ≠ n →
      tget s.drawing.queues (s.drawing.pointer + k) = j :: rest →
      (∀ i : Fin 4, i < k → s.drawing.pointer + i ≠ n → tget s.drawing.queues (s.drawing.pointer + i) = []) →
      ∃ taken, t.drawing = { s.drawing with
          queues := tput (tput s.drawing.queues n []) (s.drawing.pointer + k) rest
          inFlight := some ⟨j, taken, 0⟩
          pointer := s.drawing.pointer + k + 1 } ∧
        ∀ source sx sy i h a b, j.work = .copy source sx sy → s.surfaces.named source = some (i, h) → a < j.w →
          b < j.h → taken[b * j.w + a]? = some (readPixel t.mem h (sx + a) (sy + b))) ∧
    (Memory.wf s.mem = true → ∀ x, s.outside f.job x → Memory.read t.mem x = Memory.read s.mem x)

/-- `t` is `s` after the teardown finish of port `n`, whose request `r` stands at the head before `rest`: the port's windows and
surfaces freed, each slot's generation advanced and its pages returned, its counts 0, its state and number by the cause, and
the request answered; the rest as it stands (R35, R36, R71, R103, R112). -/
def State.finishesTeardown (s : State) (n : Port) (r : Request) (rest : List Request) (t : State) : Prop :=
  let takeover := (s.session n).cause = .takeover
  let number := if takeover then (if (s.session n).number ≥ 255 then 1 else (s.session n).number + 1) else (s.session n).number
  let own : WinSlot → Bool := fun w => tget s.layouts.owners w = some n
  let owned : SurfSlot → Bool := fun i => (tget s.surfaces.slots i).surface.any (fun f => f.owner = n)
  t.links = tput s.links n
    { s.link n with
      requests := rest
      responses := (s.link n).responses ++ [⟨r.tag, [if takeover then 0x02 else 0x03, 0x00, BitVec.ofNat 8 number]⟩]
      seq := if takeover then 0 else (s.link n).seq } ∧
  t.sessions = tput s.sessions n
    (if takeover then ⟨.opened, number, (s.session n).pendingLabel.getD 0, .none, none, .none⟩
      else ⟨.closed, number, 0, .none, none, .none⟩) ∧
  t.drawing =
    (if takeover then
      { s.drawing with issued := tput s.drawing.issued n 0, completed := tput s.drawing.completed n 0 } else s.drawing) ∧
  t.layouts =
    { s.layouts with
      owners := tabulate (fun w => if own w then none else tget s.layouts.owners w)
      gens := tabulate (fun w => if own w then (if tget s.layouts.gens w + 1 ≥ 2048 then 0 else tget s.layouts.gens w + 1)
        else tget s.layouts.gens w)
      winCount := tput s.layouts.winCount n 0
      applied := s.layouts.applied.lacking own
      projected := s.layouts.projected.lacking own
      appliedLoad := loadTable s.scan.timing (s.layouts.applied.lacking own)
      projectedLoad := loadTable s.scan.timing (s.layouts.projected.lacking own)
      fresh := tabulate (fun w => if own w then ⟨0, false, false⟩ else tget s.layouts.fresh w) } ∧
  (∀ i, tget t.surfaces.slots i =
    if owned i then
      ⟨if (tget s.surfaces.slots i).gen + 1 ≥ 1024 then 0 else (tget s.surfaces.slots i).gen + 1, none⟩
    else
      ⟨(tget s.surfaces.slots i).gen, (tget s.surfaces.slots i).surface.map (fun f =>
        { f with shownRefs := f.shownRefs - s.layouts.applied.refsTo own i })⟩) ∧
  (∀ p, t.surfaces.freePages.count p = s.surfaces.freePages.count p +
    (((allSlots 48).filter owned).map (fun i => (tget s.surfaces.slots i).countPage p)).sum) ∧
  t.surfaces.pageCount = tput s.surfaces.pageCount n 0 ∧ t.surfaces.surfCount = tput s.surfaces.surfCount n 0 ∧
  t.scan = s.scan ∧ t.mem = s.mem ∧ t.pending = s.pending

/-- Session controllers with work left, each with whether its teardown finish is still to come, work from `s` to `t`: again and
again one of them, whichever (log entry 10), finishes its teardown or examines its head, and leaves when it has no more to do.
The free-value counter may move at each act. -/
inductive State.ControllersRun : List (Port × Bool) → State → State → Prop
  | done (s : State) : ControllersRun [] s s
  | finish (s t : State) (before after : List (Port × Bool)) (n : Port) (k : Nat)
      (h : ControllersRun (before ++ after ++ [(n, false)]) (({ s with free := k } : State).teardownFinish n) t) :
      ControllersRun (before ++ (n, true) :: after) s t
  | more (s t : State) (before after : List (Port × Bool)) (n : Port) (k : Nat)
      (more : (({ s with free := k } : State).examineHead n).2 = true)
      (h : ControllersRun (before ++ after ++ [(n, false)]) (({ s with free := k } : State).examineHead n).1 t) :
      ControllersRun (before ++ (n, false) :: after) s t
  | last (s t : State) (before after : List (Port × Bool)) (n : Port) (k : Nat)
      (last : (({ s with free := k } : State).examineHead n).2 = false)
      (h : ControllersRun (before ++ after) (({ s with free := k } : State).examineHead n).1 t) :
      ControllersRun (before ++ (n, false) :: after) s t

/-! ### Conditions that every step keeps -/

/-- No queue of a link holds more than its depth, and a CLOSING port has a request at its head that waits for the teardown, and no
response (R9, R12, R13, R25, R32). -/
def State.queuesBounded (s : State) : Prop :=
  ∀ n : Port,
    (s.link n).requests.length ≤ Config.requestDepth ∧ (s.link n).responses.length ≤ Config.responseDepth ∧
      (s.link n).events.length ≤ Config.eventDepth ∧
      ((s.session n).state = .closing → (s.session n).headWait = .teardown ∧ (s.link n).responses = [])

/-- The line position is inside the frame of the record in force, which is valid; there is none while UNCONFIGURED (R38, R42,
R52). -/
def Scan.sound (c : Scan) : Prop :=
  match c.timing with
  | none => c.pos = none ∧ c.frame = 0
  | some t => t.valid = true ∧ ∃ line clock, c.pos = some (line, clock) ∧ line < t.vtotal ∧ clock < t.htotal

/-- Every queued job is in the queue of its own port, and no port has more than 4 jobs queued or in flight (R74). -/
def Drawing.sound (d : Drawing) : Prop :=
  ∀ n : Port, (d.outstanding n).length ≤ Config.jobDepth ∧ ∀ j ∈ tget d.queues n, j.port = n

/-- The alert token: the waiting list holds no port twice, never the holder, and none while there is no holder (R135). -/
def LayoutController.tokenSound (c : LayoutController) : Prop :=
  c.waiting.Nodup ∧ (∀ n, c.holder = some n → n ∉ c.waiting) ∧ (c.holder = none → c.waiting = [])

/-- A FREE window slot has no record in either layout, and there is no record at all while the scan engine is UNCONFIGURED
(R98, R103, R109). -/
def State.recordsOwned (s : State) : Prop :=
  (∀ w, tget s.layouts.owners w = none → s.layouts.applied.record w = none ∧ s.layouts.projected.record w = none) ∧
    (s.scan.timing = none → ∀ w, s.layouts.applied.record w = none ∧ s.layouts.projected.record w = none)

/-- Each load table is the table of its layout, and no line of the projected one is above the line budget (R109, R122). -/
def State.loadsSound (s : State) : Prop :=
  s.layouts.appliedLoad = loadTable s.scan.timing s.layouts.applied ∧
    s.layouts.projectedLoad = loadTable s.scan.timing s.layouts.projected ∧
    ∀ x ∈ s.layouts.projectedLoad, x ≤ s.scan.budget

/-- The band lists of a layout hold exactly the windows that are STACKED in it, each in the list of its band and once (R104). -/
def Layout.stackSound (l : Layout) : Prop :=
  ∀ k : Band, (l.bands.list k).Nodup ∧
    ∀ w, w ∈ l.bands.list k ↔ ∃ r, l.record w = some r ∧ r.state = .stacked ∧ r.band = k

/-- Band ALERT of the projected layout holds at most one window, and it is a window of the port that holds the token (R119, R142). -/
def LayoutController.alertSound (c : LayoutController) : Prop :=
  c.projected.bands.alert.length ≤ 1 ∧
    ∀ w ∈ c.projected.bands.alert, ∃ n, tget c.owners w = some n ∧ c.holder = some n

/-- The window is in the layout and not WITHDRAWN there. -/
def Layout.live (l : Layout) (w : WinSlot) : Prop := ∃ r, l.record w = some r ∧ r.state ≠ .withdrawn

/-- Two layouts agree: their band lists are the same, and so is each record, but that a window may be WITHDRAWN in one where it is
WITHDRAWN or absent in the other (R105, R128). -/
def Layout.agrees (l k : Layout) : Prop := l.bands = k.bands ∧ ∀ w, l.record w = k.record w ∨ (¬ l.live w ∧ ¬ k.live w)

/-- A layout the panel can show: its band lists are right (R104), band ALERT holds at most one window (R142), and no line's load is
above the line budget (R109). -/
def State.showable (s : State) (l : Layout) : Prop :=
  l.stackSound ∧ l.bands.alert.length ≤ 1 ∧ ∀ x ∈ loadTable s.scan.timing l, x ≤ s.scan.budget

/-- An operation of port `n` finds in layout `l` what its checks found: its window, of the port and not WITHDRAWN; for a RESTACK
ABOVE or BELOW the reference, of the port, STACKED in the window's band and not the window; and for a SOURCE that names a
surface that surface, of the port (R128). -/
def State.finds (s : State) (n : Port) (l : Layout) (op : Op) : Prop :=
  ∃ w, s.layouts.named op.window = some (w, n) ∧ l.live w ∧
    (∀ h mode ref, op = .restack h mode ref → mode = 2 ∨ mode = 3 →
      ∃ v p q, s.layouts.named ref = some (v, n) ∧ v ≠ w ∧ (l.stackIfReserved w).record w = some p ∧
        (l.stackIfReserved w).record v = some q ∧ q.state = .stacked ∧ q.band = p.band) ∧
    ∀ h surface sx sy, op = .source h 1 surface sx sy → ∃ i f, s.surfaces.named surface = some (i, f) ∧ f.owner = n

/-- The layout after an operation, carried out for the window it names. -/
def State.played (s : State) (l : Layout) (op : Op) : Layout :=
  match s.layouts.named op.window with
  | some (w, _) => op.carryOut s.surfaces w l
  | none => l

/-- Each operation of the list, in order, finds what its checks found. -/
def State.findsAll (s : State) (n : Port) : List Op → Layout → Prop
  | [], _ => True
  | op :: ops, l => s.finds n l op ∧ s.findsAll n ops (s.played l op)

/-- The pending commits played in order on a layout: each finds what it was accepted with and leaves a layout the panel can show,
and after the last the layout agrees with `last` (R128). -/
def State.playsTo (s : State) : List Pending → Layout → Layout → Prop
  | [], l, last => l.agrees last
  | p :: rest, l, last =>
    s.findsAll p.port p.ops l ∧ s.showable (p.ops.foldl s.played l) ∧ s.playsTo rest (p.ops.foldl s.played l) last

/-- The two layouts and the pending commits between them (R105, R109, R124, R128, R142). Both layouts hold a record for exactly the
slots that hold a window, and none holds one while UNCONFIGURED. A window is WITHDRAWN in the applied layout only while its
port is CLOSING. A port with a commit pending is OPEN. queued_refs count the pending SOURCE operations (R65). The panel can
show the applied layout, and with the CLOSING ports' windows withdrawn the pending commits play on it to the projected one. -/
def State.presentationSound (s : State) : Prop :=
  (∀ w, ((s.layouts.applied.record w).isSome = (tget s.layouts.owners w).isSome) ∧
    ((s.layouts.projected.record w).isSome = (tget s.layouts.owners w).isSome)) ∧
  (s.scan.timing = none → ∀ w, tget s.layouts.owners w = none) ∧
  (∀ w r, s.layouts.applied.record w = some r → r.state = .withdrawn → s.closes w = true) ∧
  (∀ p ∈ s.layouts.commits, (s.session p.port).state = .opened) ∧
  (∀ i f, (tget s.surfaces.slots i).surface = some f →
    f.queuedRefs = ((s.layouts.commits.flatMap (fun p => p.ops)).map (fun op => op.refsOn i)).sum) ∧
  s.showable s.layouts.applied ∧
  s.playsTo s.layouts.commits (s.layouts.applied.without s.closes) s.layouts.projected

/-- Each page 0 to 4095 is free or belongs to exactly one surface at exactly one position of its page list, and the list of free
pages is ascending (R54). -/
def Surfaces.pagesSound (m : Surfaces) : Prop :=
  (∀ p, m.freePages.count p + ((allSlots 48).map (fun i => (tget m.slots i).countPage p)).sum =
      if p < Config.pages then 1 else 0) ∧
    m.freePages.Pairwise (· ≤ ·)

/-- The record of a surface as its creation makes it: stride and page count by its size and format, and a page list of that many
pages, ascending (R54, R56, R57). -/
def Surface.recordSound (f : Surface) : Prop :=
  1 ≤ f.width ∧ f.width ≤ 2048 ∧ 1 ≤ f.height ∧ f.height ≤ 2048 ∧
    f.stride = (f.width * f.format.bytes + 63) / 64 * 64 ∧ f.pageCount = (f.stride * f.height + 4095) / 4096 ∧
    f.pageList.length = f.pageCount ∧ f.pageList.Pairwise (· < ·)

/-- The pages port `n` owns in slot `i`: its surface's page count (R60). -/
def Surfaces.pagesIn (m : Surfaces) (n : Port) (i : SurfSlot) : Nat :=
  match (tget m.slots i).surface with
  | some f => if f.owner = n then f.pageCount else 0
  | none => 0

/-- The accounts of the surface manager: every record as creation makes it, a port's page count the sum over its surfaces, its
surface count their number, 16 at most, and the pool use of the device 1536 at most (R57, R60). -/
def Surfaces.accountsSound (m : Surfaces) : Prop :=
  (∀ i f, (tget m.slots i).surface = some f → f.recordSound) ∧
  (∀ n : Port, tget m.pageCount n = ((allSlots 48).map (m.pagesIn n)).sum ∧
    tget m.surfCount n = ((allSlots 48).filter (fun i => (tget m.slots i).surface.any (fun f => f.owner = n))).length ∧
    tget m.surfCount n ≤ 16) ∧
  poolUse m.pageCount ≤ 1536

/-- A port's window count is the number of the slots it owns, 8 at most (R95, R103). -/
def LayoutController.countsSound (c : LayoutController) : Prop :=
  ∀ n : Port, tget c.winCount n = ((allSlots 24).filter (fun w => tget c.owners w = some n)).length ∧ tget c.winCount n ≤ 8

end Sys2Proof.Machine
end

