-- ==== Sys2Proof/WellFormed.lean ====
section
/-! DEFINITION. Which commands a sender can give: a frame holds at most 1024 payload bytes, and UNKNOWN_KIND's kind byte is
no request kind and not NOP. -/

namespace Sys2Proof

/-- The request kind codes of R160, NOP among them. -/
def knownKindCodes : List Byte :=
  [0x00, 0x01, 0x02, 0x03, 0x10, 0x11, 0x12, 0x13, 0x14, 0x15, 0x16, 0x20, 0x30, 0x31, 0x40, 0x41, 0x42, 0x43, 0x50, 0x51,
    0x60, 0x61]

/-- The payload bytes a command's frame carries: none for the commands that are no frame. -/
def Instr.payload : Instr → List Byte
  | .selectActive _ => []
  | .selectInactive _ => []
  | .nop _ _ p => p
  | .deviceReset _ _ _ _ => []
  | .unknownKind _ _ _ p => p
  | .identify _ _ p => p
  | .openSession _ _ p => p
  | .closeSession _ _ p => p
  | .querySession _ _ p => p
  | .setTiming _ _ p => p
  | .frameBoundary => []
  | .stale _ => []
  | .createSurface _ _ p => p
  | .destroySurface _ _ p => p
  | .querySurface _ _ p => p
  | .queryMemory _ _ p => p
  | .queryPanel _ _ p => p
  | .write _ _ p => p
  | .fill _ _ p => p
  | .copy _ _ p => p
  | .checksum _ _ p => p
  | .jobCompletion => []
  | .createWindow _ _ p => p
  | .queryWindow _ _ p => p
  | .queryLoad _ _ p => p
  | .commit _ _ p => p
  | .acquireAlert _ _ p => p
  | .releaseAlert _ _ p => p
  | .queryAlert _ _ p => p
  | .pixelClock => []
  | .byteClocked _ _ => []

/-- The kind byte of an UNKNOWN_KIND command is not in the table of R160; any other command's is by its name. -/
def Instr.kindOk : Instr → Bool
  | .unknownKind _ kind _ _ => !(knownKindCodes.contains kind)
  | _ => true

/-- A command a sender can give (R7, R23). -/
def Instr.wellFormed (i : Instr) : Bool :=
  decide (i.payload.length ≤ Config.maxPayload) && i.kindOk

end Sys2Proof
end

