-- ==== Sys2Proof/Certificates/Slice0/Obligations.lean ====
section
/-! DEFINITION. The statements about the block, each as a proposition. Every command ends in a next state that the block's pins have
followed (State.settle), so a result is an equation with `.next` of a settled state. State.replied is a quiet port's request
answered and nothing else changed; State.heard is a request at the head of a quiet port's queue. -/

open Sys2Proof Sys2Proof.Machine

/-! ### The step and the queue of commands -/

/-- A step takes the command at the front of the queue and is its effect on the state with the queue's rest; on an empty queue the
block idles (log entry 1). Every command ends in a next state and leaves the queue of commands as it stands. -/
def Obligations.StepTakesTheFrontCommand : Prop :=
  ∀ s : State,
    (∀ c rest, s.pending = c :: rest → step s = exec c (s.withPending rest)) ∧
      (s.pending = [] → step s = .next s) ∧ ∀ c, ∃ t, exec c s = .next t ∧ t.pending = s.pending

/-! ### Device reset -/

/-- DEVICE_RESET leaves every block at the values of its reset table (R37, R53, R73, R94, R111, R134, R148), and every link at those
of R17 with the selects as they stand at the release of RESET_N. -/
def Obligations.DeviceResetLeavesTheResetValues : Prop :=
  ∀ (s : State) (sel0 sel1 sel2 sel3 : Bool), ∃ t, exec (.deviceReset sel0 sel1 sel2 sel3) s = .next t ∧
    (∀ n, t.session n = ⟨.closed, 0, 0, .none, none, .none⟩) ∧
    (t.scan.timing = none ∧ t.scan.frame = 0 ∧ t.scan.pos = none ∧ t.scan.budget = 0 ∧
      t.pins.panel = ⟨false, false, false, false, 0⟩) ∧
    ((∀ i, tget t.surfaces.slots i = ⟨0, none⟩) ∧ t.surfaces.freePages = List.range 4096 ∧
      (∀ n, tget t.surfaces.pageCount n = 0 ∧ tget t.surfaces.surfCount n = 0) ∧ poolUse t.surfaces.pageCount = 0) ∧
    ((∀ n, tget t.drawing.queues n = [] ∧ tget t.drawing.issued n = 0 ∧ tget t.drawing.completed n = 0) ∧
      t.drawing.inFlight = none ∧ t.drawing.engineState = .idle ∧ t.drawing.pointer = 0) ∧
    ((∀ w, tget t.layouts.owners w = none ∧ tget t.layouts.gens w = 0) ∧ (∀ n, tget t.layouts.winCount n = 0) ∧
      (∀ k, t.layouts.applied.bands.list k = [] ∧ t.layouts.projected.bands.list k = []) ∧
      t.layouts.appliedLoad = [] ∧ t.layouts.projectedLoad = [] ∧ peak t.layouts.appliedLoad = 0 ∧
      peak t.layouts.projectedLoad = 0) ∧
    t.layouts.commits = [] ∧ t.layouts.holder = none ∧ t.layouts.waiting = [] ∧
    (∀ n, (t.link n).requests = [] ∧ (t.link n).responses = [] ∧ (t.link n).events = [] ∧
      (t.link n).flags = ⟨false, false, false⟩ ∧ (t.link n).seq = 0 ∧ (t.link n).out = none ∧ (t.link n).dout = none ∧
      tget t.pins.attention n = false) ∧
    (t.link 0).trans = (if sel0 then .ignored else .idle) ∧ (t.link 1).trans = (if sel1 then .ignored else .idle) ∧
    (t.link 2).trans = (if sel2 then .ignored else .idle) ∧ (t.link 3).trans = (if sel3 then .ignored else .idle)

/-- The state right after reset meets every condition of Safety.lean. Its memory lists nothing (log entry 7) and its links are IDLE
(log entry 15). -/
def Obligations.ResetMeetsEveryCondition : Prop :=
  Memory.wf State.reset.mem = true ∧ State.reset.queuesBounded ∧ State.reset.scan.sound ∧ State.reset.drawing.sound ∧
    State.reset.layouts.tokenSound ∧ State.reset.recordsOwned ∧ State.reset.loadsSound ∧
    State.reset.layouts.projected.stackSound ∧ State.reset.layouts.alertSound ∧ State.reset.surfaces.pagesSound ∧
    State.reset.surfaces.accountsSound ∧ State.reset.layouts.countsSound ∧ State.reset.presentationSound

/-! ### Conditions that every step keeps -/

/-- Frame memory keeps its canonical form. -/
def Obligations.MemoryStaysCanonical : Prop :=
  ∀ s t : State, Memory.wf s.mem = true → step s = .next t → Memory.wf t.mem = true

/-- No queue of a link grows over its depth, and a CLOSING port's head waits for the teardown with the response queue empty. -/
def Obligations.QueuesStayBounded : Prop :=
  ∀ s t : State, s.queuesBounded → step s = .next t → t.queuesBounded

/-- The timing record stays valid and the line position inside its frame. -/
def Obligations.ScanStaysSound : Prop := ∀ s t : State, s.scan.sound → step s = .next t → t.scan.sound

/-- Job queues stay their own ports', with at most 4 jobs of a port queued or in flight. -/
def Obligations.JobsStayBounded : Prop := ∀ s t : State, s.drawing.sound → step s = .next t → t.drawing.sound

/-- The waiting list never holds a port twice, the holder, or anyone while there is no holder. -/
def Obligations.AlertTokenStaysSound : Prop :=
  ∀ s t : State, s.layouts.tokenSound → step s = .next t → t.layouts.tokenSound

/-- Every page stays free or at exactly one position of exactly one surface's page list. The accounts stay true: every surface record
keeps the stride, the page count and the ascending page list of its creation, a port's page, surface and window counts are
those of what it owns, within 16 surfaces and 8 windows, and the pool use is 1536 at most. Hence the free pages and the four
page counts add up to 4096, and every record is fit to hold its pixels. -/
def Obligations.PagesStayConserved : Prop :=
  (∀ s t : State, s.surfaces.pagesSound → step s = .next t →
    t.surfaces.pagesSound ∧ (s.surfaces.accountsSound → t.surfaces.accountsSound)) ∧
  (∀ s t : State, s.layouts.countsSound → step s = .next t → t.layouts.countsSound) ∧
  ∀ m : Surfaces, m.pagesSound → m.accountsSound →
    m.freePages.length + tget m.pageCount 0 + tget m.pageCount 1 + tget m.pageCount 2 + tget m.pageCount 3 = 4096 ∧
      ∀ i f, (tget m.slots i).surface = some f → f.laidOut

/-- Both load tables stay the tables of their layouts, and the projected load stays within the line budget on every line. -/
def Obligations.LoadsStayWithinBudget : Prop :=
  ∀ s t : State, s.recordsOwned → s.loadsSound → step s = .next t → t.recordsOwned ∧ t.loadsSound

/-- The projected band lists stay the lists of its STACKED windows, and band ALERT stays with the holder of the token. -/
def Obligations.ProjectedStackStaysSound : Prop :=
  ∀ s t : State, s.recordsOwned → s.layouts.tokenSound → s.layouts.projected.stackSound → s.layouts.alertSound →
    step s = .next t →
    t.recordsOwned ∧ t.layouts.tokenSound ∧ t.layouts.projected.stackSound ∧ t.layouts.alertSound

/-- The presentation of commits stays sound (Safety.lean): the applied layout has right band lists, one ALERT window at most and no
line above the budget, and the pending commits, each finding what it was accepted with, lead from it, less the windows of
CLOSING ports, to the projected layout. Hence every line of the applied load table is within the budget, and with no commit
pending and no port CLOSING the two layouts have the same band lists and the same records. -/
def Obligations.LayoutsStayInAgreement : Prop :=
  (∀ s t : State, s.queuesBounded → s.presentationSound → step s = .next t → t.presentationSound) ∧
  ∀ s : State, s.presentationSound →
    (s.loadsSound → ∀ x ∈ s.layouts.appliedLoad, x ≤ s.scan.budget) ∧ s.layouts.applied.stackSound ∧
      s.layouts.applied.bands.alert.length ≤ 1 ∧
      (s.layouts.commits = [] → (∀ n, (s.session n).state ≠ .closing) →
        s.layouts.applied.bands = s.layouts.projected.bands ∧
          ∀ w, s.layouts.applied.record w = s.layouts.projected.record w)

/-! ### Client links -/

/-- The attention line of each link follows R15 after every command, and is released by device reset. -/
def Obligations.AttentionFollowsTheLink : Prop :=
  (∀ (c : Instr) (s : State), ∃ t, exec c s = .next t ∧
    ∀ n, tget t.pins.attention n = true ↔
      ((t.link n).responses ≠ [] ∨ (t.link n).events ≠ [] ∨ (t.link n).flags.overrun = true ∨
        (t.link n).flags.frameError = true ∨ (t.link n).flags.eventsLost = true)) ∧
  ∀ (s : State) (a b c d : Bool), ∃ t, exec (.deviceReset a b c d) s = .next t ∧ ∀ n, tget t.pins.attention n = false

/-- The frame of a request, whatever is clocked after it, is judged to be that request: kind, tag and payload. -/
def Obligations.RequestFramesAreReadBack : Prop :=
  ∀ (r : Request) (extra : List Byte), r.payload.length ≤ 1024 → r.kind ≠ nopCode →
    judge (r.frame ++ extra) = .request r

/-- SELECT_ACTIVE on an IDLE link chooses the head response, else the head event, else an IDLE frame, builds its header with the
flags and credits of the moment, records the flags as reported, and presents the first bit, which is 0 in every kind code.
On a link that is not IDLE it changes nothing but the pins' following (log entry 3). -/
def Obligations.SelectActiveChoosesTheFrame : Prop :=
  ∀ (s : State) (n : Port),
    (∀ (kind tag : Byte) (payload : List Byte) (origin : Option Origin), (s.link n).trans = .idle →
      (match (s.link n).responses, (s.link n).events with
        | r :: _, _ => kind = 0x01 ∧ tag = r.tag ∧ payload = r.payload ∧ origin = some .responseQueue
        | [], e :: _ => kind = 0x02 ∧ tag = e.seq ∧ payload = e.payload ∧ origin = some .eventQueue
        | [], [] => kind = 0x00 ∧ tag = 0 ∧ payload = [] ∧ origin = none) →
      exec (.selectActive n) s = .next
        (s.withLink n
          { s.link n with
            trans := .active
            out := some
              ⟨withCrc ([kind, tag,
                  (if (s.link n).flags.overrun then 0x80 else 0) ||| (if (s.link n).flags.frameError then 0x40 else 0) |||
                    (if (s.link n).flags.eventsLost then 0x20 else 0)] ++
                  bytes8 (4 - (s.link n).requests.length) ++ bytes16 payload.length ++ payload), origin⟩
            reported := (s.link n).flags
            inBytes := []
            inBits := []
            dout := some false }).settle) ∧
    ((s.link n).trans ≠ .idle → exec (.selectActive n) s = .next s.settle)

/-- BYTE_CLOCKED on an ACTIVE link: the bit joins the unfinished byte, the eighth completes it, most significant first, and the next
bit of the outbound frame, or of a filler byte, is driven. In IGNORED nothing is collected and 0 is driven; in IDLE the
edge is ignored. -/
def Obligations.ByteClockedSamplesAndDrives : Prop :=
  ∀ (s : State) (n : Port) (di : Bool),
    (∀ f, (s.link n).trans = .active → (s.link n).out = some f → (s.link n).inBits.length < 7 →
      exec (.byteClocked n di) s = .next
        (s.withLink n
          { s.link n with
            inBits := (s.link n).inBits ++ [di]
            dout := some ((f.bytes.getD (s.link n).inBytes.length 0).getLsbD (6 - (s.link n).inBits.length)) }).settle) ∧
    (∀ (f : OutFrame) (b : Byte), (s.link n).trans = .active → (s.link n).out = some f →
      (s.link n).inBits ++ [di] =
        [b.getLsbD 7, b.getLsbD 6, b.getLsbD 5, b.getLsbD 4, b.getLsbD 3, b.getLsbD 2, b.getLsbD 1, b.getLsbD 0] →
      exec (.byteClocked n di) s = .next
        (s.withLink n
          { s.link n with
            inBytes := (s.link n).inBytes ++ [b]
            inBits := []
            dout := some ((f.bytes.getD ((s.link n).inBytes.length + 1) 0).getLsbD 7) }).settle) ∧
    ((s.link n).trans = .ignored →
      exec (.byteClocked n di) s = .next (s.withLink n { s.link n with dout := some false }).settle) ∧
    ((s.link n).trans = .idle → exec (.byteClocked n di) s = .next s.settle)

/-- SELECT_INACTIVE on an ACTIVE link: the inbound frame is judged (a request joins the tail of the request queue, or finds it full
and sets OVERRUN; an invalid frame sets FRAME_ERROR), a frame shifted in full leaves the queue it came from and clears the
flags its header reported and that were not set anew, and the head is examined where R22 says so (log entry 11). In IGNORED
nothing is judged or delivered. In IDLE select is released already, R2 has no such event, and nothing happens (log entry 3). -/
def Obligations.SelectInactiveJudgesAndDelivers : Prop :=
  ∀ (s : State) (n : Port),
    (∀ (f : OutFrame) (joins overruns errs delivered : Bool) (q : List Request),
      (s.link n).trans = .active → (s.link n).out = some f →
      delivered = decide (f.bytes.length ≤ (s.link n).inBytes.length) →
      (match judge (s.link n).inBytes with
        | .nothing => joins = false ∧ overruns = false ∧ errs = false ∧ q = (s.link n).requests
        | .nop => joins = false ∧ overruns = false ∧ errs = false ∧ q = (s.link n).requests
        | .frameError => joins = false ∧ overruns = false ∧ errs = true ∧ q = (s.link n).requests
        | .request r =>
          if (s.link n).requests.length < 4 then
            joins = true ∧ overruns = false ∧ errs = false ∧ q = (s.link n).requests ++ [r]
          else joins = false ∧ overruns = true ∧ errs = false ∧ q = (s.link n).requests) →
      exec (.selectInactive n) s = .next
        (let t := s.withLink n
          { s.link n with
            trans := .idle
            requests := q
            responses :=
              if delivered = true ∧ f.origin = some .responseQueue then (s.link n).responses.tail else (s.link n).responses
            events := if delivered = true ∧ f.origin = some .eventQueue then (s.link n).events.tail else (s.link n).events
            flags :=
              ⟨overruns || ((s.link n).flags.overrun && !(delivered && (s.link n).reported.overrun)),
                errs || ((s.link n).flags.frameError && !(delivered && (s.link n).reported.frameError)),
                (s.link n).flags.eventsLost && !(delivered && (s.link n).reported.eventsLost)⟩
            out := none
            reported := ⟨false, false, false⟩
            inBytes := []
            inBits := []
            dout := none }
        if (joins = true ∧ (s.link n).requests = []) ∨
            (delivered = true ∧ f.origin = some .responseQueue ∧ (s.session n).headWait = .responseRoom)
        then t.examine n else t).settle) ∧
    ((s.link n).trans = .ignored →
      exec (.selectInactive n) s = .next
        (s.withLink n
          { s.link n with
            trans := .idle, out := none, reported := ⟨false, false, false⟩, inBytes := [], inBits := [], dout := none }
        ).settle) ∧
    ((s.link n).trans = .idle → exec (.selectInactive n) s = .next s.settle)

/-- A request given on an IDLE link is one whole transaction (log entry 2): the head response, or with no response the head event, is
delivered and the reported flags cleared; the request joins the tail of the request queue, or finds four there and sets
OVERRUN; and the head is examined when the queue was empty or the delivery made room for a head that waited for it. The
frame is judged before the delivery and the head examined once after both (log entry 11). On a link that is not IDLE the
open transaction is first ended as SELECT_INACTIVE ends it, and the request is given on the link that leaves (log entry 2). -/
def Obligations.RequestIsOneTransaction : Prop :=
  ∀ (c : Instr) (n : Port) (r : Request) (s : State), carried c = some (n, r) →
    (r.kind ≠ nopCode → r.payload.length ≤ 1024 → (s.link n).trans = .idle →
      exec c s = .next
        (let t := s.withLink n
          (if (s.link n).requests.length < 4 then (s.link n).afterTransaction ((s.link n).requests ++ [r]) false
            else (s.link n).afterTransaction (s.link n).requests true)
        if (s.link n).requests = [] ∨ ((s.link n).responses ≠ [] ∧ (s.session n).headWait = .responseRoom)
        then t.examine n else t).settle) ∧
    ((s.link n).trans ≠ .idle →
      ∃ u : State, exec (.selectInactive n) s = .next u.settle ∧ (u.link n).trans = .idle ∧ exec c s = exec c u)

/-- A NOP given on an IDLE link joins no queue, is answered by nothing and sets no flag, whatever the request queue holds: the
transaction's only effect is the delivery of its outbound frame, and of a head that waited for that. A frame that is not
valid sets FRAME_ERROR, a NOP as any other. -/
def Obligations.NopIsConsumed : Prop :=
  (∀ (s : State) (n : Port) (tag : Byte) (payload : List Byte), payload.length ≤ 1024 → (s.link n).trans = .idle →
    exec (.nop n tag payload) s = .next
      (let t := s.withLink n ((s.link n).afterTransaction (s.link n).requests false)
      if (s.link n).responses ≠ [] ∧ (s.session n).headWait = .responseRoom then t.examine n else t).settle) ∧
  (∀ (l : Link) (bytes : List Byte), judge bytes = .nop → l.receive (judge bytes) = l) ∧
  ∀ (l : Link) (bytes : List Byte), judge bytes = .frameError → (l.receive (judge bytes)).flags.frameError = true

/-- An event posted takes the counter's value as its tag and joins the tail, or finds 16 events and is discarded with EVENTS_LOST set;
the counter advances either way, from 255 to 0. It is 0 after device reset and at the opening of a session, and a teardown
start leaves it. -/
def Obligations.EventsAreNumbered : Prop :=
  (∀ (l : Link) (payload : List Byte),
    (l.events.length < 16 →
      l.post payload = { l with events := l.events ++ [⟨l.seq, payload⟩], seq := l.seq + 1 }) ∧
    (¬ l.events.length < 16 →
      (l.post payload).events = l.events ∧ (l.post payload).flags = { l.flags with eventsLost := true } ∧
        (l.post payload).reported = { l.reported with eventsLost := false } ∧ (l.post payload).seq = l.seq + 1)) ∧
  (255 : BitVec 8) + 1 = 0 ∧
  (∀ (s : State) (a b c d : Bool) (n : Port), ((s.deviceReset a b c d).link n).seq = 0) ∧
  (∀ (s : State) (n : Port) (label : BitVec 32), ((s.openSession n label).link n).seq = 0) ∧
  ∀ l : Link, l.teardownStart.seq = l.seq

/-- A request of one port leaves every other port's session record and whole link as they stand, but that one other port, waiting
for the alert token, may be sent ALERT_GRANTED. -/
def Obligations.PortsAreIndependent : Prop :=
  ∀ (c : Instr) (n : Port) (r : Request) (s : State), carried c = some (n, r) →
    ∃ t, exec c s = .next t ∧ (∀ m, m ≠ n → t.session m = s.session m) ∧
      ((∀ m, m ≠ n → t.link m = s.link m) ∨
        ∃ q, q ≠ n ∧ q ∈ s.layouts.waiting ∧ t.layouts.holder = some q ∧ t.link q = (s.link q).post [0x04] ∧
          ∀ m, m ≠ n → m ≠ q → t.link m = s.link m)

/-! ### Sessions and the handling of requests -/

/-- The three checks of R23: an unknown kind is answered UNKNOWN_KIND in any state of the port; a wrong length BAD_LENGTH; on a CLOSED
port every kind but IDENTIFY and OPEN NO_SESSION. Nothing else changes. A COMMIT of a wrong length carries operation index
255 (log entry 12). -/
def Obligations.RefusalsAtTheHead : Prop :=
  (∀ (s : State) (n : Port) (kind tag : Byte) (payload : List Byte), s.quiet n → payload.length ≤ 1024 →
    kind ∉ knownKindCodes →
    exec (.unknownKind n kind tag payload) s = .next (s.replied n tag [kind, 0x01]).settle) ∧
  (∀ (c : Instr) (s : State) (n : Port) (k : Kind) (tag : Byte) (payload : List Byte), s.quiet n → payload.length ≤ 1024 →
    carried c = some (n, ⟨k.code, tag, payload⟩) → k.lengthOk payload.length = false →
    exec c s = .next
      (s.replied n tag
        (if k = .commit then [0x51, 0x02, 0xFF, 0, 0, 0, 0]
          else k.code :: 0x02 :: List.replicate (k.responseLength - 2) 0)).settle) ∧
  ∀ (c : Instr) (s : State) (n : Port) (k : Kind) (tag : Byte) (payload : List Byte), s.quiet n → payload.length ≤ 1024 →
    carried c = some (n, ⟨k.code, tag, payload⟩) → k.lengthOk payload.length = true → k ≠ .identify → k ≠ .openSession →
    (s.session n).state = .closed →
    exec c s = .next (s.replied n tag (k.code :: 0x04 :: List.replicate (k.responseLength - 2) 0)).settle

/-- OPEN on a CLOSED port opens a session at once: the number advances in the cycle 1 to 255, the label is the request's, and job
numbers and event sequence counter are 0. -/
def Obligations.OpenOnAClosedPort : Prop :=
  ∀ (s : State) (n : Port) (tag : Byte) (label : List Byte) (number : Nat), s.quiet n → label.length = 4 →
    (s.session n).state = .closed →
    number = (if (s.session n).number ≥ 255 then 1 else (s.session n).number + 1) →
    exec (.openSession n tag label) s = .next
      ({ s.replied n tag [0x02, 0x00, BitVec.ofNat 8 number] with
        links := tput s.links n
          { (s.link n).afterTransaction [] false with
            responses := (s.link n).responses.tail ++ [⟨tag, [0x02, 0x00, BitVec.ofNat 8 number]⟩]
            seq := 0 }
        sessions := tput s.sessions n ⟨.opened, number, field32 label 0, .none, none, .none⟩
        drawing :=
          { s.drawing with issued := tput s.drawing.issued n 0, completed := tput s.drawing.completed n 0 } } : State).settle

/-- CLOSE, or a takeover OPEN, on an OPEN port of a RUNNING panel starts a teardown: the port is CLOSING with its cause and label
held, the request stays at the head waiting, the response and event queues are empty with EVENTS_LOST clear, the port's
jobs, pending commits, projected windows and claim on the token are gone with the references they held, and what other
ports and blocks hold stands (State.startsTeardown). An aborted job stops where it is (log entry 8), and the engine makes
its next choice. -/
def Obligations.TeardownStarts : Prop :=
  ∀ (c : Instr) (s : State) (n : Port) (tag : Byte) (payload : List Byte) (cause : ClosingCause)
    (label : Option (BitVec 32)) (kind : Kind), s.quiet n → s.drawing.sound → s.layouts.tokenSound →
    (s.session n).state = .opened → s.scan.timing.isSome = true →
    ((c = .closeSession n tag payload ∧ payload = [] ∧ cause = .close ∧ label = none ∧ kind = .closeSession) ∨
      (c = .openSession n tag payload ∧ payload.length = 4 ∧ cause = .takeover ∧ label = some (field32 payload 0) ∧
        kind = .openSession)) →
    ∃ t, exec c s = .next t ∧ s.startsTeardown n cause label ⟨kind.code, tag, payload⟩ t

/-- While the scan engine is UNCONFIGURED a teardown finishes in the event that starts it: CLOSE leaves the port CLOSED with its number
and answers it; a takeover OPEN leaves it OPEN with the next number, the new label, and job numbers and event counter 0. The two
halves are those of a RUNNING panel, one after the other: the start (State.startsTeardown: jobs, commits and token with the
rest), then the finish (State.finishesTeardown). -/
def Obligations.TeardownFinishesAtOnceWithoutAPanel : Prop :=
  (∀ (s : State) (n : Port) (tag : Byte), s.quiet n → (s.session n).state = .opened → s.scan.timing = none →
    (∃ t, exec (.closeSession n tag []) s = .next t ∧
      t.session n = ⟨.closed, (s.session n).number, 0, .none, none, .none⟩ ∧ (t.link n).requests = [] ∧
      (t.link n).responses = [⟨tag, [0x03, 0x00, BitVec.ofNat 8 (s.session n).number]⟩] ∧
      tget t.surfaces.pageCount n = 0 ∧ tget t.surfaces.surfCount n = 0 ∧ tget t.layouts.winCount n = 0 ∧
      ∀ w, tget t.layouts.owners w ≠ some n) ∧
    ∀ label : List Byte, label.length = 4 →
      ∃ t, exec (.openSession n tag label) s = .next t ∧
        t.session n =
          ⟨.opened, if (s.session n).number ≥ 255 then 1 else (s.session n).number + 1, field32 label 0, .none, none,
            .none⟩ ∧
        (t.link n).requests = [] ∧
        (t.link n).responses =
          [⟨tag, [0x02, 0x00,
            BitVec.ofNat 8 (if (s.session n).number ≥ 255 then 1 else (s.session n).number + 1)]⟩] ∧
        (t.link n).seq = 0 ∧ tget t.drawing.issued n = 0 ∧ tget t.drawing.completed n = 0 ∧
        tget t.surfaces.pageCount n = 0 ∧ tget t.surfaces.surfCount n = 0 ∧ tget t.layouts.winCount n = 0 ∧
        ∀ w, tget t.layouts.owners w ≠ some n) ∧
  ∀ (c : Instr) (s : State) (n : Port) (tag : Byte) (payload : List Byte) (cause : ClosingCause)
    (label : Option (BitVec 32)) (kind : Kind), s.quiet n → s.drawing.sound → s.layouts.tokenSound →
    (s.session n).state = .opened → s.scan.timing = none →
    ((c = .closeSession n tag payload ∧ payload = [] ∧ cause = .close ∧ label = none ∧ kind = .closeSession) ∨
      (c = .openSession n tag payload ∧ payload.length = 4 ∧ cause = .takeover ∧ label = some (field32 payload 0) ∧
        kind = .openSession)) →
    ∃ v t : State, s.startsTeardown n cause label ⟨kind.code, tag, payload⟩ v ∧
      v.finishesTeardown n ⟨kind.code, tag, payload⟩ [] t ∧ exec c s = .next t.settle

/-- A frame boundary that finds one port CLOSING, with nothing queued behind the request that started its teardown, finishes the
teardown: by the cause, CLOSE leaves the port CLOSED with its number and no label, a takeover leaves it OPEN with the next
number and the pending label, its job numbers and event counter 0; the request is answered OK with the number, and the port
owns nothing, the generations of its slots advanced. Other ports' sessions, jobs and surfaces stand, and with no commit
pending their windows and stack order. One finish, whatever is queued behind the request, is State.finishesTeardown; the
boundary's last step is none with no port CLOSING, the one port's finish and then the examination of its next head with
one, and with several the work of all their session controllers in an order that is a free value (log entry 10). -/
def Obligations.TeardownFinishesAtTheBoundary : Prop :=
  (∀ (s : State) (n : Port) (r : Request) (number : Nat) (cause : ClosingCause) (own : WinSlot → Bool),
    s.scan.timing.isSome = true → (s.session n).state = .closing → (∀ m, m ≠ n → (s.session m).state ≠ .closing) →
    (s.session n).cause = cause → (s.link n).requests = [r] →
    number =
      (if cause = .takeover then (if (s.session n).number ≥ 255 then 1 else (s.session n).number + 1)
        else (s.session n).number) →
    (∀ w, own w = true ↔ tget s.layouts.owners w = some n) →
    ∃ t, exec .frameBoundary s = .next t ∧
      t.session n =
        (if cause = .takeover then ⟨.opened, number, (s.session n).pendingLabel.getD 0, .none, none, .none⟩
          else ⟨.closed, number, 0, .none, none, .none⟩) ∧
      (t.link n).requests = [] ∧
      (t.link n).responses = (s.link n).responses ++
        [⟨r.tag, [if cause = .takeover then 0x02 else 0x03, 0x00, BitVec.ofNat 8 number]⟩] ∧
      (cause = .takeover → (t.link n).seq = 0 ∧ tget t.drawing.issued n = 0 ∧ tget t.drawing.completed n = 0) ∧
      tget t.surfaces.pageCount n = 0 ∧ tget t.surfaces.surfCount n = 0 ∧ tget t.layouts.winCount n = 0 ∧
      (∀ w, tget t.layouts.owners w ≠ some n) ∧ (∀ i f, (tget t.surfaces.slots i).surface = some f → f.owner ≠ n) ∧
      (∀ i f, (tget s.surfaces.slots i).surface = some f → f.owner = n → tget t.surfaces.slots i =
        ⟨if (tget s.surfaces.slots i).gen + 1 ≥ 1024 then 0 else (tget s.surfaces.slots i).gen + 1, none⟩) ∧
      t.drawing.queues = s.drawing.queues ∧
      (∀ m, m ≠ n → t.session m = s.session m ∧ tget t.drawing.issued m = tget s.drawing.issued m ∧
        tget t.drawing.completed m = tget s.drawing.completed m ∧
        tget t.surfaces.pageCount m = tget s.surfaces.pageCount m ∧
        tget t.surfaces.surfCount m = tget s.surfaces.surfCount m) ∧
      (s.layouts.commits = [] →
        t.layouts =
          { s.layouts with
            owners := tabulate (fun w => if own w then none else tget s.layouts.owners w)
            gens := tabulate (fun w =>
              if own w then (if tget s.layouts.gens w + 1 ≥ 2048 then 0 else tget s.layouts.gens w + 1)
              else tget s.layouts.gens w)
            winCount := tput s.layouts.winCount n 0
            applied := s.layouts.applied.lacking own
            projected := s.layouts.projected.lacking own
            appliedLoad := loadTable s.scan.timing (s.layouts.applied.lacking own)
            projectedLoad := loadTable s.scan.timing (s.layouts.projected.lacking own)
            fresh := t.layouts.fresh } ∧
        ∀ i f, (tget s.surfaces.slots i).surface = some f → f.owner ≠ n → tget t.surfaces.slots i =
          ⟨(tget s.surfaces.slots i).gen, some { f with shownRefs := f.shownRefs - s.layouts.applied.refsTo own i }⟩)) ∧
  (∀ (s : State) (n : Port) (r : Request) (rest : List Request), (s.link n).requests = r :: rest →
    s.finishesTeardown n r rest (s.teardownFinish n)) ∧
  (∀ s : State, (∀ n, (s.session n).state ≠ .closing) → s.finishTeardowns = s) ∧
  (∀ (s : State) (n : Port), (s.session n).state = .closing → (∀ m, m ≠ n → (s.session m).state ≠ .closing) →
    s.finishTeardowns = (s.teardownFinish n).examine n) ∧
  ∀ s : State,
    State.ControllersRun
      ((([0, 1, 2, 3] : List Port).filter (fun n => (s.session n).state = .closing)).map (fun n => (n, true))) s
      s.finishTeardowns

/-- A head waits for response room while four responses are queued, before anything else about it is looked at; a drawing request waits
for job room while the port has four jobs queued or in flight, before its arguments are looked at. -/
def Obligations.HeadsWait : Prop :=
  (∀ (s : State) (n : Port) (r : Request) (rest : List Request), (s.link n).requests = r :: rest →
    (s.session n).headWait ≠ .teardown → 4 ≤ (s.link n).responses.length →
    s.examine n = s.setHeadWait n .responseRoom) ∧
  ∀ (c : Instr) (s : State) (n : Port) (k : Kind) (tag : Byte) (payload : List Byte), s.quiet n →
    (s.session n).state ≠ .closed → payload.length ≤ 1024 → k ∈ [.write, .fill, .copy, .checksum] →
    k.lengthOk payload.length = true → carried c = some (n, ⟨k.code, tag, payload⟩) →
    4 ≤ (s.drawing.outstanding n).length →
    exec c s = .next ((s.heard n ⟨k.code, tag, payload⟩).setHeadWait n .jobRoom).settle

/-! ### Panel timing and scan-out -/

/-- SET_TIMING. A valid record configures an UNCONFIGURED scan engine: the record is stored, the frame counter is 0, the position is
line vactive, pixel clock 0, and both load tables hold vactive lines of zero; the answer is OK with the line budget. To a
RUNNING scan engine a valid record changes nothing beside its answer: OK with the budget for the record in force,
TIMING_LOCKED for any other. In either scan state a record that is not valid is answered BAD_ARGUMENT. -/
def Obligations.SetTimingIsServed : Prop :=
  ∀ (s : State) (n : Port) (tag : Byte) (payload : List Byte), s.quiet n → (s.session n).state ≠ .closed →
    payload.length = 17 →
    (∀ t, timingOfBytes payload = some t → t.valid = true → s.scan.timing = none →
      exec (.setTiming n tag payload) s = .next
        ({ s.replied n tag ([0x20, 0x00] ++ bytes16 (6 * t.htotal)) with
          scan := { timing := some t, frame := 0, pos := some (t.vactive, 0), shown := [], fetched := [] }
          layouts :=
            { s.layouts with
              appliedLoad := List.replicate t.vactive 0, projectedLoad := List.replicate t.vactive 0 } } : State).settle) ∧
    (∀ t u, timingOfBytes payload = some t → t.valid = true → s.scan.timing = some u →
      exec (.setTiming n tag payload) s = .next
        (s.replied n tag
          (if t = u then [0x20, 0x00] ++ bytes16 (6 * u.htotal) else [0x20, 0x06, 0, 0])).settle) ∧
    ((∀ t, timingOfBytes payload = some t → t.valid = false) →
      exec (.setTiming n tag payload) s = .next (s.replied n tag [0x20, 0x03, 0, 0]).settle)

/-- The 17 bytes of a timing record, as SET_TIMING carries and QUERY_PANEL reports it, and that every valid record is read back from
them. -/
def Obligations.TimingRecordsAreReadBack : Prop :=
  ∀ t : Timing, t.valid = true →
    (∀ h v d : Byte, h = (if t.hsyncPolarity = .activeHigh then 0 else 1) →
      v = (if t.vsyncPolarity = .activeHigh then 0 else 1) → d = (if t.dePolarity = .activeHigh then 0 else 1) →
      bytesTiming t =
        [BitVec.ofNat 8 (t.hactive / 256), BitVec.ofNat 8 (t.hactive % 256), BitVec.ofNat 8 t.hfront, BitVec.ofNat 8 t.hsync,
          BitVec.ofNat 8 t.hback, BitVec.ofNat 8 (t.vactive / 256), BitVec.ofNat 8 (t.vactive % 256),
          BitVec.ofNat 8 t.vfront, BitVec.ofNat 8 t.vsync, BitVec.ofNat 8 t.vback, h, v, d, BitVec.ofNat 8 t.divider,
          t.background.red, t.background.green, t.background.blue]) ∧
    (bytesTiming t).length = 17 ∧ timingOfBytes (bytesTiming t) = some t

/-- One pixel clock moves the position on: within the line, to the next line, and from the last line to line 0. The frame counter
advances with the last active pixel of the frame and at no other pixel clock, where sessions, links, surface records and
layouts stand as they stood, and frame memory and the drawing engine but for what the job in flight writes meanwhile
(State.drawsOn). The record stays in force. At the last active pixel the boundary is taken, which is
ReadyCommitsAreApplied. -/
def Obligations.PixelClockAdvancesThePosition : Prop :=
  ∀ (s : State) (t : Timing) (line clock : Nat), s.scan.timing = some t → s.scan.pos = some (line, clock) →
    ∃ u, exec .pixelClock s = .next u ∧ u.scan.timing = some t ∧
      u.scan.pos = some
        (if clock + 1 < t.htotal then (line, clock + 1) else if line + 1 < t.vtotal then (line + 1, 0) else (0, 0)) ∧
      u.scan.frame = (if line + 1 = t.vactive ∧ clock + 1 = t.hactive then s.scan.frame + 1 else s.scan.frame) ∧
      (¬ (line + 1 = t.vactive ∧ clock + 1 = t.hactive) →
        u.links = s.links ∧ u.sessions = s.sessions ∧ u.surfaces = s.surfaces ∧ u.layouts = s.layouts ∧ s.drawsOn u)

/-- The panel outputs after every command. While UNCONFIGURED they are quiet, and pixel clocks, frame boundaries and staleness do not
occur (log entry 3). While RUNNING they follow the line position: syncs and data-enable at the level of their polarity, and
the data lines at the composed colour in the active slot of an active line and zero outside it. -/
def Obligations.PanelFollowsThePosition : Prop :=
  (∀ (c : Instr) (s : State), ∃ u, exec c s = .next u ∧
    (u.scan.timing = none → u.pins.panel = ⟨false, false, false, false, 0⟩) ∧
    ∀ (t : Timing) (line clock : Nat), u.scan.timing = some t → u.scan.pos = some (line, clock) →
      u.pins.panel.clock = true ∧
      (u.pins.panel.hs = true ↔
        ((t.hactive + t.hfront ≤ clock ∧ clock < t.hactive + t.hfront + t.hsync) ↔ t.hsyncPolarity = .activeHigh)) ∧
      (u.pins.panel.vs = true ↔
        ((t.vactive + t.vfront ≤ line ∧ line < t.vactive + t.vfront + t.vsync) ↔ t.vsyncPolarity = .activeHigh)) ∧
      (u.pins.panel.de = true ↔ ((line < t.vactive ∧ clock < t.hactive) ↔ t.dePolarity = .activeHigh)) ∧
      u.pins.panel.data =
        if line < t.vactive ∧ clock < t.hactive then
          (u.pixel t clock line).red ++ (u.pixel t clock line).green ++ (u.pixel t clock line).blue
        else 0) ∧
  ∀ s : State, s.scan.timing = none →
    exec .pixelClock s = .next s.settle ∧ exec .frameBoundary s = .next s.settle ∧
      ∀ w, exec (.stale w) s = .next s.settle

/-- The stack is BASE, MAIN, OVERLAY, ALERT, each band from bottom to top. The colour of a panel pixel: the background where the stack
is empty; a hidden window at the top, or one that does not cover the pixel, adds nothing; a visible window that covers it is
blended over the colour that the stack without it gives, with its fill colour and pa 255 where it has no source or is stale,
and else with the source bytes fetched for it, widened by the format of its source. -/
def Obligations.CompositionOfAPixel : Prop :=
  (∀ l : Layout, l.stack = l.bands.base ++ l.bands.main ++ l.bands.overlay ++ l.bands.alert) ∧
  (∀ (s : State) (t : Timing) (px py : Nat), s.layouts.applied.stack = [] → s.pixel t px py = t.background) ∧
  (∀ (s u : State) (t : Timing) (px py : Nat) (w : WinSlot) (r : WindowRec) (below : List WinSlot),
    s.layouts.applied.record w = some r → s.layouts.applied.stack = below ++ [w] →
    u = { s with layouts := { s.layouts with applied := { s.layouts.applied with bands := ⟨below, [], [], []⟩ } } } →
    (¬ (r.visible = true ∧ r.x ≤ (px : Int) ∧ (px : Int) < r.x + r.width ∧ r.y ≤ (py : Int) ∧ (py : Int) < r.y + r.height) →
      s.pixel t px py = u.pixel t px py) ∧
    ((r.visible = true ∧ r.x ≤ (px : Int) ∧ (px : Int) < r.x + r.width ∧ r.y ≤ (py : Int) ∧ (py : Int) < r.y + r.height) →
      (r.source = none ∨ (tget s.layouts.fresh w).stale = true →
        s.pixel t px py = blend r.opacity 255 r.fill (u.pixel t px py)) ∧
      ∀ d e, r.source = some d → (tget s.layouts.fresh w).stale = false →
        s.scan.shown.find? (fun f => f.win = w && f.col = px) = some e →
        s.pixel t px py = blend r.opacity (widen d.format e.bytes).2 (widen d.format e.bytes).1 (u.pixel t px py))) ∧
  (∀ v b0 b1 : Nat, v < 65536 → b0 = v % 256 → b1 = v / 256 →
    widen .p16 [BitVec.ofNat 8 b0, BitVec.ofNat 8 b1] =
      (⟨BitVec.ofNat 8 (v / 2048 * 8 + v / 2048 / 4), BitVec.ofNat 8 (v / 32 % 64 * 4 + v / 32 % 64 / 16),
        BitVec.ofNat 8 (v % 32 * 8 + v % 32 / 4)⟩, 255)) ∧
  ∀ blue green red last : Byte, widen .p32 [blue, green, red, last] = (⟨red, green, blue⟩, 255) ∧
    widen .p32a [blue, green, red, last] = (⟨red, green, blue⟩, last.toNat)

/-- The fetch. The line read during a pixel clock is the line below, or line 0 during the last line of a frame. What is read then is,
for windows of the stack that are visible, sourced and not stale, pixels at panel columns they cover and not yet read: the
source pixel at column sx + (px - x) and row sy + (py - y), as frame memory holds it. By the line's last pixel clock all are
read, and they become what is shown. During the other lines nothing is read. Which pixels a clock reads is a free value,
and the two line buffers are the model's (log entry 9); that the job's writes of a clock come before its reads is the model's
choice (log entry 23). The bytes of a pixel lie where R49 says. -/
def Obligations.SourcePixelsAreFetched : Prop :=
  (∀ (s : State) (t : Timing) (line clock y : Nat) (needed : WinSlot → Nat → Prop), s.scan.timing = some t →
    s.scan.pos = some (line, clock) → t.valid = true →
    (y = line + 1 ∧ line + 1 < t.vactive ∨ y = 0 ∧ line + 1 = t.vtotal) →
    (∀ w px, needed w px ↔ w ∈ s.layouts.applied.stack ∧ (tget s.layouts.fresh w).stale = false ∧ px < t.hactive ∧
      ∃ r, s.layouts.applied.record w = some r ∧ r.visible = true ∧ r.source.isSome = true ∧
        r.x ≤ (px : Int) ∧ (px : Int) < r.x + r.width ∧ r.y ≤ (y : Int) ∧ (y : Int) < r.y + r.height) →
    ∃ (u : State) (new : List Fetched), exec .pixelClock s = .next u ∧
      (∀ e ∈ new, needed e.win e.col ∧ (∀ g ∈ s.scan.fetched, ¬ (g.win = e.win ∧ g.col = e.col)) ∧
        ∀ r d i f (col row : Nat), s.layouts.applied.record e.win = some r → r.source = some d →
          s.surfaces.named d.handle = some (i, f) → (col : Int) = r.sx + ((e.col : Int) - r.x) →
          (row : Int) = r.sy + ((y : Int) - r.y) → e.bytes = readPixel u.mem f col row) ∧
      (clock + 1 < t.htotal → u.scan.shown = s.scan.shown ∧ u.scan.fetched = s.scan.fetched ++ new) ∧
      (clock + 1 = t.htotal → u.scan.shown = s.scan.fetched ++ new ∧ u.scan.fetched = [] ∧
        ∀ w px, needed w px → ∃ e ∈ u.scan.shown, e.win = w ∧ e.col = px)) ∧
  (∀ (s : State) (t : Timing) (line clock : Nat), s.scan.timing = some t → s.scan.pos = some (line, clock) →
    t.vactive ≤ line + 1 → line + 1 ≠ t.vtotal → ¬ (line + 1 = t.vactive ∧ clock + 1 = t.hactive) →
    ∃ u, exec .pixelClock s = .next u ∧
      (clock + 1 < t.htotal → u.scan.shown = s.scan.shown ∧ u.scan.fetched = s.scan.fetched) ∧
      (clock + 1 = t.htotal → u.scan.shown = s.scan.fetched ∧ u.scan.fetched = [])) ∧
  ∀ (m : Memory) (f : Surface) (col row o page bytes : Nat), bytes = (if f.format = .p16 then 2 else 4) →
    o = row * f.stride + col * bytes → f.pageList[o / 4096]? = some page →
    readPixel m f col row = (List.range bytes).map (fun k => Memory.read m (page * 4096 + o % 4096 + k))

/-- The blend of R51: the effective alpha and each component are the quotients the rule gives, all within 0 to 255; full opacity over a
full pa replaces the colour below, opacity 0 or pa 0 leaves it, and the cost of a window does not depend on its opacity. -/
def Obligations.BlendIsTheRule : Prop :=
  (∀ (opacity : Byte) (pa : Nat) (c below : Rgb), pa ≤ 255 →
    (opacity.toNat * pa + 127) / 255 ≤ 255 ∧
      ∀ f ∈ [Rgb.red, Rgb.green, Rgb.blue],
        (f (blend opacity pa c below)).toNat =
          ((f c).toNat * ((opacity.toNat * pa + 127) / 255) +
            (f below).toNat * (255 - (opacity.toNat * pa + 127) / 255) + 127) / 255) ∧
  (∀ c below : Rgb, blend 255 255 c below = c) ∧
  (∀ (pa : Nat) (c below : Rgb), pa ≤ 255 → blend 0 pa c below = below) ∧
  (∀ (opacity : Byte) (c below : Rgb), blend opacity 0 c below = below) ∧
  ∀ (r : WindowRec) (opacity : Byte) (hactive line : Nat),
    ({ r with opacity := opacity } : WindowRec).cost hactive line = r.cost hactive line

/-- FRAME_BOUNDARY to a RUNNING scan engine: the frame counter advances by one, modulo 2³², the record stays, and the position is the
one after the last active pixel (log entry 4). With no commit pending and no port CLOSING, both layouts, the tables of
windows and surfaces, the sessions and the token stand, and every refreshed mark is clear. -/
def Obligations.FrameBoundaryAdvancesTheFrame : Prop :=
  ∀ (s : State) (t : Timing), s.scan.timing = some t →
    ∃ u, exec .frameBoundary s = .next u ∧ u.scan.frame = s.scan.frame + 1 ∧ u.scan.timing = some t ∧
      u.scan.pos = some (t.vactive - 1, t.hactive) ∧
      (s.layouts.commits = [] → (∀ n, (s.session n).state ≠ .closing) →
        u.layouts.applied = s.layouts.applied ∧ u.layouts.projected = s.layouts.projected ∧
          u.layouts.owners = s.layouts.owners ∧ u.layouts.gens = s.layouts.gens ∧
          u.layouts.holder = s.layouts.holder ∧ u.layouts.waiting = s.layouts.waiting ∧ u.layouts.commits = [] ∧
          u.surfaces = s.surfaces ∧ u.sessions = s.sessions ∧
          ∀ w, (tget u.layouts.fresh w).refreshed = false)

/-- What a boundary does to one window's age: a window that is not aged keeps its age and stale, and nothing is posted; one that is
aged grows older by one, to 255 at most; at its deadline, if it was not stale, it becomes stale and STALE goes to its owner
with the window's handle and the frame number. The command STALE is the boundary at which the window becomes stale, when no
commit is pending and no port CLOSING; for a window that is stale already, or whose deadline is 0, no such boundary comes
and the command changes nothing (log entry 5). -/
def Obligations.StaleComesAtTheDeadline : Prop :=
  ∀ (s : State) (w : WinSlot) (r : WindowRec) (f : Freshness) (owner : Port) (age : Nat),
    s.layouts.applied.record w = some r → tget s.layouts.fresh w = f → tget s.layouts.owners w = some owner →
    age = (if f.age < 255 then f.age + 1 else f.age) →
    (¬ (r.state = .stacked ∧ r.visible = true ∧ 0 < r.deadline ∧ f.refreshed = false) → s.ageWindow w = s) ∧
    ((r.state = .stacked ∧ r.visible = true ∧ 0 < r.deadline ∧ f.refreshed = false) →
      (r.deadline ≤ age ∧ f.stale = false →
        s.ageWindow w =
          (s.withLayouts { s.layouts with fresh := tput s.layouts.fresh w { f with age := age, stale := true } }).post owner
            ([0x03] ++ bytes16 (tget s.layouts.gens w * 32 + w.val) ++ bytes32 s.scan.frame)) ∧
      (¬ (r.deadline ≤ age ∧ f.stale = false) →
        s.ageWindow w = s.withLayouts { s.layouts with fresh := tput s.layouts.fresh w { f with age := age } })) ∧
    (s.layouts.commits = [] → (∀ n, (s.session n).state ≠ .closing) →
      (s.scan.timing.isSome = true → r.state = .stacked → r.visible = true → 0 < r.deadline → f.refreshed = false →
        f.stale = false → r.deadline ≤ age →
        ∃ t, exec (.stale w) s = .next t ∧ exec .frameBoundary s = .next t ∧
          tget t.layouts.fresh w = ⟨age, true, false⟩ ∧ t.scan.frame = s.scan.frame + 1 ∧
          t.layouts.applied = s.layouts.applied) ∧
      (f.stale = true ∨ r.deadline = 0 → exec (.stale w) s = .next s.settle))

/-! ### Frame memory and surfaces -/

/-- CREATE_SURFACE that passes its checks: the lowest FREE slot takes the record, with the stride and page count of R56 and the lowest
free pages; the port's counts rise; the answer carries handle, stride and page count. Every byte of the new pages reads
zero, and every other byte reads as before. -/
def Obligations.CreateSurfaceCreates : Prop :=
  ∀ (s : State) (n : Port) (tag : Byte) (payload : List Byte) (width height stride pages : Nat) (f : Format) (direct : Bool)
    (i : SurfSlot) (gen : Nat), s.quiet n → (s.session n).state ≠ .closed → payload.length = 6 →
    field16 payload 0 = width → field16 payload 2 = height → formatOfCode (field8 payload 4) = some f →
    boolOfCode (field8 payload 5) = some direct → 1 ≤ width → width ≤ 2048 → 1 ≤ height → height ≤ 2048 →
    stride = (width * f.bytes + 63) / 64 * 64 → pages = (stride * height + 4095) / 4096 →
    tget s.surfaces.surfCount n < 16 → tget s.surfaces.slots i = ⟨gen, none⟩ →
    (∀ j, j < i → (tget s.surfaces.slots j).surface.isSome = true) →
    poolUse (tput s.surfaces.pageCount n (tget s.surfaces.pageCount n + pages)) ≤ 1536 →
    ∃ t : State, exec (.createSurface n tag payload) s = .next t.settle ∧
      ({ t with mem := s.mem } : State) =
        ({ s.replied n tag ([0x30, 0x00] ++ bytes16 (gen * 64 + i.val) ++ bytes16 stride ++ bytes16 pages) with
          surfaces :=
            { slots := tput s.surfaces.slots i
                ⟨gen, some
                  { owner := n, width := width, height := height, format := f, direct := direct, stride := stride
                    pageCount := pages, pageList := s.surfaces.freePages.take pages
                    shownRefs := 0, queuedRefs := 0, jobRefs := 0 }⟩
              freePages := s.surfaces.freePages.drop pages
              pageCount := tput s.surfaces.pageCount n (tget s.surfaces.pageCount n + pages)
              surfCount := tput s.surfaces.surfCount n (tget s.surfaces.surfCount n + 1) } } : State) ∧
      ∀ a, Memory.read t.mem a = if a / 4096 ∈ s.surfaces.freePages.take pages then 0 else Memory.read s.mem a

/-- A creation that fails a check changes nothing beside its answer. CREATE_SURFACE: BAD_ARGUMENT, then SURFACE_TABLE_FULL for a port of
16 surfaces or a full table, then NO_MEMORY where the pool use would exceed 1536. CREATE_WINDOW: NO_PANEL, then
BAD_ARGUMENT, then WINDOW_TABLE_FULL for a port of 8 windows or a full table. -/
def Obligations.CreationsAreRefused : Prop :=
  ∀ (s : State) (n : Port) (tag : Byte) (payload : List Byte), s.quiet n → (s.session n).state ≠ .closed →
    (payload.length = 6 →
      (surfaceRequestOf payload = none →
        exec (.createSurface n tag payload) s = .next (s.replied n tag [0x30, 0x03, 0, 0, 0, 0, 0, 0]).settle) ∧
      ∀ q, surfaceRequestOf payload = some q →
        (16 ≤ tget s.surfaces.surfCount n ∨ (∀ i, (tget s.surfaces.slots i).surface.isSome = true) →
          exec (.createSurface n tag payload) s = .next (s.replied n tag [0x30, 0x08, 0, 0, 0, 0, 0, 0]).settle) ∧
        (tget s.surfaces.surfCount n < 16 → (∃ i, (tget s.surfaces.slots i).surface = none) →
          1536 < poolUse (tput s.surfaces.pageCount n
            (tget s.surfaces.pageCount n + ((q.width * q.format.bytes + 63) / 64 * 64 * q.height + 4095) / 4096)) →
          exec (.createSurface n tag payload) s = .next (s.replied n tag [0x30, 0x07, 0, 0, 0, 0, 0, 0]).settle)) ∧
    (payload.length = 4 →
      (s.scan.timing = none →
        exec (.createWindow n tag payload) s = .next (s.replied n tag [0x50, 0x05, 0, 0]).settle) ∧
      (s.scan.timing.isSome = true →
        ¬ (1 ≤ field16 payload 0 ∧ field16 payload 0 ≤ 2048 ∧ 1 ≤ field16 payload 2 ∧ field16 payload 2 ≤ 2048) →
        exec (.createWindow n tag payload) s = .next (s.replied n tag [0x50, 0x03, 0, 0]).settle) ∧
      (s.scan.timing.isSome = true →
        (1 ≤ field16 payload 0 ∧ field16 payload 0 ≤ 2048 ∧ 1 ≤ field16 payload 2 ∧ field16 payload 2 ≤ 2048) →
        8 ≤ tget s.layouts.winCount n ∨ (∀ w, (tget s.layouts.owners w).isSome = true) →
        exec (.createWindow n tag payload) s = .next (s.replied n tag [0x50, 0x0D, 0, 0]).settle))

/-- DESTROY_SURFACE: refused for a handle that names no surface, a surface of another port, or a locked one; held at the head while
jobs reference the surface; else the slot is FREE with its generation advanced, the pages are free again, the counts fall,
and the answer carries the number of pages. -/
def Obligations.DestroySurfaceDestroys : Prop :=
  ∀ (s : State) (n : Port) (tag : Byte) (payload : List Byte), s.quiet n → (s.session n).state ≠ .closed →
    payload.length = 2 →
    (s.surfaces.named (field16 payload 0) = none →
      exec (.destroySurface n tag payload) s = .next (s.replied n tag [0x31, 0x09, 0, 0]).settle) ∧
    ∀ i f, s.surfaces.named (field16 payload 0) = some (i, f) →
      (f.owner ≠ n → exec (.destroySurface n tag payload) s = .next (s.replied n tag [0x31, 0x0F, 0, 0]).settle) ∧
      (f.owner = n → 0 < f.shownRefs ∨ 0 < f.queuedRefs →
        exec (.destroySurface n tag payload) s = .next (s.replied n tag [0x31, 0x0A, 0, 0]).settle) ∧
      (f.owner = n → f.shownRefs = 0 → f.queuedRefs = 0 → 0 < f.jobRefs →
        exec (.destroySurface n tag payload) s = .next
          ((s.heard n ⟨0x31, tag, payload⟩).setHeadWait n .jobRefs).settle) ∧
      (f.owner = n → f.shownRefs = 0 → f.queuedRefs = 0 → f.jobRefs = 0 →
        ∃ t : State, exec (.destroySurface n tag payload) s = .next t.settle ∧
          ({ t with surfaces := s.surfaces } : State) = s.replied n tag ([0x31, 0x00] ++ bytes16 f.pageCount) ∧
          t.surfaces.slots = tput s.surfaces.slots i
            ⟨if (tget s.surfaces.slots i).gen + 1 ≥ 1024 then 0 else (tget s.surfaces.slots i).gen + 1, none⟩ ∧
          (∀ p, t.surfaces.freePages.count p = s.surfaces.freePages.count p + f.pageList.count p) ∧
          t.surfaces.pageCount = tput s.surfaces.pageCount n (tget s.surfaces.pageCount n - f.pageCount) ∧
          t.surfaces.surfCount = tput s.surfaces.surfCount n (tget s.surfaces.surfCount n - 1))

/-- Handles. A surface handle is generation times 64 plus slot, and names a surface exactly when its slot field is 0 to 47, that slot
holds a surface, and its generation field is the slot's; a window handle is generation times 32 plus slot, with slots 0 to
23. Generations are 0 after device reset; freeing a slot advances its generation, from 1023, or for a window 2047, to 0,
and a creation leaves it. -/
def Obligations.HandlesName : Prop :=
  ((∀ (m : Surfaces) (handle : Nat) (i : SurfSlot) (f : Surface),
      m.named handle = some (i, f) ↔
        handle % 64 = i.val ∧ (tget m.slots i).surface = some f ∧ handle / 64 = (tget m.slots i).gen) ∧
    (∀ (i : SurfSlot) (gen : Nat),
      surfaceHandle i gen = gen * 64 + i.val ∧ surfaceHandle i gen % 64 = i.val ∧ surfaceHandle i gen / 64 = gen) ∧
    (∀ (m : Surfaces) (i : SurfSlot), (tget m.slots i).surface.isSome = true →
      tget (m.free i).slots i =
        ⟨if (tget m.slots i).gen + 1 ≥ 1024 then 0 else (tget m.slots i).gen + 1, none⟩) ∧
    (∀ (m : Surfaces) (n : Port) (i : SurfSlot) (q : SurfaceRequest),
      (tget (m.create n i q).slots i).gen = (tget m.slots i).gen) ∧
    ∀ (s : State) (a b c d : Bool) (i : SurfSlot), (tget (s.deviceReset a b c d).surfaces.slots i).gen = 0) ∧
  (∀ (c : LayoutController) (handle : Nat) (w : WinSlot) (n : Port),
    c.named handle = some (w, n) ↔
      handle % 32 = w.val ∧ tget c.owners w = some n ∧ handle / 32 = tget c.gens w) ∧
  (∀ (w : WinSlot) (gen : Nat),
    windowHandle w gen = gen * 32 + w.val ∧ windowHandle w gen % 32 = w.val ∧ windowHandle w gen / 32 = gen) ∧
  (∀ (s : State) (w : WinSlot), (tget s.layouts.owners w).isSome = true →
    tget (s.freeWindow w).layouts.owners w = none ∧
      tget (s.freeWindow w).layouts.gens w =
        (if tget s.layouts.gens w + 1 ≥ 2048 then 0 else tget s.layouts.gens w + 1)) ∧
  (∀ (c : LayoutController) (n : Port) (w : WinSlot) (width height : Nat),
    tget (c.reserve n w width height).gens w = tget c.gens w) ∧
  ∀ (s : State) (a b c d : Bool) (w : WinSlot), tget (s.deviceReset a b c d).layouts.gens w = 0

/-! ### Drawing jobs -/

/-- A drawing request that passes its checks, with fewer than four jobs of its port queued or in flight, becomes a job: it takes the next
number of the cycle 1 to 65535, joins the tail of the port's job queue, raises job_refs of its surfaces, one for its target
and one for the source of a COPY, and a choice is made if the engine is IDLE. The answer carries the number. -/
def Obligations.DrawingRequestsBecomeJobs : Prop :=
  ∀ (c : Instr) (s : State) (n : Port) (k : Kind) (tag : Byte) (payload : List Byte) (q : DrawRequest) (notify : Bool)
    (work : Work) (number : Nat) (j : Job), s.quiet n → (s.session n).state ≠ .closed → payload.length ≤ 1024 →
    k.lengthOk payload.length = true → (s.drawing.outstanding n).length < 4 →
    q.target = field16 payload 0 → q.x = field16 payload 2 → q.y = field16 payload 4 → q.w = field16 payload 6 →
    q.h = field16 payload 8 →
    ((c = .write n tag payload ∧ k = .write ∧ q.notify = boolOfCode (field8 payload 10) ∧
        q.body = .write (payload.drop 12)) ∨
      (c = .fill n tag payload ∧ k = .fill ∧ q.notify = boolOfCode (field8 payload 10) ∧
        q.body = .fill ⟨payload.getD 11 0, payload.getD 12 0, payload.getD 13 0⟩ (payload.getD 14 0)) ∨
      (c = .copy n tag payload ∧ k = .copy ∧ q.notify = boolOfCode (field8 payload 10) ∧
        q.body = .copy (field16 payload 11) (field16 payload 13) (field16 payload 15)) ∨
      (c = .checksum n tag payload ∧ k = .checksum ∧ q.notify = some true ∧ q.body = .checksum)) →
    s.surfaces.judgeDrawing n q = .ok (notify, work) →
    number = (if tget s.drawing.issued n ≥ 65535 then 1 else tget s.drawing.issued n + 1) →
    j = ⟨number, n, q.target, q.x, q.y, q.w, q.h, notify, work⟩ →
    exec c s = .next
      (State.choose
        ({ s.replied n tag ([k.code, 0x00] ++ bytes16 number) with
          surfaces := s.surfaces.changed (fun i f => { f with jobRefs := f.jobRefs + j.refsOn i })
          drawing :=
            { s.drawing with
              queues := tput s.drawing.queues n (tget s.drawing.queues n ++ [j])
              issued := tput s.drawing.issued n number } } : State)).settle

/-- A drawing request refused by a check of R78 uses no number, adds no reference and consults no arbiter: its answer carries the
status and job number 0, and nothing else changes. -/
def Obligations.RefusedDrawingChangesNothing : Prop :=
  ∀ (c : Instr) (s : State) (n : Port) (k : Kind) (tag : Byte) (payload : List Byte) (q : DrawRequest) (st : Status),
    s.quiet n → (s.session n).state ≠ .closed → payload.length ≤ 1024 →
    k.lengthOk payload.length = true → (s.drawing.outstanding n).length < 4 →
    q.target = field16 payload 0 → q.x = field16 payload 2 → q.y = field16 payload 4 → q.w = field16 payload 6 →
    q.h = field16 payload 8 →
    ((c = .write n tag payload ∧ k = .write ∧ q.notify = boolOfCode (field8 payload 10) ∧
        q.body = .write (payload.drop 12)) ∨
      (c = .fill n tag payload ∧ k = .fill ∧ q.notify = boolOfCode (field8 payload 10) ∧
        q.body = .fill ⟨payload.getD 11 0, payload.getD 12 0, payload.getD 13 0⟩ (payload.getD 14 0)) ∨
      (c = .copy n tag payload ∧ k = .copy ∧ q.notify = boolOfCode (field8 payload 10) ∧
        q.body = .copy (field16 payload 11) (field16 payload 13) (field16 payload 15)) ∨
      (c = .checksum n tag payload ∧ k = .checksum ∧ q.notify = some true ∧ q.body = .checksum)) →
    s.surfaces.judgeDrawing n q = .error st →
    exec c s = .next (s.replied n tag [k.code, st.code, 0, 0]).settle

/-- The checks of R78 in their order, for every kind: notify, target, source, rectangle, source rectangle, format or length, lock. A
handle that names no surface is NO_SUCH_SURFACE, one of another port's surface NOT_OWNER. A FILL's pixel is its colour in
the target's format: 5, 6 and 5 bits, low byte first, in P16; blue, green, red and 0 or the alpha in P32 and P32A. -/
def Obligations.DrawingIsJudgedInOrder : Prop :=
  ∀ (m : Surfaces) (n : Port) (q : DrawRequest),
    (q.notify = none → m.judgeDrawing n q = .error .badArgument) ∧
    ∀ notify, q.notify = some notify →
      (m.named q.target = none → m.judgeDrawing n q = .error .noSuchSurface) ∧
      ∀ i t, m.named q.target = some (i, t) →
        (t.owner ≠ n → m.judgeDrawing n q = .error .notOwner) ∧
        (t.owner = n →
          (∀ bytes, q.body = .write bytes → m.judgeDrawing n q =
            if ¬ (1 ≤ q.w ∧ 1 ≤ q.h ∧ q.x + q.w ≤ t.width ∧ q.y + q.h ≤ t.height) then .error .badRect
            else if bytes.length ≠ q.w * q.h * t.format.bytes then .error .badLength
            else if (0 < t.shownRefs ∨ 0 < t.queuedRefs) ∧ t.direct = false then .error .surfaceLocked
            else .ok (notify, .write bytes)) ∧
          (∀ (colour : Rgb) (alpha : Byte) (pixel : List Byte) (v : Nat), q.body = .fill colour alpha →
            v = colour.red.toNat / 8 * 2048 + colour.green.toNat / 4 * 32 + colour.blue.toNat / 8 →
            ((t.format = .p16 ∧ pixel = [BitVec.ofNat 8 (v % 256), BitVec.ofNat 8 (v / 256)]) ∨
              (t.format = .p32 ∧ pixel = [colour.blue, colour.green, colour.red, 0]) ∨
              (t.format = .p32a ∧ pixel = [colour.blue, colour.green, colour.red, alpha])) →
            m.judgeDrawing n q =
              if ¬ (1 ≤ q.w ∧ 1 ≤ q.h ∧ q.x + q.w ≤ t.width ∧ q.y + q.h ≤ t.height) then .error .badRect
              else if (0 < t.shownRefs ∨ 0 < t.queuedRefs) ∧ t.direct = false then .error .surfaceLocked
              else .ok (notify, .fill pixel)) ∧
          (q.body = .checksum → m.judgeDrawing n q =
            if ¬ (1 ≤ q.w ∧ 1 ≤ q.h ∧ q.x + q.w ≤ t.width ∧ q.y + q.h ≤ t.height) then .error .badRect
            else .ok (notify, .checksum)) ∧
          ∀ source sx sy, q.body = .copy source sx sy →
            (m.named source = none → m.judgeDrawing n q = .error .noSuchSurface) ∧
            ∀ j f, m.named source = some (j, f) →
              (f.owner ≠ n → m.judgeDrawing n q = .error .notOwner) ∧
              (f.owner = n → m.judgeDrawing n q =
                if ¬ (1 ≤ q.w ∧ 1 ≤ q.h ∧ q.x + q.w ≤ t.width ∧ q.y + q.h ≤ t.height) then .error .badRect
                else if ¬ (1 ≤ q.w ∧ 1 ≤ q.h ∧ sx + q.w ≤ f.width ∧ sy + q.h ≤ f.height) then .error .badRect
                else if f.format ≠ t.format then .error .formatMismatch
                else if (0 < t.shownRefs ∨ 0 < t.queuedRefs) ∧ t.direct = false then .error .surfaceLocked
                else .ok (notify, .copy source sx sy)))

/-- A choice: with the engine IDLE the head job of the first non-empty queue from the pointer on, counting modulo 4, becomes the
in-flight job, a COPY with the source pixels as they stand, and the pointer moves past its port; with every queue empty, or
the engine BUSY, nothing changes. -/
def Obligations.ArbiterTakesTurns : Prop :=
  (∀ (s : State) (k : Fin 4) (j : Job) (rest : List Job), s.drawing.inFlight = none →
    tget s.drawing.queues (s.drawing.pointer + k) = j :: rest →
    (∀ i : Fin 4, i < k → tget s.drawing.queues (s.drawing.pointer + i) = []) →
    s.choose.drawing.queues = tput s.drawing.queues (s.drawing.pointer + k) rest ∧
      (∃ f, s.choose.drawing.inFlight = some f ∧ f.job = j ∧ f.written = 0 ∧
        ∀ source sx sy i g a b, j.work = .copy source sx sy → s.surfaces.named source = some (i, g) → a < j.w → b < j.h →
          f.taken[b * j.w + a]? = some (readPixel s.mem g (sx + a) (sy + b))) ∧
      s.choose.drawing.pointer = s.drawing.pointer + k + 1 ∧ s.choose.drawing.issued = s.drawing.issued ∧
      s.choose.drawing.completed = s.drawing.completed ∧ s.choose.surfaces = s.surfaces ∧ s.choose.mem = s.mem) ∧
  (∀ s : State, (∀ n, tget s.drawing.queues n = []) → s.choose = s) ∧
  ∀ s : State, s.drawing.inFlight.isSome = true → s.choose = s

/-- JOB_COMPLETION: completed takes the job's number, each of the port's pending commits fenced on it is reached, the references of its
surfaces fall, JOB_DONE goes to its port if the job asked for it, with the CRC of its rectangle's pixels row by row for a
CHECKSUM, and the engine makes its next choice. The head of the port is then examined where it waits on jobs, and only
there. With no job in flight nothing completes (log entry 3). -/
def Obligations.JobCompletionCompletes : Prop :=
  (∀ s : State, s.drawing.inFlight = none → exec .jobCompletion s = .next s.settle) ∧
  ∀ (s : State) (f : InFlight), s.drawing.inFlight = some f →
    ∃ u : State,
      exec .jobCompletion s = .next
        (if (s.session f.job.port).headWait = .jobRoom ∨ (s.session f.job.port).headWait = .jobRefs
          then u.examine f.job.port else u).settle ∧
      u.drawing.completed = tput s.drawing.completed f.job.port f.job.number ∧ u.drawing.issued = s.drawing.issued ∧
      u.layouts = { s.layouts with
        commits := s.layouts.commits.map (fun p =>
          if p.port = f.job.port ∧ p.fence = f.job.number then { p with reached := true } else p) } ∧
      u.surfaces = s.surfaces.changed (fun i g => { g with jobRefs := g.jobRefs - f.job.refsOn i }) ∧
      u.sessions = s.sessions ∧ u.scan = s.scan ∧ u.pending = s.pending ∧
      (f.job.work = .checksum → u.mem = s.mem) ∧
      ((∀ n, tget s.drawing.queues n = []) →
        u.drawing.inFlight = none ∧ u.drawing.pointer = s.drawing.pointer ∧ u.drawing.queues = s.drawing.queues) ∧
      (∀ (k : Fin 4) (j : Job) (rest : List Job), tget s.drawing.queues (s.drawing.pointer + k) = j :: rest →
        (∀ i : Fin 4, i < k → tget s.drawing.queues (s.drawing.pointer + i) = []) →
        u.drawing.queues = tput s.drawing.queues (s.drawing.pointer + k) rest ∧
          u.drawing.pointer = s.drawing.pointer + k + 1 ∧
          ∃ g, u.drawing.inFlight = some g ∧ g.job = j ∧ g.written = 0 ∧
            ∀ source sx sy i h a b, j.work = .copy source sx sy → s.surfaces.named source = some (i, h) → a < j.w →
              b < j.h → g.taken[b * j.w + a]? = some (readPixel u.mem h (sx + a) (sy + b))) ∧
      (f.job.notify = false → u.links = s.links) ∧
      (f.job.notify = true → ∃ crc,
        u.links = tput s.links f.job.port
          ((s.link f.job.port).post ([0x02] ++ bytes16 f.job.number ++ [0x00] ++ bytes32 crc)) ∧
        (f.job.work ≠ .checksum → crc = 0) ∧
        ∀ i g, f.job.work = .checksum → s.surfaces.named f.job.target = some (i, g) →
          crc = crc32 ((List.range f.job.h).flatMap (fun b =>
            (List.range f.job.w).flatMap (fun a => readPixel s.mem g (f.job.x + a) (f.job.y + b)))))

/-- A job that writes makes its whole rectangle and nothing else. At the completion of a WRITE, FILL or COPY, however far it had
written (log entry 8) if the positions up to there in its order hold its pixels, each pixel of the rectangle reads back as the
job's pixel for it (the request's bytes row by row, the fill pixel, or the source pixel taken at the choice), and every byte
outside the rectangle's pixels reads as before. A chosen job has written nothing, and what it has written by a later pixel
clock or boundary holds its pixels in its order (PixelClockAdvancesThePosition, ReadyCommitsAreApplied). The premises on the
target are met by every surface record (PagesStayConserved). -/
def Obligations.JobsWriteTheirRectangle : Prop :=
  ∀ (s : State) (f : InFlight) (i : SurfSlot) (g : Surface), Memory.wf s.mem = true → s.drawing.inFlight = some f →
    s.surfaces.named f.job.target = some (i, g) → g.laidOut → f.stands s.mem g f.written →
    f.job.x + f.job.w ≤ g.width → f.job.y + f.job.h ≤ g.height →
    (s.session f.job.port).headWait ≠ .jobRoom → (s.session f.job.port).headWait ≠ .jobRefs →
    ∃ t, exec .jobCompletion s = .next t ∧
      (∀ (a b : Nat) (pixel : List Byte), a < f.job.w → b < f.job.h → f.places g.format.bytes (a, b) pixel →
        readPixel t.mem g (f.job.x + a) (f.job.y + b) = pixel) ∧
      ∀ x, s.outside f.job x → Memory.read t.mem x = Memory.read s.mem x

/-! ### Windows, bands and the stack -/

/-- CREATE_WINDOW that passes its checks reserves the lowest FREE slot: the owner is the port, its count rises, both records take the
creation values, no band list changes, and the answer carries the handle. -/
def Obligations.CreateWindowReserves : Prop :=
  ∀ (s : State) (n : Port) (tag : Byte) (payload : List Byte) (w : WinSlot) (r : WindowRec), s.quiet n →
    (s.session n).state ≠ .closed → payload.length = 4 → s.scan.timing.isSome = true →
    1 ≤ field16 payload 0 → field16 payload 0 ≤ 2048 → 1 ≤ field16 payload 2 → field16 payload 2 ≤ 2048 →
    tget s.layouts.winCount n < 8 → tget s.layouts.owners w = none →
    (∀ v, v < w → (tget s.layouts.owners v).isSome = true) →
    r = { state := .reserved, band := .main, x := 0, y := 0, width := field16 payload 0, height := field16 payload 2
          source := none, sx := 0, sy := 0, opacity := 255, fill := ⟨0, 0, 0⟩, visible := false, deadline := 0 } →
    exec (.createWindow n tag payload) s = .next
      ({ s.replied n tag ([0x50, 0x00] ++ bytes16 (tget s.layouts.gens w * 32 + w.val)) with
        layouts :=
          { s.layouts with
            owners := tput s.layouts.owners w (some n)
            winCount := tput s.layouts.winCount n (tget s.layouts.winCount n + 1)
            applied := { s.layouts.applied with recs := tput s.layouts.applied.recs w (some r) }
            projected := { s.layouts.projected with recs := tput s.layouts.projected.recs w (some r) }
            fresh := tput s.layouts.fresh w ⟨0, false, false⟩ } } : State).settle

/-- The cost of a window on a line is the number of its columns that lie on the panel times the bytes of a pixel of its source, where
the window is STACKED, visible, sourced and its rows include the line; else it is 0. The shares of the four ports in the
projected load of a line add up to its load. -/
def Obligations.CostCountsTheColumns : Prop :=
  (∀ (r : WindowRec) (hactive line : Nat),
    (∀ d, r.source = some d → r.state = .stacked → r.visible = true → r.y ≤ (line : Int) →
      (line : Int) < r.y + r.height →
      r.cost hactive line =
        ((List.range hactive).filter (fun (c : Nat) => decide (r.x ≤ (c : Int) ∧ (c : Int) < r.x + r.width))).length *
          d.format.bytes) ∧
    (r.source = none ∨ r.state ≠ .stacked ∨ r.visible = false ∨ (line : Int) < r.y ∨ r.y + r.height ≤ (line : Int) →
      r.cost hactive line = 0)) ∧
  ∀ (s : State) (hactive line : Nat), s.recordsOwned →
    s.layouts.share hactive line 0 + s.layouts.share hactive line 1 + s.layouts.share hactive line 2 +
      s.layouts.share hactive line 3 = s.layouts.projected.lineLoad hactive line

/-! ### Commits and presentation -/

/-- A COMMIT that passes every step is accepted: the trial layout becomes the projected one, with its load table; queued_refs rise by
one for each SOURCE operation that names the surface; a record with the port's issued number as fence joins the tail of the
queue, its refreshed windows those that a SOURCE or TOUCH names and no DESTROY, each once; the applied layout and its load
stand. The answer carries 255, the fence and line 0. -/
def Obligations.CommitIsAccepted : Prop :=
  ∀ (s : State) (n : Port) (tag : Byte) (payload : List Byte) (count : Nat) (l : Layout) (ops : List Op), s.quiet n →
    (s.session n).state ≠ .closed → field8 payload 0 = count → 1 ≤ count → count ≤ 16 →
    payload.length = 4 + 12 * count → (s.layouts.commits.filter (fun p => p.port = n)).length < 2 →
    s.layouts.tryOps s.surfaces n 0 (opChunks count (payload.drop 4)) s.layouts.projected = .ok (l, ops) →
    (∀ x ∈ loadTable s.scan.timing l, x ≤ s.scan.budget) →
    ∃ refreshed : List WinSlot, refreshed.Nodup ∧
      (∀ w, w ∈ refreshed ↔
        (∃ op ∈ ops, op.window % 32 = w.val ∧
          ((∃ h present surface sx sy, op = .source h present surface sx sy) ∨ ∃ h, op = .touch h)) ∧
        ¬ ∃ h, Op.destroy h ∈ ops ∧ h % 32 = w.val) ∧
      exec (.commit n tag payload) s = .next
        ({ s.replied n tag ([0x51, 0x00, 0xFF] ++ bytes16 (tget s.drawing.issued n) ++ [0, 0]) with
          surfaces := s.surfaces.changed (fun i f =>
            { f with queuedRefs := f.queuedRefs + (ops.map (fun op => op.refsOn i)).sum })
          layouts :=
            { s.layouts with
              projected := l
              projectedLoad := loadTable s.scan.timing l
              commits := s.layouts.commits ++
                [{ port := n, tag := tag, fence := tget s.drawing.issued n
                   reached := s.drawing.isComplete n (tget s.drawing.issued n), ops := ops
                   refreshed := refreshed }] } } : State).settle

/-- A COMMIT that fails a step changes nothing beside its answer: BAD_LENGTH where the count and the length disagree, COMMIT_LIMIT with
two commits of the port pending, the status of the first failing operation with its index, and OVER_BUDGET with the lowest
line over the budget. -/
def Obligations.CommitIsRefused : Prop :=
  ∀ (s : State) (n : Port) (tag : Byte) (payload : List Byte) (count : Nat), s.quiet n → (s.session n).state ≠ .closed →
    4 ≤ payload.length → payload.length ≤ 1024 → field8 payload 0 = count →
    (¬ (1 ≤ count ∧ count ≤ 16 ∧ payload.length = 4 + 12 * count) →
      exec (.commit n tag payload) s = .next (s.replied n tag [0x51, 0x02, 0xFF, 0, 0, 0, 0]).settle) ∧
    (1 ≤ count → count ≤ 16 → payload.length = 4 + 12 * count →
      (2 ≤ (s.layouts.commits.filter (fun p => p.port = n)).length →
        exec (.commit n tag payload) s = .next (s.replied n tag [0x51, 0x11, 0xFF, 0, 0, 0, 0]).settle) ∧
      ((s.layouts.commits.filter (fun p => p.port = n)).length < 2 →
        (∀ st i,
          s.layouts.tryOps s.surfaces n 0 (opChunks count (payload.drop 4)) s.layouts.projected = .error (st, i) →
          exec (.commit n tag payload) s = .next
            (s.replied n tag [0x51, st.code, BitVec.ofNat 8 i, 0, 0, 0, 0]).settle) ∧
        ∀ l ops line,
          s.layouts.tryOps s.surfaces n 0 (opChunks count (payload.drop 4)) s.layouts.projected = .ok (l, ops) →
          (∃ x, (loadTable s.scan.timing l)[line]? = some x ∧ s.scan.budget < x) →
          (∀ j x, j < line → (loadTable s.scan.timing l)[j]? = some x → x ≤ s.scan.budget) →
          exec (.commit n tag payload) s = .next
            (s.replied n tag ([0x51, 0x10, 0xFF, 0, 0] ++ bytes16 line)).settle))

/-- The operations of a commit are judged in order, each against the trial layout the earlier ones have left; the first failure is
answered with its index. Checks in turn: the operation code; the window (NO_SUCH_WINDOW for a handle that names none, or one
WITHDRAWN in the trial layout, then NOT_OWNER); then those of the operation's kind. The operations' bytes are as R162 lays
them out. -/
def Obligations.OperationsAreJudgedInOrder : Prop :=
  (∀ (c : LayoutController) (m : Surfaces) (n : Port) (i : Nat) (b : List Byte) (bs : List (List Byte)) (l : Layout),
    (¬ (1 ≤ field8 b 0 ∧ field8 b 0 ≤ 10) → c.tryOps m n i (b :: bs) l = .error (.badArgument, i)) ∧
    ∀ op, opOfBytes b = some op →
      (c.named op.window = none → c.tryOps m n i (b :: bs) l = .error (.noSuchWindow, i)) ∧
      ∀ w owner r, c.named op.window = some (w, owner) → l.record w = some r →
        (r.state = .withdrawn → c.tryOps m n i (b :: bs) l = .error (.noSuchWindow, i)) ∧
        (r.state ≠ .withdrawn → owner ≠ n → c.tryOps m n i (b :: bs) l = .error (.notOwner, i)) ∧
        (r.state ≠ .withdrawn → owner = n →
          (∀ st, op.refusedBy c m n l w r = some st → c.tryOps m n i (b :: bs) l = .error (st, i)) ∧
          (op.refusedBy c m n l w r = none →
            (∀ e, c.tryOps m n (i + 1) bs (op.carryOut m w l) = .error e → c.tryOps m n i (b :: bs) l = .error e) ∧
            ∀ l' ops, c.tryOps m n (i + 1) bs (op.carryOut m w l) = .ok (l', ops) →
              c.tryOps m n i (b :: bs) l = .ok (l', op :: ops)))) ∧
  ∀ (w : Nat) (b1 b2 b3 b4 b5 b6 b7 b8 b9 b10 b11 : Byte) (v : Byte → Byte → Nat) (z : Byte → Byte → Int),
    (∀ x y, v x y = x.toNat * 256 + y.toNat) →
    (∀ x y, z x y = if x.toNat < 128 then (v x y : Int) else (v x y : Int) - 65536) → w = v b1 b2 →
    opOfBytes [1, b1, b2, b3, b4, b5, b6, b7, b8, b9, b10, b11] = some (.place w (z b3 b4) (z b5 b6) (v b7 b8) (v b9 b10)) ∧
    opOfBytes [2, b1, b2, b3, b4, b5, b6, b7, b8, b9, b10, b11] = some (.source w b3.toNat (v b4 b5) (v b6 b7) (v b8 b9)) ∧
    opOfBytes [3, b1, b2, b3, b4, b5, b6, b7, b8, b9, b10, b11] = some (.style w b3 ⟨b4, b5, b6⟩) ∧
    opOfBytes [4, b1, b2, b3, b4, b5, b6, b7, b8, b9, b10, b11] = some (.band w b3.toNat) ∧
    opOfBytes [5, b1, b2, b3, b4, b5, b6, b7, b8, b9, b10, b11] = some (.restack w b3.toNat (v b4 b5)) ∧
    opOfBytes [6, b1, b2, b3, b4, b5, b6, b7, b8, b9, b10, b11] = some (.showWindow w) ∧
    opOfBytes [7, b1, b2, b3, b4, b5, b6, b7, b8, b9, b10, b11] = some (.hideWindow w) ∧
    opOfBytes [8, b1, b2, b3, b4, b5, b6, b7, b8, b9, b10, b11] = some (.freshness w b3.toNat) ∧
    opOfBytes [9, b1, b2, b3, b4, b5, b6, b7, b8, b9, b10, b11] = some (.touch w) ∧
    opOfBytes [10, b1, b2, b3, b4, b5, b6, b7, b8, b9, b10, b11] = some (.destroy w)

/-- What each kind of operation checks of its arguments, for a window with trial record r: PLACE its ranges and the fit of the source,
SOURCE its ranges, the surface and the fit, BAND its code, and for ALERT the token and the place, RESTACK its code and, for
ABOVE and BELOW, the reference; the other kinds check nothing. -/
def Obligations.OperationsAreChecked : Prop :=
  ∀ (c : LayoutController) (m : Surfaces) (n : Port) (l : Layout) (w : WinSlot) (r : WindowRec) (h : Nat),
    (∀ (x y : Int) (width height : Nat),
      (¬ (-2048 ≤ x ∧ x ≤ 2047 ∧ -2048 ≤ y ∧ y ≤ 2047 ∧ 1 ≤ width ∧ width ≤ 2048 ∧ 1 ≤ height ∧ height ≤ 2048) →
        Op.refusedBy (.place h x y width height) c m n l w r = some .badArgument) ∧
      ((-2048 ≤ x ∧ x ≤ 2047 ∧ -2048 ≤ y ∧ y ≤ 2047 ∧ 1 ≤ width ∧ width ≤ 2048 ∧ 1 ≤ height ∧ height ≤ 2048) →
        (r.source = none → Op.refusedBy (.place h x y width height) c m n l w r = none) ∧
        ∀ d, r.source = some d → Op.refusedBy (.place h x y width height) c m n l w r =
          if r.sx + width ≤ d.width ∧ r.sy + height ≤ d.height then none else some .badRect)) ∧
    (∀ present surface sx sy : Nat,
      (¬ (present ≤ 1 ∧ sx ≤ 2047 ∧ sy ≤ 2047) →
        Op.refusedBy (.source h present surface sx sy) c m n l w r = some .badArgument) ∧
      (sx ≤ 2047 → sy ≤ 2047 →
        Op.refusedBy (.source h 0 surface sx sy) c m n l w r = none ∧
        (m.named surface = none → Op.refusedBy (.source h 1 surface sx sy) c m n l w r = some .noSuchSurface) ∧
        ∀ i f, m.named surface = some (i, f) →
          Op.refusedBy (.source h 1 surface sx sy) c m n l w r =
            if f.owner ≠ n then some .notOwner
            else if sx + r.width ≤ f.width ∧ sy + r.height ≤ f.height then none else some .badRect)) ∧
    (∀ code : Nat,
      Op.refusedBy (.band h code) c m n l w r =
        if 3 < code then some .badArgument
        else if code = 3 ∧ c.holder ≠ some n then some .noAlertToken
        else if code = 3 ∧ ∃ v ∈ l.bands.alert, v ≠ w then some .alertOccupied
        else none) ∧
    (∀ code ref : Nat,
      (3 < code → Op.refusedBy (.restack h code ref) c m n l w r = some .badArgument) ∧
      (code < 2 → Op.refusedBy (.restack h code ref) c m n l w r = none) ∧
      (code = 2 ∨ code = 3 →
        ((∃ v p q, c.named ref = some (v, n) ∧ v ≠ w ∧ (l.stackIfReserved w).record w = some p ∧
            (l.stackIfReserved w).record v = some q ∧ q.state = .stacked ∧ q.band = p.band) →
          Op.refusedBy (.restack h code ref) c m n l w r = none) ∧
        ((¬ ∃ v p q, c.named ref = some (v, n) ∧ v ≠ w ∧ (l.stackIfReserved w).record w = some p ∧
            (l.stackIfReserved w).record v = some q ∧ q.state = .stacked ∧ q.band = p.band) →
          Op.refusedBy (.restack h code ref) c m n l w r = some .badStackRef))) ∧
    ∀ (opacity : Byte) (fill : Rgb) (deadline : Nat),
      Op.refusedBy (.style h opacity fill) c m n l w r = none ∧ Op.refusedBy (.showWindow h) c m n l w r = none ∧
        Op.refusedBy (.hideWindow h) c m n l w r = none ∧ Op.refusedBy (.freshness h deadline) c m n l w r = none ∧
        Op.refusedBy (.touch h) c m n l w r = none ∧ Op.refusedBy (.destroy h) c m n l w r = none

/-- What each operation that keeps a STACKED window where it stands does to its record in the layout: PLACE its rectangle, SOURCE its
source and offsets, STYLE opacity and fill, SHOW and HIDE visible, FRESHNESS the deadline, TOUCH nothing. No band list and
no other record changes. -/
def Obligations.OperationsSetTheirFields : Prop :=
  ∀ (m : Surfaces) (l : Layout) (w : WinSlot) (r : WindowRec), l.record w = some r → r.state = .stacked →
    ∀ (op : Op) (q : WindowRec),
      ((∃ h x y width height, op = .place h x y width height ∧
          q = { r with x := x, y := y, width := width, height := height }) ∨
        (∃ h surface sx sy i f, op = .source h 1 surface sx sy ∧ m.named surface = some (i, f) ∧
          q = { r with source := some ⟨surface, f.width, f.height, f.format⟩, sx := sx, sy := sy }) ∨
        (∃ h surface sx sy, op = .source h 0 surface sx sy ∧ q = { r with source := none, sx := sx, sy := sy }) ∨
        (∃ h opacity fill, op = .style h opacity fill ∧ q = { r with opacity := opacity, fill := fill }) ∨
        (∃ h, op = .showWindow h ∧ q = { r with visible := true }) ∨
        (∃ h, op = .hideWindow h ∧ q = { r with visible := false }) ∨
        (∃ h deadline, op = .freshness h deadline ∧ q = { r with deadline := deadline }) ∨
        (∃ h, op = .touch h ∧ q = r)) →
      op.carryOut m w l = { l with recs := tput l.recs w (some q) }

/-- How the operations move windows in the stack. An operation other than DESTROY on a RESERVED window has the effect it has where the
window is first STACKED at the top of MAIN. BAND puts the window at the top of the named band; RESTACK moves it within its
band, to the top or the bottom whatever reference it carries, or directly above or below the reference; DESTROY takes it out
of its list as WITHDRAWN. The other windows of every list keep their order, and no other record changes. -/
def Obligations.OperationsMoveWindows : Prop :=
  (∀ (m : Surfaces) (l : Layout) (w : WinSlot) (r : WindowRec) (op : Op), l.record w = some r → r.state = .reserved →
    (∀ h, op ≠ .destroy h) →
    op.carryOut m w l = op.carryOut m w
      { recs := tput l.recs w (some { r with state := .stacked, band := .main })
        bands :=
          ⟨l.bands.base.filter (· != w), l.bands.main.filter (· != w) ++ [w], l.bands.overlay.filter (· != w),
            l.bands.alert.filter (· != w)⟩ }) ∧
  (∀ (m : Surfaces) (l : Layout) (w : WinSlot) (r : WindowRec) (h code : Nat) (k : Band), l.record w = some r →
    r.state = .stacked →
    ((code = 0 ∧ k = .base) ∨ (code = 1 ∧ k = .main) ∨ (code = 2 ∧ k = .overlay) ∨ (code = 3 ∧ k = .alert)) →
    (Op.carryOut (.band h code) m w l).recs = tput l.recs w (some { r with band := k }) ∧
      ∀ j, (Op.carryOut (.band h code) m w l).bands.list j =
        if j = k then (l.bands.list j).filter (· != w) ++ [w] else (l.bands.list j).filter (· != w)) ∧
  (∀ (m : Surfaces) (l : Layout) (w : WinSlot) (r : WindowRec) (h code ref : Nat), l.record w = some r →
    r.state = .stacked → code < 4 →
    (Op.carryOut (.restack h code ref) m w l).recs = l.recs ∧
      (∀ j, j ≠ r.band → (Op.carryOut (.restack h code ref) m w l).bands.list j = l.bands.list j) ∧
      (code = 0 → (Op.carryOut (.restack h code ref) m w l).bands.list r.band =
        (l.bands.list r.band).filter (· != w) ++ [w]) ∧
      (code = 1 → (Op.carryOut (.restack h code ref) m w l).bands.list r.band =
        w :: (l.bands.list r.band).filter (· != w)) ∧
      ∀ (v : WinSlot) (below above : List WinSlot), ref % 32 = v.val → v ≠ w → v ∉ below →
        (l.bands.list r.band).filter (· != w) = below ++ v :: above →
        (code = 2 → (Op.carryOut (.restack h code ref) m w l).bands.list r.band = below ++ v :: w :: above) ∧
          (code = 3 → (Op.carryOut (.restack h code ref) m w l).bands.list r.band = below ++ w :: v :: above)) ∧
  ∀ (m : Surfaces) (l : Layout) (w : WinSlot) (r : WindowRec) (h : Nat), l.record w = some r →
    (Op.carryOut (.destroy h) m w l).recs = tput l.recs w (some { r with state := .withdrawn }) ∧
      ∀ j, (Op.carryOut (.destroy h) m w l).bands.list j = (l.bands.list j).filter (· != w)

/-- The frame boundary and the application of commits. The command FRAME_BOUNDARY of a RUNNING scan engine, and the PIXEL_CLOCK of the
last active pixel of a frame, is the four steps of R126 in their order, with the frame number after the advance: the CLOSING ports' windows withdrawn from the applied layout with
their references and load, the ready commits applied, the windows aged in slot order and the refreshed marks cleared, the
teardowns finished. Commits are applied from the head while the head is ready. An operation of the head is carried out on
the applied layout, with shown_refs following its window's applied source, queued_refs falling for a SOURCE, and the age
restarted by a FRESHNESS or a SHOW of a hidden window; a DESTROY frees the window. After its last operation the commit
leaves the queue, its refreshed windows restart, the load is computed again and PRESENTED is posted. The position after the
command FRAME_BOUNDARY is log entry 4, the two line buffers are log entry 9, and how far a job in flight has written by then
is a free value (State.drawsOn, log entry 8). -/
def Obligations.ReadyCommitsAreApplied : Prop :=
  (∀ (c : Instr) (s : State) (t : Timing), s.scan.timing = some t →
    (c = .frameBoundary ∨ c = .pixelClock ∧ t.valid = true ∧ s.scan.pos = some (t.vactive - 1, t.hactive - 1)) →
    ∃ (v u : State), v.links = s.links ∧ v.sessions = s.sessions ∧ v.surfaces = s.surfaces ∧ v.layouts = s.layouts ∧
      s.drawsOn v ∧
      v.scan = ⟨some t, s.scan.frame + 1, some (t.vactive - 1, t.hactive), [], []⟩ ∧
      u = (allSlots 24).foldl State.ageWindow v.withdrawClosing.applyCommits ∧
      exec c s = .next
        (State.finishTeardowns
          ({ u with
            layouts :=
              { u.layouts with fresh := u.layouts.fresh.map (fun f => { f with refreshed := false }) } } : State)).settle) ∧
  (∀ s : State,
    s.withdrawClosing =
      ({ s with
        surfaces := s.surfaces.changed (fun i f =>
          { f with
            shownRefs := f.shownRefs - (((allSlots 24).filter s.closes).map (fun w =>
              match s.layouts.applied.record w with | some r => r.refsOn i | none => 0)).sum })
        layouts :=
          { s.layouts with
            applied := s.layouts.applied.without s.closes
            appliedLoad := loadTable s.scan.timing (s.layouts.applied.without s.closes)
            projectedLoad := loadTable s.scan.timing s.layouts.projected } } : State)) ∧
  (∀ s : State, (∀ p rest, s.layouts.commits = p :: rest → p.reached = false) → s.applyCommits = s) ∧
  ∀ (s : State) (p : Pending) (rest : List Pending), s.layouts.commits = p :: rest → p.reached = true →
    (∀ (op : Op) (ops : List Op) (w : WinSlot) (n : Port) (r : WindowRec), p.ops = op :: ops →
      s.layouts.named op.window = some (w, n) → s.layouts.applied.record w = some r →
      (∀ q, (∀ h, op ≠ .destroy h) → (op.carryOut s.surfaces w s.layouts.applied).record w = some q →
        s.applyCommits =
          State.applyCommits
            ({ s with
              surfaces := s.surfaces.changed (fun i f =>
                { f with
                  shownRefs := f.shownRefs + q.refsOn i - r.refsOn i
                  queuedRefs := f.queuedRefs - op.refsOn i })
              layouts :=
                { s.layouts with
                  commits := { p with ops := ops } :: rest
                  applied := op.carryOut s.surfaces w s.layouts.applied
                  fresh :=
                    match op with
                    | .showWindow _ => if r.visible then s.layouts.fresh else tput s.layouts.fresh w ⟨0, false, true⟩
                    | .freshness _ _ => tput s.layouts.fresh w ⟨0, false, true⟩
                    | _ => s.layouts.fresh } } : State)) ∧
      (∀ h, op = .destroy h →
        s.applyCommits =
          State.applyCommits
            ({ s with
              surfaces := s.surfaces.changed (fun i f => { f with shownRefs := f.shownRefs - r.refsOn i })
              layouts :=
                { s.layouts with
                  commits := { p with ops := ops } :: rest
                  owners := tput s.layouts.owners w none
                  gens := tput s.layouts.gens w
                    (if tget s.layouts.gens w + 1 ≥ 2048 then 0 else tget s.layouts.gens w + 1)
                  winCount := tput s.layouts.winCount n (tget s.layouts.winCount n - 1)
                  applied :=
                    { recs := tput s.layouts.applied.recs w none
                      bands := (s.layouts.applied.without (fun v => v = w)).bands }
                  projected :=
                    { recs := tput s.layouts.projected.recs w none
                      bands := (s.layouts.projected.without (fun v => v = w)).bands }
                  fresh := tput s.layouts.fresh w ⟨0, false, false⟩ } } : State))) ∧
    (p.ops = [] →
      s.applyCommits =
        State.applyCommits
          ({ s with
            links := tput s.links p.port ((s.link p.port).post ([0x01, p.tag] ++ bytes32 s.scan.frame))
            layouts :=
              { s.layouts with
                commits := rest
                fresh := tabulate (fun w => if w ∈ p.refreshed then ⟨0, false, true⟩ else tget s.layouts.fresh w)
                appliedLoad := loadTable s.scan.timing s.layouts.applied
                projectedLoad := loadTable s.scan.timing s.layouts.projected } } : State))

/-! ### The alert token -/

/-- ACQUIRE_ALERT by the token's state: GRANTED to the port that finds it free or holds it, WAITING with its position to a port on the
list or newly appended to it. -/
def Obligations.AcquireAlertAnswers : Prop :=
  ∀ (s : State) (n : Port) (tag : Byte), s.quiet n → (s.session n).state ≠ .closed →
    (s.layouts.holder = none →
      exec (.acquireAlert n tag []) s = .next
        ({ s.replied n tag [0x60, 0x00, 1, 0] with layouts := { s.layouts with holder := some n } } : State).settle) ∧
    (s.layouts.holder = some n →
      exec (.acquireAlert n tag []) s = .next (s.replied n tag [0x60, 0x00, 1, 0]).settle) ∧
    ∀ h, s.layouts.holder = some h → h ≠ n →
      (∀ before after, s.layouts.waiting = before ++ n :: after → n ∉ before →
        exec (.acquireAlert n tag []) s = .next
          (s.replied n tag [0x60, 0x00, 2, BitVec.ofNat 8 (before.length + 1)]).settle) ∧
      (n ∉ s.layouts.waiting →
        exec (.acquireAlert n tag []) s = .next
          ({ s.replied n tag [0x60, 0x00, 2, BitVec.ofNat 8 (s.layouts.waiting.length + 1)] with
            layouts := { s.layouts with waiting := s.layouts.waiting ++ [n] } } : State).settle)

/-- RELEASE_ALERT by case: ALERT_IN_USE while a window of the holder stands in band ALERT of either layout; else the token passes to
position 1 of the list, which is sent ALERT_GRANTED, or to none; a waiting port leaves the list; any other port is answered
NOT_HELD. -/
def Obligations.ReleaseAlertAnswers : Prop :=
  ∀ (s : State) (n : Port) (tag : Byte), s.quiet n → (s.session n).state ≠ .closed → s.layouts.tokenSound →
    (s.layouts.holder = some n →
      (∃ w, (w ∈ s.layouts.applied.bands.alert ∨ w ∈ s.layouts.projected.bands.alert) ∧
        tget s.layouts.owners w = some n) →
      exec (.releaseAlert n tag []) s = .next (s.replied n tag [0x61, 0x15, 0]).settle) ∧
    (s.layouts.holder = some n →
      (∀ w, w ∈ s.layouts.applied.bands.alert ∨ w ∈ s.layouts.projected.bands.alert →
        tget s.layouts.owners w ≠ some n) →
      (s.layouts.waiting = [] →
        exec (.releaseAlert n tag []) s = .next
          ({ s.replied n tag [0x61, 0x00, 3] with layouts := { s.layouts with holder := none } } : State).settle) ∧
      ∀ q rest, s.layouts.waiting = q :: rest →
        exec (.releaseAlert n tag []) s = .next
          (({ s.replied n tag [0x61, 0x00, 3] with
            layouts := { s.layouts with holder := some q, waiting := rest } } : State).post q [0x04]).settle) ∧
    (n ∈ s.layouts.waiting →
      exec (.releaseAlert n tag []) s = .next
        ({ s.replied n tag [0x61, 0x00, 4] with
          layouts := { s.layouts with waiting := s.layouts.waiting.filter (· != n) } } : State).settle) ∧
    (s.layouts.holder ≠ some n → n ∉ s.layouts.waiting →
      exec (.releaseAlert n tag []) s = .next (s.replied n tag [0x61, 0x00, 5]).settle)

/-! ### Identification and queries -/

/-- IDENTIFY answers with the constants of the part on any port that is not CLOSING. QUERY_SESSION and QUERY_PANEL report the port's
session, job and count fields, and the panel's record, frame counter and budget. They change nothing else. -/
def Obligations.IdentifyAndSessionQueries : Prop :=
  ∀ (s : State) (n : Port) (tag : Byte), s.quiet n →
    exec (.identify n tag []) s = .next
      (s.replied n tag
        [0x01, 0x00, 0x03, 0xA1, 0x04, 0x24, 1, 4, 48, 16, 24, 8, 0x10, 0x00, 0x10, 0x00, 0x02, 0x80, 0x06, 0x00, 4, 4, 16,
          4, 8, 2, 16, 0x04, 0x00]).settle ∧
    ((s.session n).state ≠ .closed →
      exec (.querySession n tag []) s = .next
        (s.replied n tag
          ([0x10, 0x00, BitVec.ofNat 8 (s.session n).state.code, BitVec.ofNat 8 (s.session n).number] ++
            bytes32 (s.session n).label ++ bytes16 (tget s.drawing.issued n) ++ bytes16 (tget s.drawing.completed n) ++
            bytes8 (s.layouts.commits.filter (fun p => p.port = n)).length ++ bytes8 (tget s.layouts.winCount n) ++
            bytes8 (tget s.surfaces.surfCount n))).settle ∧
      (s.scan.timing = none →
        exec (.queryPanel n tag []) s = .next (s.replied n tag (0x11 :: 0x00 :: List.replicate 25 0)).settle) ∧
      ∀ t, s.scan.timing = some t →
        exec (.queryPanel n tag []) s = .next
          (s.replied n tag
            ([0x11, 0x00, 1, 1] ++ bytesTiming t ++ bytes32 s.scan.frame ++ bytes16 (6 * t.htotal))).settle)

/-- QUERY_MEMORY reports the free pages, the pool use and the four page counts; QUERY_ALERT the holder, the number of waiting ports and
the first three of them, 255 for none; QUERY_SURFACE the record of an own surface, or refuses. They change nothing else. -/
def Obligations.SurfaceMemoryAndAlertQueries : Prop :=
  ∀ (s : State) (n : Port) (tag : Byte), s.quiet n → (s.session n).state ≠ .closed →
    exec (.queryMemory n tag []) s = .next
      (s.replied n tag
        ([0x13, 0x00] ++ bytes16 s.surfaces.freePages.length ++ bytes16 (poolUse s.surfaces.pageCount) ++
          bytes16 (tget s.surfaces.pageCount 0) ++ bytes16 (tget s.surfaces.pageCount 1) ++
          bytes16 (tget s.surfaces.pageCount 2) ++ bytes16 (tget s.surfaces.pageCount 3))).settle ∧
    (∀ holder p1 p2 p3 : Byte, holder = (match s.layouts.holder with | some h => BitVec.ofNat 8 h.val | none => 0xFF) →
      (match s.layouts.waiting with
        | [] => p1 = 0xFF ∧ p2 = 0xFF ∧ p3 = 0xFF
        | [a] => p1 = BitVec.ofNat 8 a.val ∧ p2 = 0xFF ∧ p3 = 0xFF
        | [a, b] => p1 = BitVec.ofNat 8 a.val ∧ p2 = BitVec.ofNat 8 b.val ∧ p3 = 0xFF
        | a :: b :: c :: _ => p1 = BitVec.ofNat 8 a.val ∧ p2 = BitVec.ofNat 8 b.val ∧ p3 = BitVec.ofNat 8 c.val) →
      exec (.queryAlert n tag []) s = .next
        (s.replied n tag [0x16, 0x00, holder, BitVec.ofNat 8 s.layouts.waiting.length, p1, p2, p3]).settle) ∧
    ∀ payload : List Byte, payload.length = 2 →
      (s.surfaces.named (field16 payload 0) = none →
        exec (.querySurface n tag payload) s = .next
          (s.replied n tag (0x12 :: 0x09 :: List.replicate 16 0)).settle) ∧
      ∀ i f, s.surfaces.named (field16 payload 0) = some (i, f) →
        (f.owner ≠ n →
          exec (.querySurface n tag payload) s = .next
            (s.replied n tag (0x12 :: 0x0F :: List.replicate 16 0)).settle) ∧
        (f.owner = n →
          exec (.querySurface n tag payload) s = .next
            (s.replied n tag
              ([0x12, 0x00] ++ bytes16 (field16 payload 0) ++ bytes8 n.val ++ bytes16 f.width ++ bytes16 f.height ++
                bytes8 f.format.code ++ bytesBool f.direct ++ bytes16 f.stride ++ bytes16 f.pageCount ++
                bytes8 f.shownRefs ++ bytes8 f.queuedRefs ++ bytes8 f.jobRefs)).settle)

/-- QUERY_WINDOW reports both records of an own window, or refuses; QUERY_LOAD reports the budget, the peak of each load table with its
lowest line, and the port's share of the projected peak line; they change nothing. A record is 26 bytes: state, band and
index in its list (MAIN and 255 where it is not STACKED), rectangle, source, offsets, opacity, fill colour, visible,
deadline, age and stale, the last two 0 in the projected record. -/
def Obligations.WindowAndLoadQueries : Prop :=
  (∀ (l : Layout) (w : WinSlot) (r : WindowRec) (age : Nat) (stale : Bool) (state band index : Nat)
    (source : Option SourceDesc) (handle : Nat), r.source = source →
    ((r.state = .reserved ∧ state = 1 ∧ band = 1 ∧ index = 255) ∨
      (r.state = .withdrawn ∧ state = 3 ∧ band = 1 ∧ index = 255) ∨
      (r.state = .stacked ∧ state = 2 ∧
        ((r.band = .base ∧ band = 0) ∨ (r.band = .main ∧ band = 1) ∨ (r.band = .overlay ∧ band = 2) ∨
          (r.band = .alert ∧ band = 3)) ∧
        ∃ below above, l.bands.list r.band = below ++ w :: above ∧ w ∉ below ∧ index = below.length)) →
    ((source = none ∧ handle = 0) ∨ ∃ d, source = some d ∧ handle = d.handle) →
    l.recordBytes w r age stale =
      [BitVec.ofNat 8 state, BitVec.ofNat 8 band, BitVec.ofNat 8 index] ++ bytes16 (r.x % 65536).toNat ++
        bytes16 (r.y % 65536).toNat ++ bytes16 r.width ++ bytes16 r.height ++ [if source = none then 0 else 1] ++
        bytes16 handle ++ bytes16 r.sx ++ bytes16 r.sy ++
        [r.opacity, r.fill.red, r.fill.green, r.fill.blue, if r.visible then 1 else 0, BitVec.ofNat 8 r.deadline,
          BitVec.ofNat 8 age, if stale then 1 else 0]) ∧
  ∀ (s : State) (n : Port) (tag : Byte), s.quiet n → (s.session n).state ≠ .closed →
    (∀ payload : List Byte, payload.length = 2 →
      (s.layouts.named (field16 payload 0) = none →
        exec (.queryWindow n tag payload) s = .next
          (s.replied n tag (0x14 :: 0x0E :: List.replicate 54 0)).settle) ∧
      ∀ w owner, s.layouts.named (field16 payload 0) = some (w, owner) →
        (owner ≠ n →
          exec (.queryWindow n tag payload) s = .next
            (s.replied n tag (0x14 :: 0x0F :: List.replicate 54 0)).settle) ∧
        ∀ a j, owner = n → s.layouts.applied.record w = some a → s.layouts.projected.record w = some j →
          exec (.queryWindow n tag payload) s = .next
            (s.replied n tag
              ([0x14, 0x00] ++ bytes16 (field16 payload 0) ++
                s.layouts.applied.recordBytes w a (tget s.layouts.fresh w).age (tget s.layouts.fresh w).stale ++
                s.layouts.projected.recordBytes w j 0 false)).settle) ∧
    (s.scan.timing = none → s.layouts.appliedLoad = [] → s.layouts.projectedLoad = [] →
      exec (.queryLoad n tag []) s = .next (s.replied n tag (0x15 :: 0x00 :: List.replicate 12 0)).settle) ∧
    ∀ (t : Timing) (a al p pl share : Nat), s.scan.timing = some t →
      (s.layouts.appliedLoad[al]? = some a ∧ 0 < a ∧ (∀ x ∈ s.layouts.appliedLoad, x ≤ a) ∧
          (∀ i, i < al → s.layouts.appliedLoad[i]? ≠ some a) ∨
        a = 0 ∧ al = 0 ∧ ∀ x ∈ s.layouts.appliedLoad, x = 0) →
      (s.layouts.projectedLoad[pl]? = some p ∧ 0 < p ∧ (∀ x ∈ s.layouts.projectedLoad, x ≤ p) ∧
          (∀ i, i < pl → s.layouts.projectedLoad[i]? ≠ some p) ∧ share = s.layouts.share t.hactive pl n ∨
        p = 0 ∧ pl = 0 ∧ share = 0 ∧ ∀ x ∈ s.layouts.projectedLoad, x = 0) →
      exec (.queryLoad n tag []) s = .next
        (s.replied n tag
          ([0x15, 0x00] ++ bytes16 (6 * t.htotal) ++ bytes16 a ++ bytes16 al ++ bytes16 p ++ bytes16 pl ++
            bytes16 share)).settle
end

