-- ==== Sys2Proof/Laws/State.lean ====
section
/-! SUPPORT. What each update of the state leaves in each field, and reading a table after a write. Every lemma here is true by
definition, and no later proof unfolds a record update. -/

namespace Sys2Proof.Machine

/-! ### Tables -/

@[simp] theorem tget_tput_same {α : Type} {n : Nat} (t : Table α n) (i : Fin n) (a : α) : tget (tput t i a) i = a := by
  simp [tget, tput]

theorem tget_tput_ne {α : Type} {n : Nat} (t : Table α n) (i j : Fin n) (a : α) (h : i ≠ j) :
    tget (tput t i a) j = tget t j := by
  have : i.val ≠ j.val := fun e => h (Fin.ext e)
  simp [tget, tput, Vector.getElem_set, this]

theorem tget_tput {α : Type} {n : Nat} (t : Table α n) (i j : Fin n) (a : α) :
    tget (tput t i a) j = if i = j then a else tget t j := by
  by_cases h : i = j
  · subst h; simp
  · simp [tget_tput_ne _ _ _ _ h, h]

theorem tget_tmod {α : Type} {n : Nat} (t : Table α n) (i j : Fin n) (f : α → α) :
    tget (tmod t i f) j = if i = j then f (tget t j) else tget t j := by
  unfold tmod
  by_cases h : i = j
  · subst h; simp
  · simp [tget_tput_ne _ _ _ _ h, h]

@[simp] theorem tput_tput {α : Type} {n : Nat} (t : Table α n) (i : Fin n) (a b : α) :
    tput (tput t i a) i b = tput t i b := by
  simp [tput, Vector.set_set]

@[simp] theorem tput_tget {α : Type} {n : Nat} (t : Table α n) (i : Fin n) : tput t i (tget t i) = t := by
  simp [tput, tget]

@[simp] theorem tget_replicate {α : Type} {n : Nat} (a : α) (i : Fin n) : tget (Vector.replicate n a) i = a := by
  simp [tget]

/-- Two tables with the same entries are the same. -/
theorem table_ext {α : Type} {n : Nat} (t u : Table α n) (h : ∀ i, tget t i = tget u i) : t = u :=
  Vector.ext fun i hi => h ⟨i, hi⟩

/-! ### Links and sessions -/

@[simp] theorem State.link_withLink_same (s : State) (n : Port) (l : Link) : (s.withLink n l).link n = l := by
  simp [State.link, State.withLink]

theorem State.link_withLink_ne (s : State) (n m : Port) (l : Link) (h : n ≠ m) : (s.withLink n l).link m = s.link m :=
  tget_tput_ne _ _ _ _ h

@[simp] theorem State.session_withSession_same (s : State) (n : Port) (c : Session) :
    (s.withSession n c).session n = c := by
  simp [State.session, State.withSession]

theorem State.session_withSession_ne (s : State) (n m : Port) (c : Session) (h : n ≠ m) :
    (s.withSession n c).session m = s.session m :=
  tget_tput_ne _ _ _ _ h

@[simp] theorem State.link_mapLink_same (s : State) (n : Port) (f : Link → Link) : (s.mapLink n f).link n = f (s.link n) :=
  State.link_withLink_same _ _ _

theorem State.link_mapLink_ne (s : State) (n m : Port) (f : Link → Link) (h : n ≠ m) :
    (s.mapLink n f).link m = s.link m :=
  tget_tput_ne _ _ _ _ h

@[simp] theorem State.session_mapSession_same (s : State) (n : Port) (f : Session → Session) :
    (s.mapSession n f).session n = f (s.session n) :=
  State.session_withSession_same _ _ _

@[simp] theorem State.link_withSession (s : State) (n m : Port) (c : Session) : (s.withSession n c).link m = s.link m := rfl
@[simp] theorem State.link_mapSession (s : State) (n m : Port) (f : Session → Session) :
    (s.mapSession n f).link m = s.link m := rfl
@[simp] theorem State.link_setHeadWait (s : State) (n m : Port) (w : HeadWait) : (s.setHeadWait n w).link m = s.link m := rfl
@[simp] theorem State.session_withLink (s : State) (n m : Port) (l : Link) : (s.withLink n l).session m = s.session m := rfl
@[simp] theorem State.session_mapLink (s : State) (n m : Port) (f : Link → Link) :
    (s.mapLink n f).session m = s.session m := rfl
@[simp] theorem State.link_withScan (s : State) (c : Scan) (m : Port) : (s.withScan c).link m = s.link m := rfl
@[simp] theorem State.session_withScan (s : State) (c : Scan) (m : Port) : (s.withScan c).session m = s.session m := rfl
@[simp] theorem State.link_withSurfaces (s : State) (c : Surfaces) (m : Port) : (s.withSurfaces c).link m = s.link m := rfl
@[simp] theorem State.session_withSurfaces (s : State) (c : Surfaces) (m : Port) : (s.withSurfaces c).session m = s.session m := rfl
@[simp] theorem State.link_withMem (s : State) (c : Memory) (m : Port) : (s.withMem c).link m = s.link m := rfl
@[simp] theorem State.session_withMem (s : State) (c : Memory) (m : Port) : (s.withMem c).session m = s.session m := rfl
@[simp] theorem State.link_withDrawing (s : State) (c : Drawing) (m : Port) : (s.withDrawing c).link m = s.link m := rfl
@[simp] theorem State.session_withDrawing (s : State) (c : Drawing) (m : Port) : (s.withDrawing c).session m = s.session m := rfl
@[simp] theorem State.link_withLayouts (s : State) (c : LayoutController) (m : Port) : (s.withLayouts c).link m = s.link m := rfl
@[simp] theorem State.session_withLayouts (s : State) (c : LayoutController) (m : Port) : (s.withLayouts c).session m = s.session m := rfl
@[simp] theorem State.link_withPins (s : State) (c : Pins) (m : Port) : (s.withPins c).link m = s.link m := rfl
@[simp] theorem State.session_withPins (s : State) (c : Pins) (m : Port) : (s.withPins c).session m = s.session m := rfl
@[simp] theorem State.link_withPending (s : State) (c : List Instr) (m : Port) : (s.withPending c).link m = s.link m := rfl
@[simp] theorem State.session_withPending (s : State) (c : List Instr) (m : Port) : (s.withPending c).session m = s.session m := rfl
@[simp] theorem State.link_tick (s : State) (m : Port) : s.tick.link m = s.link m := rfl
@[simp] theorem State.link_settle (s : State) (m : Port) : s.settle.link m = s.link m := rfl
@[simp] theorem State.link_reload (s : State) (m : Port) : s.reload.link m = s.link m := rfl
@[simp] theorem State.session_tick (s : State) (m : Port) : s.tick.session m = s.session m := rfl
@[simp] theorem State.session_settle (s : State) (m : Port) : s.settle.session m = s.session m := rfl
@[simp] theorem State.session_reload (s : State) (m : Port) : s.reload.session m = s.session m := rfl
@[simp] theorem State.session_post (s : State) (n m : Port) (p : List Byte) : (s.post n p).session m = s.session m := rfl

/-! ### Each update, field by field -/

/-! withLink -/

@[simp] theorem State.withLink_links (s : State) (n : Port) (l : Link) : (s.withLink n l).links = tput s.links n l := rfl
@[simp] theorem State.withLink_sessions (s : State) (n : Port) (l : Link) : (s.withLink n l).sessions = s.sessions := rfl
@[simp] theorem State.withLink_scan (s : State) (n : Port) (l : Link) : (s.withLink n l).scan = s.scan := rfl
@[simp] theorem State.withLink_surfaces (s : State) (n : Port) (l : Link) : (s.withLink n l).surfaces = s.surfaces := rfl
@[simp] theorem State.withLink_mem (s : State) (n : Port) (l : Link) : (s.withLink n l).mem = s.mem := rfl
@[simp] theorem State.withLink_drawing (s : State) (n : Port) (l : Link) : (s.withLink n l).drawing = s.drawing := rfl
@[simp] theorem State.withLink_layouts (s : State) (n : Port) (l : Link) : (s.withLink n l).layouts = s.layouts := rfl
@[simp] theorem State.withLink_pins (s : State) (n : Port) (l : Link) : (s.withLink n l).pins = s.pins := rfl
@[simp] theorem State.withLink_free (s : State) (n : Port) (l : Link) : (s.withLink n l).free = s.free := rfl
@[simp] theorem State.withLink_pending (s : State) (n : Port) (l : Link) : (s.withLink n l).pending = s.pending := rfl

/-! withSession -/

@[simp] theorem State.withSession_links (s : State) (n : Port) (c : Session) : (s.withSession n c).links = s.links := rfl
@[simp] theorem State.withSession_sessions (s : State) (n : Port) (c : Session) : (s.withSession n c).sessions = tput s.sessions n c := rfl
@[simp] theorem State.withSession_scan (s : State) (n : Port) (c : Session) : (s.withSession n c).scan = s.scan := rfl
@[simp] theorem State.withSession_surfaces (s : State) (n : Port) (c : Session) : (s.withSession n c).surfaces = s.surfaces := rfl
@[simp] theorem State.withSession_mem (s : State) (n : Port) (c : Session) : (s.withSession n c).mem = s.mem := rfl
@[simp] theorem State.withSession_drawing (s : State) (n : Port) (c : Session) : (s.withSession n c).drawing = s.drawing := rfl
@[simp] theorem State.withSession_layouts (s : State) (n : Port) (c : Session) : (s.withSession n c).layouts = s.layouts := rfl
@[simp] theorem State.withSession_pins (s : State) (n : Port) (c : Session) : (s.withSession n c).pins = s.pins := rfl
@[simp] theorem State.withSession_free (s : State) (n : Port) (c : Session) : (s.withSession n c).free = s.free := rfl
@[simp] theorem State.withSession_pending (s : State) (n : Port) (c : Session) : (s.withSession n c).pending = s.pending := rfl

/-! withScan -/

@[simp] theorem State.withScan_links (s : State) (c : Scan) : (s.withScan c).links = s.links := rfl
@[simp] theorem State.withScan_sessions (s : State) (c : Scan) : (s.withScan c).sessions = s.sessions := rfl
@[simp] theorem State.withScan_scan (s : State) (c : Scan) : (s.withScan c).scan = c := rfl
@[simp] theorem State.withScan_surfaces (s : State) (c : Scan) : (s.withScan c).surfaces = s.surfaces := rfl
@[simp] theorem State.withScan_mem (s : State) (c : Scan) : (s.withScan c).mem = s.mem := rfl
@[simp] theorem State.withScan_drawing (s : State) (c : Scan) : (s.withScan c).drawing = s.drawing := rfl
@[simp] theorem State.withScan_layouts (s : State) (c : Scan) : (s.withScan c).layouts = s.layouts := rfl
@[simp] theorem State.withScan_pins (s : State) (c : Scan) : (s.withScan c).pins = s.pins := rfl
@[simp] theorem State.withScan_free (s : State) (c : Scan) : (s.withScan c).free = s.free := rfl
@[simp] theorem State.withScan_pending (s : State) (c : Scan) : (s.withScan c).pending = s.pending := rfl

/-! withSurfaces -/

@[simp] theorem State.withSurfaces_links (s : State) (m : Surfaces) : (s.withSurfaces m).links = s.links := rfl
@[simp] theorem State.withSurfaces_sessions (s : State) (m : Surfaces) : (s.withSurfaces m).sessions = s.sessions := rfl
@[simp] theorem State.withSurfaces_scan (s : State) (m : Surfaces) : (s.withSurfaces m).scan = s.scan := rfl
@[simp] theorem State.withSurfaces_surfaces (s : State) (m : Surfaces) : (s.withSurfaces m).surfaces = m := rfl
@[simp] theorem State.withSurfaces_mem (s : State) (m : Surfaces) : (s.withSurfaces m).mem = s.mem := rfl
@[simp] theorem State.withSurfaces_drawing (s : State) (m : Surfaces) : (s.withSurfaces m).drawing = s.drawing := rfl
@[simp] theorem State.withSurfaces_layouts (s : State) (m : Surfaces) : (s.withSurfaces m).layouts = s.layouts := rfl
@[simp] theorem State.withSurfaces_pins (s : State) (m : Surfaces) : (s.withSurfaces m).pins = s.pins := rfl
@[simp] theorem State.withSurfaces_free (s : State) (m : Surfaces) : (s.withSurfaces m).free = s.free := rfl
@[simp] theorem State.withSurfaces_pending (s : State) (m : Surfaces) : (s.withSurfaces m).pending = s.pending := rfl

/-! withMem -/

@[simp] theorem State.withMem_links (s : State) (m : Memory) : (s.withMem m).links = s.links := rfl
@[simp] theorem State.withMem_sessions (s : State) (m : Memory) : (s.withMem m).sessions = s.sessions := rfl
@[simp] theorem State.withMem_scan (s : State) (m : Memory) : (s.withMem m).scan = s.scan := rfl
@[simp] theorem State.withMem_surfaces (s : State) (m : Memory) : (s.withMem m).surfaces = s.surfaces := rfl
@[simp] theorem State.withMem_mem (s : State) (m : Memory) : (s.withMem m).mem = m := rfl
@[simp] theorem State.withMem_drawing (s : State) (m : Memory) : (s.withMem m).drawing = s.drawing := rfl
@[simp] theorem State.withMem_layouts (s : State) (m : Memory) : (s.withMem m).layouts = s.layouts := rfl
@[simp] theorem State.withMem_pins (s : State) (m : Memory) : (s.withMem m).pins = s.pins := rfl
@[simp] theorem State.withMem_free (s : State) (m : Memory) : (s.withMem m).free = s.free := rfl
@[simp] theorem State.withMem_pending (s : State) (m : Memory) : (s.withMem m).pending = s.pending := rfl

/-! withDrawing -/

@[simp] theorem State.withDrawing_links (s : State) (d : Drawing) : (s.withDrawing d).links = s.links := rfl
@[simp] theorem State.withDrawing_sessions (s : State) (d : Drawing) : (s.withDrawing d).sessions = s.sessions := rfl
@[simp] theorem State.withDrawing_scan (s : State) (d : Drawing) : (s.withDrawing d).scan = s.scan := rfl
@[simp] theorem State.withDrawing_surfaces (s : State) (d : Drawing) : (s.withDrawing d).surfaces = s.surfaces := rfl
@[simp] theorem State.withDrawing_mem (s : State) (d : Drawing) : (s.withDrawing d).mem = s.mem := rfl
@[simp] theorem State.withDrawing_drawing (s : State) (d : Drawing) : (s.withDrawing d).drawing = d := rfl
@[simp] theorem State.withDrawing_layouts (s : State) (d : Drawing) : (s.withDrawing d).layouts = s.layouts := rfl
@[simp] theorem State.withDrawing_pins (s : State) (d : Drawing) : (s.withDrawing d).pins = s.pins := rfl
@[simp] theorem State.withDrawing_free (s : State) (d : Drawing) : (s.withDrawing d).free = s.free := rfl
@[simp] theorem State.withDrawing_pending (s : State) (d : Drawing) : (s.withDrawing d).pending = s.pending := rfl

/-! withLayouts -/

@[simp] theorem State.withLayouts_links (s : State) (c : LayoutController) : (s.withLayouts c).links = s.links := rfl
@[simp] theorem State.withLayouts_sessions (s : State) (c : LayoutController) : (s.withLayouts c).sessions = s.sessions := rfl
@[simp] theorem State.withLayouts_scan (s : State) (c : LayoutController) : (s.withLayouts c).scan = s.scan := rfl
@[simp] theorem State.withLayouts_surfaces (s : State) (c : LayoutController) : (s.withLayouts c).surfaces = s.surfaces := rfl
@[simp] theorem State.withLayouts_mem (s : State) (c : LayoutController) : (s.withLayouts c).mem = s.mem := rfl
@[simp] theorem State.withLayouts_drawing (s : State) (c : LayoutController) : (s.withLayouts c).drawing = s.drawing := rfl
@[simp] theorem State.withLayouts_layouts (s : State) (c : LayoutController) : (s.withLayouts c).layouts = c := rfl
@[simp] theorem State.withLayouts_pins (s : State) (c : LayoutController) : (s.withLayouts c).pins = s.pins := rfl
@[simp] theorem State.withLayouts_free (s : State) (c : LayoutController) : (s.withLayouts c).free = s.free := rfl
@[simp] theorem State.withLayouts_pending (s : State) (c : LayoutController) : (s.withLayouts c).pending = s.pending := rfl

/-! withPins -/

@[simp] theorem State.withPins_links (s : State) (p : Pins) : (s.withPins p).links = s.links := rfl
@[simp] theorem State.withPins_sessions (s : State) (p : Pins) : (s.withPins p).sessions = s.sessions := rfl
@[simp] theorem State.withPins_scan (s : State) (p : Pins) : (s.withPins p).scan = s.scan := rfl
@[simp] theorem State.withPins_surfaces (s : State) (p : Pins) : (s.withPins p).surfaces = s.surfaces := rfl
@[simp] theorem State.withPins_mem (s : State) (p : Pins) : (s.withPins p).mem = s.mem := rfl
@[simp] theorem State.withPins_drawing (s : State) (p : Pins) : (s.withPins p).drawing = s.drawing := rfl
@[simp] theorem State.withPins_layouts (s : State) (p : Pins) : (s.withPins p).layouts = s.layouts := rfl
@[simp] theorem State.withPins_pins (s : State) (p : Pins) : (s.withPins p).pins = p := rfl
@[simp] theorem State.withPins_free (s : State) (p : Pins) : (s.withPins p).free = s.free := rfl
@[simp] theorem State.withPins_pending (s : State) (p : Pins) : (s.withPins p).pending = s.pending := rfl

/-! tick -/

@[simp] theorem State.tick_links (s : State) : s.tick.links = s.links := rfl
@[simp] theorem State.tick_sessions (s : State) : s.tick.sessions = s.sessions := rfl
@[simp] theorem State.tick_scan (s : State) : s.tick.scan = s.scan := rfl
@[simp] theorem State.tick_surfaces (s : State) : s.tick.surfaces = s.surfaces := rfl
@[simp] theorem State.tick_mem (s : State) : s.tick.mem = s.mem := rfl
@[simp] theorem State.tick_drawing (s : State) : s.tick.drawing = s.drawing := rfl
@[simp] theorem State.tick_layouts (s : State) : s.tick.layouts = s.layouts := rfl
@[simp] theorem State.tick_pins (s : State) : s.tick.pins = s.pins := rfl
@[simp] theorem State.tick_free (s : State) : s.tick.free = s.free + 1 := rfl
@[simp] theorem State.tick_pending (s : State) : s.tick.pending = s.pending := rfl

/-! withPending -/

@[simp] theorem State.withPending_links (s : State) (q : List Instr) : (s.withPending q).links = s.links := rfl
@[simp] theorem State.withPending_sessions (s : State) (q : List Instr) : (s.withPending q).sessions = s.sessions := rfl
@[simp] theorem State.withPending_scan (s : State) (q : List Instr) : (s.withPending q).scan = s.scan := rfl
@[simp] theorem State.withPending_surfaces (s : State) (q : List Instr) : (s.withPending q).surfaces = s.surfaces := rfl
@[simp] theorem State.withPending_mem (s : State) (q : List Instr) : (s.withPending q).mem = s.mem := rfl
@[simp] theorem State.withPending_drawing (s : State) (q : List Instr) : (s.withPending q).drawing = s.drawing := rfl
@[simp] theorem State.withPending_layouts (s : State) (q : List Instr) : (s.withPending q).layouts = s.layouts := rfl
@[simp] theorem State.withPending_pins (s : State) (q : List Instr) : (s.withPending q).pins = s.pins := rfl
@[simp] theorem State.withPending_free (s : State) (q : List Instr) : (s.withPending q).free = s.free := rfl
@[simp] theorem State.withPending_pending (s : State) (q : List Instr) : (s.withPending q).pending = q := rfl

/-! mapLink -/

@[simp] theorem State.mapLink_links (s : State) (n : Port) (f : Link → Link) : (s.mapLink n f).links = tput s.links n (f (s.link n)) := rfl
@[simp] theorem State.mapLink_sessions (s : State) (n : Port) (f : Link → Link) : (s.mapLink n f).sessions = s.sessions := rfl
@[simp] theorem State.mapLink_scan (s : State) (n : Port) (f : Link → Link) : (s.mapLink n f).scan = s.scan := rfl
@[simp] theorem State.mapLink_surfaces (s : State) (n : Port) (f : Link → Link) : (s.mapLink n f).surfaces = s.surfaces := rfl
@[simp] theorem State.mapLink_mem (s : State) (n : Port) (f : Link → Link) : (s.mapLink n f).mem = s.mem := rfl
@[simp] theorem State.mapLink_drawing (s : State) (n : Port) (f : Link → Link) : (s.mapLink n f).drawing = s.drawing := rfl
@[simp] theorem State.mapLink_layouts (s : State) (n : Port) (f : Link → Link) : (s.mapLink n f).layouts = s.layouts := rfl
@[simp] theorem State.mapLink_pins (s : State) (n : Port) (f : Link → Link) : (s.mapLink n f).pins = s.pins := rfl
@[simp] theorem State.mapLink_free (s : State) (n : Port) (f : Link → Link) : (s.mapLink n f).free = s.free := rfl
@[simp] theorem State.mapLink_pending (s : State) (n : Port) (f : Link → Link) : (s.mapLink n f).pending = s.pending := rfl

/-! mapSession -/

@[simp] theorem State.mapSession_links (s : State) (n : Port) (f : Session → Session) : (s.mapSession n f).links = s.links := rfl
@[simp] theorem State.mapSession_sessions (s : State) (n : Port) (f : Session → Session) : (s.mapSession n f).sessions = tput s.sessions n (f (s.session n)) := rfl
@[simp] theorem State.mapSession_scan (s : State) (n : Port) (f : Session → Session) : (s.mapSession n f).scan = s.scan := rfl
@[simp] theorem State.mapSession_surfaces (s : State) (n : Port) (f : Session → Session) : (s.mapSession n f).surfaces = s.surfaces := rfl
@[simp] theorem State.mapSession_mem (s : State) (n : Port) (f : Session → Session) : (s.mapSession n f).mem = s.mem := rfl
@[simp] theorem State.mapSession_drawing (s : State) (n : Port) (f : Session → Session) : (s.mapSession n f).drawing = s.drawing := rfl
@[simp] theorem State.mapSession_layouts (s : State) (n : Port) (f : Session → Session) : (s.mapSession n f).layouts = s.layouts := rfl
@[simp] theorem State.mapSession_pins (s : State) (n : Port) (f : Session → Session) : (s.mapSession n f).pins = s.pins := rfl
@[simp] theorem State.mapSession_free (s : State) (n : Port) (f : Session → Session) : (s.mapSession n f).free = s.free := rfl
@[simp] theorem State.mapSession_pending (s : State) (n : Port) (f : Session → Session) : (s.mapSession n f).pending = s.pending := rfl

/-! settle -/

@[simp] theorem State.settle_links (s : State) : s.settle.links = s.links := rfl
@[simp] theorem State.settle_sessions (s : State) : s.settle.sessions = s.sessions := rfl
@[simp] theorem State.settle_scan (s : State) : s.settle.scan = s.scan := rfl
@[simp] theorem State.settle_surfaces (s : State) : s.settle.surfaces = s.surfaces := rfl
@[simp] theorem State.settle_mem (s : State) : s.settle.mem = s.mem := rfl
@[simp] theorem State.settle_drawing (s : State) : s.settle.drawing = s.drawing := rfl
@[simp] theorem State.settle_layouts (s : State) : s.settle.layouts = s.layouts := rfl
@[simp] theorem State.settle_pins (s : State) : s.settle.pins = s.pinValues := rfl
@[simp] theorem State.settle_free (s : State) : s.settle.free = s.free := rfl
@[simp] theorem State.settle_pending (s : State) : s.settle.pending = s.pending := rfl

/-! setHeadWait -/

@[simp] theorem State.setHeadWait_links (s : State) (n : Port) (w : HeadWait) : (s.setHeadWait n w).links = s.links := rfl
@[simp] theorem State.setHeadWait_sessions (s : State) (n : Port) (w : HeadWait) : (s.setHeadWait n w).sessions = tput s.sessions n { s.session n with headWait := w } := rfl
@[simp] theorem State.setHeadWait_scan (s : State) (n : Port) (w : HeadWait) : (s.setHeadWait n w).scan = s.scan := rfl
@[simp] theorem State.setHeadWait_surfaces (s : State) (n : Port) (w : HeadWait) : (s.setHeadWait n w).surfaces = s.surfaces := rfl
@[simp] theorem State.setHeadWait_mem (s : State) (n : Port) (w : HeadWait) : (s.setHeadWait n w).mem = s.mem := rfl
@[simp] theorem State.setHeadWait_drawing (s : State) (n : Port) (w : HeadWait) : (s.setHeadWait n w).drawing = s.drawing := rfl
@[simp] theorem State.setHeadWait_layouts (s : State) (n : Port) (w : HeadWait) : (s.setHeadWait n w).layouts = s.layouts := rfl
@[simp] theorem State.setHeadWait_pins (s : State) (n : Port) (w : HeadWait) : (s.setHeadWait n w).pins = s.pins := rfl
@[simp] theorem State.setHeadWait_free (s : State) (n : Port) (w : HeadWait) : (s.setHeadWait n w).free = s.free := rfl
@[simp] theorem State.setHeadWait_pending (s : State) (n : Port) (w : HeadWait) : (s.setHeadWait n w).pending = s.pending := rfl

/-! post -/

@[simp] theorem State.post_links (s : State) (n : Port) (p : List Byte) : (s.post n p).links = tput s.links n ((s.link n).post p) := rfl
@[simp] theorem State.post_sessions (s : State) (n : Port) (p : List Byte) : (s.post n p).sessions = s.sessions := rfl
@[simp] theorem State.post_scan (s : State) (n : Port) (p : List Byte) : (s.post n p).scan = s.scan := rfl
@[simp] theorem State.post_surfaces (s : State) (n : Port) (p : List Byte) : (s.post n p).surfaces = s.surfaces := rfl
@[simp] theorem State.post_mem (s : State) (n : Port) (p : List Byte) : (s.post n p).mem = s.mem := rfl
@[simp] theorem State.post_drawing (s : State) (n : Port) (p : List Byte) : (s.post n p).drawing = s.drawing := rfl
@[simp] theorem State.post_layouts (s : State) (n : Port) (p : List Byte) : (s.post n p).layouts = s.layouts := rfl
@[simp] theorem State.post_pins (s : State) (n : Port) (p : List Byte) : (s.post n p).pins = s.pins := rfl
@[simp] theorem State.post_free (s : State) (n : Port) (p : List Byte) : (s.post n p).free = s.free := rfl
@[simp] theorem State.post_pending (s : State) (n : Port) (p : List Byte) : (s.post n p).pending = s.pending := rfl

/-! reload -/

@[simp] theorem State.reload_links (s : State) : s.reload.links = s.links := rfl
@[simp] theorem State.reload_sessions (s : State) : s.reload.sessions = s.sessions := rfl
@[simp] theorem State.reload_scan (s : State) : s.reload.scan = s.scan := rfl
@[simp] theorem State.reload_surfaces (s : State) : s.reload.surfaces = s.surfaces := rfl
@[simp] theorem State.reload_mem (s : State) : s.reload.mem = s.mem := rfl
@[simp] theorem State.reload_drawing (s : State) : s.reload.drawing = s.drawing := rfl
@[simp] theorem State.reload_layouts (s : State) : s.reload.layouts = s.layouts.reload s.scan.timing := rfl
@[simp] theorem State.reload_pins (s : State) : s.reload.pins = s.pins := rfl
@[simp] theorem State.reload_free (s : State) : s.reload.free = s.free := rfl
@[simp] theorem State.reload_pending (s : State) : s.reload.pending = s.pending := rfl

/-! answer -/

@[simp] theorem State.answer_scan (s : State) (n : Port) (tag : Byte) (p : List Byte) : (s.answer n tag p).scan = s.scan := rfl
@[simp] theorem State.answer_surfaces (s : State) (n : Port) (tag : Byte) (p : List Byte) : (s.answer n tag p).surfaces = s.surfaces := rfl
@[simp] theorem State.answer_mem (s : State) (n : Port) (tag : Byte) (p : List Byte) : (s.answer n tag p).mem = s.mem := rfl
@[simp] theorem State.answer_drawing (s : State) (n : Port) (tag : Byte) (p : List Byte) : (s.answer n tag p).drawing = s.drawing := rfl
@[simp] theorem State.answer_layouts (s : State) (n : Port) (tag : Byte) (p : List Byte) : (s.answer n tag p).layouts = s.layouts := rfl
@[simp] theorem State.answer_pins (s : State) (n : Port) (tag : Byte) (p : List Byte) : (s.answer n tag p).pins = s.pins := rfl
@[simp] theorem State.answer_free (s : State) (n : Port) (tag : Byte) (p : List Byte) : (s.answer n tag p).free = s.free := rfl
@[simp] theorem State.answer_pending (s : State) (n : Port) (tag : Byte) (p : List Byte) : (s.answer n tag p).pending = s.pending := rfl

/-! LayoutController.reload -/

@[simp] theorem LayoutController.reload_owners (c : LayoutController) (t : Option Timing) : (c.reload t).owners = c.owners := rfl
@[simp] theorem LayoutController.reload_gens (c : LayoutController) (t : Option Timing) : (c.reload t).gens = c.gens := rfl
@[simp] theorem LayoutController.reload_winCount (c : LayoutController) (t : Option Timing) : (c.reload t).winCount = c.winCount := rfl
@[simp] theorem LayoutController.reload_applied (c : LayoutController) (t : Option Timing) : (c.reload t).applied = c.applied := rfl
@[simp] theorem LayoutController.reload_projected (c : LayoutController) (t : Option Timing) : (c.reload t).projected = c.projected := rfl
@[simp] theorem LayoutController.reload_fresh (c : LayoutController) (t : Option Timing) : (c.reload t).fresh = c.fresh := rfl
@[simp] theorem LayoutController.reload_commits (c : LayoutController) (t : Option Timing) : (c.reload t).commits = c.commits := rfl
@[simp] theorem LayoutController.reload_holder (c : LayoutController) (t : Option Timing) : (c.reload t).holder = c.holder := rfl
@[simp] theorem LayoutController.reload_waiting (c : LayoutController) (t : Option Timing) : (c.reload t).waiting = c.waiting := rfl

/-! LayoutController.reserve -/

@[simp] theorem LayoutController.reserve_gens (c : LayoutController) (n : Port) (w : WinSlot) (a b : Nat) : (c.reserve n w a b).gens = c.gens := rfl
@[simp] theorem LayoutController.reserve_appliedLoad (c : LayoutController) (n : Port) (w : WinSlot) (a b : Nat) : (c.reserve n w a b).appliedLoad = c.appliedLoad := rfl
@[simp] theorem LayoutController.reserve_projectedLoad (c : LayoutController) (n : Port) (w : WinSlot) (a b : Nat) : (c.reserve n w a b).projectedLoad = c.projectedLoad := rfl
@[simp] theorem LayoutController.reserve_commits (c : LayoutController) (n : Port) (w : WinSlot) (a b : Nat) : (c.reserve n w a b).commits = c.commits := rfl
@[simp] theorem LayoutController.reserve_holder (c : LayoutController) (n : Port) (w : WinSlot) (a b : Nat) : (c.reserve n w a b).holder = c.holder := rfl
@[simp] theorem LayoutController.reserve_waiting (c : LayoutController) (n : Port) (w : WinSlot) (a b : Nat) : (c.reserve n w a b).waiting = c.waiting := rfl

/-! LayoutController.release -/

@[simp] theorem LayoutController.release_appliedLoad (c : LayoutController) (w : WinSlot) (n : Port) : (c.release w n).appliedLoad = c.appliedLoad := rfl
@[simp] theorem LayoutController.release_projectedLoad (c : LayoutController) (w : WinSlot) (n : Port) : (c.release w n).projectedLoad = c.projectedLoad := rfl
@[simp] theorem LayoutController.release_commits (c : LayoutController) (w : WinSlot) (n : Port) : (c.release w n).commits = c.commits := rfl
@[simp] theorem LayoutController.release_holder (c : LayoutController) (w : WinSlot) (n : Port) : (c.release w n).holder = c.holder := rfl
@[simp] theorem LayoutController.release_waiting (c : LayoutController) (w : WinSlot) (n : Port) : (c.release w n).waiting = c.waiting := rfl

/-! LayoutController.restart -/

@[simp] theorem LayoutController.restart_owners (c : LayoutController) (w : WinSlot) : (c.restart w).owners = c.owners := rfl
@[simp] theorem LayoutController.restart_gens (c : LayoutController) (w : WinSlot) : (c.restart w).gens = c.gens := rfl
@[simp] theorem LayoutController.restart_winCount (c : LayoutController) (w : WinSlot) : (c.restart w).winCount = c.winCount := rfl
@[simp] theorem LayoutController.restart_applied (c : LayoutController) (w : WinSlot) : (c.restart w).applied = c.applied := rfl
@[simp] theorem LayoutController.restart_projected (c : LayoutController) (w : WinSlot) : (c.restart w).projected = c.projected := rfl
@[simp] theorem LayoutController.restart_appliedLoad (c : LayoutController) (w : WinSlot) : (c.restart w).appliedLoad = c.appliedLoad := rfl
@[simp] theorem LayoutController.restart_projectedLoad (c : LayoutController) (w : WinSlot) : (c.restart w).projectedLoad = c.projectedLoad := rfl
@[simp] theorem LayoutController.restart_commits (c : LayoutController) (w : WinSlot) : (c.restart w).commits = c.commits := rfl
@[simp] theorem LayoutController.restart_holder (c : LayoutController) (w : WinSlot) : (c.restart w).holder = c.holder := rfl
@[simp] theorem LayoutController.restart_waiting (c : LayoutController) (w : WinSlot) : (c.restart w).waiting = c.waiting := rfl

/-! LayoutController.reachFences -/

@[simp] theorem LayoutController.reachFences_owners (c : LayoutController) (n : Port) (f : Nat) : (c.reachFences n f).owners = c.owners := rfl
@[simp] theorem LayoutController.reachFences_gens (c : LayoutController) (n : Port) (f : Nat) : (c.reachFences n f).gens = c.gens := rfl
@[simp] theorem LayoutController.reachFences_winCount (c : LayoutController) (n : Port) (f : Nat) : (c.reachFences n f).winCount = c.winCount := rfl
@[simp] theorem LayoutController.reachFences_applied (c : LayoutController) (n : Port) (f : Nat) : (c.reachFences n f).applied = c.applied := rfl
@[simp] theorem LayoutController.reachFences_projected (c : LayoutController) (n : Port) (f : Nat) : (c.reachFences n f).projected = c.projected := rfl
@[simp] theorem LayoutController.reachFences_fresh (c : LayoutController) (n : Port) (f : Nat) : (c.reachFences n f).fresh = c.fresh := rfl
@[simp] theorem LayoutController.reachFences_appliedLoad (c : LayoutController) (n : Port) (f : Nat) : (c.reachFences n f).appliedLoad = c.appliedLoad := rfl
@[simp] theorem LayoutController.reachFences_projectedLoad (c : LayoutController) (n : Port) (f : Nat) : (c.reachFences n f).projectedLoad = c.projectedLoad := rfl
@[simp] theorem LayoutController.reachFences_holder (c : LayoutController) (n : Port) (f : Nat) : (c.reachFences n f).holder = c.holder := rfl
@[simp] theorem LayoutController.reachFences_waiting (c : LayoutController) (n : Port) (f : Nat) : (c.reachFences n f).waiting = c.waiting := rfl

/-! LayoutController.sizeTables -/

@[simp] theorem LayoutController.sizeTables_owners (c : LayoutController) (t : Timing) : (c.sizeTables t).owners = c.owners := rfl
@[simp] theorem LayoutController.sizeTables_gens (c : LayoutController) (t : Timing) : (c.sizeTables t).gens = c.gens := rfl
@[simp] theorem LayoutController.sizeTables_winCount (c : LayoutController) (t : Timing) : (c.sizeTables t).winCount = c.winCount := rfl
@[simp] theorem LayoutController.sizeTables_applied (c : LayoutController) (t : Timing) : (c.sizeTables t).applied = c.applied := rfl
@[simp] theorem LayoutController.sizeTables_projected (c : LayoutController) (t : Timing) : (c.sizeTables t).projected = c.projected := rfl
@[simp] theorem LayoutController.sizeTables_fresh (c : LayoutController) (t : Timing) : (c.sizeTables t).fresh = c.fresh := rfl
@[simp] theorem LayoutController.sizeTables_commits (c : LayoutController) (t : Timing) : (c.sizeTables t).commits = c.commits := rfl
@[simp] theorem LayoutController.sizeTables_holder (c : LayoutController) (t : Timing) : (c.sizeTables t).holder = c.holder := rfl
@[simp] theorem LayoutController.sizeTables_waiting (c : LayoutController) (t : Timing) : (c.sizeTables t).waiting = c.waiting := rfl

/-! LayoutController.withToken -/

@[simp] theorem LayoutController.withToken_owners (c : LayoutController) (h : Option Port) (q : List Port) : (c.withToken h q).owners = c.owners := rfl
@[simp] theorem LayoutController.withToken_gens (c : LayoutController) (h : Option Port) (q : List Port) : (c.withToken h q).gens = c.gens := rfl
@[simp] theorem LayoutController.withToken_winCount (c : LayoutController) (h : Option Port) (q : List Port) : (c.withToken h q).winCount = c.winCount := rfl
@[simp] theorem LayoutController.withToken_applied (c : LayoutController) (h : Option Port) (q : List Port) : (c.withToken h q).applied = c.applied := rfl
@[simp] theorem LayoutController.withToken_projected (c : LayoutController) (h : Option Port) (q : List Port) : (c.withToken h q).projected = c.projected := rfl
@[simp] theorem LayoutController.withToken_fresh (c : LayoutController) (h : Option Port) (q : List Port) : (c.withToken h q).fresh = c.fresh := rfl
@[simp] theorem LayoutController.withToken_appliedLoad (c : LayoutController) (h : Option Port) (q : List Port) : (c.withToken h q).appliedLoad = c.appliedLoad := rfl
@[simp] theorem LayoutController.withToken_projectedLoad (c : LayoutController) (h : Option Port) (q : List Port) : (c.withToken h q).projectedLoad = c.projectedLoad := rfl
@[simp] theorem LayoutController.withToken_commits (c : LayoutController) (h : Option Port) (q : List Port) : (c.withToken h q).commits = c.commits := rfl

/-! LayoutController.clearMarks -/

@[simp] theorem LayoutController.clearMarks_owners (c : LayoutController) : c.clearMarks.owners = c.owners := rfl
@[simp] theorem LayoutController.clearMarks_gens (c : LayoutController) : c.clearMarks.gens = c.gens := rfl
@[simp] theorem LayoutController.clearMarks_winCount (c : LayoutController) : c.clearMarks.winCount = c.winCount := rfl
@[simp] theorem LayoutController.clearMarks_applied (c : LayoutController) : c.clearMarks.applied = c.applied := rfl
@[simp] theorem LayoutController.clearMarks_projected (c : LayoutController) : c.clearMarks.projected = c.projected := rfl
@[simp] theorem LayoutController.clearMarks_appliedLoad (c : LayoutController) : c.clearMarks.appliedLoad = c.appliedLoad := rfl
@[simp] theorem LayoutController.clearMarks_projectedLoad (c : LayoutController) : c.clearMarks.projectedLoad = c.projectedLoad := rfl
@[simp] theorem LayoutController.clearMarks_commits (c : LayoutController) : c.clearMarks.commits = c.commits := rfl
@[simp] theorem LayoutController.clearMarks_holder (c : LayoutController) : c.clearMarks.holder = c.holder := rfl
@[simp] theorem LayoutController.clearMarks_waiting (c : LayoutController) : c.clearMarks.waiting = c.waiting := rfl

@[simp] theorem LayoutController.withToken_holder (c : LayoutController) (h : Option Port) (q : List Port) :
    (c.withToken h q).holder = h := rfl
@[simp] theorem LayoutController.withToken_waiting (c : LayoutController) (h : Option Port) (q : List Port) :
    (c.withToken h q).waiting = q := rfl
@[simp] theorem LayoutController.reload_appliedLoad (c : LayoutController) (t : Option Timing) :
    (c.reload t).appliedLoad = loadTable t c.applied := rfl
@[simp] theorem LayoutController.reload_projectedLoad (c : LayoutController) (t : Option Timing) :
    (c.reload t).projectedLoad = loadTable t c.projected := rfl
@[simp] theorem LayoutController.release_applied (c : LayoutController) (w : WinSlot) (n : Port) :
    (c.release w n).applied = c.applied.forget w := rfl
@[simp] theorem LayoutController.release_projected (c : LayoutController) (w : WinSlot) (n : Port) :
    (c.release w n).projected = c.projected.forget w := rfl
@[simp] theorem LayoutController.release_owners (c : LayoutController) (w : WinSlot) (n : Port) :
    (c.release w n).owners = tput c.owners w none := rfl
@[simp] theorem LayoutController.reachFences_commits (c : LayoutController) (n : Port) (f : Nat) :
    (c.reachFences n f).commits =
      c.commits.map (fun p => if p.port = n ∧ p.fence = f then { p with reached := true } else p) := rfl
theorem LayoutController.restarts_owners (c : LayoutController) (ws : List WinSlot) :
    (ws.foldl LayoutController.restart c).owners = c.owners := by
  induction ws generalizing c with
  | nil => rfl
  | cons w ws ih => rw [List.foldl_cons, ih]; rfl
theorem LayoutController.restarts_gens (c : LayoutController) (ws : List WinSlot) :
    (ws.foldl LayoutController.restart c).gens = c.gens := by
  induction ws generalizing c with
  | nil => rfl
  | cons w ws ih => rw [List.foldl_cons, ih]; rfl
theorem LayoutController.restarts_winCount (c : LayoutController) (ws : List WinSlot) :
    (ws.foldl LayoutController.restart c).winCount = c.winCount := by
  induction ws generalizing c with
  | nil => rfl
  | cons w ws ih => rw [List.foldl_cons, ih]; rfl
theorem LayoutController.restarts_applied (c : LayoutController) (ws : List WinSlot) :
    (ws.foldl LayoutController.restart c).applied = c.applied := by
  induction ws generalizing c with
  | nil => rfl
  | cons w ws ih => rw [List.foldl_cons, ih]; rfl
theorem LayoutController.restarts_projected (c : LayoutController) (ws : List WinSlot) :
    (ws.foldl LayoutController.restart c).projected = c.projected := by
  induction ws generalizing c with
  | nil => rfl
  | cons w ws ih => rw [List.foldl_cons, ih]; rfl
theorem LayoutController.restarts_appliedLoad (c : LayoutController) (ws : List WinSlot) :
    (ws.foldl LayoutController.restart c).appliedLoad = c.appliedLoad := by
  induction ws generalizing c with
  | nil => rfl
  | cons w ws ih => rw [List.foldl_cons, ih]; rfl
theorem LayoutController.restarts_projectedLoad (c : LayoutController) (ws : List WinSlot) :
    (ws.foldl LayoutController.restart c).projectedLoad = c.projectedLoad := by
  induction ws generalizing c with
  | nil => rfl
  | cons w ws ih => rw [List.foldl_cons, ih]; rfl
theorem LayoutController.restarts_commits (c : LayoutController) (ws : List WinSlot) :
    (ws.foldl LayoutController.restart c).commits = c.commits := by
  induction ws generalizing c with
  | nil => rfl
  | cons w ws ih => rw [List.foldl_cons, ih]; rfl
theorem LayoutController.restarts_holder (c : LayoutController) (ws : List WinSlot) :
    (ws.foldl LayoutController.restart c).holder = c.holder := by
  induction ws generalizing c with
  | nil => rfl
  | cons w ws ih => rw [List.foldl_cons, ih]; rfl
theorem LayoutController.restarts_waiting (c : LayoutController) (ws : List WinSlot) :
    (ws.foldl LayoutController.restart c).waiting = c.waiting := by
  induction ws generalizing c with
  | nil => rfl
  | cons w ws ih => rw [List.foldl_cons, ih]; rfl
@[simp] theorem Surfaces.mapSurface_freePages (m : Surfaces) (i : SurfSlot) (f : Surface → Surface) : (m.mapSurface i f).freePages = m.freePages := rfl
@[simp] theorem Surfaces.mapSurface_pageCount (m : Surfaces) (i : SurfSlot) (f : Surface → Surface) : (m.mapSurface i f).pageCount = m.pageCount := rfl
@[simp] theorem Surfaces.mapSurface_surfCount (m : Surfaces) (i : SurfSlot) (f : Surface → Surface) : (m.mapSurface i f).surfCount = m.surfCount := rfl

end Sys2Proof.Machine
end

