-- ==== Sys2Proof/Laws/Steps.lean ====
section
/-! SUPPORT. What a step can do, said once. A condition on the state that does not look at the links, the session records, the pins
or the free-value counter, and that each of the named operations below keeps, is kept by every command.
Proofs about steps cite Kept.step and look at the named operations alone. -/

namespace Sys2Proof.Machine

/-- A fold keeps what each of its turns keeps. -/
theorem foldl_keeps {α β : Type} (P : α → Prop) (f : α → β → α) (h : ∀ a b, P a → P (f a b)) (l : List β) :
    ∀ a, P a → P (l.foldl f a) := by
  induction l with
  | nil => exact fun _ h => h
  | cons b l ih => exact fun a ha => ih _ (h a b ha)

/-- The same when only the turns of the fold's own elements keep it. -/
theorem foldl_keeps_mem {α β : Type} (P : α → Prop) (f : α → β → α) (l : List β) (h : ∀ a, ∀ b ∈ l, P a → P (f a b)) :
    ∀ a, P a → P (l.foldl f a) := by
  induction l with
  | nil => exact fun _ h => h
  | cons b l ih =>
    exact fun a ha => ih (fun a c hc => h a c (List.mem_cons_of_mem _ hc)) _ (h a b (List.mem_cons_self ..) ha)

/-- A fold leaves alone what each of its turns leaves alone. -/
theorem foldl_same {α β γ : Type} (g : α → γ) (f : α → β → α) (h : ∀ a b, g (f a b) = g a) (l : List β) (a : α) :
    g (l.foldl f a) = g a := by
  induction l generalizing a with
  | nil => rfl
  | cons b l ih => rw [List.foldl_cons, ih, h]

/-! ### Operations that take their turns over windows, commits or ports -/

theorem State.freeWindowsOf_keeps (Q : State → Prop) (h : ∀ s w, Q s → Q (s.freeWindow w)) (s : State) (n : Port)
    (hs : Q s) : Q (s.freeWindowsOf n) := by
  unfold State.freeWindowsOf
  refine foldl_keeps Q _ (fun s w hs => ?_) _ _ hs
  split
  · exact h _ _ hs
  · exact hs

/-- The withdrawal of the CLOSING ports' windows, up to the recomputing of the load tables. -/
theorem State.withdrawClosing_keeps (Q R : State → Prop)
    (h : ∀ s w n, Q s → tget s.layouts.owners w = some n → (s.session n).state = .closing → Q (s.withdrawApplied w))
    (hr : ∀ s, Q s → R s.reload) (s : State) (hs : Q s) : R s.withdrawClosing := by
  unfold State.withdrawClosing
  refine hr _ (foldl_keeps Q _ (fun s w hs => ?_) _ _ hs)
  split
  · rename_i n hn
    split
    · rename_i hc
      exact h _ _ n hs hn hc
    · exact hs
  · exact hs

/-- The application of a commit, up to the recomputing of the load tables: its operations, the lowering of queued_refs, the
refreshed windows; `Q` holds throughout, `R` after the tables are computed again and PRESENTED is posted. -/
theorem State.applyCommit_keeps (Q R : State → Prop) (hop : ∀ s op, Q s → Q (s.applyOp op))
    (hq : ∀ s ops, Q s → Q (s.withSurfaces (s.surfaces.mapQueued ops Surface.lowerQueued)))
    (hf : ∀ s (ws : List WinSlot), Q s → Q (s.withLayouts (ws.foldl LayoutController.restart s.layouts)))
    (hr : ∀ s n p, Q s → R (s.reload.post n p)) (s : State) (p : Pending) (hs : Q s) : R (s.applyCommit p) := by
  unfold State.applyCommit
  exact hr _ _ _ (hf _ _ (hq _ _ (foldl_keeps Q _ hop _ _ hs)))

theorem State.applyReady_keeps (Q : State → Prop)
    (h : ∀ s p rest, Q s → s.layouts.commits = p :: rest → p.reached = true →
      Q ((s.withLayouts { s.layouts with commits := rest }).applyCommit p)) (k : Nat) :
    ∀ s, Q s → Q (State.applyReady k s) := by
  induction k with
  | zero => exact fun _ hs => hs
  | succ k ih =>
    intro s hs
    unfold State.applyReady
    split
    · exact hs
    · rename_i p rest e
      split
      · rename_i hp
        exact ih _ (h _ _ _ hs e hp)
      · exact hs

theorem State.applyCommits_keeps (Q : State → Prop)
    (h : ∀ s p rest, Q s → s.layouts.commits = p :: rest → p.reached = true →
      Q ((s.withLayouts { s.layouts with commits := rest }).applyCommit p)) (s : State) (hs : Q s) : Q s.applyCommits :=
  State.applyReady_keeps Q h _ s hs

theorem State.ageWindows_keeps (Q : State → Prop) (h : ∀ s w, Q s → Q (s.ageWindow w))
    (hc : ∀ s, Q s → Q (s.withLayouts s.layouts.clearMarks)) (s : State) (hs : Q s) : Q s.ageWindows := by
  unfold State.ageWindows
  exact hc _ (foldl_keeps Q _ h _ _ hs)

/-- The return of a port's resources, up to the recomputing of the load tables. -/
theorem State.returnResources_keeps (Q R : State → Prop) (hw : ∀ s w, Q s → Q (s.freeWindow w))
    (hr : ∀ s n, Q s → R (((s.withLayouts { s.layouts with winCount := tput s.layouts.winCount n 0 }).withSurfaces
      (s.surfaces.freeOwned n)).reload)) (s : State) (n : Port) (hs : Q s) : R (s.returnResources n) := by
  have h := State.freeWindowsOf_keeps Q hw s n hs
  unfold State.returnResources
  generalize s.freeWindowsOf n = u at h
  exact hr u n h

/-! ### Commands and steps -/

/-- The operations that a condition on the state must survive. -/
structure Kept (P : State → Prop) : Prop where
  link : ∀ s n l, P s → P (s.withLink n l)
  session : ∀ s n c, P s → P (s.withSession n c)
  pins : ∀ s p, P s → P (s.withPins p)
  tick : ∀ s, P s → P s.tick
  reset : ∀ s a b c d, P s → P (s.deviceReset a b c d)
  jobNumbers : ∀ s n, P s → P (s.withDrawing (s.drawing.openSession n))
  setTiming : ∀ s p, P s → P (s.serveSetTiming p).1
  createSurface : ∀ s n p, P s → P (s.serveCreateSurface n p).1
  destroySurface : ∀ s i, P s → P (s.withSurfaces (s.surfaces.free i))
  drawing : ∀ s n k q, P s → (s.drawing.outstanding n).length < Config.jobDepth → P (s.serveDrawing n k q).1
  createWindow : ∀ s n p, P s → P (s.serveCreateWindow n p).1
  commit : ∀ s n tag p, P s → P (s.serveCommit n tag p).1
  acquireAlert : ∀ s n, P s → P (s.serveAcquireAlert n).1
  releaseAlert : ∀ s n, P s → P (s.serveReleaseAlert n).1
  abortJobs : ∀ s n, P s → P (s.abortJobs n)
  teardownLayouts : ∀ s n, P s → P (s.teardownLayouts n)
  returnResources : ∀ s n, P s → P (s.returnResources n)
  drawOn : ∀ s, P s → P s.drawOn
  completeJob : ∀ s, P s → P s.completeJob
  fetch : ∀ s t line clock, P s → P (s.fetch t line clock)
  place : ∀ s t line clock, P s → s.scan.timing = some t → s.scan.pos = some (line, clock) →
    P (s.withScan (s.scan.advance t line clock))
  lastActive : ∀ s t, P s → s.scan.timing = some t → P (s.withScan { s.scan with pos := some (t.vactive - 1, t.hactive) })
  newFrame : ∀ s t, P s → s.scan.timing = some t →
    P (s.withScan { s.scan with frame := s.scan.frame + 1, shown := [], fetched := [] })
  withdrawClosing : ∀ s, P s → P s.withdrawClosing
  applyCommits : ∀ s, P s → P s.applyCommits
  ageWindows : ∀ s, P s → P s.ageWindows

variable {P : State → Prop}

theorem Kept.mapLink (k : Kept P) (s : State) (n : Port) (f : Link → Link) (h : P s) : P (s.mapLink n f) := k.link _ _ _ h

theorem Kept.mapSession (k : Kept P) (s : State) (n : Port) (f : Session → Session) (h : P s) : P (s.mapSession n f) :=
  k.session _ _ _ h

theorem Kept.setHeadWait (k : Kept P) (s : State) (n : Port) (w : HeadWait) (h : P s) : P (s.setHeadWait n w) :=
  k.session _ _ _ h

theorem Kept.answer (k : Kept P) (s : State) (n : Port) (tag : Byte) (p : List Byte) (h : P s) : P (s.answer n tag p) :=
  k.setHeadWait _ _ _ (k.mapLink _ _ _ h)

theorem Kept.openSession (k : Kept P) (s : State) (n : Port) (label : BitVec 32) (h : P s) : P (s.openSession n label) :=
  k.jobNumbers _ n (k.mapLink _ n _ (k.mapSession _ n _ h))

theorem Kept.closeSession (k : Kept P) (s : State) (n : Port) (h : P s) : P (s.closeSession n) := k.mapSession _ _ _ h

theorem Kept.teardownStart (k : Kept P) (s : State) (n : Port) (c : ClosingCause) (l : Option (BitVec 32)) (h : P s) :
    P (s.teardownStart n c l) :=
  k.teardownLayouts _ _ (k.abortJobs _ _ (k.mapLink _ _ _ (k.mapSession _ _ _ h)))

theorem Kept.teardownFinish (k : Kept P) (s : State) (n : Port) (h : P s) : P (s.teardownFinish n) := by
  have h1 := k.returnResources s n h
  have h2 : P ((s.returnResources n).endTeardown n) := by
    unfold State.endTeardown
    split
    · exact k.openSession _ _ _ h1
    · exact k.closeSession _ _ h1
    · exact k.closeSession _ _ h1
  unfold State.teardownFinish
  simp only
  split
  · exact k.answer _ _ _ _ h2
  · exact k.setHeadWait _ _ _ h2

/-- What a condition says of each outcome of an examination. -/
def Served.holds (P : State → Prop) : Served → Prop
  | .answered s _ => P s
  | .waits _ => True
  | .held s => P s
  | .finished s => P s

theorem Kept.beginTeardown (k : Kept P) (s : State) (n : Port) (c : ClosingCause) (l : Option (BitVec 32)) (h : P s) :
    (s.beginTeardown n c l).holds P := by
  unfold State.beginTeardown
  simp only
  split
  · exact k.teardownFinish _ _ (k.teardownStart _ _ _ _ h)
  · exact k.teardownStart _ _ _ _ h

theorem Kept.serveDrawingKind (k : Kept P) (s : State) (n : Port) (d : Kind) (q : DrawRequest) (h : P s) :
    (s.serveDrawingKind n d q).holds P := by
  unfold State.serveDrawingKind
  split
  · rename_i hroom
    exact k.drawing _ _ _ _ h hroom
  · trivial

theorem Kept.serveOpen (k : Kept P) (s : State) (n : Port) (p : List Byte) (h : P s) : (s.serveOpen n p).holds P := by
  unfold State.serveOpen
  split
  · exact k.openSession _ _ _ h
  · exact k.beginTeardown _ _ _ _ h
  · trivial

theorem Kept.serveClose (k : Kept P) (s : State) (n : Port) (h : P s) : (s.serveClose n).holds P := by
  unfold State.serveClose
  split
  · exact h
  · exact k.beginTeardown _ _ _ _ h
  · trivial

theorem Kept.serveDestroySurface (k : Kept P) (s : State) (n : Port) (p : List Byte) (h : P s) :
    (s.serveDestroySurface n p).holds P := by
  unfold State.serveDestroySurface
  split
  · exact h
  · trivial
  · exact k.destroySurface _ _ h

theorem Kept.carryOut (k : Kept P) (s : State) (n : Port) (d : Kind) (r : Request) (h : P s) :
    (s.carryOut n d r).holds P := by
  cases d
  case openSession => exact k.serveOpen _ _ _ h
  case closeSession => exact k.serveClose _ _ h
  case destroySurface => exact k.serveDestroySurface _ _ _ h
  case setTiming => exact k.setTiming _ _ h
  case createSurface => exact k.createSurface _ _ _ h
  case createWindow => exact k.createWindow _ _ _ h
  case commit => exact k.commit _ _ _ _ h
  case acquireAlert => exact k.acquireAlert _ _ h
  case releaseAlert => exact k.releaseAlert _ _ h
  case write => exact k.serveDrawingKind _ _ _ _ h
  case fill => exact k.serveDrawingKind _ _ _ _ h
  case copy => exact k.serveDrawingKind _ _ _ _ h
  case checksum => exact k.serveDrawingKind _ _ _ _ h
  all_goals exact h

theorem Kept.serve (k : Kept P) (s : State) (n : Port) (r : Request) (h : P s) : (s.serve n r).holds P := by
  unfold State.serve
  split
  · exact h
  · split
    · exact h
    · split
      · exact h
      · exact k.carryOut _ _ _ _ h

theorem Kept.examineHead (k : Kept P) (s : State) (n : Port) (h : P s) : P (s.examineHead n).1 := by
  unfold State.examineHead
  split
  · exact h
  · rename_i r _ _
    split
    · exact h
    · split
      · exact k.setHeadWait _ _ _ h
      · have hs := k.serve s n r h
        split <;> rename_i e <;> rw [e] at hs
        · exact k.answer _ _ _ _ hs
        · exact k.setHeadWait _ _ _ h
        · exact hs
        · exact hs

theorem Kept.examineUpTo (k : Kept P) (m : Nat) : ∀ (n : Port) (s : State), P s → P (State.examineUpTo m n s) := by
  induction m with
  | zero => exact fun _ _ h => h
  | succ m ih =>
    intro n s h
    unfold State.examineUpTo
    split
    · exact ih _ _ (k.examineHead _ _ h)
    · exact k.examineHead _ _ h

theorem Kept.examine (k : Kept P) (s : State) (n : Port) (h : P s) : P (s.examine n) := k.examineUpTo _ _ _ h

theorem State.controllerAct_finish (s : State) (n : Port) : (s.controllerAct n true).1 = s.teardownFinish n := by
  rw [State.controllerAct, if_pos rfl]

theorem State.controllerAct_head (s : State) (n : Port) : s.controllerAct n false = s.examineHead n := by
  rw [State.controllerAct, if_neg Bool.false_ne_true]

theorem Kept.controllerAct (k : Kept P) (s : State) (n : Port) (b : Bool) (h : P s) : P (s.controllerAct n b).1 := by
  cases b
  · rw [State.controllerAct_head]; exact k.examineHead s n h
  · rw [State.controllerAct_finish]; exact k.teardownFinish s n h

theorem Kept.runControllers (k : Kept P) (m : Nat) :
    ∀ (todo : List (Port × Bool)) (s : State), P s → P (State.runControllers m todo s) := by
  induction m with
  | zero => exact fun _ _ h => h
  | succ m ih =>
    intro todo s h
    unfold State.runControllers
    split
    · exact h
    · exact ih _ _ (k.controllerAct _ _ _ h)
    · exact ih _ _ (k.controllerAct _ _ _ (k.tick _ h))

theorem Kept.finishTeardowns (k : Kept P) (s : State) (h : P s) : P s.finishTeardowns := k.runControllers _ _ _ h

theorem Kept.boundary (k : Kept P) (s : State) (t : Timing) (h : P s) (ht : s.scan.timing = some t) : P s.boundary :=
  k.finishTeardowns _ (k.ageWindows _ (k.applyCommits _ (k.withdrawClosing _ (k.newFrame _ t h ht))))

/-- The job in flight drawing on leaves the scan engine alone. -/
@[simp] theorem State.drawOn_scan (s : State) : s.drawOn.scan = s.scan := by
  unfold State.drawOn State.writeNext
  split
  · rfl
  · rename_i f hf
    simp only [hf]
    split <;> rfl

/-- The fetch changes no more of the scan engine than what has been fetched. -/
theorem State.fetch_scan (s : State) (t : Timing) (line clock : Nat) :
    ∃ f, (s.fetch t line clock).scan = { s.scan with fetched := f } := by
  unfold State.fetch
  split
  · exact ⟨_, rfl⟩
  · exact ⟨_, rfl⟩

theorem Kept.frameBoundary (k : Kept P) (s : State) (h : P s) : P s.frameBoundary := by
  unfold State.frameBoundary
  split
  · exact h
  · rename_i t ht
    refine k.boundary _ t (k.lastActive _ t (k.drawOn _ h) ?_) ?_
    · rw [State.drawOn_scan]; exact ht
    · show s.drawOn.scan.timing = some t
      rw [State.drawOn_scan]; exact ht

theorem Kept.pixelClock (k : Kept P) (s : State) (h : P s) : P s.pixelClock := by
  unfold State.pixelClock
  split
  · rename_i t line clock ht hp
    have h1 : P (s.drawOn.fetch t line clock) := k.fetch _ _ _ _ (k.drawOn _ h)
    obtain ⟨f, hf⟩ := State.fetch_scan s.drawOn t line clock
    rw [State.drawOn_scan] at hf
    have ht1 : (s.drawOn.fetch t line clock).scan.timing = some t := by rw [hf]; exact ht
    have hp1 : (s.drawOn.fetch t line clock).scan.pos = some (line, clock) := by rw [hf]; exact hp
    have h2 := k.place _ t line clock h1 ht1 hp1
    have ht2 : ((s.drawOn.fetch t line clock).scan.advance t line clock).timing = some t := by
      unfold Scan.advance; split <;> exact ht1
    simp only
    split
    · exact k.boundary _ t h2 ht2
    · exact h2
  · exact h

theorem Kept.selectActive (k : Kept P) (s : State) (n : Port) (h : P s) : P (s.selectActive n) := k.mapLink _ _ _ h

theorem Kept.selectInactive (k : Kept P) (s : State) (n : Port) (h : P s) : P (s.selectInactive n) := by
  unfold State.selectInactive
  split
  · simp only
    split
    · exact k.examine _ _ (k.mapLink _ _ _ h)
    · exact k.mapLink _ _ _ h
  · exact k.mapLink _ _ _ h
  · exact h

theorem Kept.release (k : Kept P) (s : State) (n : Port) (h : P s) : P (s.release n) := by
  unfold State.release
  split
  · exact h
  · exact k.selectInactive _ _ h
  · exact k.selectInactive _ _ h

theorem Kept.transact (k : Kept P) (s : State) (n : Port) (r : Request) (h : P s) : P (s.transact n r) :=
  k.selectInactive _ _ (k.mapLink _ _ _ (k.selectActive _ _ (k.release _ _ h)))

theorem Kept.jobCompletion (k : Kept P) (s : State) (h : P s) : P s.jobCompletion := by
  unfold State.jobCompletion
  split
  · exact h
  · unfold State.examineWaiting
    split
    · exact k.examine _ _ (k.completeJob _ h)
    · exact k.completeJob _ h

theorem Kept.settle (k : Kept P) (s : State) (h : P s) : P s.settle := k.pins _ _ h

/-- Every command ends in a next state, and keeps a condition that the named operations keep. -/
theorem Kept.exec (k : Kept P) (c : Instr) (s t : State) (h : P s) (e : exec c s = .next t) : P t := by
  have key : ∀ u : State, P u → settled u = .next t → P t := by
    intro u hu he
    have : u.settle = t := by unfold settled at he; injection he
    exact this ▸ k.settle _ hu
  cases c <;> simp only [Sys2Proof.Machine.exec] at e
  case selectActive n => exact key _ (k.selectActive _ _ h) e
  case selectInactive n => exact key _ (k.selectInactive _ _ h) e
  case deviceReset a b c d => exact key _ (k.reset _ _ _ _ _ h) e
  case frameBoundary => exact key _ (k.frameBoundary _ h) e
  case stale w =>
    refine key (s.becomeStale w) ?_ e
    unfold State.becomeStale
    split
    · exact k.frameBoundary _ h
    · exact h
  case jobCompletion => exact key _ (k.jobCompletion _ h) e
  case pixelClock => exact key _ (k.pixelClock _ h) e
  case byteClocked n di => exact key _ (k.mapLink _ _ _ h) e
  all_goals exact key _ (k.transact _ _ _ h) e

/-- A condition that the named operations keep, and that does not look at the queue of commands, is kept by every step. -/
theorem Kept.step (k : Kept P) (hq : ∀ s q, P s → P (s.withPending q)) (s t : State) (h : P s)
    (e : step s = .next t) : P t := by
  unfold Sys2Proof.Machine.step at e
  split at e
  · injection e with e; exact e ▸ h
  · exact k.exec _ _ _ (hq _ _ h) e

end Sys2Proof.Machine
end

