-- ==== Sys2Proof/Laws/Frames.lean ====
section
/-! SUPPORT. The frame of each named operation: the fields of the state it leaves as they stand. Tagged for simp, so that a proof
about a composition of operations sees through those that do not touch the field it is about. -/

namespace Sys2Proof.Machine

/-! State.passToken -/

@[simp] theorem State.passToken_sessions (s : State)  : s.passToken.sessions = s.sessions := by
  unfold State.passToken
  repeat' split
  all_goals simp
@[simp] theorem State.passToken_scan (s : State)  : s.passToken.scan = s.scan := by
  unfold State.passToken
  repeat' split
  all_goals simp
@[simp] theorem State.passToken_surfaces (s : State)  : s.passToken.surfaces = s.surfaces := by
  unfold State.passToken
  repeat' split
  all_goals simp
@[simp] theorem State.passToken_mem (s : State)  : s.passToken.mem = s.mem := by
  unfold State.passToken
  repeat' split
  all_goals simp
@[simp] theorem State.passToken_drawing (s : State)  : s.passToken.drawing = s.drawing := by
  unfold State.passToken
  repeat' split
  all_goals simp
@[simp] theorem State.passToken_pins (s : State)  : s.passToken.pins = s.pins := by
  unfold State.passToken
  repeat' split
  all_goals simp
@[simp] theorem State.passToken_free (s : State)  : s.passToken.free = s.free := by
  unfold State.passToken
  repeat' split
  all_goals simp
@[simp] theorem State.passToken_pending (s : State)  : s.passToken.pending = s.pending := by
  unfold State.passToken
  repeat' split
  all_goals simp

/-! State.dropToken -/

@[simp] theorem State.dropToken_sessions (s : State) (n : Port) : (s.dropToken n).sessions = s.sessions := by
  unfold State.dropToken
  repeat' split
  all_goals simp
@[simp] theorem State.dropToken_scan (s : State) (n : Port) : (s.dropToken n).scan = s.scan := by
  unfold State.dropToken
  repeat' split
  all_goals simp
@[simp] theorem State.dropToken_surfaces (s : State) (n : Port) : (s.dropToken n).surfaces = s.surfaces := by
  unfold State.dropToken
  repeat' split
  all_goals simp
@[simp] theorem State.dropToken_mem (s : State) (n : Port) : (s.dropToken n).mem = s.mem := by
  unfold State.dropToken
  repeat' split
  all_goals simp
@[simp] theorem State.dropToken_drawing (s : State) (n : Port) : (s.dropToken n).drawing = s.drawing := by
  unfold State.dropToken
  repeat' split
  all_goals simp
@[simp] theorem State.dropToken_pins (s : State) (n : Port) : (s.dropToken n).pins = s.pins := by
  unfold State.dropToken
  repeat' split
  all_goals simp
@[simp] theorem State.dropToken_free (s : State) (n : Port) : (s.dropToken n).free = s.free := by
  unfold State.dropToken
  repeat' split
  all_goals simp
@[simp] theorem State.dropToken_pending (s : State) (n : Port) : (s.dropToken n).pending = s.pending := by
  unfold State.dropToken
  repeat' split
  all_goals simp

/-! State.serveAcquireAlert -/

@[simp] theorem State.serveAcquireAlert_links (s : State) (n : Port) : (s.serveAcquireAlert n).1.links = s.links := by
  unfold State.serveAcquireAlert
  repeat' split
  all_goals simp
@[simp] theorem State.serveAcquireAlert_sessions (s : State) (n : Port) : (s.serveAcquireAlert n).1.sessions = s.sessions := by
  unfold State.serveAcquireAlert
  repeat' split
  all_goals simp
@[simp] theorem State.serveAcquireAlert_scan (s : State) (n : Port) : (s.serveAcquireAlert n).1.scan = s.scan := by
  unfold State.serveAcquireAlert
  repeat' split
  all_goals simp
@[simp] theorem State.serveAcquireAlert_surfaces (s : State) (n : Port) : (s.serveAcquireAlert n).1.surfaces = s.surfaces := by
  unfold State.serveAcquireAlert
  repeat' split
  all_goals simp
@[simp] theorem State.serveAcquireAlert_mem (s : State) (n : Port) : (s.serveAcquireAlert n).1.mem = s.mem := by
  unfold State.serveAcquireAlert
  repeat' split
  all_goals simp
@[simp] theorem State.serveAcquireAlert_drawing (s : State) (n : Port) : (s.serveAcquireAlert n).1.drawing = s.drawing := by
  unfold State.serveAcquireAlert
  repeat' split
  all_goals simp
@[simp] theorem State.serveAcquireAlert_pins (s : State) (n : Port) : (s.serveAcquireAlert n).1.pins = s.pins := by
  unfold State.serveAcquireAlert
  repeat' split
  all_goals simp
@[simp] theorem State.serveAcquireAlert_free (s : State) (n : Port) : (s.serveAcquireAlert n).1.free = s.free := by
  unfold State.serveAcquireAlert
  repeat' split
  all_goals simp
@[simp] theorem State.serveAcquireAlert_pending (s : State) (n : Port) : (s.serveAcquireAlert n).1.pending = s.pending := by
  unfold State.serveAcquireAlert
  repeat' split
  all_goals simp

/-! State.serveReleaseAlert -/

@[simp] theorem State.serveReleaseAlert_sessions (s : State) (n : Port) : (s.serveReleaseAlert n).1.sessions = s.sessions := by
  unfold State.serveReleaseAlert
  repeat' split
  all_goals simp
@[simp] theorem State.serveReleaseAlert_scan (s : State) (n : Port) : (s.serveReleaseAlert n).1.scan = s.scan := by
  unfold State.serveReleaseAlert
  repeat' split
  all_goals simp
@[simp] theorem State.serveReleaseAlert_surfaces (s : State) (n : Port) : (s.serveReleaseAlert n).1.surfaces = s.surfaces := by
  unfold State.serveReleaseAlert
  repeat' split
  all_goals simp
@[simp] theorem State.serveReleaseAlert_mem (s : State) (n : Port) : (s.serveReleaseAlert n).1.mem = s.mem := by
  unfold State.serveReleaseAlert
  repeat' split
  all_goals simp
@[simp] theorem State.serveReleaseAlert_drawing (s : State) (n : Port) : (s.serveReleaseAlert n).1.drawing = s.drawing := by
  unfold State.serveReleaseAlert
  repeat' split
  all_goals simp
@[simp] theorem State.serveReleaseAlert_pins (s : State) (n : Port) : (s.serveReleaseAlert n).1.pins = s.pins := by
  unfold State.serveReleaseAlert
  repeat' split
  all_goals simp
@[simp] theorem State.serveReleaseAlert_free (s : State) (n : Port) : (s.serveReleaseAlert n).1.free = s.free := by
  unfold State.serveReleaseAlert
  repeat' split
  all_goals simp
@[simp] theorem State.serveReleaseAlert_pending (s : State) (n : Port) : (s.serveReleaseAlert n).1.pending = s.pending := by
  unfold State.serveReleaseAlert
  repeat' split
  all_goals simp

/-! State.serveSetTiming -/

@[simp] theorem State.serveSetTiming_links (s : State) (p : List Byte) : (s.serveSetTiming p).1.links = s.links := by
  unfold State.serveSetTiming
  repeat' split
  all_goals simp
@[simp] theorem State.serveSetTiming_sessions (s : State) (p : List Byte) : (s.serveSetTiming p).1.sessions = s.sessions := by
  unfold State.serveSetTiming
  repeat' split
  all_goals simp
@[simp] theorem State.serveSetTiming_surfaces (s : State) (p : List Byte) : (s.serveSetTiming p).1.surfaces = s.surfaces := by
  unfold State.serveSetTiming
  repeat' split
  all_goals simp
@[simp] theorem State.serveSetTiming_mem (s : State) (p : List Byte) : (s.serveSetTiming p).1.mem = s.mem := by
  unfold State.serveSetTiming
  repeat' split
  all_goals simp
@[simp] theorem State.serveSetTiming_drawing (s : State) (p : List Byte) : (s.serveSetTiming p).1.drawing = s.drawing := by
  unfold State.serveSetTiming
  repeat' split
  all_goals simp
@[simp] theorem State.serveSetTiming_pins (s : State) (p : List Byte) : (s.serveSetTiming p).1.pins = s.pins := by
  unfold State.serveSetTiming
  repeat' split
  all_goals simp
@[simp] theorem State.serveSetTiming_free (s : State) (p : List Byte) : (s.serveSetTiming p).1.free = s.free := by
  unfold State.serveSetTiming
  repeat' split
  all_goals simp
@[simp] theorem State.serveSetTiming_pending (s : State) (p : List Byte) : (s.serveSetTiming p).1.pending = s.pending := by
  unfold State.serveSetTiming
  repeat' split
  all_goals simp

/-! State.serveCreateSurface -/

@[simp] theorem State.serveCreateSurface_links (s : State) (n : Port) (p : List Byte) : (s.serveCreateSurface n p).1.links = s.links := by
  unfold State.serveCreateSurface
  repeat' split
  all_goals simp
@[simp] theorem State.serveCreateSurface_sessions (s : State) (n : Port) (p : List Byte) : (s.serveCreateSurface n p).1.sessions = s.sessions := by
  unfold State.serveCreateSurface
  repeat' split
  all_goals simp
@[simp] theorem State.serveCreateSurface_scan (s : State) (n : Port) (p : List Byte) : (s.serveCreateSurface n p).1.scan = s.scan := by
  unfold State.serveCreateSurface
  repeat' split
  all_goals simp
@[simp] theorem State.serveCreateSurface_drawing (s : State) (n : Port) (p : List Byte) : (s.serveCreateSurface n p).1.drawing = s.drawing := by
  unfold State.serveCreateSurface
  repeat' split
  all_goals simp
@[simp] theorem State.serveCreateSurface_layouts (s : State) (n : Port) (p : List Byte) : (s.serveCreateSurface n p).1.layouts = s.layouts := by
  unfold State.serveCreateSurface
  repeat' split
  all_goals simp
@[simp] theorem State.serveCreateSurface_pins (s : State) (n : Port) (p : List Byte) : (s.serveCreateSurface n p).1.pins = s.pins := by
  unfold State.serveCreateSurface
  repeat' split
  all_goals simp
@[simp] theorem State.serveCreateSurface_free (s : State) (n : Port) (p : List Byte) : (s.serveCreateSurface n p).1.free = s.free := by
  unfold State.serveCreateSurface
  repeat' split
  all_goals simp
@[simp] theorem State.serveCreateSurface_pending (s : State) (n : Port) (p : List Byte) : (s.serveCreateSurface n p).1.pending = s.pending := by
  unfold State.serveCreateSurface
  repeat' split
  all_goals simp

/-! State.serveCreateWindow -/

@[simp] theorem State.serveCreateWindow_links (s : State) (n : Port) (p : List Byte) : (s.serveCreateWindow n p).1.links = s.links := by
  unfold State.serveCreateWindow
  repeat' split
  all_goals simp
@[simp] theorem State.serveCreateWindow_sessions (s : State) (n : Port) (p : List Byte) : (s.serveCreateWindow n p).1.sessions = s.sessions := by
  unfold State.serveCreateWindow
  repeat' split
  all_goals simp
@[simp] theorem State.serveCreateWindow_scan (s : State) (n : Port) (p : List Byte) : (s.serveCreateWindow n p).1.scan = s.scan := by
  unfold State.serveCreateWindow
  repeat' split
  all_goals simp
@[simp] theorem State.serveCreateWindow_surfaces (s : State) (n : Port) (p : List Byte) : (s.serveCreateWindow n p).1.surfaces = s.surfaces := by
  unfold State.serveCreateWindow
  repeat' split
  all_goals simp
@[simp] theorem State.serveCreateWindow_mem (s : State) (n : Port) (p : List Byte) : (s.serveCreateWindow n p).1.mem = s.mem := by
  unfold State.serveCreateWindow
  repeat' split
  all_goals simp
@[simp] theorem State.serveCreateWindow_drawing (s : State) (n : Port) (p : List Byte) : (s.serveCreateWindow n p).1.drawing = s.drawing := by
  unfold State.serveCreateWindow
  repeat' split
  all_goals simp
@[simp] theorem State.serveCreateWindow_pins (s : State) (n : Port) (p : List Byte) : (s.serveCreateWindow n p).1.pins = s.pins := by
  unfold State.serveCreateWindow
  repeat' split
  all_goals simp
@[simp] theorem State.serveCreateWindow_free (s : State) (n : Port) (p : List Byte) : (s.serveCreateWindow n p).1.free = s.free := by
  unfold State.serveCreateWindow
  repeat' split
  all_goals simp
@[simp] theorem State.serveCreateWindow_pending (s : State) (n : Port) (p : List Byte) : (s.serveCreateWindow n p).1.pending = s.pending := by
  unfold State.serveCreateWindow
  repeat' split
  all_goals simp

/-! State.acceptCommit -/

@[simp] theorem State.acceptCommit_links (s : State) (n : Port) (tag : Byte) (l : Layout) (ops : List Op) : (s.acceptCommit n tag l ops).links = s.links := by
  simp [State.acceptCommit]
@[simp] theorem State.acceptCommit_sessions (s : State) (n : Port) (tag : Byte) (l : Layout) (ops : List Op) : (s.acceptCommit n tag l ops).sessions = s.sessions := by
  simp [State.acceptCommit]
@[simp] theorem State.acceptCommit_scan (s : State) (n : Port) (tag : Byte) (l : Layout) (ops : List Op) : (s.acceptCommit n tag l ops).scan = s.scan := by
  simp [State.acceptCommit]
@[simp] theorem State.acceptCommit_mem (s : State) (n : Port) (tag : Byte) (l : Layout) (ops : List Op) : (s.acceptCommit n tag l ops).mem = s.mem := by
  simp [State.acceptCommit]
@[simp] theorem State.acceptCommit_drawing (s : State) (n : Port) (tag : Byte) (l : Layout) (ops : List Op) : (s.acceptCommit n tag l ops).drawing = s.drawing := by
  simp [State.acceptCommit]
@[simp] theorem State.acceptCommit_pins (s : State) (n : Port) (tag : Byte) (l : Layout) (ops : List Op) : (s.acceptCommit n tag l ops).pins = s.pins := by
  simp [State.acceptCommit]
@[simp] theorem State.acceptCommit_free (s : State) (n : Port) (tag : Byte) (l : Layout) (ops : List Op) : (s.acceptCommit n tag l ops).free = s.free := by
  simp [State.acceptCommit]
@[simp] theorem State.acceptCommit_pending (s : State) (n : Port) (tag : Byte) (l : Layout) (ops : List Op) : (s.acceptCommit n tag l ops).pending = s.pending := by
  simp [State.acceptCommit]

/-! State.serveCommit -/

@[simp] theorem State.serveCommit_links (s : State) (n : Port) (tag : Byte) (p : List Byte) : (s.serveCommit n tag p).1.links = s.links := by
  simp only [State.serveCommit]
  repeat' split
  all_goals simp
@[simp] theorem State.serveCommit_sessions (s : State) (n : Port) (tag : Byte) (p : List Byte) : (s.serveCommit n tag p).1.sessions = s.sessions := by
  simp only [State.serveCommit]
  repeat' split
  all_goals simp
@[simp] theorem State.serveCommit_scan (s : State) (n : Port) (tag : Byte) (p : List Byte) : (s.serveCommit n tag p).1.scan = s.scan := by
  simp only [State.serveCommit]
  repeat' split
  all_goals simp
@[simp] theorem State.serveCommit_mem (s : State) (n : Port) (tag : Byte) (p : List Byte) : (s.serveCommit n tag p).1.mem = s.mem := by
  simp only [State.serveCommit]
  repeat' split
  all_goals simp
@[simp] theorem State.serveCommit_drawing (s : State) (n : Port) (tag : Byte) (p : List Byte) : (s.serveCommit n tag p).1.drawing = s.drawing := by
  simp only [State.serveCommit]
  repeat' split
  all_goals simp
@[simp] theorem State.serveCommit_pins (s : State) (n : Port) (tag : Byte) (p : List Byte) : (s.serveCommit n tag p).1.pins = s.pins := by
  simp only [State.serveCommit]
  repeat' split
  all_goals simp
@[simp] theorem State.serveCommit_free (s : State) (n : Port) (tag : Byte) (p : List Byte) : (s.serveCommit n tag p).1.free = s.free := by
  simp only [State.serveCommit]
  repeat' split
  all_goals simp
@[simp] theorem State.serveCommit_pending (s : State) (n : Port) (tag : Byte) (p : List Byte) : (s.serveCommit n tag p).1.pending = s.pending := by
  simp only [State.serveCommit]
  repeat' split
  all_goals simp

/-! State.writeNext -/

@[simp] theorem State.writeNext_links (s : State) (k : Nat) : (s.writeNext k).links = s.links := by
  unfold State.writeNext
  repeat' split
  all_goals simp
@[simp] theorem State.writeNext_sessions (s : State) (k : Nat) : (s.writeNext k).sessions = s.sessions := by
  unfold State.writeNext
  repeat' split
  all_goals simp
@[simp] theorem State.writeNext_scan (s : State) (k : Nat) : (s.writeNext k).scan = s.scan := by
  unfold State.writeNext
  repeat' split
  all_goals simp
@[simp] theorem State.writeNext_surfaces (s : State) (k : Nat) : (s.writeNext k).surfaces = s.surfaces := by
  unfold State.writeNext
  repeat' split
  all_goals simp
@[simp] theorem State.writeNext_layouts (s : State) (k : Nat) : (s.writeNext k).layouts = s.layouts := by
  unfold State.writeNext
  repeat' split
  all_goals simp
@[simp] theorem State.writeNext_pins (s : State) (k : Nat) : (s.writeNext k).pins = s.pins := by
  unfold State.writeNext
  repeat' split
  all_goals simp
@[simp] theorem State.writeNext_free (s : State) (k : Nat) : (s.writeNext k).free = s.free := by
  unfold State.writeNext
  repeat' split
  all_goals simp
@[simp] theorem State.writeNext_pending (s : State) (k : Nat) : (s.writeNext k).pending = s.pending := by
  unfold State.writeNext
  repeat' split
  all_goals simp

/-! State.drawOn -/

@[simp] theorem State.drawOn_links (s : State)  : s.drawOn.links = s.links := by
  unfold State.drawOn
  repeat' split
  all_goals simp
@[simp] theorem State.drawOn_sessions (s : State)  : s.drawOn.sessions = s.sessions := by
  unfold State.drawOn
  repeat' split
  all_goals simp
@[simp] theorem State.drawOn_surfaces (s : State)  : s.drawOn.surfaces = s.surfaces := by
  unfold State.drawOn
  repeat' split
  all_goals simp
@[simp] theorem State.drawOn_layouts (s : State)  : s.drawOn.layouts = s.layouts := by
  unfold State.drawOn
  repeat' split
  all_goals simp
@[simp] theorem State.drawOn_pins (s : State)  : s.drawOn.pins = s.pins := by
  unfold State.drawOn
  repeat' split
  all_goals simp
@[simp] theorem State.drawOn_pending (s : State)  : s.drawOn.pending = s.pending := by
  unfold State.drawOn
  repeat' split
  all_goals simp

/-! State.choose -/

@[simp] theorem State.choose_links (s : State)  : s.choose.links = s.links := by
  unfold State.choose
  repeat' split
  all_goals simp
@[simp] theorem State.choose_sessions (s : State)  : s.choose.sessions = s.sessions := by
  unfold State.choose
  repeat' split
  all_goals simp
@[simp] theorem State.choose_scan (s : State)  : s.choose.scan = s.scan := by
  unfold State.choose
  repeat' split
  all_goals simp
@[simp] theorem State.choose_surfaces (s : State)  : s.choose.surfaces = s.surfaces := by
  unfold State.choose
  repeat' split
  all_goals simp
@[simp] theorem State.choose_mem (s : State)  : s.choose.mem = s.mem := by
  unfold State.choose
  repeat' split
  all_goals simp
@[simp] theorem State.choose_layouts (s : State)  : s.choose.layouts = s.layouts := by
  unfold State.choose
  repeat' split
  all_goals simp
@[simp] theorem State.choose_pins (s : State)  : s.choose.pins = s.pins := by
  unfold State.choose
  repeat' split
  all_goals simp
@[simp] theorem State.choose_free (s : State)  : s.choose.free = s.free := by
  unfold State.choose
  repeat' split
  all_goals simp
@[simp] theorem State.choose_pending (s : State)  : s.choose.pending = s.pending := by
  unfold State.choose
  repeat' split
  all_goals simp

/-! State.acceptJob -/

@[simp] theorem State.acceptJob_links (s : State) (j : Job) : (s.acceptJob j).links = s.links := by
  unfold State.acceptJob
  repeat' split
  all_goals simp
@[simp] theorem State.acceptJob_sessions (s : State) (j : Job) : (s.acceptJob j).sessions = s.sessions := by
  unfold State.acceptJob
  repeat' split
  all_goals simp
@[simp] theorem State.acceptJob_scan (s : State) (j : Job) : (s.acceptJob j).scan = s.scan := by
  unfold State.acceptJob
  repeat' split
  all_goals simp
@[simp] theorem State.acceptJob_mem (s : State) (j : Job) : (s.acceptJob j).mem = s.mem := by
  unfold State.acceptJob
  repeat' split
  all_goals simp
@[simp] theorem State.acceptJob_layouts (s : State) (j : Job) : (s.acceptJob j).layouts = s.layouts := by
  unfold State.acceptJob
  repeat' split
  all_goals simp
@[simp] theorem State.acceptJob_pins (s : State) (j : Job) : (s.acceptJob j).pins = s.pins := by
  unfold State.acceptJob
  repeat' split
  all_goals simp
@[simp] theorem State.acceptJob_free (s : State) (j : Job) : (s.acceptJob j).free = s.free := by
  unfold State.acceptJob
  repeat' split
  all_goals simp
@[simp] theorem State.acceptJob_pending (s : State) (j : Job) : (s.acceptJob j).pending = s.pending := by
  unfold State.acceptJob
  repeat' split
  all_goals simp

/-! State.serveDrawing -/

@[simp] theorem State.serveDrawing_links (s : State) (n : Port) (k : Kind) (q : DrawRequest) : (s.serveDrawing n k q).1.links = s.links := by
  unfold State.serveDrawing
  repeat' split
  all_goals simp
@[simp] theorem State.serveDrawing_sessions (s : State) (n : Port) (k : Kind) (q : DrawRequest) : (s.serveDrawing n k q).1.sessions = s.sessions := by
  unfold State.serveDrawing
  repeat' split
  all_goals simp
@[simp] theorem State.serveDrawing_scan (s : State) (n : Port) (k : Kind) (q : DrawRequest) : (s.serveDrawing n k q).1.scan = s.scan := by
  unfold State.serveDrawing
  repeat' split
  all_goals simp
@[simp] theorem State.serveDrawing_mem (s : State) (n : Port) (k : Kind) (q : DrawRequest) : (s.serveDrawing n k q).1.mem = s.mem := by
  unfold State.serveDrawing
  repeat' split
  all_goals simp
@[simp] theorem State.serveDrawing_layouts (s : State) (n : Port) (k : Kind) (q : DrawRequest) : (s.serveDrawing n k q).1.layouts = s.layouts := by
  unfold State.serveDrawing
  repeat' split
  all_goals simp
@[simp] theorem State.serveDrawing_pins (s : State) (n : Port) (k : Kind) (q : DrawRequest) : (s.serveDrawing n k q).1.pins = s.pins := by
  unfold State.serveDrawing
  repeat' split
  all_goals simp
@[simp] theorem State.serveDrawing_free (s : State) (n : Port) (k : Kind) (q : DrawRequest) : (s.serveDrawing n k q).1.free = s.free := by
  unfold State.serveDrawing
  repeat' split
  all_goals simp
@[simp] theorem State.serveDrawing_pending (s : State) (n : Port) (k : Kind) (q : DrawRequest) : (s.serveDrawing n k q).1.pending = s.pending := by
  unfold State.serveDrawing
  repeat' split
  all_goals simp

/-! State.retireJob -/

@[simp] theorem State.retireJob_sessions (s : State) (j : Job) : (s.retireJob j).sessions = s.sessions := by
  unfold State.retireJob
  repeat' split
  all_goals simp
@[simp] theorem State.retireJob_scan (s : State) (j : Job) : (s.retireJob j).scan = s.scan := by
  unfold State.retireJob
  repeat' split
  all_goals simp
@[simp] theorem State.retireJob_mem (s : State) (j : Job) : (s.retireJob j).mem = s.mem := by
  unfold State.retireJob
  repeat' split
  all_goals simp
@[simp] theorem State.retireJob_pins (s : State) (j : Job) : (s.retireJob j).pins = s.pins := by
  unfold State.retireJob
  repeat' split
  all_goals simp
@[simp] theorem State.retireJob_free (s : State) (j : Job) : (s.retireJob j).free = s.free := by
  unfold State.retireJob
  repeat' split
  all_goals simp
@[simp] theorem State.retireJob_pending (s : State) (j : Job) : (s.retireJob j).pending = s.pending := by
  unfold State.retireJob
  repeat' split
  all_goals simp

/-! State.completeJob -/

@[simp] theorem State.completeJob_sessions (s : State)  : s.completeJob.sessions = s.sessions := by
  unfold State.completeJob
  repeat' split
  all_goals simp
@[simp] theorem State.completeJob_scan (s : State)  : s.completeJob.scan = s.scan := by
  unfold State.completeJob
  repeat' split
  all_goals simp
@[simp] theorem State.completeJob_pins (s : State)  : s.completeJob.pins = s.pins := by
  unfold State.completeJob
  repeat' split
  all_goals simp
@[simp] theorem State.completeJob_free (s : State)  : s.completeJob.free = s.free := by
  unfold State.completeJob
  repeat' split
  all_goals simp
@[simp] theorem State.completeJob_pending (s : State)  : s.completeJob.pending = s.pending := by
  unfold State.completeJob
  repeat' split
  all_goals simp

/-! State.abortJobs -/

@[simp] theorem State.abortJobs_links (s : State) (n : Port) : (s.abortJobs n).links = s.links := by
  simp only [State.abortJobs]
  repeat' split
  all_goals simp
@[simp] theorem State.abortJobs_sessions (s : State) (n : Port) : (s.abortJobs n).sessions = s.sessions := by
  simp only [State.abortJobs]
  repeat' split
  all_goals simp
@[simp] theorem State.abortJobs_scan (s : State) (n : Port) : (s.abortJobs n).scan = s.scan := by
  simp only [State.abortJobs]
  repeat' split
  all_goals simp
@[simp] theorem State.abortJobs_layouts (s : State) (n : Port) : (s.abortJobs n).layouts = s.layouts := by
  simp only [State.abortJobs]
  repeat' split
  all_goals simp
@[simp] theorem State.abortJobs_pins (s : State) (n : Port) : (s.abortJobs n).pins = s.pins := by
  simp only [State.abortJobs]
  repeat' split
  all_goals simp
@[simp] theorem State.abortJobs_pending (s : State) (n : Port) : (s.abortJobs n).pending = s.pending := by
  simp only [State.abortJobs]
  repeat' split
  all_goals simp

/-! State.dropCommits -/

@[simp] theorem State.dropCommits_links (s : State) (n : Port) : (s.dropCommits n).links = s.links := by
  simp [State.dropCommits]
@[simp] theorem State.dropCommits_sessions (s : State) (n : Port) : (s.dropCommits n).sessions = s.sessions := by
  simp [State.dropCommits]
@[simp] theorem State.dropCommits_scan (s : State) (n : Port) : (s.dropCommits n).scan = s.scan := by
  simp [State.dropCommits]
@[simp] theorem State.dropCommits_mem (s : State) (n : Port) : (s.dropCommits n).mem = s.mem := by
  simp [State.dropCommits]
@[simp] theorem State.dropCommits_drawing (s : State) (n : Port) : (s.dropCommits n).drawing = s.drawing := by
  simp [State.dropCommits]
@[simp] theorem State.dropCommits_pins (s : State) (n : Port) : (s.dropCommits n).pins = s.pins := by
  simp [State.dropCommits]
@[simp] theorem State.dropCommits_free (s : State) (n : Port) : (s.dropCommits n).free = s.free := by
  simp [State.dropCommits]
@[simp] theorem State.dropCommits_pending (s : State) (n : Port) : (s.dropCommits n).pending = s.pending := by
  simp [State.dropCommits]

/-! State.teardownLayouts -/

@[simp] theorem State.teardownLayouts_sessions (s : State) (n : Port) : (s.teardownLayouts n).sessions = s.sessions := by
  simp [State.teardownLayouts]
@[simp] theorem State.teardownLayouts_scan (s : State) (n : Port) : (s.teardownLayouts n).scan = s.scan := by
  simp [State.teardownLayouts]
@[simp] theorem State.teardownLayouts_mem (s : State) (n : Port) : (s.teardownLayouts n).mem = s.mem := by
  simp [State.teardownLayouts]
@[simp] theorem State.teardownLayouts_drawing (s : State) (n : Port) : (s.teardownLayouts n).drawing = s.drawing := by
  simp [State.teardownLayouts]
@[simp] theorem State.teardownLayouts_pins (s : State) (n : Port) : (s.teardownLayouts n).pins = s.pins := by
  simp [State.teardownLayouts]
@[simp] theorem State.teardownLayouts_free (s : State) (n : Port) : (s.teardownLayouts n).free = s.free := by
  simp [State.teardownLayouts]
@[simp] theorem State.teardownLayouts_pending (s : State) (n : Port) : (s.teardownLayouts n).pending = s.pending := by
  simp [State.teardownLayouts]

/-! State.openSession -/

@[simp] theorem State.openSession_scan (s : State) (n : Port) (label : BitVec 32) : (s.openSession n label).scan = s.scan := by
  unfold State.openSession
  repeat' split
  all_goals simp
@[simp] theorem State.openSession_surfaces (s : State) (n : Port) (label : BitVec 32) : (s.openSession n label).surfaces = s.surfaces := by
  unfold State.openSession
  repeat' split
  all_goals simp
@[simp] theorem State.openSession_mem (s : State) (n : Port) (label : BitVec 32) : (s.openSession n label).mem = s.mem := by
  unfold State.openSession
  repeat' split
  all_goals simp
@[simp] theorem State.openSession_layouts (s : State) (n : Port) (label : BitVec 32) : (s.openSession n label).layouts = s.layouts := by
  unfold State.openSession
  repeat' split
  all_goals simp
@[simp] theorem State.openSession_pins (s : State) (n : Port) (label : BitVec 32) : (s.openSession n label).pins = s.pins := by
  unfold State.openSession
  repeat' split
  all_goals simp
@[simp] theorem State.openSession_free (s : State) (n : Port) (label : BitVec 32) : (s.openSession n label).free = s.free := by
  unfold State.openSession
  repeat' split
  all_goals simp
@[simp] theorem State.openSession_pending (s : State) (n : Port) (label : BitVec 32) : (s.openSession n label).pending = s.pending := by
  unfold State.openSession
  repeat' split
  all_goals simp

/-! State.closeSession -/

@[simp] theorem State.closeSession_links (s : State) (n : Port) : (s.closeSession n).links = s.links := by
  unfold State.closeSession
  repeat' split
  all_goals simp
@[simp] theorem State.closeSession_scan (s : State) (n : Port) : (s.closeSession n).scan = s.scan := by
  unfold State.closeSession
  repeat' split
  all_goals simp
@[simp] theorem State.closeSession_surfaces (s : State) (n : Port) : (s.closeSession n).surfaces = s.surfaces := by
  unfold State.closeSession
  repeat' split
  all_goals simp
@[simp] theorem State.closeSession_mem (s : State) (n : Port) : (s.closeSession n).mem = s.mem := by
  unfold State.closeSession
  repeat' split
  all_goals simp
@[simp] theorem State.closeSession_drawing (s : State) (n : Port) : (s.closeSession n).drawing = s.drawing := by
  unfold State.closeSession
  repeat' split
  all_goals simp
@[simp] theorem State.closeSession_layouts (s : State) (n : Port) : (s.closeSession n).layouts = s.layouts := by
  unfold State.closeSession
  repeat' split
  all_goals simp
@[simp] theorem State.closeSession_pins (s : State) (n : Port) : (s.closeSession n).pins = s.pins := by
  unfold State.closeSession
  repeat' split
  all_goals simp
@[simp] theorem State.closeSession_free (s : State) (n : Port) : (s.closeSession n).free = s.free := by
  unfold State.closeSession
  repeat' split
  all_goals simp
@[simp] theorem State.closeSession_pending (s : State) (n : Port) : (s.closeSession n).pending = s.pending := by
  unfold State.closeSession
  repeat' split
  all_goals simp

/-! State.endTeardown -/

@[simp] theorem State.endTeardown_scan (s : State) (n : Port) : (s.endTeardown n).scan = s.scan := by
  unfold State.endTeardown
  repeat' split
  all_goals simp
@[simp] theorem State.endTeardown_surfaces (s : State) (n : Port) : (s.endTeardown n).surfaces = s.surfaces := by
  unfold State.endTeardown
  repeat' split
  all_goals simp
@[simp] theorem State.endTeardown_mem (s : State) (n : Port) : (s.endTeardown n).mem = s.mem := by
  unfold State.endTeardown
  repeat' split
  all_goals simp
@[simp] theorem State.endTeardown_layouts (s : State) (n : Port) : (s.endTeardown n).layouts = s.layouts := by
  unfold State.endTeardown
  repeat' split
  all_goals simp
@[simp] theorem State.endTeardown_pins (s : State) (n : Port) : (s.endTeardown n).pins = s.pins := by
  unfold State.endTeardown
  repeat' split
  all_goals simp
@[simp] theorem State.endTeardown_free (s : State) (n : Port) : (s.endTeardown n).free = s.free := by
  unfold State.endTeardown
  repeat' split
  all_goals simp
@[simp] theorem State.endTeardown_pending (s : State) (n : Port) : (s.endTeardown n).pending = s.pending := by
  unfold State.endTeardown
  repeat' split
  all_goals simp

/-! State.freeWindow -/

@[simp] theorem State.freeWindow_links (s : State) (w : WinSlot) : (s.freeWindow w).links = s.links := by
  unfold State.freeWindow
  repeat' split
  all_goals simp
@[simp] theorem State.freeWindow_sessions (s : State) (w : WinSlot) : (s.freeWindow w).sessions = s.sessions := by
  unfold State.freeWindow
  repeat' split
  all_goals simp
@[simp] theorem State.freeWindow_scan (s : State) (w : WinSlot) : (s.freeWindow w).scan = s.scan := by
  unfold State.freeWindow
  repeat' split
  all_goals simp
@[simp] theorem State.freeWindow_mem (s : State) (w : WinSlot) : (s.freeWindow w).mem = s.mem := by
  unfold State.freeWindow
  repeat' split
  all_goals simp
@[simp] theorem State.freeWindow_drawing (s : State) (w : WinSlot) : (s.freeWindow w).drawing = s.drawing := by
  unfold State.freeWindow
  repeat' split
  all_goals simp
@[simp] theorem State.freeWindow_pins (s : State) (w : WinSlot) : (s.freeWindow w).pins = s.pins := by
  unfold State.freeWindow
  repeat' split
  all_goals simp
@[simp] theorem State.freeWindow_free (s : State) (w : WinSlot) : (s.freeWindow w).free = s.free := by
  unfold State.freeWindow
  repeat' split
  all_goals simp
@[simp] theorem State.freeWindow_pending (s : State) (w : WinSlot) : (s.freeWindow w).pending = s.pending := by
  unfold State.freeWindow
  repeat' split
  all_goals simp

/-! State.freeWindowsOf -/

@[simp] theorem State.freeWindowsOf_links (s : State) (n : Port) : (s.freeWindowsOf n).links = s.links :=
  by
  unfold State.freeWindowsOf
  exact foldl_same (fun s : State => s.links) _ (fun s w => by split <;> simp) _ _
@[simp] theorem State.freeWindowsOf_sessions (s : State) (n : Port) : (s.freeWindowsOf n).sessions = s.sessions :=
  by
  unfold State.freeWindowsOf
  exact foldl_same (fun s : State => s.sessions) _ (fun s w => by split <;> simp) _ _
@[simp] theorem State.freeWindowsOf_scan (s : State) (n : Port) : (s.freeWindowsOf n).scan = s.scan :=
  by
  unfold State.freeWindowsOf
  exact foldl_same (fun s : State => s.scan) _ (fun s w => by split <;> simp) _ _
@[simp] theorem State.freeWindowsOf_mem (s : State) (n : Port) : (s.freeWindowsOf n).mem = s.mem :=
  by
  unfold State.freeWindowsOf
  exact foldl_same (fun s : State => s.mem) _ (fun s w => by split <;> simp) _ _
@[simp] theorem State.freeWindowsOf_drawing (s : State) (n : Port) : (s.freeWindowsOf n).drawing = s.drawing :=
  by
  unfold State.freeWindowsOf
  exact foldl_same (fun s : State => s.drawing) _ (fun s w => by split <;> simp) _ _
@[simp] theorem State.freeWindowsOf_pins (s : State) (n : Port) : (s.freeWindowsOf n).pins = s.pins :=
  by
  unfold State.freeWindowsOf
  exact foldl_same (fun s : State => s.pins) _ (fun s w => by split <;> simp) _ _
@[simp] theorem State.freeWindowsOf_free (s : State) (n : Port) : (s.freeWindowsOf n).free = s.free :=
  by
  unfold State.freeWindowsOf
  exact foldl_same (fun s : State => s.free) _ (fun s w => by split <;> simp) _ _
@[simp] theorem State.freeWindowsOf_pending (s : State) (n : Port) : (s.freeWindowsOf n).pending = s.pending :=
  by
  unfold State.freeWindowsOf
  exact foldl_same (fun s : State => s.pending) _ (fun s w => by split <;> simp) _ _

/-! State.returnResources -/

@[simp] theorem State.returnResources_links (s : State) (n : Port) : (s.returnResources n).links = s.links := by
  simp [State.returnResources]
@[simp] theorem State.returnResources_sessions (s : State) (n : Port) : (s.returnResources n).sessions = s.sessions := by
  simp [State.returnResources]
@[simp] theorem State.returnResources_scan (s : State) (n : Port) : (s.returnResources n).scan = s.scan := by
  simp [State.returnResources]
@[simp] theorem State.returnResources_mem (s : State) (n : Port) : (s.returnResources n).mem = s.mem := by
  simp [State.returnResources]
@[simp] theorem State.returnResources_drawing (s : State) (n : Port) : (s.returnResources n).drawing = s.drawing := by
  simp [State.returnResources]
@[simp] theorem State.returnResources_pins (s : State) (n : Port) : (s.returnResources n).pins = s.pins := by
  simp [State.returnResources]
@[simp] theorem State.returnResources_free (s : State) (n : Port) : (s.returnResources n).free = s.free := by
  simp [State.returnResources]
@[simp] theorem State.returnResources_pending (s : State) (n : Port) : (s.returnResources n).pending = s.pending := by
  simp [State.returnResources]

/-! State.withdrawApplied -/

@[simp] theorem State.withdrawApplied_links (s : State) (w : WinSlot) : (s.withdrawApplied w).links = s.links := by
  unfold State.withdrawApplied
  repeat' split
  all_goals simp
@[simp] theorem State.withdrawApplied_sessions (s : State) (w : WinSlot) : (s.withdrawApplied w).sessions = s.sessions := by
  unfold State.withdrawApplied
  repeat' split
  all_goals simp
@[simp] theorem State.withdrawApplied_scan (s : State) (w : WinSlot) : (s.withdrawApplied w).scan = s.scan := by
  unfold State.withdrawApplied
  repeat' split
  all_goals simp
@[simp] theorem State.withdrawApplied_mem (s : State) (w : WinSlot) : (s.withdrawApplied w).mem = s.mem := by
  unfold State.withdrawApplied
  repeat' split
  all_goals simp
@[simp] theorem State.withdrawApplied_drawing (s : State) (w : WinSlot) : (s.withdrawApplied w).drawing = s.drawing := by
  unfold State.withdrawApplied
  repeat' split
  all_goals simp
@[simp] theorem State.withdrawApplied_pins (s : State) (w : WinSlot) : (s.withdrawApplied w).pins = s.pins := by
  unfold State.withdrawApplied
  repeat' split
  all_goals simp
@[simp] theorem State.withdrawApplied_free (s : State) (w : WinSlot) : (s.withdrawApplied w).free = s.free := by
  unfold State.withdrawApplied
  repeat' split
  all_goals simp
@[simp] theorem State.withdrawApplied_pending (s : State) (w : WinSlot) : (s.withdrawApplied w).pending = s.pending := by
  unfold State.withdrawApplied
  repeat' split
  all_goals simp

/-! State.withdrawClosing -/

@[simp] theorem State.withdrawClosing_links (s : State)  : s.withdrawClosing.links = s.links :=
  by
  unfold State.withdrawClosing
  rw [State.reload_links]
  exact foldl_same (fun s : State => s.links) _ (fun s w => by (repeat' split) <;> simp) _ _
@[simp] theorem State.withdrawClosing_sessions (s : State)  : s.withdrawClosing.sessions = s.sessions :=
  by
  unfold State.withdrawClosing
  rw [State.reload_sessions]
  exact foldl_same (fun s : State => s.sessions) _ (fun s w => by (repeat' split) <;> simp) _ _
@[simp] theorem State.withdrawClosing_scan (s : State)  : s.withdrawClosing.scan = s.scan :=
  by
  unfold State.withdrawClosing
  rw [State.reload_scan]
  exact foldl_same (fun s : State => s.scan) _ (fun s w => by (repeat' split) <;> simp) _ _
@[simp] theorem State.withdrawClosing_mem (s : State)  : s.withdrawClosing.mem = s.mem :=
  by
  unfold State.withdrawClosing
  rw [State.reload_mem]
  exact foldl_same (fun s : State => s.mem) _ (fun s w => by (repeat' split) <;> simp) _ _
@[simp] theorem State.withdrawClosing_drawing (s : State)  : s.withdrawClosing.drawing = s.drawing :=
  by
  unfold State.withdrawClosing
  rw [State.reload_drawing]
  exact foldl_same (fun s : State => s.drawing) _ (fun s w => by (repeat' split) <;> simp) _ _
@[simp] theorem State.withdrawClosing_pins (s : State)  : s.withdrawClosing.pins = s.pins :=
  by
  unfold State.withdrawClosing
  rw [State.reload_pins]
  exact foldl_same (fun s : State => s.pins) _ (fun s w => by (repeat' split) <;> simp) _ _
@[simp] theorem State.withdrawClosing_free (s : State)  : s.withdrawClosing.free = s.free :=
  by
  unfold State.withdrawClosing
  rw [State.reload_free]
  exact foldl_same (fun s : State => s.free) _ (fun s w => by (repeat' split) <;> simp) _ _
@[simp] theorem State.withdrawClosing_pending (s : State)  : s.withdrawClosing.pending = s.pending :=
  by
  unfold State.withdrawClosing
  rw [State.reload_pending]
  exact foldl_same (fun s : State => s.pending) _ (fun s w => by (repeat' split) <;> simp) _ _

/-! State.applyChange -/

@[simp] theorem State.applyChange_links (s : State) (op : Op) (w : WinSlot) : (s.applyChange op w).links = s.links := by
  unfold State.applyChange
  repeat' split
  all_goals simp
@[simp] theorem State.applyChange_sessions (s : State) (op : Op) (w : WinSlot) : (s.applyChange op w).sessions = s.sessions := by
  unfold State.applyChange
  repeat' split
  all_goals simp
@[simp] theorem State.applyChange_scan (s : State) (op : Op) (w : WinSlot) : (s.applyChange op w).scan = s.scan := by
  unfold State.applyChange
  repeat' split
  all_goals simp
@[simp] theorem State.applyChange_mem (s : State) (op : Op) (w : WinSlot) : (s.applyChange op w).mem = s.mem := by
  unfold State.applyChange
  repeat' split
  all_goals simp
@[simp] theorem State.applyChange_drawing (s : State) (op : Op) (w : WinSlot) : (s.applyChange op w).drawing = s.drawing := by
  unfold State.applyChange
  repeat' split
  all_goals simp
@[simp] theorem State.applyChange_pins (s : State) (op : Op) (w : WinSlot) : (s.applyChange op w).pins = s.pins := by
  unfold State.applyChange
  repeat' split
  all_goals simp
@[simp] theorem State.applyChange_free (s : State) (op : Op) (w : WinSlot) : (s.applyChange op w).free = s.free := by
  unfold State.applyChange
  repeat' split
  all_goals simp
@[simp] theorem State.applyChange_pending (s : State) (op : Op) (w : WinSlot) : (s.applyChange op w).pending = s.pending := by
  unfold State.applyChange
  repeat' split
  all_goals simp

/-! State.applyOp -/

@[simp] theorem State.applyOp_links (s : State) (op : Op) : (s.applyOp op).links = s.links := by
  unfold State.applyOp
  repeat' split
  all_goals simp
@[simp] theorem State.applyOp_sessions (s : State) (op : Op) : (s.applyOp op).sessions = s.sessions := by
  unfold State.applyOp
  repeat' split
  all_goals simp
@[simp] theorem State.applyOp_scan (s : State) (op : Op) : (s.applyOp op).scan = s.scan := by
  unfold State.applyOp
  repeat' split
  all_goals simp
@[simp] theorem State.applyOp_mem (s : State) (op : Op) : (s.applyOp op).mem = s.mem := by
  unfold State.applyOp
  repeat' split
  all_goals simp
@[simp] theorem State.applyOp_drawing (s : State) (op : Op) : (s.applyOp op).drawing = s.drawing := by
  unfold State.applyOp
  repeat' split
  all_goals simp
@[simp] theorem State.applyOp_pins (s : State) (op : Op) : (s.applyOp op).pins = s.pins := by
  unfold State.applyOp
  repeat' split
  all_goals simp
@[simp] theorem State.applyOp_free (s : State) (op : Op) : (s.applyOp op).free = s.free := by
  unfold State.applyOp
  repeat' split
  all_goals simp
@[simp] theorem State.applyOp_pending (s : State) (op : Op) : (s.applyOp op).pending = s.pending := by
  unfold State.applyOp
  repeat' split
  all_goals simp

/-! State.applyCommit -/

@[simp] theorem State.applyCommit_sessions (s : State) (p : Pending) : (s.applyCommit p).sessions = s.sessions :=
  by
  have h : (p.ops.foldl State.applyOp s).sessions = s.sessions :=
    foldl_same (fun s : State => s.sessions) _ (fun s op => by simp) _ _
  simpa [State.applyCommit] using h
@[simp] theorem State.applyCommit_scan (s : State) (p : Pending) : (s.applyCommit p).scan = s.scan :=
  by
  have h : (p.ops.foldl State.applyOp s).scan = s.scan :=
    foldl_same (fun s : State => s.scan) _ (fun s op => by simp) _ _
  simpa [State.applyCommit] using h
@[simp] theorem State.applyCommit_mem (s : State) (p : Pending) : (s.applyCommit p).mem = s.mem :=
  by
  have h : (p.ops.foldl State.applyOp s).mem = s.mem :=
    foldl_same (fun s : State => s.mem) _ (fun s op => by simp) _ _
  simpa [State.applyCommit] using h
@[simp] theorem State.applyCommit_drawing (s : State) (p : Pending) : (s.applyCommit p).drawing = s.drawing :=
  by
  have h : (p.ops.foldl State.applyOp s).drawing = s.drawing :=
    foldl_same (fun s : State => s.drawing) _ (fun s op => by simp) _ _
  simpa [State.applyCommit] using h
@[simp] theorem State.applyCommit_pins (s : State) (p : Pending) : (s.applyCommit p).pins = s.pins :=
  by
  have h : (p.ops.foldl State.applyOp s).pins = s.pins :=
    foldl_same (fun s : State => s.pins) _ (fun s op => by simp) _ _
  simpa [State.applyCommit] using h
@[simp] theorem State.applyCommit_free (s : State) (p : Pending) : (s.applyCommit p).free = s.free :=
  by
  have h : (p.ops.foldl State.applyOp s).free = s.free :=
    foldl_same (fun s : State => s.free) _ (fun s op => by simp) _ _
  simpa [State.applyCommit] using h
@[simp] theorem State.applyCommit_pending (s : State) (p : Pending) : (s.applyCommit p).pending = s.pending :=
  by
  have h : (p.ops.foldl State.applyOp s).pending = s.pending :=
    foldl_same (fun s : State => s.pending) _ (fun s op => by simp) _ _
  simpa [State.applyCommit] using h

/-! State.applyReady -/

@[simp] theorem State.applyReady_sessions (k : Nat) (s : State) : (State.applyReady k s).sessions = s.sessions := by
  induction k generalizing s with
  | zero => rfl
  | succ k ih =>
    unfold State.applyReady
    repeat' split
    all_goals simp [ih]
@[simp] theorem State.applyReady_scan (k : Nat) (s : State) : (State.applyReady k s).scan = s.scan := by
  induction k generalizing s with
  | zero => rfl
  | succ k ih =>
    unfold State.applyReady
    repeat' split
    all_goals simp [ih]
@[simp] theorem State.applyReady_mem (k : Nat) (s : State) : (State.applyReady k s).mem = s.mem := by
  induction k generalizing s with
  | zero => rfl
  | succ k ih =>
    unfold State.applyReady
    repeat' split
    all_goals simp [ih]
@[simp] theorem State.applyReady_drawing (k : Nat) (s : State) : (State.applyReady k s).drawing = s.drawing := by
  induction k generalizing s with
  | zero => rfl
  | succ k ih =>
    unfold State.applyReady
    repeat' split
    all_goals simp [ih]
@[simp] theorem State.applyReady_pins (k : Nat) (s : State) : (State.applyReady k s).pins = s.pins := by
  induction k generalizing s with
  | zero => rfl
  | succ k ih =>
    unfold State.applyReady
    repeat' split
    all_goals simp [ih]
@[simp] theorem State.applyReady_free (k : Nat) (s : State) : (State.applyReady k s).free = s.free := by
  induction k generalizing s with
  | zero => rfl
  | succ k ih =>
    unfold State.applyReady
    repeat' split
    all_goals simp [ih]
@[simp] theorem State.applyReady_pending (k : Nat) (s : State) : (State.applyReady k s).pending = s.pending := by
  induction k generalizing s with
  | zero => rfl
  | succ k ih =>
    unfold State.applyReady
    repeat' split
    all_goals simp [ih]

/-! State.applyCommits -/

@[simp] theorem State.applyCommits_sessions (s : State)  : s.applyCommits.sessions = s.sessions := by
  simp [State.applyCommits]
@[simp] theorem State.applyCommits_scan (s : State)  : s.applyCommits.scan = s.scan := by
  simp [State.applyCommits]
@[simp] theorem State.applyCommits_mem (s : State)  : s.applyCommits.mem = s.mem := by
  simp [State.applyCommits]
@[simp] theorem State.applyCommits_drawing (s : State)  : s.applyCommits.drawing = s.drawing := by
  simp [State.applyCommits]
@[simp] theorem State.applyCommits_pins (s : State)  : s.applyCommits.pins = s.pins := by
  simp [State.applyCommits]
@[simp] theorem State.applyCommits_free (s : State)  : s.applyCommits.free = s.free := by
  simp [State.applyCommits]
@[simp] theorem State.applyCommits_pending (s : State)  : s.applyCommits.pending = s.pending := by
  simp [State.applyCommits]

/-! State.ageWindow -/

@[simp] theorem State.ageWindow_sessions (s : State) (w : WinSlot) : (s.ageWindow w).sessions = s.sessions := by
  simp only [State.ageWindow]
  repeat' split
  all_goals simp
@[simp] theorem State.ageWindow_scan (s : State) (w : WinSlot) : (s.ageWindow w).scan = s.scan := by
  simp only [State.ageWindow]
  repeat' split
  all_goals simp
@[simp] theorem State.ageWindow_surfaces (s : State) (w : WinSlot) : (s.ageWindow w).surfaces = s.surfaces := by
  simp only [State.ageWindow]
  repeat' split
  all_goals simp
@[simp] theorem State.ageWindow_mem (s : State) (w : WinSlot) : (s.ageWindow w).mem = s.mem := by
  simp only [State.ageWindow]
  repeat' split
  all_goals simp
@[simp] theorem State.ageWindow_drawing (s : State) (w : WinSlot) : (s.ageWindow w).drawing = s.drawing := by
  simp only [State.ageWindow]
  repeat' split
  all_goals simp
@[simp] theorem State.ageWindow_pins (s : State) (w : WinSlot) : (s.ageWindow w).pins = s.pins := by
  simp only [State.ageWindow]
  repeat' split
  all_goals simp
@[simp] theorem State.ageWindow_free (s : State) (w : WinSlot) : (s.ageWindow w).free = s.free := by
  simp only [State.ageWindow]
  repeat' split
  all_goals simp
@[simp] theorem State.ageWindow_pending (s : State) (w : WinSlot) : (s.ageWindow w).pending = s.pending := by
  simp only [State.ageWindow]
  repeat' split
  all_goals simp

/-! State.ageWindows -/

@[simp] theorem State.ageWindows_sessions (s : State)  : s.ageWindows.sessions = s.sessions :=
  by
  simp only [State.ageWindows, State.withLayouts_sessions]
  exact foldl_same (fun s : State => s.sessions) _ (fun s w => by simp) _ _
@[simp] theorem State.ageWindows_scan (s : State)  : s.ageWindows.scan = s.scan :=
  by
  simp only [State.ageWindows, State.withLayouts_scan]
  exact foldl_same (fun s : State => s.scan) _ (fun s w => by simp) _ _
@[simp] theorem State.ageWindows_surfaces (s : State)  : s.ageWindows.surfaces = s.surfaces :=
  by
  simp only [State.ageWindows, State.withLayouts_surfaces]
  exact foldl_same (fun s : State => s.surfaces) _ (fun s w => by simp) _ _
@[simp] theorem State.ageWindows_mem (s : State)  : s.ageWindows.mem = s.mem :=
  by
  simp only [State.ageWindows, State.withLayouts_mem]
  exact foldl_same (fun s : State => s.mem) _ (fun s w => by simp) _ _
@[simp] theorem State.ageWindows_drawing (s : State)  : s.ageWindows.drawing = s.drawing :=
  by
  simp only [State.ageWindows, State.withLayouts_drawing]
  exact foldl_same (fun s : State => s.drawing) _ (fun s w => by simp) _ _
@[simp] theorem State.ageWindows_pins (s : State)  : s.ageWindows.pins = s.pins :=
  by
  simp only [State.ageWindows, State.withLayouts_pins]
  exact foldl_same (fun s : State => s.pins) _ (fun s w => by simp) _ _
@[simp] theorem State.ageWindows_free (s : State)  : s.ageWindows.free = s.free :=
  by
  simp only [State.ageWindows, State.withLayouts_free]
  exact foldl_same (fun s : State => s.free) _ (fun s w => by simp) _ _
@[simp] theorem State.ageWindows_pending (s : State)  : s.ageWindows.pending = s.pending :=
  by
  simp only [State.ageWindows, State.withLayouts_pending]
  exact foldl_same (fun s : State => s.pending) _ (fun s w => by simp) _ _

/-! State.fetch -/

@[simp] theorem State.fetch_links (s : State) (t : Timing) (line clock : Nat) : (s.fetch t line clock).links = s.links := by
  unfold State.fetch
  repeat' split
  all_goals simp
@[simp] theorem State.fetch_sessions (s : State) (t : Timing) (line clock : Nat) : (s.fetch t line clock).sessions = s.sessions := by
  unfold State.fetch
  repeat' split
  all_goals simp
@[simp] theorem State.fetch_surfaces (s : State) (t : Timing) (line clock : Nat) : (s.fetch t line clock).surfaces = s.surfaces := by
  unfold State.fetch
  repeat' split
  all_goals simp
@[simp] theorem State.fetch_mem (s : State) (t : Timing) (line clock : Nat) : (s.fetch t line clock).mem = s.mem := by
  unfold State.fetch
  repeat' split
  all_goals simp
@[simp] theorem State.fetch_drawing (s : State) (t : Timing) (line clock : Nat) : (s.fetch t line clock).drawing = s.drawing := by
  unfold State.fetch
  repeat' split
  all_goals simp
@[simp] theorem State.fetch_layouts (s : State) (t : Timing) (line clock : Nat) : (s.fetch t line clock).layouts = s.layouts := by
  unfold State.fetch
  repeat' split
  all_goals simp
@[simp] theorem State.fetch_pins (s : State) (t : Timing) (line clock : Nat) : (s.fetch t line clock).pins = s.pins := by
  unfold State.fetch
  repeat' split
  all_goals simp
@[simp] theorem State.fetch_pending (s : State) (t : Timing) (line clock : Nat) : (s.fetch t line clock).pending = s.pending := by
  unfold State.fetch
  repeat' split
  all_goals simp

/-! State.teardownStart -/

@[simp] theorem State.teardownStart_scan (s : State) (n : Port) (c : ClosingCause) (l : Option (BitVec 32)) : (s.teardownStart n c l).scan = s.scan := by
  unfold State.teardownStart
  repeat' split
  all_goals simp
@[simp] theorem State.teardownStart_pins (s : State) (n : Port) (c : ClosingCause) (l : Option (BitVec 32)) : (s.teardownStart n c l).pins = s.pins := by
  unfold State.teardownStart
  repeat' split
  all_goals simp
@[simp] theorem State.teardownStart_pending (s : State) (n : Port) (c : ClosingCause) (l : Option (BitVec 32)) : (s.teardownStart n c l).pending = s.pending := by
  unfold State.teardownStart
  repeat' split
  all_goals simp

/-! State.teardownFinish -/

@[simp] theorem State.teardownFinish_scan (s : State) (n : Port) : (s.teardownFinish n).scan = s.scan := by
  unfold State.teardownFinish
  simp only
  split <;> simp
@[simp] theorem State.teardownFinish_mem (s : State) (n : Port) : (s.teardownFinish n).mem = s.mem := by
  unfold State.teardownFinish
  simp only
  split <;> simp
@[simp] theorem State.teardownFinish_pins (s : State) (n : Port) : (s.teardownFinish n).pins = s.pins := by
  unfold State.teardownFinish
  simp only
  split <;> simp
@[simp] theorem State.teardownFinish_free (s : State) (n : Port) : (s.teardownFinish n).free = s.free := by
  unfold State.teardownFinish
  simp only
  split <;> simp
@[simp] theorem State.teardownFinish_pending (s : State) (n : Port) : (s.teardownFinish n).pending = s.pending := by
  unfold State.teardownFinish
  simp only
  split <;> simp

end Sys2Proof.Machine
end

