-- ==== Sys2Proof/Laws/Tables.lean ====
section
/-! SUPPORT. The slots of a table in order: which are met, how a sum over them changes with one entry, and the lowest that meets a
condition. -/

namespace Sys2Proof.Machine

/-- Every slot is met. -/
theorem mem_allSlots {n : Nat} (i : Fin n) : i ∈ allSlots n := by
  unfold allSlots
  simp only [List.mem_filterMap]
  exact ⟨i.val, by simp [List.mem_range'], by simp⟩

/-- No slot is met twice. -/
theorem allSlots_nodup (n : Nat) : (allSlots n).Nodup := by
  unfold allSlots List.Nodup
  rw [List.pairwise_filterMap]
  refine List.Pairwise.imp ?_ (List.nodup_range' (s := 0) (n := n))
  intro a b hab x hx y hy
  split at hx <;> simp at hx
  split at hy <;> simp at hy
  subst hx hy
  intro e
  exact hab (congrArg Fin.val e)

/-- A sum over the slots of a table after one entry is replaced. -/
theorem sum_tput {α : Type} {n : Nat} (g : α → Nat) (t : Table α n) (i : Fin n) (a : α) :
    ((allSlots n).map (fun j => g (tget (tput t i a) j))).sum + g (tget t i) =
      ((allSlots n).map (fun j => g (tget t j))).sum + g a := by
  have key : ∀ l : List (Fin n), l.Nodup →
      (i ∉ l → (l.map (fun j => g (tget (tput t i a) j))).sum = (l.map (fun j => g (tget t j))).sum) ∧
      (i ∈ l → (l.map (fun j => g (tget (tput t i a) j))).sum + g (tget t i) = (l.map (fun j => g (tget t j))).sum + g a) := by
    intro l
    induction l with
    | nil => intro _; exact ⟨fun _ => rfl, fun h => by simp at h⟩
    | cons j l ih =>
      intro hn
      have hn := List.nodup_cons.mp hn
      obtain ⟨ih1, ih2⟩ := ih hn.2
      refine ⟨fun h => ?_, fun h => ?_⟩
      · simp only [List.mem_cons, not_or] at h
        simp only [List.map_cons, List.sum_cons, ih1 h.2, tget_tput_ne _ _ _ _ h.1]
      · simp only [List.map_cons, List.sum_cons]
        by_cases e : i = j
        · subst e
          rw [ih1 hn.1, tget_tput_same]; omega
        · have hm : i ∈ l := by simpa [e] using h
          have := ih2 hm
          rw [tget_tput_ne _ _ _ _ e]; omega
  exact (key _ (allSlots_nodup n)).2 (mem_allSlots i)

/-- The slots are met in ascending order. -/
theorem allSlots_ascending (n : Nat) : (allSlots n).Pairwise (· < ·) := by
  unfold allSlots
  rw [List.pairwise_filterMap]
  refine List.Pairwise.imp ?_ (List.pairwise_lt_range' (s := 0) (n := n))
  intro a b hab x hx y hy
  split at hx <;> simp at hx
  split at hy <;> simp at hy
  subst hx hy
  exact hab

/-- The slot found is the lowest that meets the condition. -/
theorem find_allSlots {n : Nat} (p : Fin n → Bool) (i : Fin n) (hi : p i = true) (hj : ∀ j, j < i → p j = false) :
    (allSlots n).find? p = some i := by
  have key : ∀ l : List (Fin n), l.Pairwise (· < ·) → i ∈ l → l.find? p = some i := by
    intro l
    induction l with
    | nil => intro _ h; simp at h
    | cons x l ih =>
      intro hs hm
      have hs := List.pairwise_cons.mp hs
      by_cases e : x = i
      · subst e; simp [hi]
      · have hm' : i ∈ l := by simpa [Ne.symm e] using hm
        rw [List.find?_cons, hj x (hs.1 i hm'), ih hs.2 hm']
  exact key _ (allSlots_ascending n) (mem_allSlots i)

/-- No slot is found when none meets the condition. -/
theorem find_allSlots_none {n : Nat} (p : Fin n → Bool) (h : ∀ j, p j = false) : (allSlots n).find? p = none := by
  rw [List.find?_eq_none]
  intro x _ hx
  rw [h x] at hx
  cases hx

end Sys2Proof.Machine
end

