-- ==== Sys2Proof/Laws/Surfaces.lean ====
section
/-! SUPPORT. The surface manager: which handle names a surface, and what its operations do to the page lists and the list of free
pages. -/

namespace Sys2Proof.Machine

/-- A handle names the surface of its slot field when its generation field is the slot's (R58). -/
theorem Surfaces.named_iff (m : Surfaces) (h : Nat) (i : SurfSlot) (f : Surface) : m.named h = some (i, f) ↔
      h % 64 = i.val ∧ (tget m.slots i).surface = some f ∧ h / 64 = (tget m.slots i).gen := by
  unfold Surfaces.named surfaceSlotOf
  constructor
  · intro hf
    split at hf; cases hf
    rename_i j hj
    split at hj
    · injection hj with hj
      split at hf; cases hf
      split at hf
      · rename_i hg
        injection hf with hf; injection hf with hi hf
        subst hi; subst hj; subst hf
        exact ⟨rfl, by assumption, hg⟩
      · cases hf
    · cases hj
  · rintro ⟨h1, h2, h3⟩
    have : h % 64 < 48 := by have := i.isLt; omega
    rw [dif_pos this]
    have e : (⟨h % 64, this⟩ : SurfSlot) = i := Fin.ext h1
    simp only [e, h2, h3, if_true]

/-- The slot found for a creation is FREE (R62). -/
theorem Surfaces.freeSlot_free (m : Surfaces) (i : SurfSlot) (h : m.freeSlot = some i) : (tget m.slots i).surface = none := by
  unfold Surfaces.freeSlot at h
  have := List.find?_some h
  simpa using this

/-- A surface record without its reference counts. -/
def Surface.bare (f : Surface) : Surface := { f with shownRefs := 0, queuedRefs := 0, jobRefs := 0 }

/-- What the accounts see of the surface manager: all of it but the reference counts. -/
def Surfaces.bareView (m : Surfaces) : (SurfSlot → SurfaceEntry) × List Nat × Table Nat 4 × Table Nat 4 :=
  (fun i => ⟨(tget m.slots i).gen, (tget m.slots i).surface.map Surface.bare⟩, m.freePages, m.pageCount, m.surfCount)

/-- The count of a page in a slot, by the slot's bare record. -/
theorem SurfaceEntry.countPage_bare (e : SurfaceEntry) (p : Nat) :
    e.countPage p = (⟨e.gen, e.surface.map Surface.bare⟩ : SurfaceEntry).countPage p := by
  unfold SurfaceEntry.countPage
  cases e.surface <;> rfl

/-- The same bare view says the same slots but for reference counts, the same free pages and the same counts. -/
theorem Surfaces.bareView_eq {m k : Surfaces} (h : m.bareView = k.bareView) :
    (∀ i, (⟨(tget m.slots i).gen, (tget m.slots i).surface.map Surface.bare⟩ : SurfaceEntry) =
      ⟨(tget k.slots i).gen, (tget k.slots i).surface.map Surface.bare⟩) ∧
    m.freePages = k.freePages ∧ m.pageCount = k.pageCount ∧ m.surfCount = k.surfCount :=
  ⟨congrFun (congrArg Prod.fst h), congrArg (fun v => v.2.1) h, congrArg (fun v => v.2.2.1) h, congrArg (fun v => v.2.2.2) h⟩

/-- The accounts of pages do not depend on reference counts. -/
theorem Surfaces.pagesSound_congr {m k : Surfaces} (h : m.bareView = k.bareView) (hk : k.pagesSound) : m.pagesSound := by
  obtain ⟨h1, h2, _, _⟩ := Surfaces.bareView_eq h
  unfold Surfaces.pagesSound at hk ⊢
  have counts : ∀ i p, (tget m.slots i).countPage p = (tget k.slots i).countPage p := fun i p => by
    rw [SurfaceEntry.countPage_bare, h1 i, ← SurfaceEntry.countPage_bare]
  simp only [counts, h2]
  exact hk

/-- A change of a surface's reference counts keeps the view. -/
theorem Surfaces.mapSurface_view (m : Surfaces) (i : SurfSlot) (f : Surface → Surface) (hf : ∀ s, (f s).bare = s.bare) :
    (m.mapSurface i f).bareView = m.bareView := by
  unfold Surfaces.bareView
  refine Prod.ext ?_ rfl
  funext j
  simp only [Surfaces.mapSurface, tget_tmod]
  split
  · cases h : (tget m.slots j).surface <;> simp [h, hf]
  · rfl

/-- The same through a handle. -/
theorem Surfaces.mapHandle_view (m : Surfaces) (h : Nat) (f : Surface → Surface) (hf : ∀ s, (f s).bare = s.bare) :
    (m.mapHandle h f).bareView = m.bareView := by
  unfold Surfaces.mapHandle; split
  · rfl
  · exact Surfaces.mapSurface_view _ _ _ hf

/-- The same through a window's source. -/
theorem Surfaces.mapSource_view (m : Surfaces) (d) (f : Surface → Surface) (hf : ∀ s, (f s).bare = s.bare) :
    (m.mapSource d f).bareView = m.bareView := by
  unfold Surfaces.mapSource; split
  · rfl
  · exact Surfaces.mapHandle_view _ _ _ hf

/-- The same through a job's surfaces. -/
theorem Surfaces.mapJob_view (m : Surfaces) (d) (f : Surface → Surface) (hf : ∀ s, (f s).bare = s.bare) :
    (m.mapJob d f).bareView = m.bareView := by
  unfold Surfaces.mapJob; split
  · rw [Surfaces.mapHandle_view _ _ _ hf, Surfaces.mapHandle_view _ _ _ hf]
  all_goals exact Surfaces.mapHandle_view _ _ _ hf

/-- The same through the surfaces a commit's operations name. -/
theorem Surfaces.mapQueued_view (m : Surfaces) (d) (f : Surface → Surface) (hf : ∀ s, (f s).bare = s.bare) :
    (m.mapQueued d f).bareView = m.bareView :=
  foldl_same Surfaces.bareView _ (fun m h => Surfaces.mapHandle_view m h f hf) _ _

/-- Removing the references of jobs keeps the view. -/
theorem Surfaces.dropJobs_view (m : Surfaces) (d) : (m.dropJobs d).bareView = m.bareView :=
  foldl_same Surfaces.bareView _ (fun m j => Surfaces.mapJob_view m j Surface.lowerJobs (fun _ => rfl)) _ _

/-- A page returned is counted once more. -/
theorem insertPage_count (p : Nat) (l : List Nat) (q : Nat) : (insertPage p l).count q = (p :: l).count q := by
  induction l with
  | nil => rfl
  | cons x l ih =>
    unfold insertPage; split
    · rfl
    · simp only [List.count_cons, ih]; omega

/-- A page of the list after one is returned was there or is the one. -/
theorem insertPage_mem (p : Nat) (l : List Nat) (q : Nat) (h : q ∈ insertPage p l) : q = p ∨ q ∈ l := by
  have := insertPage_count p l q
  have h' := List.count_pos_iff.mpr h
  rw [this] at h'
  have := List.count_pos_iff.mp h'
  simpa using this

/-- Returning a page keeps the list of free pages ascending. -/
theorem insertPage_sorted (p : Nat) (l : List Nat) (h : l.Pairwise (· ≤ ·)) : (insertPage p l).Pairwise (· ≤ ·) := by
  induction l with
  | nil => simp [insertPage]
  | cons x l ih =>
    have hx := List.pairwise_cons.mp h
    unfold insertPage; split
    · rename_i hp
      refine List.pairwise_cons.mpr ⟨?_, h⟩
      intro y hy
      rcases List.mem_cons.mp hy with rfl | hy
      · exact hp
      · exact Nat.le_trans hp (hx.1 _ hy)
    · rename_i hp
      refine List.pairwise_cons.mpr ⟨?_, ih hx.2⟩
      intro y hy
      rcases insertPage_mem _ _ _ hy with rfl | hy
      · omega
      · exact hx.1 _ hy

/-- Pages returned are counted once more each. -/
theorem insertPages_count (ps l : List Nat) (q : Nat) : (ps.foldr insertPage l).count q = ps.count q + l.count q := by
  induction ps with
  | nil => simp
  | cons p ps ih => simp only [List.foldr_cons, insertPage_count, List.count_cons, ih]; omega

/-- Returning pages keeps the list of free pages ascending. -/
theorem insertPages_sorted (ps l : List Nat) (h : l.Pairwise (· ≤ ·)) : (ps.foldr insertPage l).Pairwise (· ≤ ·) := by
  induction ps with
  | nil => exact h
  | cons p ps ih => exact insertPage_sorted _ _ ih

/-- Destroying a surface keeps the accounts of pages (R70). -/
theorem Surfaces.free_sound (m : Surfaces) (i : SurfSlot) (h : m.pagesSound) : (m.free i).pagesSound := by
  unfold Surfaces.free; split
  · exact h
  · rename_i f hf
    refine ⟨fun p => ?_, insertPages_sorted _ _ h.2⟩
    have h1 := h.1 p
    have h2 := sum_tput (fun e : SurfaceEntry => e.countPage p) m.slots i ⟨nextGeneration Config.surfaceGenerations (tget m.slots i).gen, none⟩
    have h3 : (tget m.slots i).countPage p = f.pageList.count p := by unfold SurfaceEntry.countPage; rw [hf]
    simp only [insertPages_count]
    simp only [h3] at h2
    simp only [SurfaceEntry.countPage] at h1 h2 ⊢
    omega

/-- Creating a surface keeps the accounts of pages (R62). -/
theorem Surfaces.create_sound (m : Surfaces) (n : Port) (i : SurfSlot) (q : SurfaceRequest) (hi : m.freeSlot = some i)
    (h : m.pagesSound) : (m.create n i q).pagesSound := by
  have hi := Surfaces.freeSlot_free m i hi
  refine ⟨fun p => ?_, ?_⟩
  · have h1 := h.1 p
    have h2 := sum_tput (fun e : SurfaceEntry => e.countPage p) m.slots i { tget m.slots i with surface := some (newSurface m n q) }
    have h3 : (tget m.slots i).countPage p = 0 := by unfold SurfaceEntry.countPage; rw [hi]
    have h4 : ({ tget m.slots i with surface := some (newSurface m n q) } : SurfaceEntry).countPage p =
       (m.freePages.take (pagesOf q.width q.height q.format)).count p := rfl
    have h5 : (m.freePages.take (pagesOf q.width q.height q.format)).count p + (m.freePages.drop (pagesOf q.width q.height q.format)).count p = m.freePages.count p := by
      rw [← List.count_append, List.take_append_drop]
    simp only [h3, h4] at h2
    simp only [Surfaces.create, tmod]
    omega
  · exact h.2.sublist (List.drop_sublist _ _)

/-- Destroying all surfaces of a port keeps the accounts of pages (R71). -/
theorem Surfaces.freeOwned_sound (m : Surfaces) (n : Port) (h : m.pagesSound) : (m.freeOwned n).pagesSound := by
  unfold Surfaces.freeOwned
  have := foldl_keeps (fun m : Surfaces => m.pagesSound)
    (fun m i => if (tget m.slots i).surface.any (fun f => f.owner = n) then m.free i else m)
    (fun m i h => by split; exact Surfaces.free_sound _ _ h; exact h) (allSlots 48) m h
  exact Surfaces.pagesSound_congr rfl this

/-- An operation applied keeps the view. -/
theorem State.applyChange_view (s : State) (op w) : (s.applyChange op w).surfaces.bareView = s.surfaces.bareView := by
  simp only [State.applyChange, State.withLayouts_surfaces, State.withSurfaces_surfaces, Surfaces.moveShown]
  rw [Surfaces.mapSource_view _ _ Surface.lowerShown (fun _ => rfl), Surfaces.mapSource_view _ _ Surface.raiseShown (fun _ => rfl)]

/-- Freeing a window keeps the view. -/
theorem State.freeWindow_view (s : State) (w) : (s.freeWindow w).surfaces.bareView = s.surfaces.bareView := by
  unfold State.freeWindow; split
  · rfl
  · exact Surfaces.mapSource_view _ _ _ (fun _ => rfl)

/-- An operation of a commit applied keeps the view. -/
theorem State.applyOp_view (s : State) (op) : (s.applyOp op).surfaces.bareView = s.surfaces.bareView := by
  unfold State.applyOp; split
  · rfl
  · split
    · exact State.freeWindow_view _ _
    · exact State.applyChange_view _ _ _

end Sys2Proof.Machine
end

