-- ==== Sys2Proof/Laws/Windows.lean ====
section
/-! SUPPORT. Layouts: which slots hold a record, what a layout costs, and what the band lists hold, after each operation on a layout. -/

namespace Sys2Proof.Machine

/-! ### Which slots hold a record -/

/-- Whether a slot holds a record in the layout. -/
def Layout.occ (l : Layout) : WinSlot → Bool := fun v => (l.record v).isSome

/-- Layouts with records in the same slots lack them in the same slots. -/
theorem Layout.occ_eq {l k : Layout} (h : l.occ = k.occ) (w : WinSlot) : l.record w = none ↔ k.record w = none := by
  have := congrFun h w
  unfold Layout.occ at this
  cases h1 : l.record w <;> cases h2 : k.record w <;> simp_all

/-- A record changed stays. -/
theorem Layout.mapRecord_occ (l : Layout) (w) (f) : (l.mapRecord w f).occ = l.occ := by
  funext v
  simp only [Layout.occ, Layout.record, Layout.mapRecord, tget_tmod]
  split <;> simp

/-- Moving a window keeps the records. -/
theorem Layout.moveToTop_occ (l : Layout) (w) (k) : (l.moveToTop w k).occ = l.occ := Layout.mapRecord_occ l w _

/-- Inserting a RESERVED window keeps the records. -/
theorem Layout.stackIfReserved_occ (l : Layout) (w) : (l.stackIfReserved w).occ = l.occ := by
  unfold Layout.stackIfReserved; split
  · exact Layout.moveToTop_occ _ _ _
  · rfl

/-- Withdrawing a window keeps the records. -/
theorem Layout.withdraw_occ (l : Layout) (w) : (l.withdraw w).occ = l.occ := Layout.mapRecord_occ l w _

/-- Restacking keeps the records. -/
theorem Layout.restack_occ (l : Layout) (w m r) : (l.restack w m r).occ = l.occ := by
  unfold Layout.restack; split <;> rfl

/-- No operation takes a record from the trial layout. -/
theorem Op.carryOut_occ (op : Op) (m w) (l : Layout) : (op.carryOut m w l).occ = l.occ := by
  cases op <;> simp only [Op.carryOut]
  case band => split <;> simp [Layout.moveToTop_occ, Layout.stackIfReserved_occ]
  case restack => split <;> simp [Layout.restack_occ, Layout.stackIfReserved_occ]
  case destroy => exact Layout.withdraw_occ _ _
  all_goals simp [Layout.mapRecord_occ, Layout.stackIfReserved_occ]

/-- A freed window's record ceases to exist (R103). -/
theorem Layout.forget_record (l : Layout) (w v) : (l.forget w).record v = if w = v then none else l.record v := by
  simp [Layout.forget, Layout.record, tget_tput]

/-- Withdrawing a port's windows keeps the records. -/
theorem Layout.withdrawOwned_occ (l : Layout) (o n) : (l.withdrawOwned o n).occ = l.occ :=
  foldl_same Layout.occ _ (fun l w => by split; exact Layout.withdraw_occ _ _; rfl) _ _

/-- A commit's operations leave the records where they are. -/
theorem LayoutController.tryOps_occ (c : LayoutController) (m : Surfaces) (n : Port) (bs) : ∀ i l l' ops, c.tryOps m n i bs l = .ok (l', ops) → l'.occ = l.occ := by
  induction bs with
  | nil => intro i l l' ops h; unfold LayoutController.tryOps at h; injection h with h; injection h with h _; rw [h]
  | cons b bs ih =>
    intro i l l' ops h
    unfold LayoutController.tryOps at h
    split at h
    · cases h
    · rename_i op _
      split at h
      · cases h
      · rename_i l1 e
        have e1 : l1.occ = l.occ := by
          unfold LayoutController.tryOp at e
          split at e
          · cases e
          · split at e
            · cases e
            · injection e with e; rw [← e]; exact Op.carryOut_occ _ _ _ _
        split at h
        · cases h
        · rename_i l2 ops2 e2
          injection h with h; injection h with h _
          rw [← h, ih _ _ _ _ e2, e1]

/-! ### Costs and load tables -/

/-- A record gone, unchanged, or not STACKED costs no more. -/
theorem Layout.slotCost_le_of (l k : Layout) (h y : Nat) (w) (e : l.record w = none ∨ l.record w = k.record w ∨ ∃ r, l.record w = some r ∧ r.state ≠ .stacked) :
   l.slotCost h y w ≤ k.slotCost h y w := by
  unfold Layout.slotCost
  rcases e with e | e | ⟨r, e, hr⟩
  · rw [e]; exact Nat.zero_le _
  · exact Nat.le_of_eq (by rw [e])
  · rw [e]
    have : r.cost h y = 0 := by unfold WindowRec.cost; split; rfl; simp [hr]
    simp only [this]; exact Nat.zero_le _

/-- A sum of lesser terms is no greater. -/
theorem sum_map_le {α} (l : List α) (f g : α → Nat) (h : ∀ a, f a ≤ g a) : (l.map f).sum ≤ (l.map g).sum := by
  induction l with
  | nil => simp
  | cons a l ih => simp only [List.map_cons, List.sum_cons]; have := h a; omega

/-- A layout that costs no more, window by window, stays within the same bound on every line. -/
theorem loadTable_le (t : Option Timing) (l k : Layout) (b : Nat) (h : ∀ h y w, l.slotCost h y w ≤ k.slotCost h y w) (hb : ∀ x ∈ loadTable t k, x ≤ b) :
    ∀ x ∈ loadTable t l, x ≤ b := by
  unfold loadTable at *
  cases t with
  | none => simp
  | some t =>
    intro x hx
    simp only [List.mem_map] at hx hb
    obtain ⟨y, hy, rfl⟩ := hx
    exact Nat.le_trans (sum_map_le _ _ _ (h _ _)) (hb _ ⟨y, hy, rfl⟩)

/-- Withdrawing a window raises no cost. -/
theorem Layout.withdraw_cost (l : Layout) (w) (h y v) : (l.withdraw w).slotCost h y v ≤ l.slotCost h y v := by
  apply Layout.slotCost_le_of
  show tget (tmod l.recs w _) v = none ∨ tget (tmod l.recs w _) v = _ ∨ ∃ r, tget (tmod l.recs w _) v = _ ∧ _
  rw [tget_tmod]
  split
  · rename_i e; subst e
    cases e : tget l.recs w
    · exact Or.inl rfl
    · exact Or.inr (Or.inr ⟨_, rfl, by simp⟩)
  · exact Or.inr (Or.inl rfl)

/-- Freeing a window raises no cost. -/
theorem Layout.forget_cost (l : Layout) (w) (h y v) : (l.forget w).slotCost h y v ≤ l.slotCost h y v := by
  apply Layout.slotCost_le_of
  rw [Layout.forget_record]
  split
  · exact Or.inl rfl
  · exact Or.inr (Or.inl rfl)

/-- Withdrawing a port's windows raises no cost. -/
theorem Layout.withdrawOwned_cost (l : Layout) (o n) (h y v) : (l.withdrawOwned o n).slotCost h y v ≤ l.slotCost h y v :=
  foldl_keeps (fun k : Layout => k.slotCost h y v ≤ l.slotCost h y v) _ (fun k w hk => by
    split; exact Nat.le_trans (Layout.withdraw_cost k w h y v) hk; exact hk) _ _ (Nat.le_refl _)

/-- With no line found over the budget, every line is within it (R122). -/
theorem firstOver_none (b : Nat) : ∀ (l : List Nat) i, firstOver b i l = none → ∀ x ∈ l, x ≤ b := by
  intro l
  induction l with
  | nil => intro i h x hx; simp at hx
  | cons a l ih =>
    intro i h x hx
    unfold firstOver at h
    split at h
    · cases h
    · rcases List.mem_cons.mp hx with rfl | hx
      · omega
      · exact ih _ h x hx

/-- A layout without records costs nothing. -/
theorem Layout.lineLoad_zero (l : Layout) (h y : Nat) (hl : ∀ w, l.record w = none) : l.lineLoad h y = 0 := by
  unfold Layout.lineLoad
  induction (allSlots 24) with
  | nil => rfl
  | cons a k ih => simp only [List.map_cons, List.sum_cons, ih]; simp [Layout.slotCost, hl]

/-- The load table of a layout without records is zero on every line (R39). -/
theorem loadTable_empty (l : Layout) (t : Timing) (hl : ∀ w, l.record w = none) : loadTable (some t) l = List.replicate t.vactive 0 := by
  unfold loadTable
  simp only [List.eq_replicate_iff]
  refine ⟨by simp, ?_⟩
  intro b hb
  simp only [List.mem_map] at hb
  obtain ⟨y, _, rfl⟩ := hb
  exact Layout.lineLoad_zero _ _ _ hl

/-- Layouts of the same costs have the same load table. -/
theorem loadTable_congr (t) (l k : Layout) (h : ∀ h y w, l.slotCost h y w = k.slotCost h y w) : loadTable t l = loadTable t k := by
  unfold loadTable; split
  · rfl
  · unfold Layout.lineLoad; simp only [funext (h _ _)]

/-! ### Band lists -/

/-- The lists after one is replaced. -/
theorem Bands.list_setList (b : Bands) (k j : Band) (ws : List WinSlot) : (b.setList k ws).list j = if k = j then ws else b.list j := by
  cases k <;> cases j <;> rfl

/-- The lists after a window is deleted. -/
theorem Bands.list_remove (b : Bands) (w) (k) : (b.remove w).list k = (b.list k).filter (· != w) := by cases k <;> rfl

/-- The records after one is changed. -/
theorem Layout.record_mapRecord (l : Layout) (w v f) : (l.mapRecord w f).record v = if w = v then (l.record v).map f else l.record v := by
  simp only [Layout.record, Layout.mapRecord, tget_tmod]

/-- Changing what is neither state nor band keeps the band lists right. -/
theorem Layout.mapRecord_stack (l : Layout) (w f) (hf : ∀ r : WindowRec, (f r).state = r.state ∧ (f r).band = r.band) (h : l.stackSound) : (l.mapRecord w f).stackSound := by
  intro k
  refine ⟨(h k).1, fun v => ?_⟩
  rw [show (l.mapRecord w f).bands = l.bands from rfl, (h k).2 v, Layout.record_mapRecord]
  split
  · constructor
    · rintro ⟨r, hr, h1, h2⟩; exact ⟨f r, by simp [hr], by simp [hf, h1], by simp [hf, h2]⟩
    · rintro ⟨r, hr, h1, h2⟩
      cases e : l.record v with
      | none => simp [e] at hr
      | some q => simp [e] at hr; subst hr; exact ⟨q, rfl, by rw [← (hf q).1]; exact h1, by rw [← (hf q).2]; exact h2⟩
  · rfl

/-- Moving a window to the top of a band keeps the band lists right. -/
theorem Layout.moveToTop_stack (l : Layout) (w k) (h : l.stackSound) (hw : (l.record w).isSome) : (l.moveToTop w k).stackSound := by
  intro j
  have e : (l.moveToTop w k).bands.list j = if k = j then (l.bands.list k).filter (· != w) ++ [w] else (l.bands.list j).filter (· != w) := by
    simp only [Layout.moveToTop, Bands.list_setList, Bands.list_remove]
  have hr : ∀ v, (l.moveToTop w k).record v = if w = v then (l.record v).map (fun r => { r with state := .stacked, band := k }) else l.record v :=
    fun v => Layout.record_mapRecord l w v _
  rw [e]
  refine ⟨?_, fun v => ?_⟩
  · split
    · rw [List.nodup_append]
      exact ⟨(h k).1.filter _, by simp, by intro a ha b hb; simp at ha hb; subst hb; exact ha.2⟩
    · exact (h j).1.filter _
  · rw [hr]
    obtain ⟨q, hq⟩ := Option.isSome_iff_exists.mp hw
    by_cases ev : w = v
    · subst ev
      simp only [if_true, hq, Option.map_some, Option.some.injEq]
      split
      · rename_i ek; subst ek; simp
      · rename_i ek
        simp
        intro hh; exact ek hh
    · have ev' : v ≠ w := fun e => ev e.symm
      simp only [if_neg ev]
      split
      · rename_i ek; subst ek
        simp [ev', ← (h k).2 v]
      · simp [ev', ← (h j).2 v]

/-- Withdrawing a window keeps the band lists right. -/
theorem Layout.withdraw_stack (l : Layout) (w) (h : l.stackSound) : (l.withdraw w).stackSound := by
  intro k
  have hr : ∀ v, (l.withdraw w).record v = if w = v then (l.record v).map (fun r => { r with state := .withdrawn }) else l.record v :=
    fun v => Layout.record_mapRecord l w v _
  rw [show (l.withdraw w).bands.list k = (l.bands.list k).filter (· != w) from Bands.list_remove _ _ _]
  refine ⟨(h k).1.filter _, fun v => ?_⟩
  rw [hr]
  by_cases ev : w = v
  · subst ev
    cases l.record w <;> simp
  · have ev' : v ≠ w := fun e => ev e.symm
    simp [ev, ev', ← (h k).2 v]

/-- Freeing a window keeps the band lists right. -/
theorem Layout.forget_stack (l : Layout) (w) (h : l.stackSound) : (l.forget w).stackSound := by
  intro k
  have hr : ∀ v, (l.forget w).record v = if w = v then none else l.record v := by
    intro v; simp [Layout.forget, Layout.record, tget_tput]
  rw [show (l.forget w).bands.list k = (l.bands.list k).filter (· != w) from Bands.list_remove _ _ _]
  refine ⟨(h k).1.filter _, fun v => ?_⟩
  rw [hr]
  by_cases ev : w = v
  · subst ev; simp
  · have ev' : v ≠ w := fun e => ev e.symm
    simp [ev, ev', ← (h k).2 v]

/-- Insertion above a window adds the one. -/
theorem insertAbove_perm (r w : WinSlot) (l : List WinSlot) : (insertAbove r w l).Perm (w :: l) := by
  induction l with
  | nil => exact List.Perm.refl _
  | cons x l ih =>
    unfold insertAbove; split
    · exact List.Perm.swap _ _ _
    · exact (List.Perm.cons x ih).trans (List.Perm.swap _ _ _)

/-- Insertion below a window adds the one. -/
theorem insertBelow_perm (r w : WinSlot) (l : List WinSlot) : (insertBelow r w l).Perm (w :: l) := by
  induction l with
  | nil => exact List.Perm.refl _
  | cons x l ih =>
    unfold insertBelow; split
    · exact List.Perm.refl _
    · exact (List.Perm.cons x ih).trans (List.Perm.swap _ _ _)

/-- Restacking rearranges a list that holds the window once. -/
theorem restackList_perm (m ref) (w : WinSlot) (l : List WinSlot) (hn : l.Nodup) (hw : w ∈ l) : (restackList m ref w l).Perm l := by
  have base : (w :: l.filter (· != w)).Perm l := by
    have : l.filter (· != w) = l.erase w := (hn.erase_eq_filter w).symm
    rw [this]; exact (List.perm_cons_erase hw).symm
  unfold restackList; split
  · exact (List.perm_append_comm).trans base
  · exact base
  · exact (insertAbove_perm _ _ _).trans base
  · exact (insertBelow_perm _ _ _).trans base
  · exact List.Perm.refl _
  · exact List.Perm.refl _

/-- Restacking rearranges the window's band and leaves the others. -/
theorem Layout.restack_lists (l : Layout) (w m ref) (h : l.stackSound) (hw : ∃ r, l.record w = some r ∧ r.state = .stacked) :
    ∀ j, ((l.restack w m ref).bands.list j).Perm (l.bands.list j) := by
  obtain ⟨r, hr, hs⟩ := hw
  have hm : w ∈ l.bands.list r.band := ((h r.band).2 w).mpr ⟨r, hr, hs, rfl⟩
  intro j
  simp only [Layout.restack, hr, Bands.list_setList]
  split
  · rename_i e; subst e; exact restackList_perm _ _ _ _ (h _).1 hm
  · exact List.Perm.refl _

/-- Restacking changes no record. -/
theorem Layout.restack_record (l : Layout) (w m ref v) : (l.restack w m ref).record v = l.record v := by
  unfold Layout.restack; split <;> rfl

/-- Restacking keeps the band lists right. -/
theorem Layout.restack_stack (l : Layout) (w m ref) (h : l.stackSound) (hw : ∃ r, l.record w = some r ∧ r.state = .stacked) : (l.restack w m ref).stackSound := by
  intro k
  have hp := Layout.restack_lists l w m ref h hw k
  refine ⟨hp.nodup_iff.mpr (h k).1, fun v => ?_⟩
  rw [hp.mem_iff, (h k).2 v, Layout.restack_record]

/-- Inserting a RESERVED window keeps the band lists right. -/
theorem Layout.stackIfReserved_stack (l : Layout) (w) (h : l.stackSound) : (l.stackIfReserved w).stackSound := by
  unfold Layout.stackIfReserved; split
  · rename_i e
    refine Layout.moveToTop_stack l w _ h ?_
    cases e2 : l.record w <;> simp_all
  · exact h

/-- After the insertion a window that is not WITHDRAWN is STACKED. -/
theorem Layout.stackIfReserved_stacked (l : Layout) (w) (r) (hr : l.record w = some r) (hs : r.state ≠ .withdrawn) :
   ∃ q, (l.stackIfReserved w).record w = some q ∧ q.state = .stacked := by
  unfold Layout.stackIfReserved
  split
  · have := Layout.record_mapRecord l w w (fun r => { r with state := .stacked, band := .main })
    refine ⟨{ r with state := .stacked, band := .main }, ?_, rfl⟩
    show (l.mapRecord w _).record w = _
    rw [this]; simp [hr]
  · rename_i e
    simp [hr] at e
    refine ⟨r, hr, ?_⟩
    cases h : r.state <;> simp_all

/-- An operation on a window that is not WITHDRAWN keeps the band lists right. -/
theorem Op.carryOut_stack (op : Op) (m w) (l : Layout) (h : l.stackSound) (r) (hr : l.record w = some r) (hs : r.state ≠ .withdrawn) : (op.carryOut m w l).stackSound := by
  have h1 := Layout.stackIfReserved_stack l w h
  obtain ⟨q, hq, hqs⟩ := Layout.stackIfReserved_stacked l w r hr hs
  cases op <;> simp only [Op.carryOut]
  case band =>
    split
    · exact Layout.moveToTop_stack _ _ _ h1 (by rw [hq]; rfl)
    · exact h1
  case restack =>
    split
    · exact Layout.restack_stack _ _ _ _ h1 ⟨q, hq, hqs⟩
    · exact h1
  case destroy => exact Layout.withdraw_stack _ _ h
  case touch => exact h1
  all_goals exact Layout.mapRecord_stack _ _ _ (fun r => ⟨rfl, rfl⟩) h1

/-- Withdrawing a port's windows keeps the band lists right. -/
theorem Layout.withdrawOwned_stack (l : Layout) (o n) (h : l.stackSound) : (l.withdrawOwned o n).stackSound :=
  foldl_keeps Layout.stackSound _ (fun k w hk => by split; exact Layout.withdraw_stack _ _ hk; exact hk) _ _ h

/-! ### Band ALERT -/

/-- Band ALERT of a layout holds at most one window, of the port that holds the token. -/
def LayoutController.alertOk (c : LayoutController) (l : Layout) : Prop :=
  l.bands.alert.length ≤ 1 ∧ ∀ w ∈ l.bands.alert, ∃ n, tget c.owners w = some n ∧ c.holder = some n

/-- A smaller band ALERT stays right. -/
theorem LayoutController.alertOk_sub {c : LayoutController} {l k : Layout} (h : LayoutController.alertOk c k) (hs : l.bands.alert.Sublist k.bands.alert) : LayoutController.alertOk c l :=
  ⟨Nat.le_trans hs.length_le h.1, fun w hw => h.2 w (hs.subset hw)⟩

/-- Inserting a RESERVED window adds nothing to band ALERT. -/
theorem Layout.stackIfReserved_alert (l : Layout) (w) : (l.stackIfReserved w).bands.alert.Sublist l.bands.alert := by
  unfold Layout.stackIfReserved; split
  · show (((l.bands.remove w).setList .main _).alert).Sublist _
    exact List.filter_sublist
  · exact List.Sublist.refl _

/-- An operation that passes its checks keeps band ALERT right (R119). -/
theorem Op.carryOut_alert (op : Op) (c : LayoutController) (m w) (l : Layout) (n : Port) (h : l.stackSound) (r) (hr : l.record w = some r) (hs : r.state ≠ .withdrawn)
   (ho : tget c.owners w = some n) (hop : op.refusedBy c m n l w r = none) (ha : LayoutController.alertOk c l) : LayoutController.alertOk c (op.carryOut m w l) := by
  have h1 := Layout.stackIfReserved_stack l w h
  have ha1 := LayoutController.alertOk_sub ha (Layout.stackIfReserved_alert l w)
  obtain ⟨q, hq, hqs⟩ := Layout.stackIfReserved_stacked l w r hr hs
  cases op <;> simp only [Op.carryOut]
  case band _ code =>
    simp only [Op.refusedBy] at hop
    split
    · rename_i k hk
      rw [hk] at hop
      cases k
      case alert =>
        simp only at hop
        split at hop
        · cases hop
        · rename_i hh
          split at hop
          · cases hop
          · rename_i hx
            have hemp : (l.stackIfReserved w).bands.alert.filter (· != w) = [] := by
              rw [List.filter_eq_nil_iff]
              intro a ha'
              have := (Layout.stackIfReserved_alert l w).subset ha'
              simp at hx
              simpa using hx a this
            refine ⟨?_, ?_⟩
            · show (((l.stackIfReserved w).bands.alert.filter (· != w)) ++ [w]).length ≤ 1
              rw [hemp]; simp
            · intro v hv
              have : v ∈ ((l.stackIfReserved w).bands.alert.filter (· != w)) ++ [w] := hv
              rw [hemp] at this; simp at this; subst this
              exact ⟨n, ho, by simpa using hh⟩
      all_goals exact LayoutController.alertOk_sub ha1 List.filter_sublist
    · exact ha1
  case restack =>
    split
    · have hp := Layout.restack_lists _ w ‹_› (windowSlotOf ‹_›) h1 ⟨q, hq, hqs⟩ .alert
      exact ⟨by have := hp.length_eq; show List.length (Bands.list _ .alert) ≤ 1; rw [this]; exact ha1.1, fun v hv => ha1.2 v (hp.mem_iff.mp hv)⟩
    · exact ha1
  case destroy => exact LayoutController.alertOk_sub ha List.filter_sublist
  case touch => exact ha1
  all_goals exact ha1

/-- A commit's operations keep the band lists and band ALERT right. -/
theorem LayoutController.tryOps_stack (c : LayoutController) (m : Surfaces) (n : Port) (bs) : ∀ i l l' ops, c.tryOps m n i bs l = .ok (l', ops) →
    l.stackSound → LayoutController.alertOk c l → l'.stackSound ∧ LayoutController.alertOk c l' := by
  induction bs with
  | nil => intro i l l' ops h; unfold LayoutController.tryOps at h; injection h with h; injection h with h _; rw [h]; exact fun a b => ⟨a, b⟩
  | cons b bs ih =>
    intro i l l' ops h hs ha
    unfold LayoutController.tryOps at h
    split at h
    · cases h
    · rename_i op _
      split at h
      · cases h
      · rename_i l1 e
        have e1 : l1.stackSound ∧ LayoutController.alertOk c l1 := by
          unfold LayoutController.tryOp at e
          split at e
          · cases e
          · rename_i w r hres
            split at e
            · cases e
            · rename_i hop
              injection e with e; rw [← e]
              unfold LayoutController.resolveIn at hres
              split at hres
              · cases hres
              · rename_i w' o hnamed
                split at hres
                · cases hres
                · rename_i r' hr'
                  split at hres
                  · cases hres
                  · rename_i hne
                    split at hres
                    · rename_i ho
                      injection hres with hres; injection hres with e1 e2; subst e1 e2 ho
                      have how : tget c.owners w' = some o := by
                        unfold LayoutController.named at hnamed
                        split at hnamed
                        · cases hnamed
                        · split at hnamed
                          · cases hnamed
                          · rename_i ho
                            split at hnamed
                            · injection hnamed with hnamed; injection hnamed with a b; subst a b; exact ho
                            · cases hnamed
                      exact ⟨Op.carryOut_stack op m _ l hs r' hr' hne, Op.carryOut_alert op c m _ l o hs r' hr' hne how hop ha⟩
                    · cases hres
        split at h
        · cases h
        · rename_i l2 ops2 e2
          injection h with h; injection h with h _
          rw [← h]; exact ih _ _ _ _ e2 e1.1 e1.2

/-- What the treatment of an element establishes and that of no other destroys holds at the end. -/
theorem foldl_last {α β : Type} (P : α → β → Prop) (f : α → β → α) (hk : ∀ a b c, P a b → P (f a c) b) (hb : ∀ a b, P (f a b) b) (l : List β) :
    ∀ a b, b ∈ l → P (l.foldl f a) b := by
  induction l with
  | nil => intro a b h; cases h
  | cons c l ih =>
    intro a b h
    rcases List.mem_cons.mp h with rfl | h
    · exact foldl_keeps (fun a => P a b) f (fun a c h => hk a b c h) l _ (hb a b)
    · exact ih _ _ h

/-- After withdrawing a port's windows band ALERT holds none of them and no other window anew. -/
theorem Layout.withdrawOwned_alert (l : Layout) (o : Table (Option Port) 24) (n : Port) : ∀ v ∈ (l.withdrawOwned o n).bands.alert, v ∈ l.bands.alert ∧ tget o v ≠ some n := by
  intro v hv
  have sub : (l.withdrawOwned o n).bands.alert.Sublist l.bands.alert :=
    foldl_keeps (fun k : Layout => k.bands.alert.Sublist l.bands.alert) _ (fun k w hk => by
      split; exact (List.filter_sublist).trans hk; exact hk) _ _ (List.Sublist.refl _)
  refine ⟨sub.subset hv, fun hn => ?_⟩
  have := foldl_last (fun (k : Layout) (w : WinSlot) => tget o w = some n → w ∉ k.bands.alert)
    (fun l w => if tget o w = some n then l.withdraw w else l)
    (fun k b c h hb => by
      split
      · intro hm; exact h hb (List.mem_filter.mp hm).1
      · exact h hb)
    (fun k b hb => by
      rw [if_pos hb]; intro hm
      have := (List.mem_filter.mp hm).2
      simp at this) (allSlots 24) l v (mem_allSlots v) hn
  exact this hv

/-- Withdrawing windows does not lengthen band ALERT. -/
theorem Layout.withdrawOwned_alertLength (l : Layout) (o : Table (Option Port) 24) (n : Port) : (l.withdrawOwned o n).bands.alert.length ≤ l.bands.alert.length :=
   foldl_keeps (fun k : Layout => k.bands.alert.length ≤ l.bands.alert.length) _ (fun k w hk => by
      split; exact Nat.le_trans (List.length_filter_le _ _) hk; exact hk) _ _ (Nat.le_refl _)

/-- A record changed neither comes nor goes. -/
theorem Layout.mapRecord_none (l : Layout) (w v f) : (l.mapRecord w f).record v = none ↔ l.record v = none := by
  rw [Layout.record_mapRecord]; split <;> simp

/-- An operation neither brings nor takes a record. -/
theorem Op.carryOut_none (op : Op) (m w v) (l : Layout) : (op.carryOut m w l).record v = none ↔ l.record v = none := by
  have h0 : (l.stackIfReserved w).record v = none ↔ l.record v = none := by
    unfold Layout.stackIfReserved; split
    · exact Layout.mapRecord_none l w v _
    · rfl
  cases op <;> simp only [Op.carryOut]
  case band => split; exact (Layout.mapRecord_none _ w v _).trans h0; exact h0
  case restack => split; rw [Layout.restack_record]; exact h0; exact h0
  case destroy => exact Layout.mapRecord_none l w v _
  case touch => exact h0
  all_goals exact (Layout.mapRecord_none _ w v _).trans h0

/-- A commit's operations neither bring nor take a record. -/
theorem LayoutController.tryOps_none (c : LayoutController) (m : Surfaces) (n : Port) (bs) (v) : ∀ i l l' ops, c.tryOps m n i bs l = .ok (l', ops) → (l'.record v = none ↔ l.record v = none) := by
  induction bs with
  | nil => intro i l l' ops h; unfold LayoutController.tryOps at h; injection h with h; injection h with h _; rw [h]
  | cons b bs ih =>
    intro i l l' ops h
    unfold LayoutController.tryOps at h
    split at h
    · cases h
    · rename_i op _
      split at h
      · cases h
      · rename_i l1 e
        have e1 : (l1.record v = none ↔ l.record v = none) := by
          unfold LayoutController.tryOp at e
          split at e
          · cases e
          · split at e
            · cases e
            · injection e with e; rw [← e]; exact Op.carryOut_none _ _ _ _ _
        split at h
        · cases h
        · rename_i l2 ops2 e2
          injection h with h; injection h with h _
          rw [← h, ih _ _ _ _ e2, e1]

/-- Withdrawing a port's windows neither brings nor takes a record. -/
theorem Layout.withdrawOwned_none (l : Layout) (o n v) : ((l.withdrawOwned o n).record v = none ↔ l.record v = none) :=
  foldl_keeps (fun k : Layout => (k.record v = none ↔ l.record v = none)) _ (fun k w hk => by
    split; exact (Layout.mapRecord_none k w v _).trans hk; exact hk) _ _ Iff.rfl

/-- After withdrawing a port's windows each of them is in no list and WITHDRAWN (R106). -/
theorem Layout.withdrawOwned_all (l : Layout) (o : Table (Option Port) 24) (n : Port) (w : WinSlot) (h : tget o w = some n) :
   (∀ k, w ∉ (l.withdrawOwned o n).bands.list k) ∧ ∀ r, (l.withdrawOwned o n).record w = some r → r.state = .withdrawn := by
  have rm : ∀ (b : Bands) v k, (b.remove v).list k = (b.list k).filter (· != v) := by intro b v k; cases k <;> rfl
  have key : ∀ (ws : List WinSlot) (l : Layout), (w ∈ ws ∨ ((∀ k, w ∉ l.bands.list k) ∧ ∀ r, l.record w = some r → r.state = .withdrawn)) →
     ((∀ k, w ∉ (ws.foldl (fun l w => if tget o w = some n then l.withdraw w else l) l).bands.list k) ∧ ∀ r, (ws.foldl (fun l w => if tget o w = some n then l.withdraw w else l) l).record w = some r → r.state = .withdrawn) := by
    intro ws
    induction ws with
    | nil => intro l h; simpa using h
    | cons v ws ih =>
      intro l hh
      rw [List.foldl_cons]
      apply ih
      by_cases hm : w ∈ ws
      · exact Or.inl hm
      · right
        by_cases e : v = w
        · subst e
          rw [if_pos h]
          refine ⟨fun k => ?_, fun r hr => ?_⟩
          · show v ∉ (l.bands.remove v).list k; rw [rm]; simp
          · change tget (tmod l.recs v _) v = some r at hr
            simp [tmod] at hr
            obtain ⟨a, _, rfl⟩ := hr; rfl
        · have := hh.resolve_left (by simp [hm, Ne.symm e])
          split
          · refine ⟨fun k => ?_, fun r hr => ?_⟩
            · show w ∉ (l.bands.remove v).list k; rw [rm]; simp [this.1 k]
            · change tget (tmod l.recs v _) w = some r at hr
              unfold tmod at hr; rw [tget_tput_ne _ _ _ _ e] at hr
              exact this.2 r hr
          · exact this
  exact key _ _ (Or.inl (mem_allSlots w))

end Sys2Proof.Machine
end

