-- ==== Sys2Proof/Laws/Accounts.lean ====
section
/-! SUPPORT. The accounts of surfaces, pages and windows: which operations change them, and that the free pages and the four page counts
add up to the whole frame memory (R54, R57, R60, R95, R103). -/

namespace Sys2Proof.Machine

/-! ### Counting slots -/

/-- The number of slots that meet a condition, as a sum. -/
theorem length_filter_sum {α : Type} (p : α → Bool) (l : List α) :
    (l.filter p).length = (l.map (fun a => if p a then 1 else 0)).sum := by
  induction l with
  | nil => rfl
  | cons a l ih =>
    rw [List.map_cons, List.sum_cons, ← ih]
    by_cases h : p a = true
    · rw [List.filter_cons_of_pos h, List.length_cons, if_pos h]
      omega
    · rw [List.filter_cons_of_neg h, if_neg h]
      omega

/-- The number of slots of a table whose entry meets a condition, after one entry is replaced. -/
theorem count_tput {α : Type} {n : Nat} (p : α → Bool) (t : Table α n) (i : Fin n) (a : α) :
    ((allSlots n).filter (fun j => p (tget (tput t i a) j))).length + (if p (tget t i) then 1 else 0) =
      ((allSlots n).filter (fun j => p (tget t j))).length + (if p a then 1 else 0) := by
  rw [length_filter_sum, length_filter_sum]
  exact sum_tput (fun e => if p e then 1 else 0) t i a

/-- Sums over the slots add up. -/
theorem sum_add {α : Type} (f g : α → Nat) (l : List α) : (l.map (fun a => f a + g a)).sum = (l.map f).sum + (l.map g).sum := by
  induction l with
  | nil => rfl
  | cons a l ih =>
    simp only [List.map_cons, List.sum_cons, ih]
    omega

/-- A sum of noughts. -/
theorem sum_zero {α : Type} (l : List α) : (l.map (fun _ => 0)).sum = 0 := by
  induction l with
  | nil => rfl
  | cons a l ih => rw [List.map_cons, List.sum_cons, ih]

/-! ### Accounts and entries -/

/-- The pages that port `n` owns by a slot's entry. -/
def SurfaceEntry.pagesOf (n : Port) (e : SurfaceEntry) : Nat :=
  match e.surface with
  | some f => if f.owner = n then f.pageCount else 0
  | none => 0

/-- A slot's entry holds a surface of port `n`. -/
def SurfaceEntry.isOf (n : Port) (e : SurfaceEntry) : Bool := e.surface.any (fun f => f.owner = n)

theorem Surfaces.pagesIn_entry (m : Surfaces) (n : Port) (i : SurfSlot) : m.pagesIn n i = (tget m.slots i).pagesOf n := rfl

theorem SurfaceEntry.pagesOf_bare (n : Port) (e : SurfaceEntry) :
    e.pagesOf n = (⟨e.gen, e.surface.map Surface.bare⟩ : SurfaceEntry).pagesOf n := by
  unfold SurfaceEntry.pagesOf
  cases e.surface <;> rfl

theorem SurfaceEntry.isOf_bare (n : Port) (e : SurfaceEntry) :
    e.isOf n = (⟨e.gen, e.surface.map Surface.bare⟩ : SurfaceEntry).isOf n := by
  unfold SurfaceEntry.isOf
  cases e.surface <;> rfl

/-- The accounts do not depend on reference counts. -/
theorem Surfaces.accountsSound_congr {m k : Surfaces} (h : m.bareView = k.bareView) (hk : k.accountsSound) : m.accountsSound := by
  obtain ⟨h1, _, h3, h4⟩ := Surfaces.bareView_eq h
  obtain ⟨k1, k2, k3⟩ := hk
  have pages : ∀ n, m.pagesIn n = k.pagesIn n := fun n => funext (fun i => by
    rw [Surfaces.pagesIn_entry, SurfaceEntry.pagesOf_bare, h1 i, ← SurfaceEntry.pagesOf_bare, ← Surfaces.pagesIn_entry])
  have owned : ∀ n, (fun i => (tget m.slots i).isOf n) = (fun i => (tget k.slots i).isOf n) := fun n => funext (fun i => by
    rw [SurfaceEntry.isOf_bare, h1 i, ← SurfaceEntry.isOf_bare])
  refine ⟨fun i f hf => ?_, fun n => ?_, by rw [h3]; exact k3⟩
  · have := congrArg SurfaceEntry.surface (h1 i)
    dsimp only at this
    rw [hf] at this
    cases hg : (tget k.slots i).surface with
    | none => rw [hg] at this; cases this
    | some g =>
      rw [hg] at this
      simp only [Option.map_some, Option.some.injEq] at this
      have same : f.bare.recordSound := by rw [this]; exact k1 i g hg
      exact same
  · have slots := congrArg (fun p => ((allSlots 48).filter p).length) (owned n)
    rw [h3, h4, pages n]
    exact ⟨(k2 n).1, (k2 n).2.1.trans slots.symm, (k2 n).2.2⟩

/-! ### Pages add up -/

/-- The pages of all surfaces and the free pages are the 4096 pages of frame memory (R54). -/
theorem Surfaces.pages_total (m : Surfaces) (h : m.pagesSound) :
    m.freePages.length + ((allSlots 48).map (fun i => match (tget m.slots i).surface with
      | some f => f.pageList.length | none => 0)).sum = 4096 := by
  have slots : ∀ l : List SurfSlot, ∃ ps : List Nat,
      (∀ p, ps.count p = (l.map (fun i => (tget m.slots i).countPage p)).sum) ∧
      ps.length = (l.map (fun i => match (tget m.slots i).surface with | some f => f.pageList.length | none => 0)).sum := by
    intro l
    induction l with
    | nil => exact ⟨[], fun _ => rfl, rfl⟩
    | cons i l ih =>
      obtain ⟨ps, h1, h2⟩ := ih
      cases hs : (tget m.slots i).surface with
      | none =>
        refine ⟨ps, fun p => ?_, ?_⟩
        · rw [List.map_cons, List.sum_cons, ← h1 p]
          unfold SurfaceEntry.countPage
          rw [hs]
          simp
        · rw [List.map_cons, List.sum_cons, ← h2, hs]
          simp
      | some f =>
        refine ⟨f.pageList ++ ps, fun p => ?_, ?_⟩
        · rw [List.map_cons, List.sum_cons, ← h1 p, List.count_append]
          unfold SurfaceEntry.countPage
          rw [hs]
        · rw [List.map_cons, List.sum_cons, ← h2, List.length_append, hs]
  obtain ⟨ps, h1, h2⟩ := slots (allSlots 48)
  rw [← h2, ← List.length_append]
  have perm : (m.freePages ++ ps).Perm (List.range' 0 4096) := by
    rw [List.perm_iff_count]
    intro p
    rw [List.count_append, h1 p, h.1 p, List.count_range']
    by_cases e : p < 4096 <;> simp [Config.pages, e]
  rw [perm.length_eq, List.length_range']

/-- The free pages and the four page counts add up to 4096 (R60). -/
theorem Surfaces.counts_total (m : Surfaces) (h : m.pagesSound) (k : m.accountsSound) :
    m.freePages.length + tget m.pageCount 0 + tget m.pageCount 1 + tget m.pageCount 2 + tget m.pageCount 3 = 4096 := by
  have total := m.pages_total h
  have entry : ∀ i, (match (tget m.slots i).surface with | some f => f.pageList.length | none => 0) =
      m.pagesIn 0 i + m.pagesIn 1 i + m.pagesIn 2 i + m.pagesIn 3 i := by
    intro i
    have record := k.1 i
    unfold Surfaces.pagesIn
    cases hs : (tget m.slots i).surface with
    | none => rfl
    | some f =>
      have same := (record f hs).2.2.2.2.2.2.1
      dsimp only
      rw [same]
      have ports : ∀ n : Port, ∀ c : Nat, c = (if n = 0 then c else 0) + (if n = 1 then c else 0) + (if n = 2 then c else 0) +
          (if n = 3 then c else 0) := by
        intro n c
        match n with
        | 0 => simp
        | 1 => simp
        | 2 => simp
        | 3 => simp
      exact ports f.owner f.pageCount
  rw [List.map_congr_left (fun i _ => entry i)] at total
  simp only [sum_add] at total
  rw [(k.2.1 0).1, (k.2.1 1).1, (k.2.1 2).1, (k.2.1 3).1]
  omega

/-- A record as its creation makes it is fit to hold its pixels (R49, R56). -/
theorem Surface.recordSound_laidOut (f : Surface) (h : f.recordSound) : f.laidOut := by
  obtain ⟨_, _, _, _, h1, h2, h3, h4⟩ := h
  refine ⟨h4.imp (fun h e => absurd h (by omega)), by rw [h1]; exact Nat.mul_mod_left _ _, by rw [h1]; omega, ?_⟩
  rw [h3, h2]
  generalize f.stride * f.height = b
  omega

/-! ### Creation and destruction -/

/-- A pool use falls with the page counts. -/
theorem poolUse_mono (a b : Table Nat 4) (h : ∀ n, tget a n ≤ tget b n) : poolUse a ≤ poolUse b := by
  have := h 0
  have := h 1
  have := h 2
  have := h 3
  unfold poolUse allPorts sharedUse
  simp only [List.map_cons, List.map_nil, List.sum_cons, List.sum_nil]
  omega

/-- With the pool use within the pool, the pages of the four ports are no more than frame memory (R60). -/
theorem poolUse_total (a : Table Nat 4) (h : poolUse a ≤ 1536) : tget a 0 + tget a 1 + tget a 2 + tget a 3 ≤ 4096 := by
  unfold poolUse allPorts sharedUse Config.reserve at h
  simp only [List.map_cons, List.map_nil, List.sum_cons, List.sum_nil] at h
  omega

/-- One port's count raised raises the sum of the four. -/
theorem ports_raise (a : Table Nat 4) (n : Port) (k : Nat) :
    tget (tmod a n (· + k)) 0 + tget (tmod a n (· + k)) 1 + tget (tmod a n (· + k)) 2 + tget (tmod a n (· + k)) 3 =
      tget a 0 + tget a 1 + tget a 2 + tget a 3 + k := by
  simp only [tget_tmod]
  match n with
  | 0 => simp; omega
  | 1 => simp; omega
  | 2 => simp; omega
  | 3 => simp; omega

/-- Destroying a surface keeps the accounts (R70). -/
theorem Surfaces.free_accounts (m : Surfaces) (i : SurfSlot) (h : m.accountsSound) : (m.free i).accountsSound := by
  unfold Surfaces.free
  cases hs : (tget m.slots i).surface with
  | none => exact h
  | some f =>
    obtain ⟨h1, h2, h3⟩ := h
    dsimp only
    have less : ∀ n, tget (tmod m.pageCount f.owner (· - f.pageCount)) n ≤ tget m.pageCount n := by
      intro n
      rw [tget_tmod]
      split
      · rename_i e; subst e; exact Nat.sub_le ..
      · exact Nat.le_refl _
    refine ⟨fun j g hg => ?_, fun n => ?_, Nat.le_trans (poolUse_mono _ _ less) h3⟩
    · dsimp only at hg
      rw [tget_tput] at hg
      split at hg
      · cases hg
      · exact h1 j g hg
    · obtain ⟨p1, p2, p3⟩ := h2 n
      have sums := sum_tput (SurfaceEntry.pagesOf n) m.slots i ⟨nextGeneration Config.surfaceGenerations (tget m.slots i).gen, none⟩
      have counts := count_tput (SurfaceEntry.isOf n) m.slots i ⟨nextGeneration Config.surfaceGenerations (tget m.slots i).gen, none⟩
      have old : (tget m.slots i).pagesOf n = if f.owner = n then f.pageCount else 0 := by unfold SurfaceEntry.pagesOf; rw [hs]
      have was : (tget m.slots i).isOf n = decide (f.owner = n) := by unfold SurfaceEntry.isOf; rw [hs]; rfl
      rw [old] at sums
      rw [was] at counts
      change _ = ((allSlots 48).map (m.pagesIn n)).sum + 0 at sums
      change _ = ((allSlots 48).filter (fun j => (tget m.slots j).surface.any (fun g => g.owner = n))).length + 0 at counts
      rw [← p1] at sums
      rw [← p2] at counts
      show tget (tmod m.pageCount f.owner (· - f.pageCount)) n = ((allSlots 48).map (fun j =>
          SurfaceEntry.pagesOf n (tget (tput m.slots i _) j))).sum ∧
        tget (tmod m.surfCount f.owner (· - 1)) n = ((allSlots 48).filter (fun j =>
          SurfaceEntry.isOf n (tget (tput m.slots i _) j))).length ∧ _
      rw [tget_tmod, tget_tmod]
      by_cases e : f.owner = n
      · subst e
        simp only [if_true, decide_true] at sums counts ⊢
        omega
      · simp only [e, if_false, decide_false, Bool.false_eq_true] at sums counts ⊢
        omega

/-- The record of a creation for which there are pages enough (R54, R56, R57). -/
theorem newSurface_recordSound (m : Surfaces) (n : Port) (q : SurfaceRequest)
    (hq : 1 ≤ q.width ∧ q.width ≤ 2048 ∧ 1 ≤ q.height ∧ q.height ≤ 2048)
    (enough : pagesOf q.width q.height q.format ≤ m.freePages.length) (ascending : m.freePages.Pairwise (· < ·)) :
    (newSurface m n q).recordSound := by
  refine ⟨hq.1, hq.2.1, hq.2.2.1, hq.2.2.2, ?_, ?_, ?_, ascending.sublist (List.take_sublist _ _)⟩
  · unfold newSurface strideOf
    rfl
  · show pagesOf q.width q.height q.format = (strideOf q.width q.format * q.height + 4095) / 4096
    unfold pagesOf Config.pageSize
    rfl
  · show (m.freePages.take (pagesOf q.width q.height q.format)).length = pagesOf q.width q.height q.format
    rw [List.length_take]
    omega

/-- Creating a surface keeps the accounts (R61, R62). -/
theorem Surfaces.create_accounts (m : Surfaces) (n : Port) (i : SurfSlot) (q : SurfaceRequest) (hi : m.freeSlot = some i)
    (hq : 1 ≤ q.width ∧ q.width ≤ 2048 ∧ 1 ≤ q.height ∧ q.height ≤ 2048) (hc : tget m.surfCount n < Config.surfacesPerPort)
    (hp : poolUse (tmod m.pageCount n (· + pagesOf q.width q.height q.format)) ≤ Config.pool) (h : m.pagesSound)
    (k : m.accountsSound) : (m.create n i q).accountsSound := by
  have empty := Surfaces.freeSlot_free m i hi
  have total := m.counts_total h k
  obtain ⟨k1, k2, _⟩ := k
  have enough : pagesOf q.width q.height q.format ≤ m.freePages.length := by
    have bound := poolUse_total _ hp
    rw [ports_raise] at bound
    omega
  have ascending : m.freePages.Pairwise (· < ·) := by
    have nodup : m.freePages.Nodup := by
      rw [List.nodup_iff_count]
      intro p
      have := h.1 p
      split at this <;> omega
    refine (h.2.and nodup).imp (fun h => ?_)
    omega
  have record := newSurface_recordSound m n q hq enough ascending
  unfold Surfaces.create
  refine ⟨fun j g hg => ?_, fun p => ?_, hp⟩
  · dsimp only at hg
    rw [tget_tmod] at hg
    split at hg
    · injection hg with hg
      exact hg ▸ record
    · exact k1 j g hg
  · obtain ⟨p1, p2, p3⟩ := k2 p
    have sums := sum_tput (SurfaceEntry.pagesOf p) m.slots i { tget m.slots i with surface := some (newSurface m n q) }
    have counts := count_tput (SurfaceEntry.isOf p) m.slots i { tget m.slots i with surface := some (newSurface m n q) }
    have old : (tget m.slots i).pagesOf p = 0 := by unfold SurfaceEntry.pagesOf; rw [empty]
    have was : (tget m.slots i).isOf p = false := by unfold SurfaceEntry.isOf; rw [empty]; rfl
    have new : ({ tget m.slots i with surface := some (newSurface m n q) } : SurfaceEntry).pagesOf p =
        if n = p then pagesOf q.width q.height q.format else 0 := rfl
    have now : ({ tget m.slots i with surface := some (newSurface m n q) } : SurfaceEntry).isOf p = decide (n = p) := rfl
    rw [old, new] at sums
    rw [was, now] at counts
    change _ = ((allSlots 48).map (m.pagesIn p)).sum + _ at sums
    change _ = ((allSlots 48).filter (fun j => (tget m.slots j).surface.any (fun g => g.owner = p))).length + _ at counts
    rw [← p1] at sums
    rw [← p2] at counts
    show tget (tmod m.pageCount n (· + pagesOf q.width q.height q.format)) p = ((allSlots 48).map (fun j =>
        SurfaceEntry.pagesOf p (tget (tput m.slots i _) j))).sum ∧
      tget (tmod m.surfCount n (· + 1)) p = ((allSlots 48).filter (fun j =>
        SurfaceEntry.isOf p (tget (tput m.slots i _) j))).length ∧ tget (tmod m.surfCount n (· + 1)) p ≤ 16
    rw [tget_tmod, tget_tmod]
    unfold Config.surfacesPerPort at hc
    by_cases e : n = p
    · subst e
      simp only [if_true, decide_true, Bool.false_eq_true, if_false] at sums counts ⊢
      omega
    · simp only [e, if_false, decide_false, Bool.false_eq_true] at sums counts ⊢
      omega

/-- A port whose surfaces are all destroyed owns none (R71). -/
theorem Surfaces.freeOwned_owner (m : Surfaces) (n : Port) (i : SurfSlot) :
    ∀ f, (tget (m.freeOwned n).slots i).surface = some f → f.owner ≠ n := by
  unfold Surfaces.freeOwned
  dsimp only
  refine foldl_last (fun (m : Surfaces) i => ∀ f, (tget m.slots i).surface = some f → f.owner ≠ n) _ ?_ ?_ _ _ i (mem_allSlots i)
  · intro a b c h
    split
    · unfold Surfaces.free
      split
      · exact h
      · dsimp only
        rw [tget_tput]
        split
        · intro f hf; cases hf
        · exact h
    · exact h
  · intro a b
    split
    · rename_i own
      unfold Surfaces.free
      split
      · rename_i e; rw [e] at own; cases own
      · dsimp only; rw [tget_tput_same]; intro f hf; cases hf
    · rename_i other
      intro f hf e
      rw [hf] at other
      simp [e] at other

/-- Destroying all surfaces of a port keeps the accounts: its counts are 0 (R71). -/
theorem Surfaces.freeOwned_accounts (m : Surfaces) (n : Port) (h : m.accountsSound) : (m.freeOwned n).accountsSound := by
  have free := m.freeOwned_owner n
  have kept := foldl_keeps (fun m : Surfaces => m.accountsSound)
    (fun m i => if (tget m.slots i).surface.any (fun f => f.owner = n) then m.free i else m)
    (fun m i h => by split; exact Surfaces.free_accounts _ _ h; exact h) (allSlots 48) m h
  unfold Surfaces.freeOwned at free ⊢
  generalize (allSlots 48).foldl (fun m i => if (tget m.slots i).surface.any (fun f => f.owner = n) then m.free i else m) m = u at *
  obtain ⟨k1, k2, k3⟩ := kept
  dsimp only at free ⊢
  have less : ∀ p, tget (tput u.pageCount n 0) p ≤ tget u.pageCount p := by
    intro p
    rw [tget_tput]
    split
    · exact Nat.zero_le _
    · exact Nat.le_refl _
  refine ⟨k1, fun p => ?_, Nat.le_trans (poolUse_mono _ _ less) k3⟩
  obtain ⟨p1, p2, p3⟩ := k2 p
  by_cases e : n = p
  · subst e
    have zero : ((allSlots 48).map (u.pagesIn n)).sum = 0 := by
      have each : ∀ i, u.pagesIn n i = 0 := by
        intro i
        unfold Surfaces.pagesIn
        cases hs : (tget u.slots i).surface with
        | none => rfl
        | some f => dsimp only; rw [if_neg (free i f hs)]
      rw [List.map_congr_left (fun i _ => each i)]
      exact sum_zero _
    have absent : ((allSlots 48).filter (fun i => (tget u.slots i).surface.any (fun f => f.owner = n))) = [] := by
      rw [List.filter_eq_nil_iff]
      intro i _ hi
      cases hs : (tget u.slots i).surface with
      | none => rw [hs] at hi; cases hi
      | some f => rw [hs] at hi; exact free i f hs (by simpa using hi)
    rw [tget_tput_same, tget_tput_same]
    exact ⟨zero.symm, by rw [absent]; rfl, Nat.zero_le _⟩
  · rw [tget_tput_ne _ _ _ _ e, tget_tput_ne _ _ _ _ e]
    exact ⟨p1, p2, p3⟩

/-! ### Windows -/

/-- Reserving a window keeps the counts (R101). -/
theorem LayoutController.reserve_counts (c : LayoutController) (n : Port) (w : WinSlot) (width height : Nat)
    (hw : c.freeSlot = some w) (hn : tget c.winCount n < Config.windowsPerPort) (h : c.countsSound) :
    (c.reserve n w width height).countsSound := by
  have empty : tget c.owners w = none := by
    unfold LayoutController.freeSlot at hw
    simpa using List.find?_some hw
  intro p
  obtain ⟨h1, h2⟩ := h p
  have counts := count_tput (fun o : Option Port => decide (o = some p)) c.owners w (some n)
  rw [empty] at counts
  rw [← h1] at counts
  show tget (tmod c.winCount n (· + 1)) p = ((allSlots 24).filter (fun v => decide (tget (tput c.owners w (some n)) v = some p))).length ∧
    tget (tmod c.winCount n (· + 1)) p ≤ 8
  rw [tget_tmod]
  unfold Config.windowsPerPort at hn
  by_cases e : n = p
  · subst e
    simp at counts ⊢
    omega
  · simp [e] at counts ⊢
    omega

/-- Freeing a window keeps the counts (R103). -/
theorem State.freeWindow_counts (s : State) (w : WinSlot) (h : s.layouts.countsSound) : (s.freeWindow w).layouts.countsSound := by
  unfold State.freeWindow
  cases ho : tget s.layouts.owners w with
  | none => exact h
  | some n =>
    intro p
    obtain ⟨h1, h2⟩ := h p
    have counts := count_tput (fun o : Option Port => decide (o = some p)) s.layouts.owners w none
    rw [ho] at counts
    rw [← h1] at counts
    show tget (tmod s.layouts.winCount n (· - 1)) p =
        ((allSlots 24).filter (fun v => decide (tget (tput s.layouts.owners w none) v = some p))).length ∧
      tget (tmod s.layouts.winCount n (· - 1)) p ≤ 8
    rw [tget_tmod]
    by_cases e : n = p
    · subst e
      simp at counts ⊢
      omega
    · simp [e] at counts ⊢
      omega

end Sys2Proof.Machine
end

