-- ==== Sys2Proof/Laws/Memory.lean ====
section
/-! SUPPORT. Frame memory: what a read finds after each operation, and that each operation keeps the canonical form. -/

namespace Sys2Proof.Machine

/-- The canonical form said with the list's own predicates. -/
theorem Memory.wf_iff (m : Memory) :
    Memory.wf m = true ↔ m.Pairwise (fun c d => c.1 < d.1) ∧ ∀ c ∈ m, c.2 ≠ Memory.unlisted := by
  induction m with
  | nil => simp [Memory.wf]
  | cons x m ih =>
    obtain ⟨x, c⟩ := x
    cases m with
    | nil => simp [Memory.wf]
    | cons y m =>
      obtain ⟨y, d⟩ := y
      simp only [Memory.wf, Bool.and_eq_true, decide_eq_true_eq, ih, List.pairwise_cons, List.mem_cons, bne_iff_ne]
      constructor
      · rintro ⟨⟨hxy, hc⟩, ⟨hy, hm⟩, hall⟩
        refine ⟨⟨?_, hy, hm⟩, ?_⟩
        · rintro z (rfl | hz)
          · exact hxy
          · exact Nat.lt_trans hxy (hy z hz)
        · rintro z (rfl | hz)
          · exact hc
          · exact hall z hz
      · rintro ⟨⟨hx, hy, hm⟩, hall⟩
        exact ⟨⟨hx _ (Or.inl rfl), hall _ (Or.inl rfl)⟩, ⟨hy, hm⟩, fun z hz => hall z (Or.inr hz)⟩

theorem Memory.wf_nil : Memory.wf [] = true := rfl

theorem Memory.wf_tail {c : Host.Cell} {m : Memory} (h : Memory.wf (c :: m) = true) : Memory.wf m = true := by
  rw [Memory.wf_iff] at h ⊢
  exact ⟨(List.pairwise_cons.mp h.1).2, fun d hd => h.2 d (List.mem_cons_of_mem _ hd)⟩

/-- An address below every listed one is not listed. -/
theorem Memory.read_of_lt (m : Memory) (a : Nat) (h : ∀ c ∈ m, a < c.1) : Memory.read m a = Memory.unlisted := by
  induction m with
  | nil => rfl
  | cons c m ih =>
    obtain ⟨x, c⟩ := c
    have hx : a < x := h (x, c) (List.mem_cons_self ..)
    have : ¬ x = a := fun e => Nat.lt_irrefl a (e ▸ hx)
    simp only [Memory.read, if_neg this]
    exact ih (fun d hd => h d (List.mem_cons_of_mem _ hd))

/-- What a write may put into the list: its own address, or a cell that was there. -/
theorem Memory.mem_write {m : Memory} {a : Nat} {b : Byte} {d : Host.Cell} (h : d ∈ Memory.write m a b) :
    d ∈ m ∨ (d = (a, b) ∧ b ≠ Memory.unlisted) := by
  induction m with
  | nil =>
    simp only [Memory.write] at h
    split at h
    · simp at h
    · rename_i hb; exact Or.inr ⟨by simpa using h, hb⟩
  | cons c m ih =>
    obtain ⟨x, c⟩ := c
    simp only [Memory.write] at h
    repeat' split at h
    · exact Or.inl h
    · rename_i hb
      rcases List.mem_cons.mp h with rfl | h
      · exact Or.inr ⟨rfl, hb⟩
      · exact Or.inl h
    · exact Or.inl (List.mem_cons_of_mem _ h)
    · rename_i hb
      rcases List.mem_cons.mp h with rfl | h
      · exact Or.inr ⟨rfl, hb⟩
      · exact Or.inl (List.mem_cons_of_mem _ h)
    · rcases List.mem_cons.mp h with rfl | h
      · exact Or.inl (List.mem_cons_self ..)
      · rcases ih h with h | h
        · exact Or.inl (List.mem_cons_of_mem _ h)
        · exact Or.inr h

/-- A write keeps the canonical form. -/
theorem Memory.wf_write {m : Memory} (h : Memory.wf m = true) (a : Nat) (b : Byte) :
    Memory.wf (Memory.write m a b) = true := by
  rw [Memory.wf_iff]
  have hw := h
  rw [Memory.wf_iff] at hw
  refine ⟨?_, ?_⟩
  · induction m with
    | nil => simp only [Memory.write]; split <;> simp
    | cons c m ih =>
      obtain ⟨x, c⟩ := c
      have hp := List.pairwise_cons.mp hw.1
      have hm := Memory.wf_tail h
      have ih := ih hm ((Memory.wf_iff m).mp hm)
      simp only [Memory.write]
      repeat' split
      · exact hw.1
      · rename_i hax _
        refine List.pairwise_cons.mpr ⟨?_, hw.1⟩
        intro d hd
        rcases List.mem_cons.mp hd with rfl | hd
        · exact hax
        · exact Nat.lt_trans hax (hp.1 d hd)
      · exact hp.2
      · rename_i _ hax _
        subst hax
        exact List.pairwise_cons.mpr ⟨hp.1, hp.2⟩
      · rename_i hlt hne
        refine List.pairwise_cons.mpr ⟨?_, ih⟩
        intro d hd
        rcases Memory.mem_write hd with hd | ⟨rfl, _⟩
        · exact hp.1 d hd
        · exact Nat.lt_of_le_of_ne (Nat.le_of_not_lt hlt) (fun e => hne e.symm)
  · intro d hd
    rcases Memory.mem_write hd with hd | ⟨rfl, hb⟩
    · exact hw.2 d hd
    · exact hb

/-- A read after a write: the byte written at its address, the old byte elsewhere. -/
theorem Memory.read_write {m : Memory} (h : Memory.wf m = true) (a : Nat) (b : Byte) (x : Nat) :
    Memory.read (Memory.write m a b) x = if x = a then b else Memory.read m x := by
  induction m with
  | nil =>
    simp only [Memory.write]
    by_cases hb : b = Memory.unlisted
    · simp [hb, Memory.read]
    · simp only [if_neg hb, Memory.read, eq_comm]
  | cons c m ih =>
    obtain ⟨y, c⟩ := c
    have hw := (Memory.wf_iff _).mp h
    have hp := List.pairwise_cons.mp hw.1
    have hm := Memory.wf_tail h
    have ih := ih hm
    simp only [Memory.write]
    by_cases hay : a < y
    · rw [if_pos hay]
      have hlow : ∀ d ∈ (y, c) :: m, a < d.1 := by
        intro d hd
        rcases List.mem_cons.mp hd with rfl | hd
        · exact hay
        · exact Nat.lt_trans hay (hp.1 d hd)
      by_cases hb : b = Memory.unlisted
      · rw [if_pos hb]
        by_cases hx : x = a
        · rw [if_pos hx, hx, Memory.read_of_lt _ _ hlow, hb]
        · rw [if_neg hx]
      · rw [if_neg hb]
        by_cases hx : x = a
        · subst hx; simp [Memory.read]
        · have : ¬ a = x := fun e => hx e.symm
          simp [Memory.read, this, hx]
    · rw [if_neg hay]
      by_cases hae : a = y
      · subst hae
        have hlow : ∀ d ∈ m, a < d.1 := hp.1
        by_cases hb : b = Memory.unlisted
        · rw [if_pos rfl, if_pos hb]
          by_cases hx : x = a
          · rw [if_pos hx, hx, Memory.read_of_lt _ _ hlow, hb]
          · have : ¬ a = x := fun e => hx e.symm
            simp [Memory.read, this, hx]
        · rw [if_pos rfl, if_neg hb]
          by_cases hx : x = a
          · subst hx; simp [Memory.read]
          · have : ¬ a = x := fun e => hx e.symm
            simp [Memory.read, this, hx]
      · rw [if_neg hae]
        simp only [Memory.read]
        by_cases hyx : y = x
        · subst hyx
          have : ¬ y = a := fun e => hae e.symm
          simp [this]
        · simp only [if_neg hyx]; exact ih

theorem Memory.wf_writeBytes {m : Memory} (h : Memory.wf m = true) (a : Nat) (bs : List Byte) :
    Memory.wf (Memory.writeBytes m a bs) = true := by
  induction bs generalizing m a with
  | nil => exact h
  | cons b bs ih => exact ih (Memory.wf_write h a b) (a + 1)

/-- A read after a write of several bytes. -/
theorem Memory.read_writeBytes {m : Memory} (h : Memory.wf m = true) (a : Nat) (bs : List Byte) (x : Nat) :
    Memory.read (Memory.writeBytes m a bs) x =
      if a ≤ x ∧ x < a + bs.length then bs.getD (x - a) 0 else Memory.read m x := by
  induction bs generalizing m a with
  | nil =>
    have : ¬ (a ≤ x ∧ x < a + 0) := by omega
    simp only [Memory.writeBytes, List.length_nil, if_neg this]
  | cons b bs ih =>
    simp only [Memory.writeBytes, List.length_cons]
    rw [ih (Memory.wf_write h a b) (a + 1), Memory.read_write h]
    by_cases hx : x = a
    · subst hx
      have h1 : ¬ (x + 1 ≤ x ∧ x < x + 1 + bs.length) := by omega
      have h2 : x ≤ x ∧ x < x + (bs.length + 1) := by omega
      rw [if_neg h1, if_pos rfl, if_pos h2]
      simp
    · rw [if_neg hx]
      by_cases hin : a ≤ x ∧ x < a + (bs.length + 1)
      · have h1 : a + 1 ≤ x ∧ x < a + 1 + bs.length := by omega
        rw [if_pos h1, if_pos hin]
        have : x - a = (x - (a + 1)) + 1 := by omega
        rw [this, List.getD_cons_succ]
      · have h1 : ¬ (a + 1 ≤ x ∧ x < a + 1 + bs.length) := by omega
        rw [if_neg h1, if_neg hin]

theorem Memory.wf_zeroPages {m : Memory} (h : Memory.wf m = true) (ps : List Nat) :
    Memory.wf (Memory.zeroPages m ps) = true := by
  rw [Memory.wf_iff] at h ⊢
  exact ⟨h.1.filter _, fun c hc => h.2 c (List.mem_filter.mp hc).1⟩

/-- A read after pages have become zero (R62). -/
theorem Memory.read_zeroPages (m : Memory) (ps : List Nat) (x : Nat) :
    Memory.read (Memory.zeroPages m ps) x = if x / Config.pageSize ∈ ps then Memory.unlisted else Memory.read m x := by
  induction m with
  | nil => simp [Memory.zeroPages, Memory.read]
  | cons c m ih =>
    obtain ⟨y, c⟩ := c
    by_cases hy : y / Config.pageSize ∈ ps
    · have e : Memory.zeroPages ((y, c) :: m) ps = Memory.zeroPages m ps := by simp [Memory.zeroPages, hy]
      rw [e, ih]
      by_cases hx : x / Config.pageSize ∈ ps
      · simp [hx]
      · have : ¬ y = x := fun e => hx (e ▸ hy)
        simp [hx, Memory.read, this]
    · have e : Memory.zeroPages ((y, c) :: m) ps = (y, c) :: Memory.zeroPages m ps := by simp [Memory.zeroPages, hy]
      rw [e]
      by_cases hyx : y = x
      · subst hyx; simp [hy, Memory.read]
      · simp [Memory.read, hyx, ih]

end Sys2Proof.Machine
end

