-- ==== Sys2Proof/Laws/Drawing.lean ====
section
/-! SUPPORT. The drawing engine: a choice, the writes of the in-flight job, and the abort of a port's jobs. -/

namespace Sys2Proof.Machine

/-- Writing a pixel keeps memory canonical. -/
theorem writePixel_wf (m : Memory) (f : Surface) (c r : Nat) (b : List Byte) (h : Memory.wf m = true) :
    Memory.wf (writePixel m f c r b) = true := by
  unfold writePixel; split
  · exact Memory.wf_writeBytes h _ _
  · exact h

/-- Writing pixels keeps memory canonical. -/
theorem InFlight.writePositions_wf (f : InFlight) (t : Surface) (m : Memory) (ps : List (Nat × Nat)) (h : Memory.wf m = true) :
    Memory.wf (f.writePositions t m ps) = true :=
  foldl_keeps (fun m => Memory.wf m = true) _ (fun m p h => writePixel_wf _ _ _ _ _ h) _ _ h

/-- The next writes of the in-flight job keep memory canonical. -/
theorem State.writeNext_wf (s : State) (k : Nat) (h : Memory.wf s.mem = true) : Memory.wf (s.writeNext k).mem = true := by
  unfold State.writeNext; split
  · exact h
  · split
    · exact h
    · exact InFlight.writePositions_wf _ _ _ _ h

/-- The progress of the in-flight job keeps memory canonical. -/
theorem State.drawOn_wf (s : State) (h : Memory.wf s.mem = true) : Memory.wf (s.drawOn).mem = true := by
  unfold State.drawOn; split
  · exact h
  · exact State.writeNext_wf _ _ h

/-- The progress of the in-flight job leaves the job queues and the job numbers. -/
theorem State.drawOn_drawing (s : State) : s.drawOn.drawing.queues = s.drawing.queues ∧ s.drawOn.drawing.issued = s.drawing.issued ∧ s.drawOn.drawing.completed = s.drawing.completed := by
  unfold State.drawOn State.writeNext
  repeat' split
  all_goals simp [State.tick, State.withDrawing, State.withMem]

/-- A choice leaves the job numbers. -/
theorem State.choose_numbers (s : State) : s.choose.drawing.issued = s.drawing.issued ∧ s.choose.drawing.completed = s.drawing.completed := by
  unfold State.choose
  repeat' split
  all_goals exact ⟨rfl, rfl⟩

/-- A choice takes no job of a port whose queue is empty. -/
theorem State.choose_outstanding (s : State) (n : Port) (h : s.drawing.inFlight = none) (hq : tget s.drawing.queues n = [])
   (hs : ∀ m, ∀ j ∈ tget s.drawing.queues m, j.port = m) : s.choose.drawing.outstanding n = [] := by
  unfold State.choose
  rw [h]; dsimp only
  cases h2 : s.drawing.choice with
  | none => simp [Drawing.outstanding, Drawing.inFlightOf, h, hq]
  | some m =>
    dsimp only
    cases h3 : tget s.drawing.queues m with
    | nil => simp [Drawing.outstanding, Drawing.inFlightOf, h, hq]
    | cons j r =>
      have hm : m ≠ n := by rintro rfl; rw [h3] at hq; cases hq
      have hj : j.port = m := hs m j (by rw [h3]; simp)
      simp [Drawing.outstanding, Drawing.inFlightOf, State.withDrawing, hj, hm, tget_tput_ne, hq]

/-- After the abort a port has no job left, and numbers and page counts stand (R93). -/
theorem State.abortJobs_outstanding (s : State) (n : Port) (hs : s.drawing.sound) : (s.abortJobs n).drawing.outstanding n = [] ∧ 
   (s.abortJobs n).drawing.issued = s.drawing.issued ∧ (s.abortJobs n).drawing.completed = s.drawing.completed ∧ (s.abortJobs n).surfaces.pageCount = s.surfaces.pageCount := by
  have hd : ∀ (m : Surfaces) js, (m.dropJobs js).pageCount = m.pageCount := by
    intro m js
    unfold Surfaces.dropJobs
    refine foldl_same (fun m : Surfaces => m.pageCount) _ (fun m j => ?_) js m
    unfold Surfaces.mapJob Surfaces.mapHandle Surfaces.mapSurface
    repeat' split
    all_goals rfl
  unfold State.abortJobs
  split
  · obtain ⟨d1, d2, d3⟩ := State.drawOn_drawing s
    dsimp only
    refine ⟨State.choose_outstanding _ n rfl ?_ ?_, ?_, ?_, ?_⟩
    · show tget (tput _ n []) n = []; simp
    · intro m j hj
      by_cases e : n = m
      · subst e; change j ∈ tget (tput _ n []) n at hj; simp at hj
      · change j ∈ tget (tput _ n []) m at hj
        rw [tget_tput_ne _ _ _ _ e, d1] at hj
        exact (hs m).2 j hj
    · rw [(State.choose_numbers _).1]; exact d2
    · rw [(State.choose_numbers _).2]; exact d3
    · rw [State.choose_surfaces]; show (Surfaces.dropJobs _ _).pageCount = _; rw [hd, State.drawOn_surfaces]
  · rename_i h
    refine ⟨?_, rfl, rfl, hd _ _⟩
    unfold Drawing.outstanding
    show (Drawing.inFlightOf _ n).toList ++ tget (tput _ n []) n = []
    have : Drawing.inFlightOf ({ s.drawing with queues := tput s.drawing.queues n [] }) n = s.drawing.inFlightOf n := rfl
    simp only [State.withDrawing_drawing]
    rw [this, h]; simp

/-- A choice and the answer to a request do not touch each other. -/
theorem State.choose_answer (s : State) (n : Port) (tag) (p) : s.choose.answer n tag p = (s.answer n tag p).choose := by
  unfold State.choose
  cases h : s.drawing.inFlight with
  | some f => 
    have : (s.answer n tag p).drawing.inFlight = some f := h
    rw [this]
  | none =>
    have : (s.answer n tag p).drawing = s.drawing := rfl
    rw [this, h]; dsimp only
    cases h2 : s.drawing.choice with
    | none => rfl
    | some m =>
      dsimp only
      cases h3 : tget s.drawing.queues m with
      | nil => rfl
      | cons j r => rfl

/-! ### Pixels and the rectangle of a job -/

/-- A pixel has 2 or 4 bytes (R56). -/
theorem Format.bytes_cases (f : Format) : f.bytes = 2 ∨ f.bytes = 4 := by cases f <;> decide

/-- Every pixel has an address, within one page. -/
theorem Surface.address_pixel (g : Surface) (h : g.laidOut) (c r : Nat) (hc : c < g.width) (hr : r < g.height) :
    ∃ p, g.pageList[g.pixelOffset c r / 4096]? = some p ∧ g.address (g.pixelOffset c r) = some (p * 4096 + g.pixelOffset c r % 4096) ∧
      g.pixelOffset c r % 4096 + g.format.bytes ≤ 4096 ∧ g.pixelOffset c r % g.format.bytes = 0 := by
  obtain ⟨_, h2, h3, h4⟩ := h
  have hb := Format.bytes_cases g.format
  have hmul : (c + 1) * g.format.bytes ≤ g.stride := Nat.le_trans (Nat.mul_le_mul_right _ hc) h3
  have hst : (r + 1) * g.stride ≤ g.stride * g.height := by rw [Nat.mul_comm]; exact Nat.mul_le_mul_left _ hr
  obtain ⟨k, hk⟩ : ∃ k, g.stride = 64 * k := ⟨g.stride / 64, by omega⟩
  have hlt : g.pixelOffset c r < 4096 * g.pageList.length := by
    unfold Surface.pixelOffset
    rw [Nat.add_mul] at hmul hst
    rcases hb with hb | hb <;> rw [hb] at hmul ⊢ <;> omega
  have hmod : g.pixelOffset c r % g.format.bytes = 0 := by
    unfold Surface.pixelOffset
    rw [hk]
    rcases hb with hb | hb <;> rw [hb]
    · have : r * (64 * k) = 2 * (r * (32 * k)) := by rw [show 64 * k = 2 * (32 * k) by omega, Nat.mul_left_comm]
      omega
    · have : r * (64 * k) = 4 * (r * (16 * k)) := by rw [show 64 * k = 4 * (16 * k) by omega, Nat.mul_left_comm]
      omega
  have hi : g.pixelOffset c r / 4096 < g.pageList.length := by omega
  refine ⟨g.pageList[g.pixelOffset c r / 4096], List.getElem?_eq_getElem hi, ?_, ?_, hmod⟩
  · unfold Surface.address Config.pageSize
    rw [List.getElem?_eq_getElem hi]; rfl
  · rcases hb with hb | hb <;> rw [hb] at hmod ⊢ <;> omega

/-- Different pixels have different bytes. -/
theorem Surface.address_apart (g : Surface) (h : g.laidOut) (c r c' r' x y : Nat) (hc : c < g.width) (hr : r < g.height)
    (hc' : c' < g.width) (hr' : r' < g.height) (hx : g.address (g.pixelOffset c r) = some x)
    (hy : g.address (g.pixelOffset c' r') = some y) (hne : (c, r) ≠ (c', r')) :
    x + g.format.bytes ≤ y ∨ y + g.format.bytes ≤ x := by
  obtain ⟨p, hp, ha, hb, hm⟩ := g.address_pixel h c r hc hr
  obtain ⟨p', hp', ha', hb', hm'⟩ := g.address_pixel h c' r' hc' hr'
  rw [ha] at hx; rw [ha'] at hy
  injection hx with hx; injection hy with hy
  have hbc := Format.bytes_cases g.format
  have hoff : g.pixelOffset c r ≠ g.pixelOffset c' r' := by
    intro e
    apply hne
    have hmul : (c + 1) * g.format.bytes ≤ g.stride := Nat.le_trans (Nat.mul_le_mul_right _ hc) h.2.2.1
    have hmul' : (c' + 1) * g.format.bytes ≤ g.stride := Nat.le_trans (Nat.mul_le_mul_right _ hc') h.2.2.1
    rw [Nat.add_mul] at hmul hmul'
    unfold Surface.pixelOffset at e
    have hr2 : r = r' := by
      rcases Nat.lt_trichotomy r r' with hh | hh | hh
      · have : (r + 1) * g.stride ≤ r' * g.stride := Nat.mul_le_mul_right _ hh
        rw [Nat.add_mul] at this
        rcases hbc with hbc | hbc <;> rw [hbc] at hmul hmul' e <;> omega
      · exact hh
      · have : (r' + 1) * g.stride ≤ r * g.stride := Nat.mul_le_mul_right _ hh
        rw [Nat.add_mul] at this
        rcases hbc with hbc | hbc <;> rw [hbc] at hmul hmul' e <;> omega
    subst hr2
    have : c = c' := by rcases hbc with hbc | hbc <;> rw [hbc] at e <;> omega
    rw [this]
  by_cases hpage : g.pixelOffset c r / 4096 = g.pixelOffset c' r' / 4096
  · rw [hpage] at hp
    have : p = p' := by rw [hp] at hp'; injection hp'
    subst this
    rcases hbc with hbc | hbc <;> rw [hbc] at hm hm' ⊢ <;> omega
  · have hpp : p ≠ p' := by
      intro e; subst e
      apply hpage
      obtain ⟨i1, e1⟩ := List.getElem?_eq_some_iff.mp hp
      obtain ⟨i2, e2⟩ := List.getElem?_eq_some_iff.mp hp'
      exact (List.getElem_inj h.1).mp (e1.trans e2.symm)
    omega

/-- The bytes of a pixel just written read back, and every other byte reads as before. -/
theorem readPixel_writePixel (m : Memory) (g : Surface) (c r a : Nat) (bs : List Byte) (hm : Memory.wf m = true)
    (ha : g.address (g.pixelOffset c r) = some a) (hl : bs.length = g.format.bytes) :
    readPixel (writePixel m g c r bs) g c r = bs := by
  unfold readPixel writePixel
  rw [ha]; dsimp only
  rw [List.take_of_length_le (by omega)]
  apply List.ext_getElem
  · simp [hl]
  · intro i h1 h2
    simp only [List.getElem_map, List.getElem_range', Nat.one_mul]
    rw [Memory.read_writeBytes hm, if_pos (by omega)]
    simp [List.getD_eq_getElem?_getD, h2]

/-- The bytes outside a pixel written read as before. -/
theorem read_writePixel (m : Memory) (g : Surface) (c r x : Nat) (bs : List Byte) (hm : Memory.wf m = true)
    (h : ∀ a, g.address (g.pixelOffset c r) = some a → ¬ (a ≤ x ∧ x < a + g.format.bytes)) :
    Memory.read (writePixel m g c r bs) x = Memory.read m x := by
  unfold writePixel
  split
  · rename_i a ha
    rw [Memory.read_writeBytes hm, if_neg]
    have := h a ha
    simp only [List.length_take]; omega
  · rfl

/-- The bytes outside the pixels written read as before. -/
theorem InFlight.read_writePositions (f : InFlight) (g : Surface) (ps : List (Nat × Nat)) (x : Nat) :
    ∀ m : Memory, Memory.wf m = true →
      (∀ p ∈ ps, ∀ a, g.address (g.pixelOffset (f.job.x + p.1) (f.job.y + p.2)) = some a → ¬ (a ≤ x ∧ x < a + g.format.bytes)) →
      Memory.read (f.writePositions g m ps) x = Memory.read m x := by
  induction ps with
  | nil => intro m _ _; rfl
  | cons p ps ih =>
    intro m hm h
    show Memory.read (f.writePositions g (writePixel m g _ _ _) ps) x = _
    rw [ih _ (writePixel_wf _ _ _ _ _ hm) (fun q hq => h q (List.mem_cons_of_mem _ hq)), read_writePixel _ _ _ _ _ _ hm (h p (List.mem_cons_self ..))]

/-- Writing distinct positions leaves each with its bytes. -/
theorem InFlight.readPixel_writePositions (f : InFlight) (g : Surface) (hg : g.laidOut) (p : Nat × Nat) (ps : List (Nat × Nat)) 
    (hin : ∀ q ∈ ps, f.job.x + q.1 < g.width ∧ f.job.y + q.2 < g.height)
    (hl : (f.pixelAt g.format.bytes p).length = g.format.bytes) :
    ∀ m : Memory, Memory.wf m = true → ps.Nodup → p ∈ ps →
      readPixel (f.writePositions g m ps) g (f.job.x + p.1) (f.job.y + p.2) = f.pixelAt g.format.bytes p := by
  induction ps with
  | nil => intro m _ _ h; cases h
  | cons q ps ih =>
    intro m hm hn hp
    have hn := List.nodup_cons.mp hn
    have hq := hin q (List.mem_cons_self ..)
    by_cases e : p ∈ ps
    · exact ih (fun q hq => hin q (List.mem_cons_of_mem _ hq)) _ (writePixel_wf _ _ _ _ _ hm) hn.2 e
    · have hpq : p = q := by simpa [e] using hp
      subst hpq
      obtain ⟨pg, _, ha, _, _⟩ := g.address_pixel hg _ _ hq.1 hq.2
      show readPixel (f.writePositions g (writePixel m g _ _ _) ps) g _ _ = _
      refine Eq.trans ?_ (readPixel_writePixel m g _ _ _ _ hm ha hl)
      unfold readPixel
      rw [ha]; dsimp only
      apply List.map_congr_left
      intro x hx
      refine InFlight.read_writePositions f g ps x _ (writePixel_wf _ _ _ _ _ hm) ?_
      intro r hr a' ha'
      have hr' := hin r (List.mem_cons_of_mem _ hr)
      have hne : (f.job.x + p.1, f.job.y + p.2) ≠ (f.job.x + r.1, f.job.y + r.2) := by
        intro hh
        apply e
        have : p = r := by injection hh with h1 h2; exact Prod.ext (by omega) (by omega)
        rw [this]; exact hr
      have := g.address_apart hg _ _ _ _ _ _ hq.1 hq.2 hr'.1 hr'.2 ha ha' hne
      simp only [List.mem_range'_1] at hx
      omega

/-- The positions of a rectangle, each once. -/
theorem mem_rectPositions (w h a b : Nat) : (a, b) ∈ rectPositions w h ↔ a < w ∧ b < h := by
  unfold rectPositions
  simp only [List.mem_flatMap, List.mem_map, List.mem_range'_1, Prod.mk.injEq]
  constructor
  · rintro ⟨j, hj, i, hi, rfl, rfl⟩; omega
  · rintro ⟨h1, h2⟩; exact ⟨b, by omega, a, by omega, rfl, rfl⟩

/-- Row by row no position comes twice. -/
theorem nodup_rows (xs ys : List Nat) (hx : xs.Nodup) (hy : ys.Nodup) :
    (ys.flatMap (fun b => xs.map (fun a => (a, b)))).Nodup := by
  unfold List.Nodup
  rw [List.pairwise_flatMap]
  refine ⟨fun b _ => ?_, ?_⟩
  · rw [List.pairwise_map]
    exact hx.imp (fun h e => h (congrArg Prod.fst e))
  · exact hy.imp (fun h p hp q hq e => by
      simp only [List.mem_map] at hp hq
      obtain ⟨_, _, rfl⟩ := hp
      obtain ⟨_, _, rfl⟩ := hq
      exact h (congrArg Prod.snd e))

/-- Reversal keeps a list without repetition. -/
theorem nodup_reversed {l : List Nat} (h : l.Nodup) : l.reverse.Nodup :=
  List.pairwise_reverse.mpr (List.Pairwise.imp Ne.symm h)

/-- A job that writes writes every position of its rectangle once. -/
theorem Job.writeOrder_spec (j : Job) (hw : j.work ≠ .checksum) :
    j.writeOrder.Nodup ∧ ∀ a b, (a, b) ∈ j.writeOrder ↔ a < j.w ∧ b < j.h := by
  have base : (rectPositions j.w j.h).Nodup ∧ ∀ a b, (a, b) ∈ rectPositions j.w j.h ↔ a < j.w ∧ b < j.h :=
    ⟨nodup_rows _ _ List.nodup_range' List.nodup_range', mem_rectPositions _ _⟩
  unfold Job.writeOrder
  split
  · split
    · split
      · refine ⟨nodup_rows _ _ List.nodup_range' (nodup_reversed List.nodup_range'), fun a b => ?_⟩
        rw [← base.2 a b]; unfold rectPositions; simp [List.mem_flatMap]
      · split
        · refine ⟨nodup_rows _ _ (nodup_reversed List.nodup_range') List.nodup_range', fun a b => ?_⟩
          rw [← base.2 a b]; unfold rectPositions; simp [List.mem_flatMap]
        · exact base
    · exact base
  · exact base
  · exact base
  · rename_i h; exact absurd h hw

end Sys2Proof.Machine
end

