-- ==== Sys2Proof/Laws/Sessions.lean ====
section
/-! SUPPORT. Token, teardown start and the return of a port's resources: what each leaves of the port that it is about. -/

namespace Sys2Proof.Machine

/-- Passing the token keeps the waiting list right (R138). -/
theorem State.passToken_sound (s : State) (h : s.layouts.tokenSound) : s.passToken.layouts.tokenSound := by
  obtain ⟨h1, h2, h3⟩ := h
  unfold State.passToken
  split
  · rename_i q rest e
    rw [e] at h1
    have := List.nodup_cons.mp h1
    refine ⟨this.2, ?_, ?_⟩
    · intro n hn; simp [LayoutController.withToken] at hn; exact hn ▸ this.1
    · intro hn; simp [LayoutController.withToken] at hn
  · exact ⟨by simp [LayoutController.withToken], by simp [LayoutController.withToken], by simp [LayoutController.withToken]⟩

/-- A teardown start keeps the waiting list right (R140). -/
theorem State.dropToken_sound (s : State) (n : Port) (h : s.layouts.tokenSound) : (s.dropToken n).layouts.tokenSound := by
  unfold State.dropToken
  split
  · exact State.passToken_sound s h
  · obtain ⟨h1, h2, h3⟩ := h
    refine ⟨h1.filter _, ?_, ?_⟩
    · intro m hm hmem
      exact h2 m hm (List.mem_filter.mp hmem).1
    · intro hn; simp [LayoutController.withToken] at hn ⊢; simp [h3 hn]

/-- Freeing a window frees its slot and no other. -/
theorem State.freeWindow_owner (s : State) (w v : WinSlot) : tget (s.freeWindow w).layouts.owners v = if w = v then none else tget s.layouts.owners v := by
  unfold State.freeWindow
  split
  · rename_i h; split
    · rename_i e; rw [← e]; exact h
    · rfl
  · show tget (tput _ _ _) v = _; rw [tget_tput]

/-- Returning a port's resources leaves it none, and all its counts 0 (R35). -/
theorem State.returnResources_returned (s : State) (n : Port) : tget (s.returnResources n).surfaces.pageCount n = 0 ∧ tget (s.returnResources n).surfaces.surfCount n = 0 ∧ tget (s.returnResources n).layouts.winCount n = 0 ∧
   (∀ w, tget (s.returnResources n).layouts.owners w ≠ some n) ∧ (∀ i f, (tget (s.returnResources n).surfaces.slots i).surface = some f → f.owner ≠ n) := by
  unfold State.returnResources
  refine ⟨by show tget (tput _ n 0) n = 0; simp, by show tget (tput _ n 0) n = 0; simp, by show tget (tput _ n 0) n = 0; simp, ?_, ?_⟩
  · intro w
    show tget (s.freeWindowsOf n).layouts.owners w ≠ some n
    unfold State.freeWindowsOf
    refine foldl_last (fun s w => tget s.layouts.owners w ≠ some n) (fun s w => if tget s.layouts.owners w = some n then s.freeWindow w else s) ?_ ?_ _ s w (mem_allSlots w)
    · intro a b c h; split
      · rw [State.freeWindow_owner]; split; simp; exact h
      · exact h
    · intro a b; split
      · rw [State.freeWindow_owner]; simp
      · assumption
  · exact fun i => Surfaces.freeOwned_owner _ n i

/-- Teardown start: the session record, the link, the port's jobs, commits, windows and claim on the token (R32). -/
theorem State.teardownStart_spec (s : State) (n : Port) (cause) (label) (hd : s.drawing.sound) (hk : s.layouts.tokenSound) : 
   ∃ t, t = (s.teardownStart n cause label) ∧
      t.session n = { s.session n with state := .closing, cause := cause, pendingLabel := label, headWait := .teardown } ∧
      t.link n = (s.link n).teardownStart ∧ 
      t.drawing.outstanding n = [] ∧ t.drawing.issued = s.drawing.issued ∧ t.drawing.completed = s.drawing.completed ∧
      t.layouts.commits = s.layouts.commits.filter (fun p => p.port ≠ n) ∧
      (∀ w, tget s.layouts.owners w = some n →
        (∀ k, w ∉ t.layouts.projected.bands.list k) ∧
          ∀ r, t.layouts.projected.record w = some r → r.state = .withdrawn) ∧
      t.layouts.projectedLoad = loadTable s.scan.timing t.layouts.projected ∧
      (s.layouts.holder ≠ some n →
        t.layouts.holder = s.layouts.holder ∧ t.layouts.waiting = s.layouts.waiting.filter (· != n)) ∧
      (s.layouts.holder = some n → s.layouts.waiting = [] → t.layouts.holder = none ∧ t.layouts.waiting = []) ∧
      (∀ q rest, s.layouts.holder = some n → s.layouts.waiting = q :: rest →
        t.layouts.holder = some q ∧ t.layouts.waiting = rest ∧ t.link q = (s.link q).post [0x04]) ∧
      t.layouts.applied = s.layouts.applied ∧ t.layouts.owners = s.layouts.owners ∧ t.scan = s.scan ∧
      t.surfaces.pageCount = s.surfaces.pageCount ∧ ∀ m, m ≠ n → t.session m = s.session m := by
  refine ⟨_, rfl, ?_⟩
  unfold State.teardownStart
  generalize h1 : (s.mapSession n (fun c => { c with state := .closing, cause := cause, pendingLabel := label, headWait := .teardown })).mapLink n Link.teardownStart = s1
  have e1 : s1.drawing = s.drawing := by subst h1; rfl
  have e2 : s1.layouts = s.layouts := by subst h1; rfl
  have e3 : s1.scan = s.scan := by subst h1; rfl
  have e4 : s1.surfaces = s.surfaces := by subst h1; rfl
  have e5 : s1.session n = { s.session n with state := .closing, cause := cause, pendingLabel := label, headWait := .teardown } := by subst h1; simp
  have e6 : ∀ m, m ≠ n → s1.session m = s.session m := by
    intro m hm; subst h1; 
    show tget (tput _ _ _) m = _
    rw [tget_tput_ne _ _ _ _ (Ne.symm hm)]; rfl
  have e7 : s1.link n = (s.link n).teardownStart := by subst h1; simp
  have e8 : ∀ m, m ≠ n → s1.link m = s.link m := by
    intro m hm; subst h1
    show tget (tput _ _ _) m = _
    rw [tget_tput_ne _ _ _ _ (Ne.symm hm)]; rfl
  obtain ⟨a1, a2, a3, a4⟩ := State.abortJobs_outstanding s1 n (by rw [e1]; exact hd)
  generalize h2 : s1.abortJobs n = s2 at *
  have f1 : s2.layouts = s.layouts := by rw [← h2]; simp [e2]
  have f2 : s2.links = s1.links := by rw [← h2]; simp
  have f3 : s2.sessions = s1.sessions := by rw [← h2]; simp
  have f4 : s2.scan = s.scan := by rw [← h2]; simp [e3]
  unfold State.teardownLayouts
  dsimp only
  generalize h3 : (s2.dropCommits n) = s3
  have g1 : s3.links = s1.links := by rw [← h3]; simp [f2]
  have g2 : s3.sessions = s1.sessions := by rw [← h3]; simp [f3]
  have g3 : s3.scan = s.scan := by rw [← h3]; simp [f4]
  have g4 : s3.drawing = s2.drawing := by rw [← h3]; simp
  have g5 : s3.layouts = { s.layouts with commits := s.layouts.commits.filter (fun p => p.port ≠ n) } := by
    rw [← h3]; unfold State.dropCommits; rw [f1]; simp
  have g6 : s3.surfaces.pageCount = s.surfaces.pageCount := by
    rw [← e4, ← a4, ← h3]
    unfold State.dropCommits
    simp only [State.withLayouts_surfaces, State.withSurfaces_surfaces]
    refine foldl_same (fun m : Surfaces => m.pageCount) _ (fun m j => ?_) _ _
    unfold Surfaces.mapQueued
    refine foldl_same (fun m : Surfaces => m.pageCount) _ (fun m j => ?_) _ _
    unfold Surfaces.mapHandle Surfaces.mapSurface
    repeat' split
    all_goals rfl
  generalize h4 : (s3.withLayouts _).withLayouts _ = s4
  have i1 : s4.links = s1.links := by rw [← h4]; exact g1
  have i2 : s4.sessions = s1.sessions := by rw [← h4]; exact g2
  have i3 : s4.scan = s.scan := by rw [← h4]; exact g3
  have i4 : s4.drawing = s2.drawing := by rw [← h4]; exact g4
  have i6 : s4.surfaces.pageCount = s.surfaces.pageCount := by rw [← h4]; exact g6
  have i5 : s4.layouts = { s.layouts with commits := s.layouts.commits.filter (fun p => p.port ≠ n), projected := s.layouts.projected.withdrawOwned s.layouts.owners n, projectedLoad := loadTable s.scan.timing (s.layouts.projected.withdrawOwned s.layouts.owners n) } := by
    rw [← h4]; simp [g5, g3]
  have hlink : ∀ m, m ∉ s.layouts.waiting → (s4.dropToken n).link m = s4.link m := by
    intro m hm
    unfold State.dropToken State.passToken
    split
    · split
      · rename_i q rest hw
        have : q ≠ m := by rintro rfl; apply hm; rw [i5] at hw; simp at hw; rw [hw]; simp
        show tget (tput _ _ _) m = _
        rw [tget_tput_ne _ _ _ _ this]; rfl
      · rfl
    · rfl
  have hlay : (s4.dropToken n).layouts = if s.layouts.holder = some n then (match s.layouts.waiting with | q :: rest => s4.layouts.withToken (some q) rest | [] => s4.layouts.withToken none []) else s4.layouts.withToken s.layouts.holder (s.layouts.waiting.filter (· != n)) := by
    unfold State.dropToken State.passToken
    rw [i5]
    split
    · dsimp only; split <;> rename_i hw <;> rw [hw] <;> rfl
    · rfl
  refine ⟨?_, ?_, ?_, ?_, ?_, ?_, ?_, ?_, ?_, ?_, ?_, ?_, ?_, ?_, ?_, ?_⟩
  · unfold State.session; rw [State.dropToken_sessions, i2]; exact e5
  · by_cases hh : n ∈ s.layouts.waiting
    · have hne : s.layouts.holder ≠ some n := fun h => hk.2.1 n h hh
      unfold State.dropToken
      rw [if_neg (by rw [i5]; exact hne)]
      show tget s4.links n = _; rw [i1]; exact e7
    · rw [hlink n hh]; unfold State.link; rw [i1]; exact e7
  · rw [State.dropToken_drawing, i4]; exact a1
  · rw [State.dropToken_drawing, i4, a2, e1]
  · rw [State.dropToken_drawing, i4, a3, e1]
  · rw [hlay, i5]; repeat' split
    all_goals rfl
  · intro w hw
    have : (s4.dropToken n).layouts.projected = s.layouts.projected.withdrawOwned s.layouts.owners n := by
      rw [hlay, i5]; repeat' split
      all_goals rfl
    rw [this]; exact Layout.withdrawOwned_all _ _ _ _ hw
  · rw [hlay, i5]; repeat' split
    all_goals rfl
  · intro h; rw [hlay, if_neg h]; exact ⟨rfl, rfl⟩
  · intro h h'; rw [hlay, if_pos h, h']; exact ⟨rfl, rfl⟩
  · intro q rest h h'
    refine ⟨?_, ?_, ?_⟩
    · rw [hlay, if_pos h, h']; rfl
    · rw [hlay, if_pos h, h']; rfl
    · have hqn : q ≠ n := by rintro rfl; exact hk.2.1 q h (by rw [h']; simp)
      unfold State.dropToken State.passToken
      rw [i5]; dsimp only
      rw [if_pos h, h']; dsimp only
      show tget (tput _ q _) q = _
      rw [tget_tput_same]
      show (tget s4.links q).post _ = _
      rw [i1]; show (s1.link q).post _ = _; rw [e8 q hqn]; rfl
  · rw [hlay, i5]; repeat' split
    all_goals rfl
  · rw [hlay, i5]; repeat' split
    all_goals rfl
  · rw [State.dropToken_scan, i3]
  · rw [State.dropToken_surfaces, i6]
  · intro m hm; unfold State.session; rw [State.dropToken_sessions, i2]; exact e6 m hm

end Sys2Proof.Machine
end

