-- ==== Sys2Proof/Laws/Boundary.lean ====
section
/-! SUPPORT. The frame boundary: what its steps leave of the scan engine, of a window's age, and what a boundary comes to when no
commit is pending and no port CLOSING. -/

namespace Sys2Proof.Machine

/-! ### The scan engine at a boundary -/

/-- While RUNNING no request changes the scan engine (R40). -/
theorem State.serveSetTiming_running (s : State) (p : List Byte) (t : Timing) (h : s.scan.timing = some t) :
    (s.serveSetTiming p).1 = s := by
  unfold State.serveSetTiming
  split
  · rfl
  · split
    · rfl
    · rw [h]; dsimp only; split <;> rfl

theorem State.serve_scan (s : State) (n : Port) (r : Request) (t : Timing) (h : s.scan.timing = some t) :
    (s.serve n r).holds (fun u => u.scan = s.scan) := by
  have hb : ∀ c l, (s.beginTeardown n c l).holds (fun u => u.scan = s.scan) := by
    intro c l
    unfold State.beginTeardown
    simp only [h, Option.isNone_some, Bool.false_eq_true, if_false]
    show (s.teardownStart n c l).scan = s.scan
    simp
  have hd : ∀ k q, (s.serveDrawingKind n k q).holds (fun u => u.scan = s.scan) := by
    intro k q
    unfold State.serveDrawingKind
    split
    · exact State.serveDrawing_scan _ _ _ _
    · trivial
  unfold State.serve
  split
  · rfl
  · split
    · rfl
    · split
      · rfl
      · rename_i k _ _ _
        cases k <;> simp only [State.carryOut]
        case openSession =>
          unfold State.serveOpen
          split
          · exact State.openSession_scan _ _ _
          · exact hb _ _
          · trivial
        case closeSession =>
          unfold State.serveClose
          split
          · rfl
          · exact hb _ _
          · trivial
        case setTiming =>
          show (s.serveSetTiming r.payload).1.scan = s.scan
          rw [State.serveSetTiming_running s _ t h]
        case createSurface => exact State.serveCreateSurface_scan _ _ _
        case destroySurface =>
          unfold State.serveDestroySurface
          split
          · rfl
          · trivial
          · rfl
        case createWindow => exact State.serveCreateWindow_scan _ _ _
        case commit => exact State.serveCommit_scan _ _ _ _
        case acquireAlert => exact State.serveAcquireAlert_scan _ _
        case releaseAlert => exact State.serveReleaseAlert_scan _ _
        case write => exact hd _ _
        case fill => exact hd _ _
        case copy => exact hd _ _
        case checksum => exact hd _ _
        all_goals rfl

theorem State.examineHead_scan (s : State) (n : Port) (t : Timing) (h : s.scan.timing = some t) :
    (s.examineHead n).1.scan = s.scan := by
  unfold State.examineHead
  split
  · rfl
  · split
    · rfl
    · split
      · rfl
      · rename_i r _ _ _ _
        have hs := State.serve_scan s n r t h
        split <;> rename_i hv <;> rw [hv] at hs
        · exact hs
        · rfl
        · exact hs
        · exact hs

theorem State.runControllers_scan (k : Nat) : ∀ (todo : List (Port × Bool)) (s : State) (t : Timing), s.scan.timing = some t →
    (State.runControllers k todo s).scan = s.scan := by
  have act : ∀ (s : State) (n : Port) (b : Bool) (t : Timing), s.scan.timing = some t → (s.controllerAct n b).1.scan = s.scan := by
    intro s n b t h
    cases b
    · exact State.examineHead_scan s n t h
    · exact State.teardownFinish_scan s n
  induction k with
  | zero => exact fun _ _ _ _ => rfl
  | succ k ih =>
    intro todo s t h
    match todo with
    | [] => rfl
    | [(n, b)] =>
      have ha := act s n b t h
      show (State.runControllers k _ (s.controllerAct n b).1).scan = s.scan
      rw [ih _ _ t (by rw [ha]; exact h), ha]
    | (n, b) :: y :: rest =>
      simp only [State.runControllers]
      generalize ((n, b) :: y :: rest).getD _ _ = p
      have ha := act s.tick p.1 p.2 t h
      rw [ih _ _ t (by rw [ha]; exact h), ha]; rfl

/-- A boundary advances the frame counter, and leaves record and position (R45). -/
theorem State.boundary_scan (s : State) (t : Timing) (h : s.scan.timing = some t) :
    s.boundary.scan = { s.scan with frame := s.scan.frame + 1, shown := [], fetched := [] } := by
  unfold State.boundary State.finishTeardowns
  rw [State.runControllers_scan _ _ _ t]
  · simp
  · simpa using h

/-! ### Aging -/

/-- Aging changes ages alone among the layouts. -/
theorem State.ageWindows_layouts (s : State) : ∃ f, s.ageWindows.layouts = { s.layouts with fresh := f } := by
  have : ∃ f, ((allSlots 24).foldl State.ageWindow s).layouts = { s.layouts with fresh := f } := by
    refine foldl_keeps (fun t : State => ∃ f, t.layouts = { s.layouts with fresh := f }) State.ageWindow ?_ _ s ⟨_, rfl⟩
    rintro t w ⟨f, hf⟩
    have : ∃ g, (t.ageWindow w).layouts = { t.layouts with fresh := g } := by
      simp only [State.ageWindow]
      repeat' split
      all_goals exact ⟨_, rfl⟩
    obtain ⟨g, hg⟩ := this
    exact ⟨g, by rw [hg, hf]⟩
  obtain ⟨f, hf⟩ := this
  refine ⟨f.map (fun f => { f with refreshed := false }), ?_⟩
  show (((allSlots 24).foldl State.ageWindow s).layouts).clearMarks = _
  rw [hf]; rfl

/-- The age of a window after its aging. -/
def LayoutController.aged (c : LayoutController) (w : WinSlot) : Freshness :=
  if c.ages w then
    if c.deadline w ≤ nextAge (tget c.fresh w).age ∧ (tget c.fresh w).stale = false then
      { tget c.fresh w with age := nextAge (tget c.fresh w).age, stale := true }
    else { tget c.fresh w with age := nextAge (tget c.fresh w).age }
  else tget c.fresh w

theorem State.ageWindow_fresh (s : State) (v w : WinSlot) :
    tget (s.ageWindow v).layouts.fresh w = if v = w then s.layouts.aged v else tget s.layouts.fresh w := by
  unfold LayoutController.aged
  simp only [State.ageWindow]
  split
  · split
    · split <;> (show tget (tput _ v _) w = _; rw [tget_tput])
    · show tget (tput _ v _) w = _; rw [tget_tput]
  · split
    · rename_i e; rw [e]
    · rfl

theorem State.ageWindow_applied (s : State) (v : WinSlot) : (s.ageWindow v).layouts.applied = s.layouts.applied := by
  simp only [State.ageWindow]
  repeat' split
  all_goals rfl

/-- The age of each window after the aging of all: its own aging, and its mark cleared (R145). -/
theorem State.ageWindows_fresh (s : State) (w : WinSlot) :
    tget s.ageWindows.layouts.fresh w = { s.layouts.aged w with refreshed := false } := by
  show tget (Vector.map _ ((allSlots 24).foldl State.ageWindow s).layouts.fresh) w = _
  have hv : ∀ v : Table Freshness 24, tget (v.map (fun f => { f with refreshed := false })) w =
      ({ tget v w with refreshed := false } : Freshness) := by intro v; simp [tget]
  rw [hv]
  have key : ∀ (l : List WinSlot) (t : State), l.Nodup → w ∈ l → t.layouts.applied = s.layouts.applied →
      tget t.layouts.fresh w = tget s.layouts.fresh w →
      tget (l.foldl State.ageWindow t).layouts.fresh w = s.layouts.aged w := by
    intro l
    induction l with
    | nil => intro t _ h; cases h
    | cons x l ih =>
      intro t hn hm ha hf
      have hn := List.nodup_cons.mp hn
      rw [List.foldl_cons]
      by_cases e : x = w
      · subst e
        have hx : tget (t.ageWindow x).layouts.fresh x = s.layouts.aged x := by
          rw [State.ageWindow_fresh, if_pos rfl]
          unfold LayoutController.aged LayoutController.ages LayoutController.deadline
          rw [ha, hf]
        rw [← hx]
        refine foldl_keeps_mem (fun u : State => tget u.layouts.fresh x = tget (t.ageWindow x).layouts.fresh x) State.ageWindow l ?_ _ rfl
        intro u v hm2 hu
        rw [State.ageWindow_fresh, if_neg (by rintro rfl; exact hn.1 hm2), hu]
      · have hm' : w ∈ l := by simpa [Ne.symm e] using hm
        refine ih _ hn.2 hm' (by rw [State.ageWindow_applied, ha]) ?_
        rw [State.ageWindow_fresh, if_neg e, hf]
  rw [key _ s (allSlots_nodup 24) (mem_allSlots w) rfl rfl]

/-! ### A boundary with nothing to apply and no port to tear down -/

theorem foldl_same_all {α β : Type} (f : α → β → α) (l : List β) (a : α) (h : ∀ b, f a b = a) : l.foldl f a = a := by
  induction l with
  | nil => rfl
  | cons x l ih => rw [List.foldl_cons, h, ih]

/-- The boundary then comes to aging alone, on the state with the frame counter advanced and the load tables as computed again. -/
theorem State.frameBoundary_quiet (s : State) (t : Timing) (ht : s.scan.timing = some t) (hc : s.layouts.commits = [])
    (hs : ∀ n, (s.session n).state ≠ .closing) :
    ∃ u : State, u.layouts = s.layouts.reload (some t) ∧ u.sessions = s.sessions ∧ u.surfaces = s.surfaces ∧
      u.links = s.links ∧
      u.scan = { s.scan with pos := some (t.vactive - 1, t.hactive), frame := s.scan.frame + 1, shown := [], fetched := [] } ∧
      u.drawing.queues = s.drawing.queues ∧ s.frameBoundary = u.ageWindows := by
  generalize hS : (State.withScan (s.drawOn.withScan { s.drawOn.scan with pos := some (t.vactive - 1, t.hactive) })
    { s.drawOn.scan with pos := some (t.vactive - 1, t.hactive), frame := s.drawOn.scan.frame + 1, shown := [], fetched := [] }) = S
  have s1 : S.sessions = s.sessions := by rw [← hS]; simp
  have s2 : S.layouts = s.layouts := by rw [← hS]; simp
  have s3 : S.scan =
      { s.scan with pos := some (t.vactive - 1, t.hactive), frame := s.scan.frame + 1, shown := [], fetched := [] } := by
    rw [← hS, ← State.drawOn_scan s]; rfl
  have hfb : s.frameBoundary = (S.withdrawClosing.applyCommits.ageWindows).finishTeardowns := by
    unfold State.frameBoundary; rw [ht]; dsimp only
    rw [← hS]; rfl
  have hw : S.withdrawClosing = S.reload := by
    unfold State.withdrawClosing
    congr 1
    refine foldl_same_all _ _ _ (fun w => ?_)
    split
    · rename_i n _
      rw [if_neg]; unfold State.session; rw [s1]; exact hs n
    · rfl
  have ha : S.reload.applyCommits = S.reload := by
    unfold State.applyCommits
    have : S.reload.layouts.commits = [] := by show S.layouts.commits = []; rw [s2, hc]
    rw [this]; rfl
  have hcl : (S.reload.ageWindows).closingPorts = [] := by
    unfold State.closingPorts
    rw [List.filter_eq_nil_iff]
    intro n _
    have : (S.reload.ageWindows).session n = s.session n := by
      unfold State.session
      rw [State.ageWindows_sessions]
      show tget S.sessions n = _
      rw [s1]
    rw [this]; simpa using hs n
  refine ⟨S.reload, ?_, s1, ?_, ?_, s3, ?_, ?_⟩
  · show S.layouts.reload S.scan.timing = _; rw [s2, s3]; dsimp only; rw [ht]
  · show S.surfaces = _; rw [← hS]; simp
  · show S.links = _; rw [← hS]; simp
  · show S.drawing.queues = _; rw [← hS]; exact (State.drawOn_drawing s).1
  · rw [hfb, hw, ha]
    unfold State.finishTeardowns
    rw [hcl]; rfl

end Sys2Proof.Machine
end

