-- ==== Sys2Proof/Laws/References.lean ====
section
/-! SUPPORT. The reference counts of surfaces: each operation that raises or lowers them, said as one change of every surface record
by a sum (R64 to R66). -/

namespace Sys2Proof.Machine

/-- Surface managers with equal slots and equal accounts are equal. -/
theorem Surfaces.ext_slots {m k : Surfaces} (h : ∀ i, tget m.slots i = tget k.slots i) (h1 : m.freePages = k.freePages)
    (h2 : m.pageCount = k.pageCount) (h3 : m.surfCount = k.surfCount) : m = k := by
  cases m; cases k
  simp only at h1 h2 h3
  rw [h1, h2, h3]; congr 1; exact table_ext _ _ h

@[simp] theorem tget_tabulate {α : Type} {n : Nat} (f : Fin n → α) (i : Fin n) : tget (tabulate f) i = f i := by
  unfold tabulate
  simp [tget]

@[simp] theorem Surfaces.changed_freePages (m : Surfaces) (f) : (m.changed f).freePages = m.freePages := rfl
@[simp] theorem Surfaces.changed_pageCount (m : Surfaces) (f) : (m.changed f).pageCount = m.pageCount := rfl
@[simp] theorem Surfaces.changed_surfCount (m : Surfaces) (f) : (m.changed f).surfCount = m.surfCount := rfl

theorem Surfaces.changed_slot (m : Surfaces) (f : SurfSlot → Surface → Surface) (i : SurfSlot) :
    tget (m.changed f).slots i = ⟨(tget m.slots i).gen, (tget m.slots i).surface.map (f i)⟩ := by
  unfold Surfaces.changed
  exact tget_tabulate _ i

/-- Two changes in turn are one. -/
theorem Surfaces.changed_changed (m : Surfaces) (f g : SurfSlot → Surface → Surface) :
    (m.changed f).changed g = m.changed (fun i s => g i (f i s)) := by
  refine Surfaces.ext_slots (fun i => ?_) rfl rfl rfl
  simp only [Surfaces.changed_slot, Option.map_map]
  rfl

/-- A change that leaves every record is none. -/
theorem Surfaces.changed_id (m : Surfaces) (f : SurfSlot → Surface → Surface) (h : ∀ i s, f i s = s) : m.changed f = m := by
  refine Surfaces.ext_slots (fun i => ?_) rfl rfl rfl
  rw [Surfaces.changed_slot]
  have : f i = id := funext (h i)
  rw [this]; simp

/-- A change of the surface that a handle's slot field names. -/
theorem Surfaces.mapHandle_changed (m : Surfaces) (h : Nat) (f : Surface → Surface) :
    m.mapHandle h f = m.changed (fun i s => if h % 64 = i.val then f s else s) := by
  have keep : ∀ e : SurfaceEntry, e = ⟨e.gen, e.surface.map (fun s => s)⟩ := by
    intro e; cases e; simp
  unfold Surfaces.mapHandle surfaceSlotOf
  by_cases hh : h % 64 < 48
  · rw [dif_pos hh]
    refine Surfaces.ext_slots (fun i => ?_) rfl rfl rfl
    rw [Surfaces.changed_slot]
    show tget (tmod m.slots ⟨h % 64, hh⟩ _) i = _
    rw [tget_tmod]
    by_cases e : h % 64 = i.val
    · have : (⟨h % 64, hh⟩ : SurfSlot) = i := Fin.ext e
      simp [e, this]
    · have : (⟨h % 64, hh⟩ : SurfSlot) ≠ i := fun k => e (congrArg Fin.val k)
      simp only [this, e, if_false]
      exact keep _
  · rw [dif_neg hh]
    refine Surfaces.ext_slots (fun i => ?_) rfl rfl rfl
    rw [Surfaces.changed_slot]
    have : h % 64 ≠ i.val := fun e => hh (e ▸ i.isLt)
    simp only [this, if_false]
    exact keep _

/-- Surfaces whose records change in nothing but counts name what they named, with the changed record. -/
theorem Surfaces.changed_named (m : Surfaces) (f : SurfSlot → Surface → Surface) (h : Nat) (i : SurfSlot) (g : Surface) :
    (m.changed f).named h = some (i, g) ↔ ∃ k, m.named h = some (i, k) ∧ g = f i k := by
  simp only [Surfaces.named_iff, Surfaces.changed_slot]
  constructor
  · rintro ⟨h1, h2, h3⟩
    obtain ⟨k, hk, hg⟩ := Option.map_eq_some_iff.mp h2
    exact ⟨k, ⟨h1, hk, h3⟩, hg.symm⟩
  · rintro ⟨k, ⟨h1, h2, h3⟩, hg⟩
    exact ⟨h1, by rw [h2, hg]; rfl, h3⟩

/-! ### job_refs (R66) -/

theorem Surfaces.mapJob_raise (m : Surfaces) (j : Job) :
    m.mapJob j Surface.raiseJobs = m.changed (fun i f => { f with jobRefs := f.jobRefs + j.refsOn i }) := by
  unfold Surfaces.mapJob Job.refsOn
  cases j.work <;> simp only [Surfaces.mapHandle_changed, Surfaces.changed_changed] <;> congr 1 <;> funext i f <;>
    simp only [refTo, Surface.raiseJobs] <;> repeat' split
  all_goals rfl

theorem Surfaces.mapJob_lower (m : Surfaces) (j : Job) :
    m.mapJob j Surface.lowerJobs = m.changed (fun i f => { f with jobRefs := f.jobRefs - j.refsOn i }) := by
  unfold Surfaces.mapJob Job.refsOn
  cases j.work <;> simp only [Surfaces.mapHandle_changed, Surfaces.changed_changed] <;> congr 1 <;> funext i f <;>
    simp only [refTo, Surface.lowerJobs] <;> repeat' split
  all_goals rfl

theorem Surfaces.dropJobs_changed (js : List Job) : ∀ m : Surfaces,
    m.dropJobs js = m.changed (fun i f => { f with jobRefs := f.jobRefs - (js.map (fun j => j.refsOn i)).sum }) := by
  unfold Surfaces.dropJobs
  induction js with
  | nil => intro m; exact (Surfaces.changed_id m _ (fun _ _ => rfl)).symm
  | cons j js ih =>
    intro m
    rw [List.foldl_cons, ih, Surfaces.mapJob_lower, Surfaces.changed_changed]
    congr 1; funext i f
    simp only [List.map_cons, List.sum_cons, Nat.sub_sub]

/-! ### queued_refs (R65) -/

theorem Surfaces.mapQueued_cons (m : Surfaces) (op : Op) (ops : List Op) (f : Surface → Surface) :
    m.mapQueued (op :: ops) f =
      (m.changed (fun i s => if 0 < op.refsOn i then f s else s)).mapQueued ops f := by
  unfold Surfaces.mapQueued namedSurfaces
  rw [List.filterMap_cons]
  have none : ∀ k : SurfSlot → Surface → Surface, (∀ i s, k i s = s) → m = m.changed k := fun k h => (Surfaces.changed_id m k h).symm
  cases op
  case source w present surface sx sy =>
    by_cases hp : present = 1
    · simp only [hp, if_true, List.foldl_cons, Surfaces.mapHandle_changed, Op.refsOn]
      congr 2; funext i s
      unfold refTo
      by_cases e : surface % 64 = i.val <;> simp [e]
    · simp only [if_neg hp, Op.refsOn]
      congr 1
      exact none _ (fun i s => by simp)
  all_goals
    simp only [Op.refsOn]
    congr 1
    exact none _ (fun i s => by simp)

theorem Op.refsOn_le (op : Op) (i : SurfSlot) : op.refsOn i ≤ 1 := by
  unfold Op.refsOn refTo
  repeat' split
  all_goals decide

theorem Surfaces.mapQueued_raise (ops : List Op) : ∀ m : Surfaces,
    m.mapQueued ops Surface.raiseQueued =
      m.changed (fun i f => { f with queuedRefs := f.queuedRefs + (ops.map (fun op => op.refsOn i)).sum }) := by
  induction ops with
  | nil => intro m; exact (Surfaces.changed_id m _ (fun _ _ => rfl)).symm
  | cons op ops ih =>
    intro m
    rw [Surfaces.mapQueued_cons, ih, Surfaces.changed_changed]
    congr 1; funext i f
    have := op.refsOn_le i
    simp only [List.map_cons, List.sum_cons, Surface.raiseQueued]
    split
    · have h1 : op.refsOn i = 1 := by omega
      rw [h1]; simp only [Nat.add_assoc]
    · have h1 : op.refsOn i = 0 := by omega
      rw [h1, Nat.zero_add]

theorem Surfaces.mapQueued_lower (ops : List Op) : ∀ m : Surfaces,
    m.mapQueued ops Surface.lowerQueued =
      m.changed (fun i f => { f with queuedRefs := f.queuedRefs - (ops.map (fun op => op.refsOn i)).sum }) := by
  induction ops with
  | nil => intro m; exact (Surfaces.changed_id m _ (fun _ _ => rfl)).symm
  | cons op ops ih =>
    intro m
    rw [Surfaces.mapQueued_cons, ih, Surfaces.changed_changed]
    congr 1; funext i f
    have := op.refsOn_le i
    simp only [List.map_cons, List.sum_cons, Surface.lowerQueued]
    split
    · have h1 : op.refsOn i = 1 := by omega
      rw [h1]; simp only [Nat.sub_sub]
    · have h1 : op.refsOn i = 0 := by omega
      rw [h1, Nat.zero_add]

/-- The references of removed commits fall (R133). -/
theorem Surfaces.dropQueued_changed (ps : List Pending) : ∀ m : Surfaces,
    ps.foldl (fun m p => m.mapQueued p.ops Surface.lowerQueued) m =
      m.changed (fun i f => { f with
        queuedRefs := f.queuedRefs - ((ps.flatMap (fun p => p.ops)).map (fun op => op.refsOn i)).sum }) := by
  induction ps with
  | nil => intro m; exact (Surfaces.changed_id m _ (fun _ _ => rfl)).symm
  | cons p ps ih =>
    intro m
    rw [List.foldl_cons, ih, Surfaces.mapQueued_lower, Surfaces.changed_changed]
    congr 1; funext i f
    simp only [List.flatMap_cons, List.map_append, List.sum_append, Nat.sub_sub]

/-! ### shown_refs (R64) -/

theorem Surfaces.mapShown (m : Surfaces) (l : Layout) (w : WinSlot) (f : Surface → Surface) :
    m.mapSource (l.shownSource w) f = m.changed (fun i s => if 0 < l.refsOn w i then f s else s) := by
  have none : ∀ k : SurfSlot → Surface → Surface, (∀ i s, k i s = s) → m = m.changed k := fun k h => (Surfaces.changed_id m k h).symm
  unfold Layout.shownSource Layout.refsOn
  cases l.record w with
  | none => exact none _ (fun i s => by simp)
  | some r =>
    dsimp only
    obtain ⟨state, band, x, y, width, height, source, sx, sy, opacity, fill, visible, deadline⟩ := r
    unfold WindowRec.refsOn
    by_cases hs : state = .stacked
    · subst hs
      cases source with
      | none => exact none _ (fun i s => by simp)
      | some d =>
        simp only [Surfaces.mapSource, Surfaces.mapHandle_changed, if_true]
        congr 1; funext i s
        unfold refTo
        by_cases e : d.handle % 64 = i.val <;> simp [e]
    · simp only [if_neg hs]
      refine none _ (fun i s => ?_)
      cases source <;> simp

theorem Layout.refsOn_le (l : Layout) (w : WinSlot) (i : SurfSlot) : l.refsOn w i ≤ 1 := by
  unfold Layout.refsOn WindowRec.refsOn refTo
  repeat' split
  all_goals decide

theorem Surfaces.lowerShown_changed (m : Surfaces) (l : Layout) (w : WinSlot) :
    m.mapSource (l.shownSource w) Surface.lowerShown =
      m.changed (fun i f => { f with shownRefs := f.shownRefs - l.refsOn w i }) := by
  rw [Surfaces.mapShown]
  congr 1; funext i f
  have := l.refsOn_le w i
  simp only [Surface.lowerShown]
  split
  · have h1 : l.refsOn w i = 1 := by omega
    rw [h1]
  · have h1 : l.refsOn w i = 0 := by omega
    rw [h1, Nat.sub_zero]

theorem Surfaces.moveShown_changed (m : Surfaces) (l k : Layout) (w : WinSlot) :
    m.moveShown (l.shownSource w) (k.shownSource w) =
      m.changed (fun i f => { f with shownRefs := f.shownRefs + k.refsOn w i - l.refsOn w i }) := by
  unfold Surfaces.moveShown
  rw [Surfaces.lowerShown_changed, Surfaces.mapShown, Surfaces.changed_changed]
  congr 1; funext i f
  have := k.refsOn_le w i
  simp only [Surface.raiseShown]
  split
  · have h1 : k.refsOn w i = 1 := by omega
    rw [h1]
  · have h1 : k.refsOn w i = 0 := by omega
    rw [h1, Nat.add_zero]

end Sys2Proof.Machine
end

