-- ==== Sys2Proof/Laws/Choices.lean ====
section
/-! SUPPORT. The arbiter's choice at a given queue, and the source pixels a COPY takes at it (R85, R89). -/

namespace Sys2Proof.Machine

/-- The choice is the first queue, from the pointer on, that is not empty. -/
theorem Drawing.choice_at (d : Drawing) (k : Fin 4) (j : Job) (rest : List Job) (hq : tget d.queues (d.pointer + k) = j :: rest)
    (hi : ∀ i : Fin 4, i < k → tget d.queues (d.pointer + i) = []) : d.choice = some (d.pointer + k) := by
  unfold Drawing.choice
  generalize d.pointer = p at *
  have hk : (!(tget d.queues (p + k)).isEmpty) = true := by rw [hq]; rfl
  match k with
  | 0 =>
    simp at hk ⊢
    simp [hk]
  | 1 =>
    have a := hi 0 (by decide)
    simp at a hk ⊢
    simp [hk, a]
  | 2 =>
    have a := hi 0 (by decide)
    have b := hi 1 (by decide)
    simp at a b hk ⊢
    simp [hk, a, b]
  | 3 =>
    have a := hi 0 (by decide)
    have b := hi 1 (by decide)
    have c := hi 2 (by decide)
    simp at a b c hk ⊢
    simp [hk, a, b, c]

/-- An IDLE engine takes the head of the first queue from the pointer on that is not empty. -/
theorem State.choose_at (s : State) (k : Fin 4) (j : Job) (rest : List Job) (h : s.drawing.inFlight = none)
    (hq : tget s.drawing.queues (s.drawing.pointer + k) = j :: rest)
    (hi : ∀ i : Fin 4, i < k → tget s.drawing.queues (s.drawing.pointer + i) = []) :
    s.choose = s.withDrawing
      { s.drawing with
        queues := tput s.drawing.queues (s.drawing.pointer + k) rest
        inFlight := some ⟨j, j.takes s.mem s.surfaces, 0⟩
        pointer := s.drawing.pointer + k + 1 } := by
  unfold State.choose
  rw [h]
  dsimp only
  rw [Drawing.choice_at _ k j rest hq hi]
  dsimp only
  rw [hq]

/-- With every queue empty a choice changes nothing. -/
theorem State.choose_empty (s : State) (h : ∀ n, tget s.drawing.queues n = []) : s.choose = s := by
  unfold State.choose
  have none : s.drawing.choice = none := by
    unfold Drawing.choice
    simp [h]
  rw [none]
  split <;> rfl

/-- Position `b * w + a` of a rectangle's pixels, row by row, is column `a` of row `b`. -/
theorem getElem?_rectPositions (w h a b : Nat) (ha : a < w) (hb : b < h) : (rectPositions w h)[b * w + a]? = some (a, b) := by
  unfold rectPositions
  have rows : ∀ (h0 b0 base : Nat), b0 < h0 →
      ((List.range' base h0).flatMap (fun y => (List.range' 0 w).map (fun i => (i, y))))[b0 * w + a]? = some (a, base + b0) := by
    intro h0
    induction h0 with
    | zero => intro b0 base hb; omega
    | succ h0 ih =>
      intro b0 base hb
      rw [List.range'_succ, List.flatMap_cons]
      cases b0 with
      | zero =>
        rw [List.getElem?_append_left (by simp; omega)]
        simp [ha]
      | succ b0 =>
        rw [List.getElem?_append_right (by simp; rw [Nat.succ_mul]; omega)]
        have e : (b0 + 1) * w + a - (List.map (fun i => (i, base)) (List.range' 0 w)).length = b0 * w + a := by
          simp
          rw [Nat.succ_mul]
          omega
        rw [e, ih b0 (base + 1) (by omega)]
        congr 2
        omega
  simpa using rows h b 0 hb

/-- A pixel reads the same through two records of the same pages, stride and format. -/
theorem readPixel_congr (m : Memory) (g k : Surface) (c r : Nat) (h1 : g.pageList = k.pageList) (h2 : g.stride = k.stride)
    (h3 : g.format = k.format) : readPixel m g c r = readPixel m k c r := by
  unfold readPixel Surface.address Surface.pixelOffset
  rw [h1, h2, h3]

/-- What a COPY takes at its choice: the source pixels as memory holds them, whatever reference counts have changed. -/
theorem Job.takes_at (j : Job) (m : Memory) (t : Surfaces) (f : SurfSlot → Surface → Surface)
    (hf : ∀ i s, (f i s).pageList = s.pageList ∧ (f i s).stride = s.stride ∧ (f i s).format = s.format)
    {source sx sy a b : Nat} {i : SurfSlot} {h : Surface} (hw : j.work = .copy source sx sy) (hn : t.named source = some (i, h))
    (ha : a < j.w) (hb : b < j.h) : (j.takes m (t.changed f))[b * j.w + a]? = some (readPixel m h (sx + a) (sy + b)) := by
  unfold Job.takes
  rw [hw]
  dsimp only
  rw [(Surfaces.changed_named t f source i (f i h)).mpr ⟨h, hn, rfl⟩]
  dsimp only
  rw [List.getElem?_map, getElem?_rectPositions _ _ _ _ ha hb]
  simp only [Option.map_some]
  rw [readPixel_congr m (f i h) h _ _ (hf i h).1 (hf i h).2.1 (hf i h).2.2]

end Sys2Proof.Machine
end

