-- ==== Sys2Proof/Laws/Layouts.lean ====
section
/-! SUPPORT. Layouts with windows withdrawn: Layout.without said by records and lists, that the model's withdrawals are it, that the
operations of other windows pass it by, and that agreeing layouts stay so. -/

namespace Sys2Proof.Machine

/-- Layouts with the same records and the same lists are the same. -/
theorem Layout.ext_views {l k : Layout} (h : ∀ w, l.record w = k.record w) (hb : ∀ b, l.bands.list b = k.bands.list b) :
    l = k := by
  obtain ⟨lr, lb⟩ := l
  obtain ⟨kr, kb⟩ := k
  have e1 : lr = kr := table_ext _ _ h
  obtain ⟨a, b, c, d⟩ := lb
  obtain ⟨a', b', c', d'⟩ := kb
  have e2 := hb .base
  have e3 := hb .main
  have e4 := hb .overlay
  have e5 := hb .alert
  simp only [Bands.list] at e2 e3 e4 e5
  rw [e1, e2, e3, e4, e5]

theorem Layout.without_record (l : Layout) (p : WinSlot → Bool) (w : WinSlot) :
    (l.without p).record w = if p w then (l.record w).map (fun r => { r with state := .withdrawn }) else l.record w := by
  unfold Layout.without
  exact tget_tabulate _ w

theorem Layout.without_list (l : Layout) (p : WinSlot → Bool) (k : Band) :
    (l.without p).bands.list k = (l.bands.list k).filter (fun w => !p w) := by
  cases k <;> rfl

theorem Layout.withdraw_record (l : Layout) (w v : WinSlot) :
    (l.withdraw w).record v = if w = v then (l.record v).map (fun r => { r with state := .withdrawn }) else l.record v :=
  Layout.record_mapRecord l w v _

theorem Layout.withdraw_list (l : Layout) (w : WinSlot) (k : Band) :
    (l.withdraw w).bands.list k = (l.bands.list k).filter (· != w) := Bands.list_remove _ _ _

/-- Withdrawing is idempotent, and two withdrawals are one. -/
theorem Layout.without_without (l : Layout) (p q : WinSlot → Bool) :
    (l.without p).without q = l.without (fun w => p w || q w) := by
  refine Layout.ext_views (fun w => ?_) (fun k => ?_)
  · simp only [Layout.without_record]
    cases p w <;> cases q w <;> simp
    cases l.record w <;> rfl
  · simp only [Layout.without_list, List.filter_filter]
    congr 1; funext w
    cases p w <;> cases q w <;> rfl

/-- Withdrawing no window changes nothing. -/
theorem Layout.without_none (l : Layout) (p : WinSlot → Bool) (h : ∀ w, p w = false) : l.without p = l := by
  refine Layout.ext_views (fun w => ?_) (fun k => ?_)
  · rw [Layout.without_record, h w]; rfl
  · rw [Layout.without_list]
    exact List.filter_eq_self.mpr (fun w _ => by simp [h w])

/-- Windows withdrawn one after another. -/
theorem Layout.foldl_withdraw (q : WinSlot → Bool) (ws : List WinSlot) : ∀ l : Layout,
    ws.foldl (fun l w => if q w then l.withdraw w else l) l = l.without (fun w => ws.contains w && q w) := by
  induction ws with
  | nil => intro l; exact (Layout.without_none l _ (fun _ => rfl)).symm
  | cons v ws ih =>
    intro l
    rw [List.foldl_cons, ih]
    refine Layout.ext_views (fun w => ?_) (fun k => ?_)
    · simp only [Layout.without_record]
      by_cases e : v = w
      · subst e
        cases hq : q v
        · simp
        · simp only [if_true, Layout.withdraw_record, List.contains_cons, BEq.rfl, Bool.true_or, Bool.and_true]
          split
          · cases l.record v <;> rfl
          · rfl
      · have e1 : (w == v) = false := by simpa using Ne.symm e
        rw [List.contains_cons, e1, Bool.false_or]
        have e2 : (if q v then l.withdraw v else l).record w = l.record w := by
          split
          · rw [Layout.withdraw_record, if_neg e]
          · rfl
        rw [e2]
    · simp only [Layout.without_list]
      have e2 : (if q v then l.withdraw v else l).bands.list k = (l.bands.list k).filter (fun w => !(decide (w = v) && q w)) := by
        split
        · rename_i hq
          rw [Layout.withdraw_list]
          congr 1; funext w
          by_cases e : w = v
          · subst e; simp [hq]
          · simp [e]
        · rename_i hq
          symm
          refine List.filter_eq_self.mpr (fun w _ => ?_)
          by_cases e : w = v
          · subst e; simp [hq]
          · simp [e]
      rw [e2, List.filter_filter]
      congr 1; funext w
      by_cases e : w = v
      · subst e; cases q w <;> simp
      · have e1 : (w == v) = false := by simpa using e
        rw [List.contains_cons, e1]
        simp [e]

/-- All of a kind withdrawn, slot by slot. -/
theorem Layout.foldl_withdraw_all (q : WinSlot → Bool) (l : Layout) :
    (allSlots 24).foldl (fun l w => if q w then l.withdraw w else l) l = l.without q := by
  rw [Layout.foldl_withdraw]
  congr 1; funext w
  have : (allSlots 24).contains w = true := by simp [mem_allSlots]
  rw [this, Bool.true_and]

/-- Every window of a port withdrawn (R106). -/
theorem Layout.withdrawOwned_eq (l : Layout) (o : Table (Option Port) 24) (n : Port) :
    l.withdrawOwned o n = l.without (fun w => tget o w = some n) := by
  rw [← Layout.foldl_withdraw_all]
  unfold Layout.withdrawOwned
  simp

end Sys2Proof.Machine
end

