-- ==== Sys2Proof/Laws/Commits.lean ====
section
/-! SUPPORT. The application of commits, one operation at a time, and the withdrawal of CLOSING ports' windows, each said as one change of
the state. -/

namespace Sys2Proof.Machine

/-- queued_refs of every surface lowered by what `k` says of its slot. -/
def State.lessQueued (k : SurfSlot → Nat) (s : State) : State :=
  s.withSurfaces (s.surfaces.changed (fun i f => { f with queuedRefs := f.queuedRefs - k i }))

/-- queued_refs are no part of a source description. -/
theorem sourceDescOf_lessQueued (m : Surfaces) (k : SurfSlot → Nat) (h : Nat) :
    sourceDescOf (m.changed (fun i f => { f with queuedRefs := f.queuedRefs - k i })) h = sourceDescOf m h := by
  unfold sourceDescOf
  cases hn : m.named h with
  | none =>
    cases hk : (m.changed (fun i f => { f with queuedRefs := f.queuedRefs - k i })).named h with
    | none => rfl
    | some p =>
      obtain ⟨g, hg, _⟩ := (Surfaces.changed_named m _ h p.1 p.2).mp hk
      rw [hn] at hg; cases hg
  | some p =>
    rw [(Surfaces.changed_named m (fun i f => { f with queuedRefs := f.queuedRefs - k i }) h p.1 _).mpr ⟨p.2, hn, rfl⟩]
    rfl

/-- What an operation does does not depend on queued_refs. -/
theorem Op.carryOut_lessQueued (op : Op) (m : Surfaces) (k : SurfSlot → Nat) (w) (l : Layout) :
    op.carryOut (m.changed (fun i f => { f with queuedRefs := f.queuedRefs - k i })) w l = op.carryOut m w l := by
  cases op <;> try rfl
  unfold Op.carryOut; simp only [sourceDescOf_lessQueued]

/-! ### The application of a commit, one operation at a time -/

theorem State.applyOp_none (s : State) (op : Op) (h : s.layouts.named op.window = none) : s.applyOp op = s := by
  unfold State.applyOp; rw [h]

theorem State.applyOp_destroy (s : State) (h : Nat) (w : WinSlot) (n : Port) (hn : s.layouts.named h = some (w, n)) :
    s.applyOp (.destroy h) = s.freeWindow w := by
  unfold State.applyOp
  have : s.layouts.named (Op.destroy h).window = some (w, n) := hn
  rw [this]

theorem State.applyOp_change (s : State) (op : Op) (w : WinSlot) (n : Port) (hn : s.layouts.named op.window = some (w, n))
    (hd : ∀ h, op ≠ .destroy h) : s.applyOp op = s.applyChange op w := by
  unfold State.applyOp
  rw [hn]
  cases op <;> first | rfl | exact absurd rfl (hd _)

/-- An operation applied does not look at queued_refs. -/
theorem State.applyOp_lessQueued (k : SurfSlot → Nat) (s : State) (op : Op) :
    (State.lessQueued k s).applyOp op = State.lessQueued k (s.applyOp op) := by
  cases hn : s.layouts.named op.window with
  | none => rw [State.applyOp_none s op hn, State.applyOp_none (State.lessQueued k s) op hn]
  | some p =>
    obtain ⟨w, n⟩ := p
    by_cases hd : ∃ h, op = .destroy h
    · obtain ⟨h, rfl⟩ := hd
      rw [State.applyOp_destroy s h w n hn, State.applyOp_destroy (State.lessQueued k s) h w n hn]
      unfold State.freeWindow
      have : (State.lessQueued k s).layouts = s.layouts := rfl
      rw [this]
      cases tget s.layouts.owners w with
      | none => rfl
      | some m =>
        unfold State.lessQueued
        simp only [State.withSurfaces_surfaces, State.withLayouts_surfaces, Surfaces.lowerShown_changed, Surfaces.changed_changed]
        rfl
    · rw [State.applyOp_change s op w n hn (fun h e => hd ⟨h, e⟩),
        State.applyOp_change (State.lessQueued k s) op w n hn (fun h e => hd ⟨h, e⟩)]
      unfold State.applyChange State.lessQueued
      simp only [State.withSurfaces_layouts, State.withSurfaces_surfaces, Op.carryOut_lessQueued, State.withLayouts_surfaces,
        Surfaces.moveShown_changed, Surfaces.changed_changed]
      rfl

theorem State.applyOps_lessQueued (k : SurfSlot → Nat) (ops : List Op) :
    ∀ s : State, ops.foldl State.applyOp (State.lessQueued k s) = State.lessQueued k (ops.foldl State.applyOp s) := by
  induction ops with
  | nil => intro s; rfl
  | cons op ops ih => intro s; rw [List.foldl_cons, List.foldl_cons, State.applyOp_lessQueued, ih]

/-- The application of a commit is that of its first operation and then of the rest (R127). -/
theorem State.applyCommit_cons (s : State) (p : Pending) (op : Op) (ops : List Op) (h : p.ops = op :: ops) :
    s.applyCommit p = (State.lessQueued (fun i => op.refsOn i) (s.applyOp op)).applyCommit { p with ops := ops } := by
  unfold State.applyCommit
  rw [h]
  simp only [List.foldl_cons, State.applyOps_lessQueued]
  generalize ops.foldl State.applyOp (s.applyOp op) = u
  have : u.withSurfaces (u.surfaces.mapQueued (op :: ops) Surface.lowerQueued) =
      (State.lessQueued (fun i => op.refsOn i) u).withSurfaces
        ((State.lessQueued (fun i => op.refsOn i) u).surfaces.mapQueued ops Surface.lowerQueued) := by
    unfold State.lessQueued
    simp only [Surfaces.mapQueued_lower, State.withSurfaces_surfaces, Surfaces.changed_changed, List.map_cons, List.sum_cons,
      Nat.sub_add_eq]
    rfl
  rw [this]

/-- A ready head is applied, and the rest of the queue goes on (R129). -/
theorem State.applyCommits_cons (s : State) (p : Pending) (rest) (h : s.layouts.commits = p :: rest) (hr : p.reached = true) :
    s.applyCommits = State.applyReady rest.length ((s.withLayouts { s.layouts with commits := rest }).applyCommit p) := by
  unfold State.applyCommits
  rw [h, List.length_cons]
  conv => lhs; unfold State.applyReady
  rw [h]; dsimp only; rw [if_pos hr]

/-- The ages restarted, by windows. -/
theorem LayoutController.restart_fresh (ws : List WinSlot) : ∀ c : LayoutController, ws.foldl LayoutController.restart c =
   { c with fresh := tabulate (fun w => if w ∈ ws then ⟨0, false, true⟩ else tget c.fresh w) } := by
  induction ws with
  | nil =>
    intro c
    have : c.fresh = tabulate (fun w => if w ∈ ([] : List WinSlot) then ⟨0, false, true⟩ else tget c.fresh w) := by
      refine table_ext _ _ (fun w => ?_)
      rw [tget_tabulate]; simp
    rw [List.foldl_nil, ← this]
  | cons v ws ih =>
    intro c
    rw [List.foldl_cons, ih]
    unfold LayoutController.restart
    congr 1
    refine table_ext _ _ (fun w => ?_)
    rw [tget_tabulate, tget_tabulate]
    dsimp only
    rw [tget_tput]
    by_cases e : v = w
    · subst e; simp
    · simp [e, Ne.symm e]

/-! ### Step 1 of a boundary (R106, R126) -/

theorem State.withdrawApplied_changed (s : State) (w) :
    s.withdrawApplied w = (s.withSurfaces (s.surfaces.changed (fun i f =>
      { f with shownRefs := f.shownRefs - s.layouts.applied.refsOn w i }))).withLayouts
    { s.layouts with applied := s.layouts.applied.withdraw w } := by
  unfold State.withdrawApplied; rw [Surfaces.lowerShown_changed]

/-- Windows withdrawn one after another from the applied layout, and the references they held. -/
theorem State.withdrawApplied_fold (cl : WinSlot → Bool) (ws : List WinSlot) (hn : ws.Nodup) : ∀ s : State,
   ws.foldl (fun s w => if cl w then s.withdrawApplied w else s) s =
    (s.withSurfaces (s.surfaces.changed (fun i f =>
      { f with shownRefs := f.shownRefs - ((ws.filter cl).map (fun w => s.layouts.applied.refsOn w i)).sum }))).withLayouts
      { s.layouts with applied := ws.foldl (fun l w => if cl w then l.withdraw w else l) s.layouts.applied } := by
  induction ws with
  | nil =>
    intro s
    rw [List.foldl_nil, List.foldl_nil, List.filter_nil]
    exact (congrArg (fun m => (s.withSurfaces m).withLayouts s.layouts) (Surfaces.changed_id s.surfaces _ (fun _ f => rfl))).symm
  | cons v ws ih =>
    intro s
    have hn := List.nodup_cons.mp hn
    rw [List.foldl_cons, List.foldl_cons, ih hn.2]
    cases hc : cl v
    · rw [List.filter_cons_of_neg (by simp [hc])]; rfl
    · rw [List.filter_cons_of_pos hc]
      simp only [if_true]
      rw [State.withdrawApplied_changed]
      simp only [State.withLayouts_surfaces, State.withSurfaces_surfaces, State.withLayouts_layouts, Surfaces.changed_changed]
      have : ∀ i, ((ws.filter cl).map (fun w => (s.layouts.applied.withdraw v).refsOn w i)) =
          ((ws.filter cl).map (fun w => s.layouts.applied.refsOn w i)) := by
        intro i
        apply List.map_congr_left
        intro w hw
        have hwv : v ≠ w := by rintro rfl; exact hn.1 (List.mem_filter.mp hw).1
        unfold Layout.refsOn
        rw [Layout.withdraw_record, if_neg hwv]
      simp only [this, List.map_cons, List.sum_cons, Nat.sub_add_eq]
      rfl

/-- Step 1 withdraws the windows of CLOSING ports, and shown_refs fall by the references they held. -/
theorem State.withdrawClosing_effect (s : State) :
    s.withdrawClosing = ((s.withSurfaces (s.surfaces.changed (fun i f =>
      { f with
        shownRefs := f.shownRefs -
          (((allSlots 24).filter s.closes).map (fun w => s.layouts.applied.refsOn w i)).sum }))).withLayouts
      { s.layouts with applied := s.layouts.applied.without s.closes }).reload := by
  have key : ∀ (ws : List WinSlot) (u : State), u.layouts.owners = s.layouts.owners → u.sessions = s.sessions → 
     ws.foldl (fun s w =>
      match tget s.layouts.owners w with
      | some n => if (s.session n).state = .closing then s.withdrawApplied w else s
      | none => s) u = ws.foldl (fun u w => if s.closes w then u.withdrawApplied w else u) u := by
    intro ws
    induction ws with
    | nil => intro u _ _; rfl
    | cons v ws ih =>
      intro u h1 h2
      rw [List.foldl_cons, List.foldl_cons]
      have e : (match tget u.layouts.owners v with
      | some n => if (u.session n).state = .closing then u.withdrawApplied v else u
      | none => u) = if s.closes v then u.withdrawApplied v else u := by
        unfold State.closes State.session
        rw [h1, h2]
        cases tget s.layouts.owners v with
        | none => rfl
        | some n => dsimp only; simp only [Option.any_some, decide_eq_true_eq]
      rw [e]
      refine ih _ ?_ ?_
      · split
        · exact h1
        · exact h1
      · split
        · exact h2
        · exact h2
  unfold State.withdrawClosing
  have := key (allSlots 24) s rfl rfl
  refine (congrArg State.reload this).trans ?_
  rw [State.withdrawApplied_fold _ _ (allSlots_nodup 24), Layout.foldl_withdraw_all]

/-- A window freed leaves the lists, and its record ceases to be. -/
theorem Layout.forget_eq (l : Layout) (w) : l.forget w = { recs := tput l.recs w none, bands := (l.without (fun v => v = w)).bands } := by
  unfold Layout.forget Layout.without Bands.remove
  have : ∀ xs : List WinSlot, xs.filter (· != w) = xs.filter (fun v => !decide (v = w)) := by
    intro xs; congr 1
  simp only [this]

end Sys2Proof.Machine
end

