-- ==== Sys2Proof/Laws/Finishes.lean ====
section
/-! SUPPORT. A teardown's finish as one change of the state: the windows and surfaces of a port freed together, and what is left is
State.finishesTeardown (R35, R36). -/

namespace Sys2Proof.Machine

/-! ### Windows freed together (R35, R103) -/

/-- The layout controller with the windows that `p` picks freed, but for the counts of windows. -/
def LayoutController.lacking (c : LayoutController) (p : WinSlot → Bool) : LayoutController :=
  { c with
    owners := tabulate (fun w => if p w then none else tget c.owners w)
    gens := tabulate (fun w => if p w then nextGeneration Config.windowGenerations (tget c.gens w) else tget c.gens w)
    applied := c.applied.lacking p
    projected := c.projected.lacking p
    fresh := tabulate (fun w => if p w then .new else tget c.fresh w) }

theorem Layout.lacking_record (l : Layout) (p : WinSlot → Bool) (w : WinSlot) :
    (l.lacking p).record w = if p w then none else l.record w := tget_tabulate _ w

theorem Layout.lacking_list (l : Layout) (p : WinSlot → Bool) (k : Band) :
    (l.lacking p).bands.list k = (l.bands.list k).filter (fun w => !p w) := Layout.without_list l p k

/-- Freeing one window is freeing those of a set of one. -/
theorem Layout.forget_lacking (l : Layout) (w : WinSlot) : l.forget w = l.lacking (fun v => v = w) := by
  refine Layout.ext_views (fun v => ?_) (fun k => ?_)
  · rw [Layout.lacking_record, Layout.forget_record]
    by_cases e : w = v
    · rw [if_pos e, if_pos (by simp [e])]
    · rw [if_neg e, if_neg (by simp [Ne.symm e])]
  · rw [Layout.lacking_list]
    show (l.bands.remove w).list k = _
    rw [Bands.list_remove]
    rfl

/-- Two sets of windows freed one after the other are their union freed. -/
theorem Layout.lacking_lacking (l : Layout) (p q : WinSlot → Bool) :
    (l.lacking p).lacking q = l.lacking (fun w => p w || q w) := by
  refine Layout.ext_views (fun w => ?_) (fun k => ?_)
  · simp only [Layout.lacking_record]
    cases p w <;> cases q w <;> rfl
  · simp only [Layout.lacking_list, List.filter_filter]
    congr 1
    funext w
    cases p w <;> cases q w <;> rfl

/-- The same of the layout controller, for sets without a window in common. -/
theorem LayoutController.lacking_lacking (c : LayoutController) (p q : WinSlot → Bool) (h : ∀ w, p w = true → q w = false) :
    (c.lacking p).lacking q = c.lacking (fun w => p w || q w) := by
  unfold LayoutController.lacking
  simp only [Layout.lacking_lacking]
  congr 1
  all_goals
    refine table_ext _ _ (fun w => ?_)
    simp only [tget_tabulate]
    have apart := h w
    by_cases hp : p w = true <;> by_cases hq : q w = true <;> simp_all

/-- Freeing no window changes nothing. -/
theorem LayoutController.lacking_none (c : LayoutController) (p : WinSlot → Bool) (h : ∀ w, p w = false) : c.lacking p = c := by
  have table : ∀ {α : Type} (t : Table α 24) (f : WinSlot → α), tabulate (fun w => if p w then f w else tget t w) = t := by
    intro α t f
    refine table_ext _ _ (fun w => ?_)
    rw [tget_tabulate, h w]
    rfl
  have layout : ∀ l : Layout, l.lacking p = l := by
    intro l
    refine Layout.ext_views (fun w => ?_) (fun k => ?_)
    · rw [Layout.lacking_record, h w]
      rfl
    · rw [Layout.lacking_list]
      exact List.filter_eq_self.mpr (fun w _ => by simp [h w])
  unfold LayoutController.lacking
  simp only [table, layout]

/-- One window of port `n` freed. -/
theorem State.freeWindow_lacking (s : State) (w : WinSlot) (n : Port) (h : tget s.layouts.owners w = some n) :
    s.freeWindow w =
      (s.withSurfaces (s.surfaces.changed (fun i f => { f with shownRefs := f.shownRefs - s.layouts.applied.refsOn w i }))
        ).withLayouts { s.layouts.lacking (fun v => v = w) with winCount := tmod s.layouts.winCount n (· - 1) } := by
  have table : ∀ {α : Type} (t : Table α 24) (a : α) (f : WinSlot → α), f w = a →
      tput t w a = tabulate (fun v => if (decide (v = w)) = true then f v else tget t v) := by
    intro α t a f hf
    refine table_ext _ _ (fun v => ?_)
    rw [tget_tabulate, tget_tput]
    by_cases e : w = v
    · subst e; simp [hf]
    · simp [e, Ne.symm e]
  unfold State.freeWindow
  rw [h]
  dsimp only
  rw [Surfaces.lowerShown_changed]
  unfold LayoutController.release LayoutController.lacking tmod
  rw [table s.layouts.owners none (fun _ => none) rfl, table s.layouts.fresh .new (fun _ => .new) rfl,
    table s.layouts.gens _ (fun v => nextGeneration Config.windowGenerations (tget s.layouts.gens v)) rfl, Layout.forget_lacking,
    Layout.forget_lacking]

/-- The windows of port `n` among those listed, freed one after another. -/
theorem State.freeWindows_fold (n : Port) (ws : List WinSlot) : ws.Nodup → ∀ s : State, ∃ counts : Table Nat 4,
    tput counts n 0 = tput s.layouts.winCount n 0 ∧
    ws.foldl (fun s w => if tget s.layouts.owners w = some n then s.freeWindow w else s) s =
      (s.withSurfaces (s.surfaces.changed (fun i f =>
        { f with
          shownRefs := f.shownRefs -
            ((ws.filter (fun w => tget s.layouts.owners w = some n)).map (fun w => s.layouts.applied.refsOn w i)).sum }))
        ).withLayouts
          { s.layouts.lacking (fun w => ws.contains w && decide (tget s.layouts.owners w = some n)) with
            winCount := counts } := by
  induction ws with
  | nil =>
    intro _ s
    refine ⟨s.layouts.winCount, rfl, ?_⟩
    rw [LayoutController.lacking_none _ _ (fun _ => by simp)]
    exact (congrArg (fun m => (s.withSurfaces m).withLayouts s.layouts) (Surfaces.changed_id s.surfaces _ (fun _ _ => rfl))).symm
  | cons v ws ih =>
    intro hn s
    have hn := List.nodup_cons.mp hn
    rw [List.foldl_cons]
    by_cases e : tget s.layouts.owners v = some n
    · rw [if_pos e, State.freeWindow_lacking s v n e]
      have owners : ∀ w ∈ ws, tget (s.layouts.lacking (fun w => w = v)).owners w = tget s.layouts.owners w := by
        intro w hw
        have : w ≠ v := by rintro rfl; exact hn.1 hw
        unfold LayoutController.lacking
        simp [this]
      have refs : ∀ w ∈ ws, ∀ i, (s.layouts.lacking (fun w => w = v)).applied.refsOn w i = s.layouts.applied.refsOn w i := by
        intro w hw i
        have : w ≠ v := by rintro rfl; exact hn.1 hw
        unfold Layout.refsOn LayoutController.lacking
        rw [Layout.lacking_record, if_neg (by simpa using this)]
      obtain ⟨counts, hc, hf⟩ := ih hn.2 ((s.withSurfaces (s.surfaces.changed (fun i f =>
        { f with shownRefs := f.shownRefs - s.layouts.applied.refsOn v i }))).withLayouts
          { s.layouts.lacking (fun w => w = v) with winCount := tmod s.layouts.winCount n (· - 1) })
      refine ⟨counts, ?_, ?_⟩
      · rw [hc]
        show tput (tmod s.layouts.winCount n (· - 1)) n 0 = _
        unfold tmod
        rw [tput_tput]
      · rw [hf]
        have picks : ws.filter (fun w => tget (s.layouts.lacking (fun w => w = v)).owners w = some n) =
            ws.filter (fun w => tget s.layouts.owners w = some n) :=
          List.filter_congr (fun w hw => by rw [owners w hw])
        have sums : ∀ i, ((ws.filter (fun w => tget s.layouts.owners w = some n)).map
              (fun w => (s.layouts.lacking (fun w => w = v)).applied.refsOn w i)) =
            (ws.filter (fun w => tget s.layouts.owners w = some n)).map (fun w => s.layouts.applied.refsOn w i) :=
          fun i => List.map_congr_left (fun w hw => refs w (List.mem_filter.mp hw).1 i)
        have sets : (fun w => decide (w = v) || (ws.contains w &&
              decide (tget (s.layouts.lacking (fun w => w = v)).owners w = some n))) =
            (fun w => (v :: ws).contains w && decide (tget s.layouts.owners w = some n)) := by
          funext w
          by_cases hw : w = v
          · subst hw; simp [e]
          · by_cases hm : w ∈ ws
            · simp [hw, hm, owners w hm]
            · simp [hw, hm]
        have both := LayoutController.lacking_lacking s.layouts (fun w => w = v)
          (fun w => ws.contains w && decide (tget (s.layouts.lacking (fun w => w = v)).owners w = some n))
          (fun w hw => by
            have : w = v := by simpa using hw
            subst this
            simp [hn.1])
        rw [sets] at both
        have counted : (s.surfaces.changed (fun i f => { f with shownRefs := f.shownRefs - s.layouts.applied.refsOn v i })).changed
            (fun i f => { f with
              shownRefs := f.shownRefs -
                ((ws.filter (fun w => tget (s.layouts.lacking (fun w => w = v)).owners w = some n)).map
                  (fun w => (s.layouts.lacking (fun w => w = v)).applied.refsOn w i)).sum }) =
            s.surfaces.changed (fun i f => { f with
              shownRefs := f.shownRefs -
                (((v :: ws).filter (fun w => tget s.layouts.owners w = some n)).map
                  (fun w => s.layouts.applied.refsOn w i)).sum }) := by
          rw [picks, List.filter_cons_of_pos (by simpa using e), Surfaces.changed_changed]
          simp only [sums, List.map_cons, List.sum_cons, Nat.sub_add_eq]
        show ((s.withSurfaces ((s.surfaces.changed _).changed _)).withLayouts
          { (s.layouts.lacking (fun w => w = v)).lacking (fun w => ws.contains w &&
              decide (tget (s.layouts.lacking (fun w => w = v)).owners w = some n)) with winCount := counts }) = _
        rw [both]
        exact congrArg (fun m => (s.withSurfaces m).withLayouts _) counted
    · rw [if_neg e]
      obtain ⟨counts, hc, hf⟩ := ih hn.2 s
      refine ⟨counts, hc, ?_⟩
      rw [hf, List.filter_cons_of_neg (by simpa using e)]
      have sets : (fun w => ws.contains w && decide (tget s.layouts.owners w = some n)) =
          (fun w => (v :: ws).contains w && decide (tget s.layouts.owners w = some n)) := by
        funext w
        by_cases hw : w = v
        · subst hw; simp [e]
        · simp [hw]
      rw [sets]

/-! ### Surfaces freed together (R35, R71) -/

/-- The surface in slot `i` is port `n`'s. -/
def Surfaces.ownedBy (m : Surfaces) (n : Port) (i : SurfSlot) : Bool := (tget m.slots i).surface.any (fun f => f.owner = n)

/-- A surface slot of port `n` freed: its slot FREE with the generation advanced, its pages returned, and of the accounts at most those
of port `n` changed. -/
theorem Surfaces.free_owned (m : Surfaces) (n : Port) (i : SurfSlot) (h : m.ownedBy n i = true) :
    (m.free i).slots = tput m.slots i ⟨nextGeneration Config.surfaceGenerations (tget m.slots i).gen, none⟩ ∧
      (∀ p, (m.free i).freePages.count p = m.freePages.count p + (tget m.slots i).countPage p) ∧
      tput (m.free i).pageCount n 0 = tput m.pageCount n 0 ∧ tput (m.free i).surfCount n 0 = tput m.surfCount n 0 := by
  unfold Surfaces.ownedBy at h
  unfold Surfaces.free SurfaceEntry.countPage
  cases e : (tget m.slots i).surface with
  | none => rw [e] at h; cases h
  | some f =>
    rw [e] at h
    have own : f.owner = n := by simpa using h
    subst own
    refine ⟨rfl, fun p => ?_, ?_, ?_⟩
    · simp only [insertPages_count]
      omega
    · simp only [tmod, tput_tput]
    · simp only [tmod, tput_tput]

/-- The surfaces of port `n` among the slots listed, freed one after another. -/
theorem Surfaces.free_fold (n : Port) (is : List SurfSlot) : is.Nodup → ∀ m : Surfaces,
    let u := is.foldl (fun m i => if (tget m.slots i).surface.any (fun f => f.owner = n) then m.free i else m) m
    (∀ i, tget u.slots i =
      if i ∈ is ∧ m.ownedBy n i = true then ⟨nextGeneration Config.surfaceGenerations (tget m.slots i).gen, none⟩
      else tget m.slots i) ∧
    (∀ p, u.freePages.count p =
      m.freePages.count p + ((is.filter (m.ownedBy n)).map (fun i => (tget m.slots i).countPage p)).sum) ∧
    tput u.pageCount n 0 = tput m.pageCount n 0 ∧ tput u.surfCount n 0 = tput m.surfCount n 0 := by
  induction is with
  | nil => exact fun _ m => ⟨fun i => by simp, fun p => by simp, rfl, rfl⟩
  | cons v is ih =>
    intro hn m
    have hn := List.nodup_cons.mp hn
    dsimp only
    rw [List.foldl_cons]
    by_cases e : m.ownedBy n v = true
    · obtain ⟨h1, h2, h3, h4⟩ := Surfaces.free_owned m n v e
      have turn : (if (tget m.slots v).surface.any (fun f => f.owner = n) then m.free v else m) = m.free v := if_pos e
      rw [turn]
      obtain ⟨i1, i2, i3, i4⟩ := ih hn.2 (m.free v)
      have other : ∀ i, i ≠ v → tget (m.free v).slots i = tget m.slots i := fun i hi => by rw [h1, tget_tput_ne _ _ _ _ hi.symm]
      have owned : ∀ i, i ≠ v → (m.free v).ownedBy n i = m.ownedBy n i := fun i hi => by
        unfold Surfaces.ownedBy; rw [other i hi]
      refine ⟨fun i => ?_, fun p => ?_, i3.trans h3, i4.trans h4⟩
      · rw [i1 i]
        by_cases hi : i = v
        · subst hi
          rw [if_neg (fun h => hn.1 h.1), if_pos ⟨List.mem_cons_self .., e⟩, h1, tget_tput_same]
        · rw [owned i hi, other i hi]
          simp [hi]
      · rw [i2 p, h2 p, List.filter_cons_of_pos e, List.map_cons, List.sum_cons]
        have picks : is.filter ((m.free v).ownedBy n) = is.filter (m.ownedBy n) :=
          List.filter_congr (fun i hi => owned i (by rintro rfl; exact hn.1 hi))
        have sums : (is.filter (m.ownedBy n)).map (fun i => (tget (m.free v).slots i).countPage p) =
            (is.filter (m.ownedBy n)).map (fun i => (tget m.slots i).countPage p) :=
          List.map_congr_left (fun i hi => by
            rw [other i (by rintro rfl; exact hn.1 (List.mem_filter.mp hi).1)])
        rw [picks, sums]
        omega
    · have turn : (if (tget m.slots v).surface.any (fun f => f.owner = n) then m.free v else m) = m := if_neg e
      rw [turn]
      obtain ⟨i1, i2, i3, i4⟩ := ih hn.2 m
      refine ⟨fun i => ?_, fun p => ?_, i3, i4⟩
      · rw [i1 i]
        by_cases hi : i = v
        · subst hi
          rw [if_neg (fun h => e h.2), if_neg (fun h => e h.2)]
        · simp [hi]
      · rw [i2 p, List.filter_cons_of_neg e]

/-! ### The finish (R35, R36) -/

/-- The resources of a port returned, as one change of the state. -/
theorem State.returnResources_effect (s : State) (n : Port) (own : WinSlot → Bool) (owned : SurfSlot → Bool)
    (hw : own = fun w => decide (tget s.layouts.owners w = some n))
    (hs : owned = fun i => (tget s.surfaces.slots i).surface.any (fun f => f.owner = n)) :
    ∃ m : Surfaces,
      s.returnResources n = (s.withSurfaces m).withLayouts
        { s.layouts.lacking own with
          winCount := tput s.layouts.winCount n 0
          appliedLoad := loadTable s.scan.timing (s.layouts.applied.lacking own)
          projectedLoad := loadTable s.scan.timing (s.layouts.projected.lacking own) } ∧
      (∀ i, tget m.slots i =
        if owned i then ⟨nextGeneration Config.surfaceGenerations (tget s.surfaces.slots i).gen, none⟩
        else ⟨(tget s.surfaces.slots i).gen, (tget s.surfaces.slots i).surface.map (fun f =>
          { f with shownRefs := f.shownRefs - s.layouts.applied.refsTo own i })⟩) ∧
      (∀ p, m.freePages.count p = s.surfaces.freePages.count p +
        (((allSlots 48).filter owned).map (fun i => (tget s.surfaces.slots i).countPage p)).sum) ∧
      m.pageCount = tput s.surfaces.pageCount n 0 ∧ m.surfCount = tput s.surfaces.surfCount n 0 := by
  obtain ⟨counts, hc, hf⟩ := State.freeWindows_fold n (allSlots 24) (allSlots_nodup 24) s
  have whole : (fun w => (allSlots 24).contains w && decide (tget s.layouts.owners w = some n)) = own := by
    rw [hw]
    funext w
    simp [mem_allSlots w]
  rw [whole] at hf
  have picks : (allSlots 24).filter (fun w => tget s.layouts.owners w = some n) = (allSlots 24).filter own := by rw [hw]
  rw [picks] at hf
  have hf : s.freeWindowsOf n =
      (s.withSurfaces (s.surfaces.changed (fun i f => { f with shownRefs := f.shownRefs - s.layouts.applied.refsTo own i }))
        ).withLayouts { s.layouts.lacking own with winCount := counts } := hf
  generalize hm : s.surfaces.changed (fun i f => { f with shownRefs := f.shownRefs - s.layouts.applied.refsTo own i }) = k at hf
  have slot : ∀ i, tget k.slots i = ⟨(tget s.surfaces.slots i).gen, (tget s.surfaces.slots i).surface.map (fun f =>
      { f with shownRefs := f.shownRefs - s.layouts.applied.refsTo own i })⟩ := fun i => by
    rw [← hm]
    exact tget_tabulate _ i
  have same : k.ownedBy n = owned := by
    rw [hs]
    funext i
    unfold Surfaces.ownedBy
    rw [slot i]
    cases (tget s.surfaces.slots i).surface <;> rfl
  have pages : ∀ i p, (tget k.slots i).countPage p = (tget s.surfaces.slots i).countPage p := fun i p => by
    rw [slot i]
    unfold SurfaceEntry.countPage
    cases (tget s.surfaces.slots i).surface <;> rfl
  obtain ⟨h1, h2, h3, h4⟩ := Surfaces.free_fold n (allSlots 48) (allSlots_nodup 48) k
  refine ⟨k.freeOwned n, ?_, fun i => ?_, fun p => ?_, ?_, ?_⟩
  · unfold State.returnResources
    rw [hf]
    dsimp only
    rw [← hc]
    show (((s.withSurfaces (k.freeOwned n)).withLayouts _).withLayouts _) = _
    rfl
  · show tget (List.foldl _ _ _ : Surfaces).slots i = _
    rw [h1 i, same]
    simp only [mem_allSlots i, true_and, slot i]
  · show (List.foldl _ _ _ : Surfaces).freePages.count p = _
    rw [h2 p, same]
    simp only [pages]
    rw [← hm]
    rfl
  · show tput (List.foldl _ _ _ : Surfaces).pageCount n 0 = _
    rw [h3, ← hm]
    rfl
  · show tput (List.foldl _ _ _ : Surfaces).surfCount n 0 = _
    rw [h4, ← hm]
    rfl

/-- The end of a teardown, as one change of the state. -/
theorem State.endTeardown_effect (s : State) (n : Port) :
    s.endTeardown n =
      if (s.session n).cause = .takeover then
        { s with
          links := tput s.links n { s.link n with seq := 0 }
          sessions := tput s.sessions n
            ⟨.opened, nextSessionNumber (s.session n).number, (s.session n).pendingLabel.getD 0, .none, none,
              (s.session n).headWait⟩
          drawing := s.drawing.openSession n }
      else
        { s with
          sessions := tput s.sessions n ⟨.closed, (s.session n).number, 0, .none, none, (s.session n).headWait⟩ } := by
  unfold State.endTeardown
  cases (s.session n).cause <;> rfl

/-- A request answered, as one change of the state. -/
theorem State.answer_effect (s : State) (n : Port) (tag : Byte) (payload : List Byte) :
    s.answer n tag payload = { s with
      links := tput s.links n ((s.link n).answerHead tag payload)
      sessions := tput s.sessions n { s.session n with headWait := .none } } := rfl

/-- A teardown finish answers the request at the head. -/
theorem State.teardownFinish_answers (s : State) (n : Port) (r : Request) (rest : List Request)
    (hr : (s.link n).requests = r :: rest) :
    s.teardownFinish n = ((s.returnResources n).endTeardown n).answer n r.tag
      (reply (s.session n).cause.kind .ok (bytes8 (((s.returnResources n).endTeardown n).session n).number)) := by
  have head : (((s.returnResources n).endTeardown n).link n).requests = r :: rest := by
    have same : (s.returnResources n).link n = s.link n := by unfold State.link; simp
    rw [State.endTeardown_effect]
    split
    · show (tget (tput _ n _) n : Link).requests = _
      rw [tget_tput_same, same]
      exact hr
    · show ((s.returnResources n).link n).requests = _
      rw [same]
      exact hr
  unfold State.teardownFinish
  dsimp only
  rw [head]

/-- A teardown finish is what State.finishesTeardown says. -/
theorem State.teardownFinish_finishes (s : State) (n : Port) (r : Request) (rest : List Request)
    (hr : (s.link n).requests = r :: rest) : s.finishesTeardown n r rest (s.teardownFinish n) := by
  obtain ⟨m, hm, h1, h2, h3, h4⟩ := State.returnResources_effect s n (fun w => tget s.layouts.owners w = some n)
    (fun i => (tget s.surfaces.slots i).surface.any (fun f => f.owner = n)) rfl rfl
  rw [State.teardownFinish_answers s n r rest hr, hm]
  generalize hu : (s.withSurfaces m).withLayouts _ = u
  have links : u.links = s.links := by rw [← hu]; rfl
  have sessions : u.sessions = s.sessions := by rw [← hu]; rfl
  have drawing : u.drawing = s.drawing := by rw [← hu]; rfl
  have session : u.session n = s.session n := by unfold State.session; rw [sessions]
  have link : u.link n = s.link n := by unfold State.link; rw [links]
  rw [State.endTeardown_effect, State.answer_effect, session, link, links, sessions, drawing]
  unfold State.finishesTeardown Link.answerHead
  by_cases hc : (s.session n).cause = .takeover
  · have own : ∀ (v : State) l c d, ({ v with links := tput s.links n l, sessions := tput s.sessions n c, drawing := d } : State).link n = l ∧
        ({ v with links := tput s.links n l, sessions := tput s.sessions n c, drawing := d } : State).session n = c :=
      fun v l c d => ⟨tget_tput_same .., tget_tput_same ..⟩
    simp only [hc, if_true, (own _ _ _ _).1, (own _ _ _ _).2, tput_tput, hr, List.tail_cons]
    subst hu
    exact ⟨rfl, rfl, rfl, rfl, h1, h2, h3, h4, rfl, rfl, rfl⟩
  · have own : ∀ c, ({ u with links := s.links, sessions := tput s.sessions n c, drawing := s.drawing } : State).session n = c ∧
        ({ u with links := s.links, sessions := tput s.sessions n c, drawing := s.drawing } : State).link n = s.link n :=
      fun c => ⟨tget_tput_same .., rfl⟩
    have kind : (s.session n).cause.kind = .closeSession := by
      cases h : (s.session n).cause
      · rfl
      · rfl
      · exact absurd h hc
    simp only [if_neg hc, (own _).1, (own _).2, tput_tput, hr, List.tail_cons, kind]
    subst hu
    exact ⟨rfl, trivial, trivial, rfl, h1, h2, h3, h4, rfl, rfl, rfl⟩

end Sys2Proof.Machine
end

