-- ==== Sys2Proof/Laws/Heads.lean ====
section
/-! SUPPORT. What the examination of one port's head can do, said once. A condition that the operations below keep for port `n` is kept
by an examination of its head, and by the whole work of its session controller; `A` is what holds besides whenever the head is
served, such as that the port is not CLOSING. -/

namespace Sys2Proof.Machine

/-- The operations of port `n`'s requests that a condition must survive. -/
structure HeadKept (n : Port) (A P : State → Prop) : Prop where
  awake : ∀ s, P s → (s.session n).headWait ≠ .teardown → A s
  wait : ∀ s w, P s → A s → P (s.setHeadWait n w)
  answer : ∀ s tag p, P s → A s → P (s.answer n tag p)
  openSession : ∀ s l, P s → A s → (s.session n).state = .closed → P (s.openSession n l) ∧ A (s.openSession n l)
  teardownStart : ∀ s c l, P s → A s → (s.session n).state = .opened → P (s.teardownStart n c l)
  teardownFinish : ∀ s, P s → (s.session n).state = .closing → P (s.teardownFinish n)
  setTiming : ∀ s p, P s → A s → P (s.serveSetTiming p).1 ∧ A (s.serveSetTiming p).1
  createSurface : ∀ s p, P s → A s → P (s.serveCreateSurface n p).1 ∧ A (s.serveCreateSurface n p).1
  destroySurface : ∀ s p i f, P s → A s → s.surfaces.judgeDestroy n p = .destroys i f →
    P (s.withSurfaces (s.surfaces.free i)) ∧ A (s.withSurfaces (s.surfaces.free i))
  drawing : ∀ s k q, P s → A s → (s.drawing.outstanding n).length < Config.jobDepth →
    P (s.serveDrawing n k q).1 ∧ A (s.serveDrawing n k q).1
  createWindow : ∀ s p, P s → A s → (s.session n).state ≠ .closed →
    P (s.serveCreateWindow n p).1 ∧ A (s.serveCreateWindow n p).1
  commit : ∀ s tag p, P s → A s → (s.session n).state ≠ .closed →
    P (s.serveCommit n tag p).1 ∧ A (s.serveCommit n tag p).1
  acquireAlert : ∀ s, P s → A s → P (s.serveAcquireAlert n).1 ∧ A (s.serveAcquireAlert n).1
  releaseAlert : ∀ s, P s → A s → P (s.serveReleaseAlert n).1 ∧ A (s.serveReleaseAlert n).1

variable {n : Port} {A P : State → Prop}

/-- What the conditions say of each outcome of an examination. -/
def Served.meets (A P : State → Prop) : Served → Prop
  | .answered s _ => P s ∧ A s
  | .waits _ => True
  | .held s => P s
  | .finished s => P s

/-- A port whose teardown has started is CLOSING. -/
theorem State.teardownStart_closing (s : State) (n : Port) (c : ClosingCause) (l : Option (BitVec 32)) :
    ((s.teardownStart n c l).session n).state = .closing := by
  have h : (s.teardownStart n c l).sessions = tput s.sessions n
      { s.session n with state := .closing, cause := c, pendingLabel := l, headWait := .teardown } := by
    unfold State.teardownStart
    simp only [State.teardownLayouts_sessions, State.abortJobs_sessions]
    rfl
  unfold State.session
  rw [h, tget_tput_same]

theorem HeadKept.beginTeardown (k : HeadKept n A P) (s : State) (c : ClosingCause) (l : Option (BitVec 32)) (h : P s) (ha : A s)
    (ho : (s.session n).state = .opened) : (s.beginTeardown n c l).meets A P := by
  have h1 := k.teardownStart s c l h ha ho
  unfold State.beginTeardown
  simp only
  split
  · exact k.teardownFinish _ h1 (State.teardownStart_closing s n c l)
  · exact h1

theorem HeadKept.serveDrawingKind (k : HeadKept n A P) (s : State) (d : Kind) (q : DrawRequest) (h : P s) (ha : A s) :
    (s.serveDrawingKind n d q).meets A P := by
  unfold State.serveDrawingKind
  split
  · rename_i hroom
    exact k.drawing _ _ _ h ha hroom
  · trivial

theorem HeadKept.carryOut (k : HeadKept n A P) (s : State) (d : Kind) (r : Request) (h : P s) (ha : A s)
    (hs : d.needsNoSession = false → (s.session n).state ≠ .closed) : (s.carryOut n d r).meets A P := by
  cases d
  case openSession =>
    show (s.serveOpen n r.payload).meets A P
    unfold State.serveOpen
    split <;> rename_i e
    · exact k.openSession _ _ h ha e
    · exact k.beginTeardown _ _ _ h ha e
    · trivial
  case closeSession =>
    show (s.serveClose n).meets A P
    unfold State.serveClose
    split <;> rename_i e
    · exact ⟨h, ha⟩
    · exact k.beginTeardown _ _ _ h ha e
    · trivial
  case destroySurface =>
    show (s.serveDestroySurface n r.payload).meets A P
    unfold State.serveDestroySurface
    split <;> rename_i e
    · exact ⟨h, ha⟩
    · trivial
    · exact k.destroySurface _ _ _ _ h ha e
  case setTiming => exact k.setTiming _ _ h ha
  case createSurface => exact k.createSurface _ _ h ha
  case createWindow => exact k.createWindow _ _ h ha (hs rfl)
  case commit => exact k.commit _ _ _ h ha (hs rfl)
  case acquireAlert => exact k.acquireAlert _ h ha
  case releaseAlert => exact k.releaseAlert _ h ha
  case write => exact k.serveDrawingKind _ _ _ h ha
  case fill => exact k.serveDrawingKind _ _ _ h ha
  case copy => exact k.serveDrawingKind _ _ _ h ha
  case checksum => exact k.serveDrawingKind _ _ _ h ha
  all_goals exact ⟨h, ha⟩

theorem HeadKept.serve (k : HeadKept n A P) (s : State) (r : Request) (h : P s) (ha : A s) : (s.serve n r).meets A P := by
  unfold State.serve
  split
  · exact ⟨h, ha⟩
  · split
    · exact ⟨h, ha⟩
    · split
      · exact ⟨h, ha⟩
      · rename_i hn
        exact k.carryOut _ _ _ h ha (fun e hc => hn ⟨hc, e⟩)

theorem HeadKept.examineHead (k : HeadKept n A P) (s : State) (h : P s) : P (s.examineHead n).1 := by
  unfold State.examineHead
  split
  · exact h
  · rename_i r _ _
    split
    · exact h
    · rename_i hw
      have ha := k.awake s h hw
      split
      · exact k.wait _ _ h ha
      · have hs := k.serve s r h ha
        split <;> rename_i e <;> rw [e] at hs
        · exact k.answer _ _ _ hs.1 hs.2
        · exact k.wait _ _ h ha
        · exact hs
        · exact hs

theorem HeadKept.examineUpTo (k : HeadKept n A P) (m : Nat) : ∀ s : State, P s → P (State.examineUpTo m n s) := by
  induction m with
  | zero => exact fun _ h => h
  | succ m ih =>
    intro s h
    unfold State.examineUpTo
    split
    · exact ih _ (k.examineHead _ h)
    · exact k.examineHead _ h

/-- An examination keeps what the operations keep. -/
theorem HeadKept.examine (k : HeadKept n A P) (s : State) (h : P s) : P (s.examine n) := k.examineUpTo _ _ h

/-! ### The links -/

/-- A condition on each link that an event posted keeps on any, and what a head does to its own link keeps on port `n`'s. -/
structure LinksKept (n : Port) (Q : Port → Link → Prop) : Prop where
  post : ∀ m l p, Q m l → Q m (l.post p)
  answer : ∀ l tag p, Q n l → Q n (l.answerHead tag p)
  openSession : ∀ l, Q n l → Q n l.openSession
  teardownStart : ∀ l, Q n l → Q n l.teardownStart

/-- Every link of the state meets the condition. -/
def State.linksMeet (Q : Port → Link → Prop) (s : State) : Prop := ∀ m, Q m (s.link m)

variable {Q : Port → Link → Prop}

theorem State.linksMeet_links {s t : State} (h : t.links = s.links) (k : s.linksMeet Q) : t.linksMeet Q := by
  intro m
  unfold State.link
  rw [h]
  exact k m

theorem State.linksMeet_map {s : State} (h : s.linksMeet Q) (n : Port) (f : Link → Link) (hf : ∀ l, Q n l → Q n (f l)) :
    (s.mapLink n f).linksMeet Q := by
  intro m
  by_cases e : n = m
  · subst e
    rw [State.link_mapLink_same]
    exact hf _ (h n)
  · rw [State.link_mapLink_ne _ _ _ _ e]
    exact h m

theorem LinksKept.passToken (k : LinksKept n Q) {s : State} (h : s.linksMeet Q) : s.passToken.linksMeet Q := by
  unfold State.passToken
  split
  · exact State.linksMeet_map (State.linksMeet_links rfl h) _ (fun l => l.post _) (fun l => k.post _ l _)
  · exact State.linksMeet_links rfl h

theorem LinksKept.startTeardown (k : LinksKept n Q) (s : State) (c : ClosingCause) (l : Option (BitVec 32)) (h : s.linksMeet Q) :
    (s.teardownStart n c l).linksMeet Q := by
  have h1 : (((s.mapSession n (fun x => { x with state := .closing, cause := c, pendingLabel := l, headWait := .teardown })).mapLink n
      Link.teardownStart).abortJobs n).linksMeet Q :=
    State.linksMeet_links (State.abortJobs_links _ _)
      (State.linksMeet_map (State.linksMeet_links rfl h) n Link.teardownStart k.teardownStart)
  unfold State.teardownStart
  generalize ((s.mapSession n (fun x => { x with state := .closing, cause := c, pendingLabel := l, headWait := .teardown })).mapLink n
      Link.teardownStart).abortJobs n = u at h1
  unfold State.teardownLayouts State.dropToken
  simp only
  split
  · exact k.passToken (State.linksMeet_links (by simp) h1)
  · exact State.linksMeet_links (by simp) h1

theorem LinksKept.opened (k : LinksKept n Q) (s : State) (l : BitVec 32) (h : s.linksMeet Q) : (s.openSession n l).linksMeet Q :=
  State.linksMeet_links rfl
    (State.linksMeet_map (State.linksMeet_links (t := s.mapSession n _) rfl h) n Link.openSession k.openSession)

theorem LinksKept.teardownFinish (k : LinksKept n Q) (s : State) (h : s.linksMeet Q) : (s.teardownFinish n).linksMeet Q := by
  have h0 : (s.returnResources n).linksMeet Q := State.linksMeet_links (by simp) h
  have h1 : ((s.returnResources n).endTeardown n).linksMeet Q := by
    unfold State.endTeardown
    split
    · exact k.opened _ _ h0
    · exact State.linksMeet_links rfl h0
    · exact State.linksMeet_links rfl h0
  unfold State.teardownFinish
  simp only
  split
  · exact State.linksMeet_links rfl (State.linksMeet_map h1 n (fun l => l.answerHead _ _) (fun l => k.answer l _ _))
  · exact State.linksMeet_links rfl h1

/-- What a head of port `n` leaves of the links. -/
theorem LinksKept.head (k : LinksKept n Q) : HeadKept n (fun _ => True) (State.linksMeet Q) where
  awake _ _ _ := trivial
  wait _ _ h _ := State.linksMeet_links rfl h
  answer _ tag p h _ := State.linksMeet_links rfl (State.linksMeet_map h n (fun l => l.answerHead tag p) (fun l => k.answer l tag p))
  openSession s l h _ _ := ⟨k.opened s l h, trivial⟩
  teardownStart s c l h _ _ := k.startTeardown s c l h
  teardownFinish s h _ := k.teardownFinish s h
  setTiming _ _ h _ := ⟨State.linksMeet_links (by simp) h, trivial⟩
  createSurface _ _ h _ := ⟨State.linksMeet_links (by simp) h, trivial⟩
  destroySurface _ _ _ _ h _ _ := ⟨State.linksMeet_links rfl h, trivial⟩
  drawing _ _ _ h _ _ := ⟨State.linksMeet_links (by simp) h, trivial⟩
  createWindow _ _ h _ _ := ⟨State.linksMeet_links (by simp) h, trivial⟩
  commit _ _ _ h _ _ := ⟨State.linksMeet_links (by simp) h, trivial⟩
  acquireAlert _ h _ := ⟨State.linksMeet_links (by simp) h, trivial⟩
  releaseAlert s h _ := by
    refine ⟨?_, trivial⟩
    unfold State.serveReleaseAlert
    repeat' split
    · exact h
    · exact k.passToken h
    · exact State.linksMeet_links rfl h
    · exact h

theorem Link.post_trans (l : Link) (p : List Byte) : (l.post p).trans = l.trans := by unfold Link.post; split <;> rfl

theorem Link.post_requests (l : Link) (p : List Byte) : (l.post p).requests = l.requests := by unfold Link.post; split <;> rfl

/-- No request of a head begins or ends a transaction. -/
theorem State.transKept (s : State) (n : Port) : LinksKept n (fun m l => l.trans = (s.link m).trans) where
  post _ l p h := (l.post_trans p).trans h
  answer _ _ _ h := h
  openSession _ h := h
  teardownStart _ h := h

/-- The head of port `n` leaves the other ports' request queues, and its own no longer. -/
theorem State.requestsKept (s : State) (n : Port) : LinksKept n (fun m l =>
    (m ≠ n → l.requests = (s.link m).requests) ∧ l.requests.length ≤ (s.link m).requests.length) where
  post _ l p h := by rw [l.post_requests p]; exact h
  answer _ _ _ h := ⟨fun e => absurd rfl e, by
    show (List.tail _).length ≤ _
    rw [List.length_tail]
    exact Nat.le_trans (Nat.sub_le ..) h.2⟩
  openSession _ h := h
  teardownStart _ h := h

theorem State.examine_trans (s : State) (n m : Port) : ((s.examine n).link m).trans = (s.link m).trans :=
  (s.transKept n).head.examine s (fun _ => rfl) m

/-- A link whose select has gone inactive is IDLE. -/
theorem State.selectInactive_idle (s : State) (n : Port) : ((s.selectInactive n).link n).trans = .idle := by
  unfold State.selectInactive
  split
  · simp only
    split
    · rw [State.examine_trans, State.link_mapLink_same]; rfl
    · rw [State.link_mapLink_same]; rfl
  · rw [State.link_mapLink_same]; rfl
  · assumption

end Sys2Proof.Machine
end

