-- ==== Sys2Proof/Laws/Controllers.lean ====
section
/-! SUPPORT. The session controllers at the end of a boundary: the acts allowed are enough, so that one CLOSING port finishes and goes on
with its queue, and several run as State.ControllersRun says (R22, R34, log entry 10). -/

namespace Sys2Proof.Machine

/-! ### What an act leaves of the request queues -/

/-- A teardown that starts and finishes in one event is a start and then a finish (R34). -/
theorem State.serve_finished (s t : State) (n : Port) (r : Request) (h : s.serve n r = .finished t) :
    ∃ c l, t = (s.teardownStart n c l).teardownFinish n := by
  have begins : ∀ c l, s.beginTeardown n c l = .finished t → ∃ c l, t = (s.teardownStart n c l).teardownFinish n := by
    intro c l e
    unfold State.beginTeardown at e
    dsimp only at e
    split at e
    · injection e with e
      exact ⟨c, l, e.symm⟩
    · cases e
  unfold State.serve at h
  split at h
  · cases h
  · split at h
    · cases h
    · split at h
      · cases h
      · rename_i k _ _ _
        have draws : ∀ k q, s.serveDrawingKind n k q ≠ .finished t := by
          intro k q e
          unfold State.serveDrawingKind Served.ofPair at e
          split at e <;> cases e
        cases k
        case openSession =>
          change s.serveOpen n r.payload = _ at h
          unfold State.serveOpen at h
          split at h
          · cases h
          · exact begins _ _ h
          · cases h
        case closeSession =>
          change s.serveClose n = _ at h
          unfold State.serveClose at h
          split at h
          · cases h
          · exact begins _ _ h
          · cases h
        case destroySurface =>
          change s.serveDestroySurface n r.payload = _ at h
          unfold State.serveDestroySurface at h
          split at h <;> cases h
        case write => exact absurd h (draws _ _)
        case fill => exact absurd h (draws _ _)
        case copy => exact absurd h (draws _ _)
        case checksum => exact absurd h (draws _ _)
        all_goals cases h

/-- A finish takes the request at the head. -/
theorem State.teardownFinish_requests (s : State) (n : Port) :
    ((s.teardownFinish n).link n).requests = (s.link n).requests.tail := by
  cases h : (s.link n).requests with
  | nil =>
    have := ((s.requestsKept n).teardownFinish s (fun m => ⟨fun _ => rfl, Nat.le_refl _⟩) n).2
    rw [h] at this
    exact List.length_eq_zero_iff.mp (Nat.le_zero.mp this)
  | cons r rest =>
    have := (State.teardownFinish_finishes s n r rest h).1
    unfold State.link
    rw [this, tget_tput_same]
    rfl

/-- A finish leaves the other ports' request queues. -/
theorem State.teardownFinish_others (s : State) (n m : Port) (h : m ≠ n) :
    ((s.teardownFinish n).link m).requests = (s.link m).requests :=
  ((s.requestsKept n).teardownFinish s (fun _ => ⟨fun _ => rfl, Nat.le_refl _⟩) m).1 h

/-- An examination leaves the other ports' request queues. -/
theorem State.examineHead_others (s : State) (n m : Port) (h : m ≠ n) :
    ((s.examineHead n).1.link m).requests = (s.link m).requests :=
  ((s.requestsKept n).head.examineHead s (fun _ => ⟨fun _ => rfl, Nat.le_refl _⟩) m).1 h

/-- An examination after which the next head is examined has taken a request. -/
theorem State.examineHead_more (s : State) (n : Port) (h : (s.examineHead n).2 = true) :
    ((s.examineHead n).1.link n).requests.length < (s.link n).requests.length := by
  have kept : ∀ r, (s.serve n r).meets (fun _ => True) (State.linksMeet (fun m l =>
      (m ≠ n → l.requests = (s.link m).requests) ∧ l.requests.length ≤ (s.link m).requests.length)) :=
    fun r => (s.requestsKept n).head.serve s r (fun _ => ⟨fun _ => rfl, Nat.le_refl _⟩) trivial
  unfold State.examineHead at h ⊢
  split at h
  · cases h
  · rename_i r rest hr
    split at h
    · cases h
    · rename_i hw
      rw [if_neg hw]
      split at h
      · cases h
      · rename_i hroom
        rw [if_neg hroom]
        have hs := kept r
        cases e : s.serve n r with
        | answered t payload =>
          rw [e] at hs
          have := (hs.1 n).2
          dsimp only
          unfold State.answer
          rw [State.link_setHeadWait, State.link_mapLink_same]
          show (t.link n).requests.tail.length < _
          rw [List.length_tail, hr]
          rw [hr] at this
          simp only [List.length_cons] at this ⊢
          omega
        | waits w => rw [e] at h; cases h
        | held t => rw [e] at h; cases h
        | finished t =>
          obtain ⟨c, l, rfl⟩ := State.serve_finished s t n r e
          dsimp only
          have := ((s.requestsKept n).startTeardown s c l (fun _ => ⟨fun _ => rfl, Nat.le_refl _⟩) n).2
          rw [State.teardownFinish_requests, List.length_tail, hr]
          rw [hr] at this
          simp only [List.length_cons] at this ⊢
          omega

/-! ### One controller -/

/-- Acts above the queue's length make no difference. -/
theorem State.examineUpTo_enough (n : Port) (k : Nat) : ∀ (j : Nat) (s : State), (s.link n).requests.length < k →
    (s.link n).requests.length < j → State.examineUpTo k n s = State.examineUpTo j n s := by
  induction k with
  | zero => exact fun _ _ h => absurd h (Nat.not_lt_zero _)
  | succ k ih =>
    intro j s hk hj
    cases j with
    | zero => exact absurd hj (Nat.not_lt_zero _)
    | succ j =>
      unfold State.examineUpTo
      split
      · rename_i more
        have := State.examineHead_more s n more
        exact ih j _ (by omega) (by omega)
      · rfl

/-- A controller alone, its finish done, examines its head and those that follow. -/
theorem State.runControllers_one (n : Port) (k : Nat) : ∀ s : State,
    State.runControllers k [(n, false)] s = State.examineUpTo k n s := by
  induction k with
  | zero => exact fun _ => rfl
  | succ k ih =>
    intro s
    have act : State.runControllers (k + 1) [(n, false)] s =
        State.runControllers k (if (s.controllerAct n false).2 then [(n, false)] else []) (s.controllerAct n false).1 := rfl
    rw [act, State.controllerAct_head]
    unfold State.examineUpTo
    split
    · exact ih _
    · cases k <;> rfl

/-- With no port CLOSING the boundary's last step changes nothing. -/
theorem State.finishTeardowns_none (s : State) (h : ∀ n, (s.session n).state ≠ .closing) : s.finishTeardowns = s := by
  have none : s.closingPorts = [] := by
    unfold State.closingPorts
    exact List.filter_eq_nil_iff.mpr (fun n _ => by simpa using h n)
  unfold State.finishTeardowns
  rw [none]
  rfl

/-- With one port CLOSING its teardown finishes, and its session controller goes on with its queue. -/
theorem State.finishTeardowns_one (s : State) (n : Port) (h : (s.session n).state = .closing)
    (others : ∀ m, m ≠ n → (s.session m).state ≠ .closing) : s.finishTeardowns = (s.teardownFinish n).examine n := by
  have one : s.closingPorts = [n] := by
    have e : s.closingPorts = allPorts.filter (fun m => m = n) := by
      unfold State.closingPorts
      refine List.filter_congr (fun m _ => ?_)
      by_cases hm : m = n
      · subst hm; simp [h]
      · simp [hm, others m hm]
    rw [e]
    exact (show ∀ n : Port, allPorts.filter (fun m => m = n) = [n] by decide) n
  unfold State.finishTeardowns State.actsFor
  rw [one]
  show State.runControllers ((s.link n).requests.length + 2) [(n, true)] s = _
  unfold State.runControllers
  show State.runControllers _ [(n, false)] (s.teardownFinish n) = _
  rw [State.runControllers_one]
  have := State.teardownFinish_requests s n
  refine State.examineUpTo_enough n _ _ _ ?_ (Nat.lt_succ_self _)
  rw [this, List.length_tail]
  omega

/-! ### Several controllers -/

/-- The acts that the controllers with work left may still need. -/
def State.actsLeft (s : State) (todo : List (Port × Bool)) : Nat :=
  (todo.map (fun p => (s.link p.1).requests.length + if p.2 then 2 else 1)).sum

theorem State.actsLeft_append (s : State) (a b : List (Port × Bool)) : s.actsLeft (a ++ b) = s.actsLeft a + s.actsLeft b := by
  unfold State.actsLeft
  rw [List.map_append, List.sum_append]

/-- Controllers that did not act have as much to do as before. -/
theorem State.actsLeft_same (s t : State) (todo : List (Port × Bool))
    (h : ∀ p ∈ todo, (t.link p.1).requests = (s.link p.1).requests) : t.actsLeft todo = s.actsLeft todo := by
  unfold State.actsLeft
  rw [List.map_congr_left (fun p hp => by rw [h p hp])]

/-- With acts enough, the controllers run until none has work left. -/
theorem State.runControllers_run (k : Nat) : ∀ (todo : List (Port × Bool)) (s : State), (todo.map Prod.fst).Nodup →
    s.actsLeft todo ≤ k → State.ControllersRun todo s (State.runControllers k todo s) := by
  induction k with
  | zero =>
    intro todo s _ h
    cases todo with
    | nil => exact .done s
    | cons p rest =>
      exfalso
      unfold State.actsLeft at h
      rw [List.map_cons, List.sum_cons] at h
      split at h <;> omega
  | succ k ih =>
    have turn : ∀ (before after : List (Port × Bool)) (n : Port) (finish : Bool) (s : State) (j : Nat),
        ((before ++ (n, finish) :: after).map Prod.fst).Nodup → s.actsLeft (before ++ (n, finish) :: after) ≤ k + 1 →
        State.ControllersRun (before ++ (n, finish) :: after) s
          (State.runControllers k
            (if (({ s with free := j } : State).controllerAct n finish).2 then before ++ after ++ [(n, false)] else before ++ after)
            (({ s with free := j } : State).controllerAct n finish).1) := by
      intro before after n finish s j hn ha
      generalize hu : ({ s with free := j } : State) = u
      have link : ∀ m, u.link m = s.link m := fun m => by rw [← hu]; rfl
      have apart : ∀ p ∈ before ++ after, p.1 ≠ n := by
        intro p hp e
        rw [List.map_append, List.map_cons, List.nodup_append] at hn
        obtain ⟨_, h2, h3⟩ := hn
        rcases List.mem_append.mp hp with hb | hb
        · exact h3 p.1 (List.mem_map_of_mem hb) n (List.mem_cons_self ..) e
        · exact (List.nodup_cons.mp h2).1 (List.mem_map.mpr ⟨p, hb, e⟩)
      have rest : ((before ++ after).map Prod.fst).Nodup := by
        refine hn.sublist ?_
        rw [List.map_append, List.map_append, List.map_cons]
        exact (List.Sublist.refl _).append (List.sublist_cons_self ..)
      have back : ((before ++ after ++ [(n, false)]).map Prod.fst).Nodup := by
        rw [List.map_append, List.nodup_append]
        refine ⟨rest, by simp, fun a h b hb e => ?_⟩
        obtain ⟨p, hp, rfl⟩ := List.mem_map.mp h
        simp only [List.map_cons, List.map_nil, List.mem_singleton] at hb
        exact apart p hp (e.trans hb)
      have whole : s.actsLeft (before ++ (n, finish) :: after) =
          s.actsLeft (before ++ after) + ((s.link n).requests.length + if finish then 2 else 1) := by
        unfold State.actsLeft
        simp only [List.map_append, List.map_cons, List.sum_append, List.sum_cons]
        omega
      have single : ∀ v : State, v.actsLeft [(n, false)] = (v.link n).requests.length + 1 := fun v => by
        unfold State.actsLeft
        simp
      cases finish with
      | true =>
        rw [State.controllerAct_finish]
        have more : (u.controllerAct n true).2 = true := rfl
        rw [if_pos more]
        have next := ih (before ++ after ++ [(n, false)]) (u.teardownFinish n) back (by
          have own := State.teardownFinish_requests u n
          have others := State.actsLeft_same s (u.teardownFinish n) (before ++ after)
            (fun p hp => by rw [State.teardownFinish_others u n p.1 (apart p hp), link])
          rw [State.actsLeft_append, single, others, own, List.length_tail, link]
          rw [whole] at ha
          simp only [if_true] at ha
          omega)
        subst hu
        exact .finish s _ before after n j next
      | false =>
        rw [State.controllerAct_head]
        have others := State.actsLeft_same s (u.examineHead n).1 (before ++ after)
          (fun p hp => by rw [State.examineHead_others u n p.1 (apart p hp), link])
        rw [whole] at ha
        simp only [Bool.false_eq_true, if_false] at ha
        by_cases more : (u.examineHead n).2 = true
        · rw [if_pos more]
          have next := ih (before ++ after ++ [(n, false)]) (u.examineHead n).1 back (by
            have fewer := State.examineHead_more u n more
            rw [link] at fewer
            rw [State.actsLeft_append, single, others]
            omega)
          subst hu
          exact .more s _ before after n j more next
        · rw [if_neg more]
          have next := ih (before ++ after) (u.examineHead n).1 rest (by rw [others]; omega)
          subst hu
          exact .last s _ before after n j (by simpa using more) next
    intro todo s hn ha
    unfold State.runControllers
    split
    · exact .done s
    · rename_i n finish
      exact turn [] [] n finish s s.free hn ha
    · rename_i n finish rest _
      dsimp only
      generalize hi : Config.nextController s.free % (rest.length + 1) = i
      have within : i < ((n, finish) :: rest).length := by
        rw [← hi]
        exact Nat.mod_lt _ (Nat.succ_pos _)
      generalize (n, finish) :: rest = todo at *
      have pick : todo.getD i (n, finish) = todo[i] := by rw [List.getD_eq_getElem?_getD, List.getElem?_eq_getElem within]; rfl
      have split : todo = todo.take i ++ (todo[i].1, todo[i].2) :: todo.drop (i + 1) := by
        have : todo.drop i = todo[i] :: todo.drop (i + 1) := List.drop_eq_getElem_cons within
        calc todo = todo.take i ++ todo.drop i := (List.take_append_drop i todo).symm
          _ = _ := by rw [this]
      rw [pick, List.eraseIdx_eq_take_drop_succ]
      have := turn (todo.take i) (todo.drop (i + 1)) todo[i].1 todo[i].2 s (s.free + 1) (by rw [← split]; exact hn)
        (by rw [← split]; exact ha)
      rw [← split] at this
      exact this

/-- The boundary's last step is the work of the CLOSING ports' session controllers, in some order. -/
theorem State.finishTeardowns_run (s : State) :
    State.ControllersRun (s.closingPorts.map (fun n => (n, true))) s s.finishTeardowns := by
  refine State.runControllers_run _ _ s ?_ ?_
  · have ports : (allPorts.filter (fun n => (s.session n).state = .closing)).Nodup :=
      (show allPorts.Nodup by decide).sublist (List.filter_sublist ..)
    rw [List.map_map]
    show (s.closingPorts.map id).Nodup
    rw [List.map_id]
    exact ports
  · unfold State.actsLeft State.actsFor
    rw [List.map_map]
    exact Nat.le_refl _

end Sys2Proof.Machine
end

