-- ==== Sys2Proof/Laws/Closings.lean ====
section
/-! SUPPORT. A boundary's first three steps, and what they leave for its last: sessions, the drawing engine and the surfaces but for their
reference counts, and with no commit pending both layouts but for the CLOSING ports' windows (R44, R126). -/

namespace Sys2Proof.Machine

/-! ### Each command that takes a boundary (R44) -/

/-- FRAME_BOUNDARY is the four steps at the state in which the frame counter has advanced. -/
theorem State.frameBoundary_steps (s : State) (t : Timing) (ht : s.scan.timing = some t) :
    ∃ v : State, v.links = s.links ∧ v.sessions = s.sessions ∧ v.surfaces = s.surfaces ∧ v.layouts = s.layouts ∧
      v.mem = s.drawOn.mem ∧ v.drawing = s.drawOn.drawing ∧
      v.scan = ⟨some t, s.scan.frame + 1, some (t.vactive - 1, t.hactive), [], []⟩ ∧
      s.frameBoundary = v.withdrawClosing.applyCommits.ageWindows.finishTeardowns := by
  refine ⟨(s.drawOn.withScan { s.drawOn.scan with pos := some (t.vactive - 1, t.hactive) }).withScan
    { s.drawOn.scan with pos := some (t.vactive - 1, t.hactive), frame := s.drawOn.scan.frame + 1, shown := [], fetched := [] },
    by simp, by simp, by simp, by simp, rfl, rfl, ?_, ?_⟩
  · simp only [State.withScan_scan, State.drawOn_scan, ht]
  · unfold State.frameBoundary
    rw [ht]
    rfl

/-- PIXEL_CLOCK at the last active pixel is the same four steps. -/
theorem State.pixelClock_steps (s : State) (t : Timing) (ht : s.scan.timing = some t) (hv : t.valid = true)
    (hp : s.scan.pos = some (t.vactive - 1, t.hactive - 1)) :
    ∃ v : State, v.links = s.links ∧ v.sessions = s.sessions ∧ v.surfaces = s.surfaces ∧ v.layouts = s.layouts ∧
      v.mem = s.drawOn.mem ∧ v.drawing = s.drawOn.drawing ∧
      v.scan = ⟨some t, s.scan.frame + 1, some (t.vactive - 1, t.hactive), [], []⟩ ∧
      s.pixelClock = v.withdrawClosing.applyCommits.ageWindows.finishTeardowns := by
  have range := of_decide_eq_true hv
  have reads : ∀ u : State, u.fetch t (t.vactive - 1) (t.hactive - 1) = u := by
    intro u
    unfold State.fetch Timing.fetchLine Timing.vtotal
    rw [if_neg (by omega), if_neg (by omega)]
  have last : t.lastActive (t.vactive - 1) (t.hactive - 1) = true := by
    unfold Timing.lastActive
    simp
    omega
  have place : ∀ c : Scan, c.advance t (t.vactive - 1) (t.hactive - 1) = { c with pos := some (t.vactive - 1, t.hactive) } := by
    intro c
    have within : t.hactive - 1 + 1 < t.htotal := by unfold Timing.htotal; omega
    unfold Scan.advance Timing.next
    rw [if_pos within, if_pos within, show t.hactive - 1 + 1 = t.hactive by omega]
  refine ⟨(s.drawOn.withScan { s.drawOn.scan with pos := some (t.vactive - 1, t.hactive) }).withScan
    { s.drawOn.scan with pos := some (t.vactive - 1, t.hactive), frame := s.drawOn.scan.frame + 1, shown := [], fetched := [] },
    by simp, by simp, by simp, by simp, rfl, rfl, ?_, ?_⟩
  · simp only [State.withScan_scan, State.drawOn_scan, ht]
  · unfold State.pixelClock
    rw [ht, hp]
    dsimp only
    rw [reads, place, last]
    rfl

/-! ### The first three steps -/

/-- The first three steps leave sessions, frame memory, the engines, the request and response queues, and of the surfaces all but
their reference counts. -/
theorem State.steps_keep (s : State) :
    let u := s.withdrawClosing.applyCommits.ageWindows
    u.sessions = s.sessions ∧ u.drawing = s.drawing ∧ u.scan = s.scan ∧ u.mem = s.mem ∧ u.pending = s.pending ∧
      u.surfaces.bareView = s.surfaces.bareView ∧
      ∀ n, (u.link n).requests = (s.link n).requests ∧ (u.link n).responses = (s.link n).responses ∧
        (u.link n).trans = (s.link n).trans := by
  intro u
  have posts : ∀ (l : Link) p, (l.post p).requests = l.requests ∧ (l.post p).responses = l.responses ∧ (l.post p).trans = l.trans := by
    intro l p
    unfold Link.post
    split <;> exact ⟨rfl, rfl, rfl⟩
  let P : State → Prop := fun u => u.surfaces.bareView = s.surfaces.bareView ∧ u.linksMeet (fun n l =>
    l.requests = (s.link n).requests ∧ l.responses = (s.link n).responses ∧ l.trans = (s.link n).trans)
  have post : ∀ v n p, P v → P (v.post n p) := fun v n p h =>
    ⟨h.1, State.linksMeet_map h.2 n (fun l => l.post p) (fun l hl => by
      rw [(posts l p).1, (posts l p).2.1, (posts l p).2.2]; exact hl)⟩
  have first : P s.withdrawClosing := State.withdrawClosing_keeps P P
    (fun v w n h _ _ => ⟨(Surfaces.mapSource_view _ _ Surface.lowerShown (fun _ => rfl)).trans h.1, State.linksMeet_links rfl h.2⟩) (fun v h => h) s
    ⟨rfl, fun n => ⟨rfl, rfl, rfl⟩⟩
  have second : P s.withdrawClosing.applyCommits := State.applyCommits_keeps P (fun v p rest h _ _ =>
    State.applyCommit_keeps P P
      (fun v op h => ⟨(State.applyOp_view v op).trans h.1, State.linksMeet_links (State.applyOp_links v op) h.2⟩)
      (fun v ops h => ⟨(Surfaces.mapQueued_view _ _ Surface.lowerQueued (fun _ => rfl)).trans h.1, h.2⟩)
      (fun v ws h => h) (fun v n p h => post _ n p h) _ _ h) _ first
  have third : P u := State.ageWindows_keeps P (fun v w h => by
    unfold State.ageWindow
    dsimp only
    repeat' split
    · exact post _ _ _ h
    · exact h
    · exact h
    · exact h) (fun v h => h) _ second
  exact ⟨by simp [u], by simp [u], by simp [u], by simp [u], by simp [u], third.1, third.2⟩

/-- With no commit pending they withdraw the CLOSING ports' windows, and change ages. -/
theorem State.steps_quiet (s : State) (h : s.layouts.commits = []) :
    let u := s.withdrawClosing.applyCommits.ageWindows
    u.layouts = { s.layouts with
        applied := s.layouts.applied.without s.closes
        appliedLoad := loadTable s.scan.timing (s.layouts.applied.without s.closes)
        projectedLoad := loadTable s.scan.timing s.layouts.projected
        fresh := u.layouts.fresh } ∧
      u.surfaces = s.surfaces.changed (fun i f => { f with shownRefs := f.shownRefs - s.layouts.applied.refsTo s.closes i }) := by
  intro u
  have effect := State.withdrawClosing_effect s
  have none : s.withdrawClosing.applyCommits = s.withdrawClosing := by
    have empty : s.withdrawClosing.layouts.commits = [] := by rw [effect]; exact h
    unfold State.applyCommits
    rw [empty]
    rfl
  have e : u = s.withdrawClosing.ageWindows := by rw [← none]
  obtain ⟨f, hf⟩ := State.ageWindows_layouts s.withdrawClosing
  refine ⟨?_, ?_⟩
  · have fresh : u.layouts.fresh = f := by rw [e, hf]
    rw [fresh, e, hf, effect]
    rfl
  · rw [e, State.ageWindows_surfaces, effect]
    rfl

/-! ### The windows of a CLOSING port, withdrawn and then freed -/

theorem Layout.without_lacking (l : Layout) (p : WinSlot → Bool) : (l.without p).lacking p = l.lacking p := by
  refine Layout.ext_views (fun w => ?_) (fun k => ?_)
  · rw [Layout.lacking_record, Layout.lacking_record, Layout.without_record]
    cases p w <;> rfl
  · rw [Layout.lacking_list, Layout.lacking_list, Layout.without_list, List.filter_filter]
    simp only [Bool.and_self]

/-- A withdrawn window holds no reference. -/
theorem Layout.without_refsTo (l : Layout) (p : WinSlot → Bool) (i : SurfSlot) : (l.without p).refsTo p i = 0 := by
  unfold Layout.refsTo
  have each : ∀ w ∈ (allSlots 24).filter p, (l.without p).refsOn w i = 0 := by
    intro w hw
    have hp : p w = true := (List.mem_filter.mp hw).2
    unfold Layout.refsOn
    rw [Layout.without_record, if_pos hp]
    cases l.record w with
    | none => rfl
    | some r =>
      show WindowRec.refsOn { r with state := .withdrawn } i = 0
      unfold WindowRec.refsOn
      cases r.source <;> rfl
  rw [List.map_congr_left each, sum_zero]

end Sys2Proof.Machine
end

