-- ==== Sys2Proof/Laws/Links.lean ====
section
/-! SUPPORT. The client links: bytes and bits, clocking, the judgement of a request's frame, and one whole transaction. -/

namespace Sys2Proof.Machine

/-! ### Bits, bytes and fields -/

theorem byteOfBits_bitsOfByte (b : Byte) : byteOfBits (bitsOfByte b) = b := by
  revert b; decide +kernel

theorem field8_append_left (p q : List Byte) (o : Nat) (h : o < p.length) : field8 (p ++ q) o = field8 p o := by
  simp [field8, List.getD_eq_getElem?_getD, List.getElem?_append_left h]

theorem field8_append_right (p q : List Byte) (o : Nat) : field8 (p ++ q) (p.length + o) = field8 q o := by
  simp [field8, List.getD_eq_getElem?_getD, List.getElem?_append_right]

/-- A 2-byte field reads back the value written (R159). -/
theorem field16_bytes16 (v : Nat) (h : v < 65536) (q : List Byte) : field16 (bytes16 v ++ q) 0 = v := by
  simp [field16, field8, bytes16]
  omega

theorem field16_append_right (p q : List Byte) (o : Nat) : field16 (p ++ q) (p.length + o) = field16 q o := by
  simp only [field16, field8_append_right, Nat.add_assoc]

@[simp] theorem bytes16_length (v : Nat) : (bytes16 v).length = 2 := rfl
@[simp] theorem bytes8_length (v : Nat) : (bytes8 v).length = 1 := rfl
@[simp] theorem bytes32_length (v : BitVec 32) : (bytes32 v).length = 4 := rfl
@[simp] theorem bytesSigned16_length (v : Int) : (bytesSigned16 v).length = 2 := rfl

/-! ### Clocking (R1) -/

/-- What the eight edges of one byte do to a link in ACTIVE between bytes. -/
theorem Link.clockByte_active (l : Link) (b : Byte) (ha : l.trans = .active) (hb : l.inBits = []) :
    (bitsOfByte b).foldl Link.clockEdge l =
      Link.drive { l with inBytes := l.inBytes ++ [b] } := by
  have e := byteOfBits_bitsOfByte b
  simp only [bitsOfByte] at e
  obtain ⟨t, r, p, v, f, q, s, o, ib, bits, d⟩ := l
  simp only at ha hb
  subst ha hb
  simp [bitsOfByte, Link.clockEdge, Link.sample, Link.drive, Link.nextOutBit] at e ⊢
  exact e

theorem Link.clockBytes_cons (l : Link) (b : Byte) (bs : List Byte) :
    l.clockBytes (b :: bs) = Link.clockBytes ((bitsOfByte b).foldl Link.clockEdge l) bs := rfl

/-- Whole bytes clocked on a link in ACTIVE join the collected bytes and change nothing else but CLn_DO. -/
theorem Link.clockBytes_active (bs : List Byte) (l : Link) (ha : l.trans = .active) (hb : l.inBits = []) :
    ∃ d, l.clockBytes bs = { l with inBytes := l.inBytes ++ bs, dout := d } := by
  induction bs generalizing l with
  | nil => exact ⟨l.dout, by simp [Link.clockBytes]⟩
  | cons b bs ih =>
    rw [Link.clockBytes_cons, Link.clockByte_active l b ha hb]
    obtain ⟨d, hd⟩ := ih (Link.drive { l with inBytes := l.inBytes ++ [b] }) ha hb
    exact ⟨d, by rw [hd]; simp [Link.drive]⟩

/-! ### The judgement of a request's frame (R7) -/

theorem Request.frame_eq (r : Request) :
    r.frame = (r.kind :: r.tag :: (bytes16 r.payload.length ++ r.payload)) ++
      bytes16 (crc16 (r.kind :: r.tag :: (bytes16 r.payload.length ++ r.payload))).toNat := rfl

theorem Request.frame_length (r : Request) : r.frame.length = r.payload.length + 6 := by
  simp [Request.frame, withCrc]; omega

/-- The judgement of a request's frame, whatever is clocked after it: the request, or a NOP when its kind is NOP (R7, R8). -/
theorem judge_frame (r : Request) (extra : List Byte) (hp : r.payload.length ≤ Config.maxPayload)
    (hz : ¬ (r.frame ++ extra).all (fun b => b = 0) = true) :
    judge (r.frame ++ extra) = if r.kind = nopCode then .nop else .request r := by
  have hlen : r.payload.length < 65536 := Nat.lt_of_le_of_lt hp (by decide)
  generalize hbody : r.kind :: r.tag :: (bytes16 r.payload.length ++ r.payload) = body
  have hbl : body.length = 4 + r.payload.length := by
    rw [← hbody]; simp; omega
  have hf : r.frame ++ extra = body ++ (bytes16 (crc16 body).toNat ++ extra) := by
    rw [Request.frame_eq, hbody, List.append_assoc]
  have hl2 : field16 (r.frame ++ extra) 2 = r.payload.length := by
    have : r.frame ++ extra = [r.kind, r.tag] ++ (bytes16 r.payload.length ++ (r.payload ++
        (bytes16 (crc16 body).toNat ++ extra))) := by
      rw [hf, ← hbody]; simp
    rw [this]
    have := field16_append_right [r.kind, r.tag] (bytes16 r.payload.length ++ (r.payload ++
        (bytes16 (crc16 body).toNat ++ extra))) 0
    simpa [field16_bytes16 _ hlen] using this
  have hcrc : field16 (r.frame ++ extra) (4 + r.payload.length) = (crc16 body).toNat := by
    rw [hf, ← hbl]
    have := field16_append_right body (bytes16 (crc16 body).toNat ++ extra) 0
    rw [Nat.add_zero] at this
    rw [this, field16_bytes16 _ (crc16 body).isLt]
  have htake : (r.frame ++ extra).take (4 + r.payload.length) = body := by
    rw [hf, ← hbl, List.take_left]
  have hdrop : ((r.frame ++ extra).drop 4).take r.payload.length = r.payload := by
    rw [hf, ← hbody]; simp [bytes16]
  have htot : (r.frame ++ extra).length = 4 + r.payload.length + 2 + extra.length := by
    rw [List.length_append, Request.frame_length]; omega
  have hk : (r.frame ++ extra).getD 0 0 = r.kind := by rw [hf, ← hbody]; rfl
  have ht : (r.frame ++ extra).getD 1 0 = r.tag := by rw [hf, ← hbody]; rfl
  unfold judge
  rw [if_neg hz, if_neg (by omega)]
  simp only [hl2, hcrc, htake, hdrop, hk, ht]
  rw [if_neg (by omega), if_neg (by omega), if_neg (by simp)]

/-- A request's frame is no filler. -/
theorem Request.frame_not_zero (r : Request) (extra : List Byte) (hk : r.kind ≠ nopCode) :
    ¬ (r.frame ++ extra).all (fun b => b = 0) = true := by
  rw [Request.frame_eq]
  simp only [nopCode] at hk
  simp only [List.cons_append, List.all_cons, decide_eq_true_eq, Bool.and_eq_true]
  exact fun h => hk h.1

/-! ### One whole transaction (R3, R7, R10, R11) -/

theorem clockedBytes_length (frame : List Byte) (n : Nat) : n ≤ (clockedBytes frame n).length := by
  simp [clockedBytes]; omega

/-- The judgement of what a client clocks for a request. -/
theorem judge_clockedBytes (r : Request) (n : Nat) (hp : r.payload.length ≤ Config.maxPayload)
    (hk : r.kind ≠ nopCode) : judge (clockedBytes r.frame n) = .request r := by
  have := judge_frame r (List.replicate (n - r.frame.length) 0) hp (Request.frame_not_zero r _ hk)
  rwa [if_neg hk] at this

/-- The judgement of what a client clocks for a NOP: a NOP, or nothing at all if every byte of the frame is zero. -/
theorem judge_clockedBytes_nop (r : Request) (n : Nat) (hp : r.payload.length ≤ Config.maxPayload)
    (hk : r.kind = nopCode) : judge (clockedBytes r.frame n) = .nop ∨ judge (clockedBytes r.frame n) = .nothing := by
  by_cases hz : (clockedBytes r.frame n).all (fun b => b = 0) = true
  · right; unfold judge; rw [if_pos hz]
  · left
    have := judge_frame r (List.replicate (n - r.frame.length) 0) hp hz
    rwa [if_pos hk] at this

end Sys2Proof.Machine
end

