-- ==== Sys2Proof/Laws/Operations.lean ====
section
/-! SUPPORT. What an operation of a commit does to a layout, by records and lists; layouts that agree stay so under it, and it passes by
windows that are withdrawn. -/

namespace Sys2Proof.Machine

/-! ### Live windows and agreeing layouts -/

theorem Layout.live_congr {l k : Layout} {w : WinSlot} (h : l.record w = k.record w) : l.live w ↔ k.live w := by
  unfold Layout.live; rw [h]

theorem Layout.agrees_refl (l : Layout) : l.agrees l := ⟨rfl, fun _ => Or.inl rfl⟩

theorem Layout.agrees_symm {l k : Layout} (h : l.agrees k) : k.agrees l :=
  ⟨h.1.symm, fun w => (h.2 w).imp Eq.symm And.symm⟩

theorem Layout.agrees_live {l k : Layout} (h : l.agrees k) (w : WinSlot) : l.live w ↔ k.live w := by
  rcases h.2 w with e | ⟨a, b⟩
  · exact Layout.live_congr e
  · exact ⟨fun x => absurd x a, fun x => absurd x b⟩

/-- The record of a window that is not WITHDRAWN is the same in layouts that agree. -/
theorem Layout.agrees_record {l k : Layout} (h : l.agrees k) {w : WinSlot} (hw : l.live w) : l.record w = k.record w := by
  rcases h.2 w with e | ⟨a, _⟩
  · exact e
  · exact absurd hw a

theorem Layout.agrees_trans {l k j : Layout} (h : l.agrees k) (h' : k.agrees j) : l.agrees j := by
  refine ⟨h.1.trans h'.1, fun w => ?_⟩
  by_cases e : l.live w
  · exact Or.inl ((Layout.agrees_record h e).trans (Layout.agrees_record h' ((Layout.agrees_live h w).mp e)))
  · exact Or.inr ⟨e, fun x => e ((Layout.agrees_live h w).mpr ((Layout.agrees_live h' w).mpr x))⟩

/-! ### What an operation does, by records and lists -/

/-- A window's record once it is STACKED if it was RESERVED (R115). -/
def WindowRec.inserted (r : WindowRec) : WindowRec := if r.state = .reserved then { r with state := .stacked, band := .main } else r

/-- What an operation makes of the record of its window (R115 to R121). -/
def Op.onRecord (op : Op) (m : Surfaces) (r : WindowRec) : WindowRec :=
  match op with
  | .place _ x y width height => { r.inserted with x := x, y := y, width := width, height := height }
  | .source _ present surface sx sy =>
    { r.inserted with source := if present = 1 then sourceDescOf m surface else none, sx := sx, sy := sy }
  | .style _ opacity fill => { r.inserted with opacity := opacity, fill := fill }
  | .band _ code =>
    match bandOfCode code with
    | some k => { r.inserted with state := .stacked, band := k }
    | none => r.inserted
  | .restack _ _ _ => r.inserted
  | .showWindow _ => { r.inserted with visible := true }
  | .hideWindow _ => { r.inserted with visible := false }
  | .freshness _ deadline => { r.inserted with deadline := deadline }
  | .touch _ => r.inserted
  | .destroy _ => { r with state := .withdrawn }

theorem Layout.moveToTop_record (l : Layout) (w v : WinSlot) (b : Band) :
    (l.moveToTop w b).record v =
      if w = v then (l.record v).map (fun r => { r with state := .stacked, band := b }) else l.record v :=
  Layout.record_mapRecord l w v _

theorem Layout.stackIfReserved_record (l : Layout) (w v : WinSlot) :
    (l.stackIfReserved w).record v = if w = v then (l.record v).map WindowRec.inserted else l.record v := by
  unfold Layout.stackIfReserved
  by_cases e : w = v
  · subst e
    rw [if_pos rfl]
    cases hr : l.record w with
    | none => simp [hr]
    | some r =>
      by_cases hs : r.state = .reserved
      · rw [if_pos (by simp [hs]), Layout.moveToTop_record, if_pos rfl, hr]
        simp [WindowRec.inserted, hs]
      · rw [if_neg (by simp [hs]), hr]
        simp [WindowRec.inserted, hs]
  · rw [if_neg e]
    split
    · rw [Layout.moveToTop_record, if_neg e]
    · rfl

/-- An operation changes the record of its window and no other. -/
theorem Op.carryOut_record (op : Op) (m : Surfaces) (w v : WinSlot) (l : Layout) :
    (op.carryOut m w l).record v = if w = v then (l.record v).map (op.onRecord m) else l.record v := by
  have base := Layout.stackIfReserved_record l w v
  have map : ∀ f : WindowRec → WindowRec, ((l.stackIfReserved w).mapRecord w f).record v =
      if w = v then (l.record v).map (fun r => f r.inserted) else l.record v := by
    intro f
    rw [Layout.record_mapRecord, base]
    split
    · rw [Option.map_map]; rfl
    · rfl
  cases op <;> simp only [Op.carryOut]
  case band x code =>
    split
    · rename_i k hk
      refine (map _).trans ?_
      have : (Op.band x code).onRecord m = fun r => { r.inserted with state := .stacked, band := k } := by
        funext r; unfold Op.onRecord; simp only [hk]
      rw [this]
    · rename_i hk
      have : (Op.band x code).onRecord m = WindowRec.inserted := by
        funext r; unfold Op.onRecord; simp only [hk]
      rw [base, this]
  case restack =>
    split
    · rw [Layout.restack_record, base]; rfl
    · rw [base]; rfl
  case touch => rw [base]; rfl
  case destroy => exact Layout.withdraw_record l w v |>.trans (by simp only [eq_comm]; rfl)
  all_goals exact map _

theorem Op.carryOut_other (op : Op) (m : Surfaces) {w v : WinSlot} (l : Layout) (h : w ≠ v) :
    (op.carryOut m w l).record v = l.record v := by
  rw [Op.carryOut_record, if_neg h]

theorem Layout.stackIfReserved_bands {l k : Layout} {w : WinSlot} (hb : l.bands = k.bands) (hr : l.record w = k.record w) :
    (l.stackIfReserved w).bands = (k.stackIfReserved w).bands := by
  unfold Layout.stackIfReserved
  rw [hr]
  split
  · unfold Layout.moveToTop; simp only [hb]
  · exact hb

/-- What an operation does to the lists depends on the lists and its window's record alone. -/
theorem Op.carryOut_bands (op : Op) (m m' : Surfaces) {w : WinSlot} {l k : Layout} (hb : l.bands = k.bands)
    (hr : l.record w = k.record w) : (op.carryOut m w l).bands = (op.carryOut m' w k).bands := by
  have hs := Layout.stackIfReserved_bands hb hr
  have hi : (l.stackIfReserved w).record w = (k.stackIfReserved w).record w := by
    rw [Layout.stackIfReserved_record, Layout.stackIfReserved_record, hr]
  cases op <;> simp only [Op.carryOut]
  case band =>
    split
    · unfold Layout.moveToTop; simp only [hs]
    · exact hs
  case restack =>
    split
    · unfold Layout.restack; rw [hi]
      split
      · exact hs
      · simp only [hs]
    · exact hs
  case touch => exact hs
  case destroy => show l.bands.remove w = k.bands.remove w; rw [hb]
  all_goals exact hs

/-- The surface manager describes a surface as it did. -/
def Op.sameDesc (op : Op) (m m' : Surfaces) : Prop :=
  ∀ h surface sx sy, op = .source h 1 surface sx sy → sourceDescOf m surface = sourceDescOf m' surface

theorem Op.onRecord_congr {op : Op} {m m' : Surfaces} (h : op.sameDesc m m') (r : WindowRec) : op.onRecord m r = op.onRecord m' r := by
  cases op <;> try rfl
  rename_i h' present surface sx sy
  unfold Op.onRecord
  by_cases e : present = 1
  · subst e; simp [h _ _ _ _ rfl]
  · simp [e]

theorem Op.carryOut_agrees {op : Op} {m m' : Surfaces} {w : WinSlot} {l k : Layout} (hd : op.sameDesc m m') (h : l.agrees k)
    (hw : l.live w) : (op.carryOut m w l).agrees (op.carryOut m' w k) := by
  have hr := Layout.agrees_record h hw
  refine ⟨Op.carryOut_bands op m m' h.1 hr, fun v => ?_⟩
  by_cases e : w = v
  · subst e
    rw [Op.carryOut_record, Op.carryOut_record, if_pos rfl, if_pos rfl, hr, funext (Op.onRecord_congr hd)]
    exact Or.inl rfl
  · rw [Op.carryOut_other op m l e, Op.carryOut_other op m' k e]
    refine (h.2 v).imp id (fun ⟨a, b⟩ => ⟨fun x => a ?_, fun x => b ?_⟩)
    · exact (Layout.live_congr (Op.carryOut_other op m l e)).mp x
    · exact (Layout.live_congr (Op.carryOut_other op m' k e)).mp x

/-- A window that is WITHDRAWN or absent stays so under an operation on another. -/
theorem Op.carryOut_dead {op : Op} {m : Surfaces} {w v : WinSlot} {l : Layout} (hw : l.live w) (hv : ¬ l.live v) :
    ¬ (op.carryOut m w l).live v := by
  have e : w ≠ v := by rintro rfl; exact hv hw
  intro x
  exact hv ((Layout.live_congr (Op.carryOut_other op m l e)).mp x)

/-! ### Windows withdrawn, and operations on the others -/

theorem Layout.without_live (l : Layout) (p : WinSlot → Bool) (w : WinSlot) : (l.without p).live w ↔ (p w = false ∧ l.live w) := by
  unfold Layout.live
  rw [Layout.without_record]
  cases hp : p w
  · simp
  · simp

theorem Layout.without_agrees {l k : Layout} (p : WinSlot → Bool) (h : l.agrees k) : (l.without p).agrees (k.without p) := by
  refine ⟨?_, fun w => ?_⟩
  · unfold Layout.without; simp only [h.1]
  · by_cases hw : (l.without p).live w
    · have := (Layout.without_live l p w).mp hw
      left
      rw [Layout.without_record, Layout.without_record, Layout.agrees_record h this.2]
    · refine Or.inr ⟨hw, fun x => hw ?_⟩
      have := (Layout.without_live k p w).mp x
      exact (Layout.without_live l p w).mpr ⟨this.1, (Layout.agrees_live h w).mpr this.2⟩

theorem filter_insertAbove (q : WinSlot → Bool) (r w : WinSlot) (hr : q r = true) (hw : q w = true) (l : List WinSlot) :
    (insertAbove r w l).filter q = insertAbove r w (l.filter q) := by
  have unf : ∀ (x : WinSlot) (l : List WinSlot), insertAbove r w (x :: l) = if x = r then x :: w :: l else x :: insertAbove r w l :=
    fun _ _ => rfl
  induction l with
  | nil => simp [insertAbove, hw]
  | cons x l ih =>
    rw [unf]
    by_cases e : x = r
    · subst e; simp [hr, hw, unf]
    · rw [if_neg e]
      cases hx : q x
      · rw [List.filter_cons_of_neg (by simp [hx]), List.filter_cons_of_neg (by simp [hx]), ih]
      · rw [List.filter_cons_of_pos hx, List.filter_cons_of_pos hx, ih, unf, if_neg e]

theorem filter_insertBelow (q : WinSlot → Bool) (r w : WinSlot) (hr : q r = true) (hw : q w = true) (l : List WinSlot) :
    (insertBelow r w l).filter q = insertBelow r w (l.filter q) := by
  have unf : ∀ (x : WinSlot) (l : List WinSlot), insertBelow r w (x :: l) = if x = r then w :: x :: l else x :: insertBelow r w l :=
    fun _ _ => rfl
  induction l with
  | nil => simp [insertBelow, hw]
  | cons x l ih =>
    rw [unf]
    by_cases e : x = r
    · subst e; simp [hr, hw, unf]
    · rw [if_neg e]
      cases hx : q x
      · rw [List.filter_cons_of_neg (by simp [hx]), List.filter_cons_of_neg (by simp [hx]), ih]
      · rw [List.filter_cons_of_pos hx, List.filter_cons_of_pos hx, ih, unf, if_neg e]

theorem filter_swap (q q' : WinSlot → Bool) (l : List WinSlot) : (l.filter q).filter q' = (l.filter q').filter q := by
  rw [List.filter_filter, List.filter_filter]
  congr 1; funext x; exact Bool.and_comm _ _

theorem filter_restackList (q : WinSlot → Bool) (mode : StackMode) (ref : Option WinSlot) (w : WinSlot) (hw : q w = true)
    (hr : ∀ r, ref = some r → mode = .above ∨ mode = .below → q r = true) (l : List WinSlot) :
    (restackList mode ref w l).filter q = restackList mode ref w (l.filter q) := by
  unfold restackList
  split
  · rw [List.filter_append, filter_swap]; simp [hw]
  · rw [List.filter_cons_of_pos hw, filter_swap]
  · rename_i r; rw [filter_insertAbove q r w (hr _ rfl (Or.inl rfl)) hw, filter_swap]
  · rename_i r; rw [filter_insertBelow q r w (hr _ rfl (Or.inr rfl)) hw, filter_swap]
  · rfl
  · rfl

theorem Layout.without_moveToTop (l : Layout) (p : WinSlot → Bool) (w : WinSlot) (b : Band) (hw : p w = false) :
    (l.moveToTop w b).without p = (l.without p).moveToTop w b := by
  refine Layout.ext_views (fun v => ?_) (fun k => ?_)
  · rw [Layout.without_record, Layout.moveToTop_record, Layout.moveToTop_record, Layout.without_record]
    by_cases e : w = v
    · subst e; simp [hw]
    · rw [if_neg e, if_neg e]
  · rw [Layout.without_list]
    show (((l.bands.remove w).setList b _).list k).filter _ = (((l.without p).bands.remove w).setList b _).list k
    rw [Bands.list_setList, Bands.list_setList, Bands.list_remove, Bands.list_remove, Bands.list_remove, Bands.list_remove,
      Layout.without_list, Layout.without_list]
    split
    · rw [List.filter_append, filter_swap]; simp [hw]
    · rw [filter_swap]

theorem Layout.without_mapRecord (l : Layout) (p : WinSlot → Bool) (w : WinSlot) (f : WindowRec → WindowRec) (hw : p w = false) :
    (l.mapRecord w f).without p = (l.without p).mapRecord w f := by
  refine Layout.ext_views (fun v => ?_) (fun k => ?_)
  · rw [Layout.without_record, Layout.record_mapRecord, Layout.record_mapRecord, Layout.without_record]
    by_cases e : w = v
    · subst e; simp [hw]
    · rw [if_neg e, if_neg e]
  · rw [Layout.without_list]
    show _ = (l.without p).bands.list k
    rw [Layout.without_list]
    rfl

theorem Layout.without_stackIfReserved (l : Layout) (p : WinSlot → Bool) (w : WinSlot) (hw : p w = false) :
    (l.stackIfReserved w).without p = (l.without p).stackIfReserved w := by
  unfold Layout.stackIfReserved
  have : (l.without p).record w = l.record w := by rw [Layout.without_record, hw]; rfl
  rw [this]
  split
  · exact Layout.without_moveToTop l p w _ hw
  · rfl

theorem Layout.without_restack (l : Layout) (p : WinSlot → Bool) (w : WinSlot) (mode : StackMode) (ref : Option WinSlot)
    (hw : p w = false) (hr : ∀ r, ref = some r → mode = .above ∨ mode = .below → p r = false) :
    (l.restack w mode ref).without p = (l.without p).restack w mode ref := by
  refine Layout.ext_views (fun v => ?_) (fun k => ?_)
  · rw [Layout.without_record, Layout.restack_record, Layout.restack_record, Layout.without_record]
  · rw [Layout.without_list]
    unfold Layout.restack
    have : (l.without p).record w = l.record w := by rw [Layout.without_record, hw]; rfl
    rw [this]
    split
    · rw [Layout.without_list]
    · rw [Bands.list_setList, Bands.list_setList, Layout.without_list, Layout.without_list]
      split
      · rw [filter_restackList _ _ _ _ (by simp [hw]) (fun r e m => by simp [hr r e m])]
      · rfl

theorem Layout.without_withdraw (l : Layout) (p : WinSlot → Bool) (w : WinSlot) (hw : p w = false) :
    (l.withdraw w).without p = (l.without p).withdraw w := by
  refine Layout.ext_views (fun v => ?_) (fun k => ?_)
  · rw [Layout.without_record, Layout.withdraw_record, Layout.withdraw_record, Layout.without_record]
    by_cases e : w = v
    · subst e; simp [hw]
    · rw [if_neg e, if_neg e]
  · rw [Layout.without_list, Layout.withdraw_list, Layout.withdraw_list, Layout.without_list, filter_swap]

/-- The reference that a RESTACK ABOVE or BELOW reads. -/
def Op.reads (op : Op) (r : WinSlot) : Prop := ∃ h mode ref, op = .restack h mode ref ∧ (mode = 2 ∨ mode = 3) ∧ windowSlotOf ref = some r

/-- An operation passes by the windows that are withdrawn. -/
theorem Op.carryOut_without (op : Op) (m : Surfaces) (w : WinSlot) (l : Layout) (p : WinSlot → Bool) (hw : p w = false)
    (hr : ∀ r, op.reads r → p r = false) : (op.carryOut m w l).without p = op.carryOut m w (l.without p) := by
  have hs := Layout.without_stackIfReserved l p w hw
  cases op <;> simp only [Op.carryOut]
  case band =>
    split
    · rw [Layout.without_moveToTop _ _ _ _ hw, hs]
    · exact hs
  case restack h code ref =>
    split
    · rename_i mode hm
      rw [Layout.without_restack _ _ _ _ _ hw, hs]
      intro r e hab
      refine hr r ⟨h, code, ref, rfl, ?_, e⟩
      unfold stackModeOfCode at hm
      rcases hab with rfl | rfl <;> (split at hm <;> simp_all)
    · exact hs
  case touch => exact hs
  case destroy => exact Layout.without_withdraw l p w hw
  all_goals rw [Layout.without_mapRecord _ _ _ _ hw, hs]

end Sys2Proof.Machine
end

