-- ==== Sys2Proof/Laws/Presentation.lean ====
section
/-! SUPPORT. Layouts that the panel can show, and pending commits that play from one layout to another: carried from one state to
another, with one commit more, with a port's commits and windows taken out, and past a window just created. -/

namespace Sys2Proof.Machine

/-! ### Layouts that the panel can show -/

theorem Layout.slotCost_dead (l : Layout) (h y : Nat) (w : WinSlot) (hw : ¬ l.live w) : l.slotCost h y w = 0 := by
  unfold Layout.slotCost
  cases hr : l.record w with
  | none => rfl
  | some r =>
    dsimp only
    have hs : r.state = .withdrawn := Classical.byContradiction (fun e => hw ⟨r, hr, e⟩)
    unfold WindowRec.cost
    split
    · rfl
    · rw [if_neg (by rw [hs]; simp)]

theorem Layout.agrees_cost {l k : Layout} (h : l.agrees k) (ha y : Nat) (w : WinSlot) : l.slotCost ha y w = k.slotCost ha y w := by
  by_cases hw : l.live w
  · unfold Layout.slotCost; rw [Layout.agrees_record h hw]
  · rw [Layout.slotCost_dead _ _ _ _ hw, Layout.slotCost_dead _ _ _ _ (fun x => hw ((Layout.agrees_live h w).mpr x))]

theorem Layout.agrees_stack {l k : Layout} (h : l.agrees k) (hs : l.stackSound) : k.stackSound := by
  intro b
  rw [← h.1]
  refine ⟨(hs b).1, fun w => ?_⟩
  rw [(hs b).2 w]
  constructor
  · rintro ⟨r, hr, h1, h2⟩
    have : l.live w := ⟨r, hr, by rw [h1]; decide⟩
    exact ⟨r, by rw [← Layout.agrees_record h this]; exact hr, h1, h2⟩
  · rintro ⟨r, hr, h1, h2⟩
    have : k.live w := ⟨r, hr, by rw [h1]; decide⟩
    exact ⟨r, by rw [Layout.agrees_record h ((Layout.agrees_live h w).mpr this)]; exact hr, h1, h2⟩

theorem State.agrees_showable {s : State} {l k : Layout} (h : l.agrees k) (hs : s.showable l) : s.showable k := by
  refine ⟨Layout.agrees_stack h hs.1, ?_, ?_⟩
  · rw [← h.1]; exact hs.2.1
  · rw [← loadTable_congr _ l k (Layout.agrees_cost h)]; exact hs.2.2

theorem Layout.without_stack (l : Layout) (p : WinSlot → Bool) (h : l.stackSound) : (l.without p).stackSound := by
  intro b
  rw [Layout.without_list]
  refine ⟨(h b).1.filter _, fun w => ?_⟩
  rw [List.mem_filter, (h b).2 w, Layout.without_record]
  cases hp : p w
  · simp
  · simp

theorem Layout.without_cost (l : Layout) (p : WinSlot → Bool) (h y : Nat) (w : WinSlot) :
    (l.without p).slotCost h y w ≤ l.slotCost h y w := by
  cases hp : p w
  · unfold Layout.slotCost; rw [Layout.without_record, hp]; exact Nat.le_refl _
  · rw [Layout.slotCost_dead _ _ _ _ (fun x => by have := ((Layout.without_live l p w).mp x).1; rw [hp] at this; cases this)]
    exact Nat.zero_le _

theorem State.without_showable {s : State} {l : Layout} (p : WinSlot → Bool) (hs : s.showable l) : s.showable (l.without p) := by
  refine ⟨Layout.without_stack l p hs.1, ?_, ?_⟩
  · exact Nat.le_trans (List.length_filter_le _ _) hs.2.1
  · exact loadTable_le _ _ l _ (Layout.without_cost l p) hs.2.2

theorem State.showable_congr {s t : State} {l : Layout} (h : s.scan.timing = t.scan.timing) (hs : s.showable l) : t.showable l := by
  unfold State.showable Scan.budget at *
  rw [← h]; exact hs

/-- Windows withdrawn that were not live change a layout into one that agrees with it. -/
theorem Layout.agrees_without {l : Layout} {p : WinSlot → Bool} (h : l.stackSound) (hd : ∀ w, p w = true → ¬ l.live w) :
    l.agrees (l.without p) := by
  have key : ∀ b, l.bands.list b = (l.without p).bands.list b := by
    intro b
    rw [Layout.without_list]
    symm
    refine List.filter_eq_self.mpr (fun w hw => ?_)
    obtain ⟨r, hr, h1, _⟩ := ((h b).2 w).mp hw
    cases hp : p w
    · rfl
    · exact absurd ⟨r, hr, by rw [h1]; decide⟩ (hd w hp)
  refine ⟨?_, fun w => ?_⟩
  · have a := key .base
    have b := key .main
    have c := key .overlay
    have d := key .alert
    simp only [Bands.list] at a b c d
    cases hb : l.bands
    cases hb' : (l.without p).bands
    rw [hb, hb'] at a b c d
    simp only at a b c d
    rw [a, b, c, d]
  · cases hp : p w
    · left; rw [Layout.without_record, hp]; rfl
    · refine Or.inr ⟨hd w hp, fun x => ?_⟩
      have := ((Layout.without_live l p w).mp x).1
      rw [hp] at this; cases this

/-! ### Pending commits carried from one state to another -/

/-- The windows outside `D` and the surfaces that the pending commits of `ps` name are, in `t`, named as they are in `s`. -/
structure State.Carries (s t : State) (D : WinSlot → Prop) (ps : List Pending) : Prop where
  timing : s.scan.timing = t.scan.timing
  windows : ∀ h v n, s.layouts.named h = some (v, n) → ¬ D v → t.layouts.named h = some (v, n)
  sources : ∀ p ∈ ps, ∀ h surface sx sy, Op.source h 1 surface sx sy ∈ p.ops → ∀ i f, s.surfaces.named surface = some (i, f) →
    f.owner = p.port → ∃ g, t.surfaces.named surface = some (i, g) ∧ g.owner = f.owner ∧ g.width = f.width ∧
      g.height = f.height ∧ g.format = f.format

theorem State.Carries.tail {s t : State} {D : WinSlot → Prop} {p : Pending} {ps : List Pending} (c : s.Carries t D (p :: ps)) :
    s.Carries t D ps :=
  ⟨c.timing, c.windows, fun q hq => c.sources q (List.mem_cons_of_mem _ hq)⟩

theorem State.finds_live {s : State} {n : Port} {l : Layout} {op : Op} (h : s.finds n l op) :
    ∃ w, s.layouts.named op.window = some (w, n) ∧ l.live w ∧ s.played l op = op.carryOut s.surfaces w l := by
  obtain ⟨w, h1, h2, _⟩ := h
  refine ⟨w, h1, h2, ?_⟩
  unfold State.played; rw [h1]

/-- An operation that found what it needs finds it in an agreeing layout of the state it is carried to, and leaves layouts that agree. -/
theorem State.Carries.finds {s t : State} {D : WinSlot → Prop} {ps : List Pending} (c : s.Carries t D ps) {p : Pending} (hp : p ∈ ps)
    {op : Op} (ho : op ∈ p.ops) {l k : Layout} (ha : l.agrees k) (hD : ∀ w, D w → ¬ l.live w) (h : s.finds p.port l op) :
    t.finds p.port k op ∧ (s.played l op).agrees (t.played k op) ∧ ∀ w, D w → ¬ (s.played l op).live w := by
  obtain ⟨w, h1, h2, h3, h4⟩ := h
  have hw : ¬ D w := fun x => hD w x h2
  have h1' := c.windows _ _ _ h1 hw
  have hd : op.sameDesc s.surfaces t.surfaces := by
    intro h surface sx sy e
    obtain ⟨i, f, hf, hof⟩ := h4 h surface sx sy e
    obtain ⟨g, hg, _, g2, g3, g4⟩ := c.sources p hp h surface sx sy (e ▸ ho) i f hf hof
    unfold sourceDescOf; rw [hf, hg]; simp [g2, g3, g4]
  have hs : s.played l op = op.carryOut s.surfaces w l := by unfold State.played; rw [h1]
  have ht : t.played k op = op.carryOut t.surfaces w k := by unfold State.played; rw [h1']
  refine ⟨⟨w, h1', (Layout.agrees_live ha w).mp h2, ?_, ?_⟩, ?_, ?_⟩
  · intro h mode ref e hm
    obtain ⟨v, a, b, hv, hne, ra, rb, sb, bb⟩ := h3 h mode ref e hm
    have lv : l.live v := by
      rw [Layout.stackIfReserved_record, if_neg (Ne.symm hne)] at rb
      exact ⟨b, rb, by rw [sb]; decide⟩
    refine ⟨v, a, b, c.windows _ _ _ hv (fun x => hD v x lv), hne, ?_, ?_, sb, bb⟩
    · rw [Layout.stackIfReserved_record, if_pos rfl] at ra ⊢
      rw [← Layout.agrees_record ha h2]; exact ra
    · rw [Layout.stackIfReserved_record, if_neg (Ne.symm hne)] at rb ⊢
      rw [← Layout.agrees_record ha lv]; exact rb
  · intro h surface sx sy e
    obtain ⟨i, f, hf, hof⟩ := h4 h surface sx sy e
    obtain ⟨g, hg, g1, _⟩ := c.sources p hp h surface sx sy (e ▸ ho) i f hf hof
    exact ⟨i, g, hg, g1.trans hof⟩
  · rw [hs, ht]; exact Op.carryOut_agrees hd ha h2
  · intro v hv
    rw [hs]; exact Op.carryOut_dead h2 (hD v hv)

theorem State.Carries.findsAll {s t : State} {D : WinSlot → Prop} {ps : List Pending} (c : s.Carries t D ps) {p : Pending} (hp : p ∈ ps) :
    ∀ (ops : List Op), (∀ op ∈ ops, op ∈ p.ops) → ∀ l k : Layout, l.agrees k → (∀ w, D w → ¬ l.live w) → s.findsAll p.port ops l →
      t.findsAll p.port ops k ∧ (ops.foldl s.played l).agrees (ops.foldl t.played k) ∧ ∀ w, D w → ¬ (ops.foldl s.played l).live w := by
  intro ops
  induction ops with
  | nil => intro _ l k ha hD _; exact ⟨trivial, ha, hD⟩
  | cons op ops ih =>
    intro hsub l k ha hD h
    have a := c.finds hp (hsub op (List.mem_cons_self ..)) ha hD h.1
    have b := ih (fun o ho => hsub o (List.mem_cons_of_mem _ ho)) _ _ a.2.1 a.2.2 h.2
    exact ⟨⟨a.1, b.1⟩, b.2⟩

/-- Pending commits play in the state they are carried to as they did. -/
theorem State.Carries.playsTo {s t : State} {D : WinSlot → Prop} : ∀ {ps : List Pending}, s.Carries t D ps → ∀ {l k last last' : Layout},
    l.agrees k → last.agrees last' → (∀ w, D w → ¬ l.live w) → s.playsTo ps l last →
    t.playsTo ps k last' ∧ ∀ w, D w → ¬ last.live w := by
  intro ps
  induction ps with
  | nil =>
    intro c l k last last' ha hl hD h
    exact ⟨Layout.agrees_trans (Layout.agrees_symm ha) (Layout.agrees_trans h hl), fun w hw x => hD w hw ((Layout.agrees_live h w).mpr x)⟩
  | cons p ps ih =>
    intro c l k last last' ha hl hD h
    have a := c.findsAll (List.mem_cons_self ..) p.ops (fun _ h => h) l k ha hD h.1
    have b := ih c.tail a.2.1 hl a.2.2 h.2.2
    exact ⟨⟨a.1, State.showable_congr c.timing (State.agrees_showable a.2.1 h.2.1), b.1⟩, b.2⟩

theorem State.Carries.refl (s : State) (ps : List Pending) : s.Carries s (fun _ => False) ps :=
  ⟨rfl, fun _ _ _ h _ => h, fun _ _ _ _ _ _ _ _ f hf _ => ⟨f, hf, rfl, rfl, rfl, rfl⟩⟩

theorem State.playsTo_agrees {s : State} {ps : List Pending} {l k last : Layout} (h : l.agrees k) (hp : s.playsTo ps l last) :
    s.playsTo ps k last :=
  ((State.Carries.refl s ps).playsTo h (Layout.agrees_refl last) (fun _ x => x.elim) hp).1

/-- What the panel can show at the start, it can show at the end. -/
theorem State.playsTo_showable {s : State} : ∀ {ps : List Pending} {l last : Layout}, s.playsTo ps l last → s.showable l → s.showable last := by
  intro ps
  induction ps with
  | nil => intro l last h hs; exact State.agrees_showable h hs
  | cons p ps ih => intro l last h _; exact ih h.2.2 h.2.1

/-- One more commit after the others. -/
theorem State.playsTo_append {s : State} (qs : List Pending) (last' : Layout) : ∀ {ps : List Pending} {l last : Layout},
    s.playsTo ps l last → s.showable l → (∀ e, e.agrees last → s.showable e → s.playsTo qs e last') → s.playsTo (ps ++ qs) l last' := by
  intro ps
  induction ps with
  | nil => intro l last h hs hq; exact hq l h hs
  | cons p ps ih => intro l last h _ hq; exact ⟨h.1, h.2.1, ih h.2.2 h.2.1 hq⟩

/-- Every source that a pending operation names is a surface of the commit's port. -/
theorem State.playsTo_sources {s : State} : ∀ {ps : List Pending} {l last : Layout}, s.playsTo ps l last → ∀ p ∈ ps, ∀ h surface sx sy,
    Op.source h 1 surface sx sy ∈ p.ops → ∃ i f, s.surfaces.named surface = some (i, f) ∧ f.owner = p.port := by
  have one : ∀ (n : Port) (ops : List Op) (l : Layout), s.findsAll n ops l → ∀ h surface sx sy, Op.source h 1 surface sx sy ∈ ops →
      ∃ i f, s.surfaces.named surface = some (i, f) ∧ f.owner = n := by
    intro n ops
    induction ops with
    | nil => intro _ _ _ _ _ _ h; cases h
    | cons op ops ih =>
      intro l hf h surface sx sy hm
      rcases List.mem_cons.mp hm with e | hm
      · obtain ⟨_, _, _, _, h4⟩ := hf.1
        exact h4 _ _ _ _ e.symm
      · exact ih _ hf.2 h surface sx sy hm
  intro ps
  induction ps with
  | nil => intro _ _ _ _ h; cases h
  | cons p ps ih =>
    intro l last hp q hq h surface sx sy hm
    rcases List.mem_cons.mp hq with rfl | hq
    · exact one _ _ _ hp.1 h surface sx sy hm
    · exact ih hp.2.2 q hq h surface sx sy hm

/-! ### A port's commits and windows taken out (R106, R133) -/

theorem State.named_owner {c : LayoutController} {h : Nat} {w : WinSlot} {n : Port} (e : c.named h = some (w, n)) :
    windowSlotOf h = some w ∧ tget c.owners w = some n := by
  unfold LayoutController.named at e
  split at e
  · cases e
  · rename_i v hv
    split at e
    · cases e
    · rename_i m hm
      split at e
      · injection e with e; injection e with e1 e2; subst e1 e2; exact ⟨hv, hm⟩
      · cases e

/-- An operation of another port passes by the windows of port `n`. -/
theorem State.finds_without {s : State} {n : Port} {q : Port} (hq : q ≠ n) {l : Layout} {op : Op} (h : s.finds q l op) :
    let own : WinSlot → Bool := fun w => tget s.layouts.owners w = some n
    s.finds q (l.without own) op ∧ (s.played l op).without own = s.played (l.without own) op := by
  intro own
  have notOwn : ∀ {h' : Nat} {v : WinSlot}, s.layouts.named h' = some (v, q) → own v = false := by
    intro h' v hv
    have := (State.named_owner hv).2
    simp [own, this, hq]
  obtain ⟨w, h1, h2, h3, h4⟩ := h
  have hw := notOwn h1
  refine ⟨⟨w, h1, (Layout.without_live l own w).mpr ⟨hw, h2⟩, ?_, h4⟩, ?_⟩
  · intro h mode ref e hm
    obtain ⟨v, a, b, hv, hne, ra, rb, sb, bb⟩ := h3 h mode ref e hm
    refine ⟨v, a, b, hv, hne, ?_, ?_, sb, bb⟩
    · rw [← Layout.without_stackIfReserved l own w hw, Layout.without_record, hw]; exact ra
    · rw [← Layout.without_stackIfReserved l own w hw, Layout.without_record, notOwn hv]; exact rb
  · unfold State.played; rw [h1]
    refine Op.carryOut_without op _ w l own hw ?_
    rintro r ⟨h, mode, ref, e, hm, hr⟩
    obtain ⟨v, _, _, hv, _⟩ := h3 h mode ref e hm
    have : windowSlotOf ref = some v := (State.named_owner hv).1
    rw [hr] at this; injection this with this
    rw [this]; exact notOwn hv

theorem filter_removed (q : WinSlot → Bool) (w : WinSlot) (hw : q w = false) (l : List WinSlot) :
    (l.filter (· != w)).filter q = l.filter q := by
  rw [List.filter_filter]
  congr 1; funext x
  by_cases e : x = w
  · subst e; simp [hw]
  · simp [e]

theorem filter_insertAbove_out (q : WinSlot → Bool) (r w : WinSlot) (hw : q w = false) (l : List WinSlot) :
    (insertAbove r w l).filter q = l.filter q := by
  induction l with
  | nil => simp [insertAbove, hw]
  | cons x l ih =>
    have unf : insertAbove r w (x :: l) = if x = r then x :: w :: l else x :: insertAbove r w l := rfl
    rw [unf]
    split
    · simp [List.filter_cons, hw]
    · simp [List.filter_cons, ih]

theorem filter_insertBelow_out (q : WinSlot → Bool) (r w : WinSlot) (hw : q w = false) (l : List WinSlot) :
    (insertBelow r w l).filter q = l.filter q := by
  induction l with
  | nil => simp [insertBelow, hw]
  | cons x l ih =>
    have unf : insertBelow r w (x :: l) = if x = r then w :: x :: l else x :: insertBelow r w l := rfl
    rw [unf]
    split
    · simp [List.filter_cons, hw]
    · simp [List.filter_cons, ih]

theorem filter_restackList_out (q : WinSlot → Bool) (mode : StackMode) (ref : Option WinSlot) (w : WinSlot) (hw : q w = false)
    (l : List WinSlot) : (restackList mode ref w l).filter q = l.filter q := by
  unfold restackList
  split
  · rw [List.filter_append, filter_removed q w hw]; simp [hw]
  · rw [List.filter_cons_of_neg (by simp [hw]), filter_removed q w hw]
  · rw [filter_insertAbove_out q _ w hw, filter_removed q w hw]
  · rw [filter_insertBelow_out q _ w hw, filter_removed q w hw]
  · rfl
  · rfl

/-- An operation changes the place of its window and of no other. -/
theorem Op.carryOut_places (op : Op) (m : Surfaces) (w : WinSlot) (l : Layout) (q : WinSlot → Bool) (hw : q w = false) (k : Band) :
    ((op.carryOut m w l).bands.list k).filter q = (l.bands.list k).filter q := by
  have move : ∀ (j : Layout) (b : Band), ((j.moveToTop w b).bands.list k).filter q = (j.bands.list k).filter q := by
    intro j b
    unfold Layout.moveToTop
    simp only [Bands.list_setList, Bands.list_remove]
    split
    · rename_i e; subst e; rw [List.filter_append, filter_removed q w hw]; simp [hw]
    · rw [filter_removed q w hw]
  have base : ((l.stackIfReserved w).bands.list k).filter q = (l.bands.list k).filter q := by
    unfold Layout.stackIfReserved
    split
    · exact move _ _
    · rfl
  cases op <;> simp only [Op.carryOut]
  case band =>
    split
    · rw [move, base]
    · exact base
  case restack =>
    split
    · rw [← base]
      unfold Layout.restack
      split
      · rfl
      · simp only [Bands.list_setList]
        split
        · rename_i e; subst e; rw [filter_restackList_out q _ _ w hw]
        · rfl
    · exact base
  case touch => exact base
  case destroy => rw [Layout.withdraw_list, filter_removed q w hw]
  all_goals exact base

/-- The operations of port `n` change nothing of the others' windows. -/
theorem State.finds_own {s : State} {n : Port} {l : Layout} {op : Op} (h : s.finds n l op) :
    let own : WinSlot → Bool := fun w => tget s.layouts.owners w = some n
    ((s.played l op).without own).agrees (l.without own) := by
  intro own
  obtain ⟨w, h1, _, hp⟩ := State.finds_live h
  have hw : own w = true := by simp [own, (State.named_owner h1).2]
  rw [hp]
  refine ⟨?_, fun v => ?_⟩
  · have := fun k => Op.carryOut_places op s.surfaces w l (fun v => !own v) (by simp [hw]) k
    unfold Layout.without
    have a := this .base
    have b := this .main
    have c := this .overlay
    have d := this .alert
    simp only [Bands.list] at a b c d
    simp only [a, b, c, d]
  · by_cases e : w = v
    · subst e
      refine Or.inr ⟨fun x => ?_, fun x => ?_⟩ <;>
        (have := ((Layout.without_live _ own _).mp x).1; rw [hw] at this; cases this)
    · left
      rw [Layout.without_record, Layout.without_record, Op.carryOut_other _ _ _ e]

/-- With port `n`'s commits taken out and its windows withdrawn, the others' commits play as they did. -/
theorem State.playsTo_without {s : State} (n : Port) : ∀ {ps : List Pending} {l last : Layout}, s.playsTo ps l last →
    let own : WinSlot → Bool := fun w => tget s.layouts.owners w = some n
    s.playsTo (ps.filter (fun p => p.port ≠ n)) (l.without own) (last.without own) := by
  intro ps
  induction ps with
  | nil => intro l last h own; exact Layout.without_agrees own h
  | cons p ps ih =>
    intro l last h own
    have hi := ih h.2.2
    by_cases e : p.port = n
    · rw [List.filter_cons_of_neg (by simp [e])]
      refine State.playsTo_agrees ?_ hi
      have : ∀ (ops : List Op) (l : Layout), s.findsAll n ops l → ((ops.foldl s.played l).without own).agrees (l.without own) := by
        intro ops
        induction ops with
        | nil => intro l _; exact Layout.agrees_refl _
        | cons op ops ih => intro l hf; exact Layout.agrees_trans (ih _ hf.2) (State.finds_own hf.1)
      exact this p.ops l (e ▸ h.1)
    · rw [List.filter_cons_of_pos (by simp [e])]
      have : ∀ (ops : List Op) (l : Layout), s.findsAll p.port ops l →
          s.findsAll p.port ops (l.without own) ∧ (ops.foldl s.played l).without own = ops.foldl s.played (l.without own) := by
        intro ops
        induction ops with
        | nil => intro l _; exact ⟨trivial, rfl⟩
        | cons op ops ih =>
          intro l hf
          have a := State.finds_without e hf.1
          have b := ih _ hf.2
          rw [a.2] at b
          exact ⟨⟨a.1, b.1⟩, b.2⟩
      have a := this p.ops l h.1
      refine ⟨a.1, ?_, ?_⟩
      · rw [← a.2]; exact State.without_showable own h.2.1
      · rw [← a.2]; exact hi

/-! ### A window created (R101) -/

/-- The layout with a record for the window, which stands in no list. -/
def Layout.put (l : Layout) (w : WinSlot) (r : WindowRec) : Layout := { l with recs := tput l.recs w (some r) }

theorem Layout.put_record (l : Layout) (w v : WinSlot) (r : WindowRec) : (l.put w r).record v = if w = v then some r else l.record v := by
  unfold Layout.put Layout.record; rw [tget_tput]

theorem Layout.put_mapRecord (l : Layout) {w v : WinSlot} (r : WindowRec) (f : WindowRec → WindowRec) (h : w ≠ v) :
    (l.mapRecord v f).put w r = (l.put w r).mapRecord v f := by
  refine Layout.ext_views (fun u => ?_) (fun _ => rfl)
  rw [Layout.put_record, Layout.record_mapRecord, Layout.record_mapRecord, Layout.put_record]
  by_cases e : v = u
  · subst e; simp [h]
  · simp [e]

theorem Layout.put_agrees {l k : Layout} (w : WinSlot) (r : WindowRec) (h : l.agrees k) : (l.put w r).agrees (k.put w r) := by
  refine ⟨h.1, fun v => ?_⟩
  rw [Layout.put_record, Layout.put_record]
  by_cases e : w = v
  · left; rw [if_pos e, if_pos e]
  · rw [if_neg e, if_neg e]
    refine (h.2 v).imp id (fun ⟨a, b⟩ => ⟨fun x => a ?_, fun x => b ?_⟩)
    · exact (Layout.live_congr (by rw [Layout.put_record, if_neg e])).mp x
    · exact (Layout.live_congr (by rw [Layout.put_record, if_neg e])).mp x

theorem Op.carryOut_put (op : Op) (m : Surfaces) {w v : WinSlot} (l : Layout) (r : WindowRec) (h : w ≠ v) :
    (op.carryOut m v l).put w r = op.carryOut m v (l.put w r) := by
  have hr : (l.put w r).record v = l.record v := by rw [Layout.put_record, if_neg h]
  refine Layout.ext_views (fun u => ?_) (fun k => ?_)
  · rw [Layout.put_record, Op.carryOut_record, Op.carryOut_record, Layout.put_record]
    by_cases e : v = u
    · subst e; simp [h]
    · simp [e]
  · have : (op.carryOut m v (l.put w r)).bands = (op.carryOut m v l).bands := Op.carryOut_bands op m m rfl hr
    rw [this]; rfl

theorem State.put_showable {s : State} {l : Layout} {w : WinSlot} {r : WindowRec} (hn : l.record w = none) (hr : r.state = .reserved)
    (h : s.showable l) : s.showable (l.put w r) := by
  refine ⟨fun b => ⟨(h.1 b).1, fun v => ?_⟩, h.2.1, ?_⟩
  · show v ∈ l.bands.list b ↔ _
    rw [(h.1 b).2 v, Layout.put_record]
    by_cases e : w = v
    · subst e; rw [hn]; simp [hr]
    · rw [if_neg e]
  · refine loadTable_le _ _ l _ (fun ha y v => ?_) h.2.2
    unfold Layout.slotCost
    rw [Layout.put_record]
    by_cases e : w = v
    · subst e; rw [if_pos rfl]; dsimp only
      have : r.cost ha y = 0 := by unfold WindowRec.cost; split; rfl; rw [if_neg (by rw [hr]; simp)]
      exact Nat.le_trans (Nat.le_of_eq this) (Nat.zero_le _)
    · exact Nat.le_of_eq (by rw [if_neg e])

/-- Pending commits pass by a window that has just been created. -/
theorem State.playsTo_put {s : State} {w : WinSlot} {r : WindowRec} (hr : r.state = .reserved) : ∀ {ps : List Pending} {l last : Layout},
    l.record w = none → s.playsTo ps l last → s.playsTo ps (l.put w r) (last.put w r) := by
  have one : ∀ {n : Port} {op : Op} {l : Layout}, l.record w = none → s.finds n l op →
      s.finds n (l.put w r) op ∧ (s.played l op).put w r = s.played (l.put w r) op ∧ (s.played l op).record w = none := by
    intro n op l hn h
    obtain ⟨v, h1, h2, h3, h4⟩ := h
    have ne : ∀ {u : WinSlot}, (l.record u).isSome = true → w ≠ u := by rintro u hu rfl; rw [hn] at hu; cases hu
    have hv : w ≠ v := by obtain ⟨a, ha, _⟩ := h2; exact ne (by rw [ha]; rfl)
    have same : ∀ u, w ≠ u → (l.put w r).record u = l.record u := fun u hu => by rw [Layout.put_record, if_neg hu]
    refine ⟨⟨v, h1, (Layout.live_congr (same v hv)).mpr h2, ?_, h4⟩, ?_, ?_⟩
    · intro h mode ref e hm
      obtain ⟨u, a, b, hu, hne, ra, rb, sb, bb⟩ := h3 h mode ref e hm
      have hu' : w ≠ u := by
        rw [Layout.stackIfReserved_record, if_neg (Ne.symm hne)] at rb
        exact ne (by rw [rb]; rfl)
      refine ⟨u, a, b, hu, hne, ?_, ?_, sb, bb⟩
      · rw [Layout.stackIfReserved_record] at ra ⊢; rw [same v hv]; exact ra
      · rw [Layout.stackIfReserved_record] at rb ⊢; rw [same u hu']; exact rb
    · unfold State.played; rw [h1]; exact Op.carryOut_put op _ l r hv
    · unfold State.played; rw [h1]; dsimp only; rw [Op.carryOut_other _ _ _ (Ne.symm hv)]; exact hn
  have all : ∀ {n : Port} (ops : List Op) (l : Layout), l.record w = none → s.findsAll n ops l →
      s.findsAll n ops (l.put w r) ∧ (ops.foldl s.played l).put w r = ops.foldl s.played (l.put w r) ∧
        (ops.foldl s.played l).record w = none := by
    intro n ops
    induction ops with
    | nil => intro l hn _; exact ⟨trivial, rfl, hn⟩
    | cons op ops ih =>
      intro l hn h
      have a := one hn h.1
      have b := ih _ a.2.2 h.2
      rw [a.2.1] at b
      exact ⟨⟨a.1, b.1⟩, b.2⟩
  intro ps
  induction ps with
  | nil => intro l last _ h; exact Layout.put_agrees w r h
  | cons p ps ih =>
    intro l last hn h
    have a := all p.ops l hn h.1
    refine ⟨a.1, ?_, ?_⟩
    · rw [← a.2.1]; exact State.put_showable a.2.2 hr h.2.1
    · rw [← a.2.1]; exact ih a.2.2 h.2.2

/-! ### A commit accepted (R114, R122, R123) -/

/-- What the judgement of one operation has found (R115 to R121). -/
theorem LayoutController.tryOp_finds {s : State} {n : Port} {l l' : Layout} {op : Op}
    (h : s.layouts.tryOp s.surfaces n l op = .ok l') : s.finds n l op ∧ l' = s.played l op ∧
      ∃ w r, s.layouts.named op.window = some (w, n) ∧ l.record w = some r ∧ r.state ≠ .withdrawn ∧
        op.refusedBy s.layouts s.surfaces n l w r = none := by
  unfold LayoutController.tryOp at h
  split at h
  · cases h
  · rename_i w r hres
    split at h
    · cases h
    · rename_i hop
      injection h with h
      unfold LayoutController.resolveIn at hres
      split at hres
      · cases hres
      · rename_i w' o hnamed
        split at hres
        · cases hres
        · rename_i r' hr'
          split at hres
          · cases hres
          · rename_i hne
            split at hres
            · rename_i ho
              injection hres with hres; injection hres with e1 e2; subst e1 e2 ho
              refine ⟨⟨w', hnamed, ⟨r', hr', hne⟩, ?_, ?_⟩, ?_, w', r', hnamed, hr', hne, hop⟩
              · intro x mode ref e hm
                subst e
                have hok : s.layouts.refOk (l.stackIfReserved w') o w' ref = true := by
                  simp only [Op.refusedBy] at hop
                  rcases hm with rfl | rfl <;> simp only [stackModeOfCode] at hop <;>
                    exact Classical.byContradiction (fun hh => by rw [if_neg hh] at hop; cases hop)
                unfold LayoutController.refOk at hok
                split at hok
                · rename_i v owner p hv hp
                  simp only [Bool.and_eq_true, decide_eq_true_eq, Option.any_eq_true] at hok
                  obtain ⟨⟨h1, h2⟩, q, hq, h3, h4⟩ := hok
                  subst h1
                  exact ⟨v, p, q, hv, h2, hp, hq, h3, h4⟩
                · cases hok
              · intro x surface sx sy e
                subst e
                simp only [Op.refusedBy] at hop
                split at hop
                · cases hop
                · rw [if_neg (by decide)] at hop
                  split at hop
                  · cases hop
                  · rename_i i f hf
                    unfold Surfaces.resolve at hf
                    split at hf
                    · cases hf
                    · rename_i j g hg
                      split at hf
                      · rename_i ho
                        injection hf with hf
                        exact ⟨_, _, hg, ho⟩
                      · cases hf
              · unfold State.played; rw [hnamed]; exact h.symm
            · cases hres

theorem Op.carryOut_alertLength (op : Op) (c : LayoutController) (m : Surfaces) (w : WinSlot) (l : Layout) (n : Port) (h : l.stackSound)
    (r : WindowRec) (hr : l.record w = some r) (hs : r.state ≠ .withdrawn) (hop : op.refusedBy c m n l w r = none)
    (ha : l.bands.alert.length ≤ 1) : (op.carryOut m w l).bands.alert.length ≤ 1 := by
  have h1 := Layout.stackIfReserved_stack l w h
  have ha1 : (l.stackIfReserved w).bands.alert.length ≤ 1 := Nat.le_trans (Layout.stackIfReserved_alert l w).length_le ha
  obtain ⟨q, hq, hqs⟩ := Layout.stackIfReserved_stacked l w r hr hs
  cases op <;> simp only [Op.carryOut]
  case band _ code =>
    simp only [Op.refusedBy] at hop
    split
    · rename_i k hk
      rw [hk] at hop
      cases k
      case alert =>
        simp only at hop
        split at hop
        · cases hop
        · split at hop
          · cases hop
          · rename_i hx
            have hemp : (l.stackIfReserved w).bands.alert.filter (· != w) = [] := by
              rw [List.filter_eq_nil_iff]
              intro a ha'
              have := (Layout.stackIfReserved_alert l w).subset ha'
              simp at hx
              simpa using hx a this
            show (((l.stackIfReserved w).bands.alert.filter (· != w)) ++ [w]).length ≤ 1
            rw [hemp]; simp
      all_goals exact Nat.le_trans (List.length_filter_le _ _) ha1
    · exact ha1
  case restack =>
    split
    · have hp := Layout.restack_lists _ w ‹_› (windowSlotOf ‹_›) h1 ⟨q, hq, hqs⟩ .alert
      show List.length (Bands.list _ .alert) ≤ 1
      rw [hp.length_eq]; exact ha1
    · exact ha1
  case destroy => exact Nat.le_trans (List.length_filter_le _ _) ha
  case touch => exact ha1
  all_goals exact ha1

/-- What the judgement of a commit's operations has found. -/
theorem LayoutController.tryOps_finds {s : State} {n : Port} : ∀ (bs : List (List Byte)) (i : Nat) (l l' : Layout) (ops : List Op),
    s.layouts.tryOps s.surfaces n i bs l = .ok (l', ops) → l.stackSound → l.bands.alert.length ≤ 1 →
    s.findsAll n ops l ∧ l' = ops.foldl s.played l ∧ l'.stackSound ∧ l'.bands.alert.length ≤ 1 := by
  intro bs
  induction bs with
  | nil =>
    intro i l l' ops h hs ha
    unfold LayoutController.tryOps at h; injection h with h; injection h with h1 h2
    subst h1; subst h2; exact ⟨trivial, rfl, hs, ha⟩
  | cons b bs ih =>
    intro i l l' ops h hs ha
    unfold LayoutController.tryOps at h
    split at h
    · cases h
    · rename_i op _
      split at h
      · cases h
      · rename_i l1 e
        obtain ⟨hf, hl, w, r, hn, hr, hne, hop⟩ := LayoutController.tryOp_finds e
        have hl' : l1 = op.carryOut s.surfaces w l := by rw [hl]; unfold State.played; rw [hn]
        split at h
        · cases h
        · rename_i l2 ops2 e2
          injection h with h; injection h with h1 h2
          have := ih _ _ _ _ e2 (by rw [hl']; exact Op.carryOut_stack op _ w l hs r hr hne)
            (by rw [hl']; exact Op.carryOut_alertLength op s.layouts _ w l n hs r hr hne hop ha)
          subst h1; subst h2
          rw [hl] at this
          exact ⟨⟨hf, this.1⟩, this.2⟩

end Sys2Proof.Machine
end

