-- ==== Sys2Proof/Laws/PresentedRequests.lean ====
section
/-! SUPPORT. The soundness of the presentation: what of a state it reads, and that the requests that touch windows, surfaces and commits
keep it. -/

namespace Sys2Proof.Machine

/-! ### What the presentation looks at -/

/-- The two surface managers hold the same surfaces under the same handles, with the same owners, sizes, formats and queued_refs. -/
def Surfaces.looksLike (m k : Surfaces) : Prop :=
  ∀ i, (tget m.slots i).gen = (tget k.slots i).gen ∧
    (tget m.slots i).surface.map (fun f => (f.owner, f.width, f.height, f.format, f.queuedRefs)) =
      (tget k.slots i).surface.map (fun f => (f.owner, f.width, f.height, f.format, f.queuedRefs))

theorem Surfaces.looksLike_refl (m : Surfaces) : m.looksLike m := fun _ => ⟨rfl, rfl⟩

theorem Surfaces.looksLike_trans {m k j : Surfaces} (h : m.looksLike k) (h' : k.looksLike j) : m.looksLike j :=
  fun i => ⟨(h i).1.trans (h' i).1, (h i).2.trans (h' i).2⟩

theorem Surfaces.looksLike_changed (m : Surfaces) (f : SurfSlot → Surface → Surface)
    (hf : ∀ i s, ((f i s).owner, (f i s).width, (f i s).height, (f i s).format, (f i s).queuedRefs) =
      (s.owner, s.width, s.height, s.format, s.queuedRefs)) : m.looksLike (m.changed f) := by
  intro i
  rw [Surfaces.changed_slot]
  refine ⟨rfl, ?_⟩
  cases (tget m.slots i).surface with
  | none => rfl
  | some s => simp only [Option.map_some, hf]

/-- The surfaces a state's pending commits may name are in another state as they are here. -/
def Surfaces.describes (m k : Surfaces) : Prop :=
  ∀ h i f, m.named h = some (i, f) → ∃ g, k.named h = some (i, g) ∧ g.owner = f.owner ∧ g.width = f.width ∧ g.height = f.height ∧
    g.format = f.format

theorem Surfaces.describes_changed (m : Surfaces) (f : SurfSlot → Surface → Surface)
    (hf : ∀ i s, (f i s).owner = s.owner ∧ (f i s).width = s.width ∧ (f i s).height = s.height ∧ (f i s).format = s.format) :
    m.describes (m.changed f) := by
  intro h i g hg
  exact ⟨f i g, (Surfaces.changed_named m f h i _).mpr ⟨g, hg, rfl⟩, hf i g⟩

theorem Surfaces.looksLike_describes {m k : Surfaces} (h : m.looksLike k) : m.describes k := by
  intro x i f hf
  obtain ⟨h1, h2, h3⟩ := (Surfaces.named_iff m x i f).mp hf
  have e := (h i).2
  rw [h2] at e
  cases hg : (tget k.slots i).surface with
  | none => rw [hg] at e; cases e
  | some g =>
    rw [hg] at e
    simp only [Option.map_some, Option.some.injEq, Prod.mk.injEq] at e
    exact ⟨g, (Surfaces.named_iff k x i g).mpr ⟨h1, hg, (h i).1 ▸ h3⟩, e.1.symm, e.2.1.symm, e.2.2.1.symm, e.2.2.2.1.symm⟩

/-- What the soundness of the presentation reads of a state. -/
structure State.SameShow (s t : State) : Prop where
  owners : s.layouts.owners = t.layouts.owners
  gens : s.layouts.gens = t.layouts.gens
  applied : s.layouts.applied = t.layouts.applied
  projected : s.layouts.projected = t.layouts.projected
  commits : s.layouts.commits.map (fun p => (p.port, p.ops)) = t.layouts.commits.map (fun p => (p.port, p.ops))
  states : ∀ n, (s.session n).state = (t.session n).state
  timing : s.scan.timing = t.scan.timing
  surfaces : s.surfaces.looksLike t.surfaces

theorem State.SameShow.refl (s : State) : s.SameShow s := ⟨rfl, rfl, rfl, rfl, rfl, fun _ => rfl, rfl, fun _ => ⟨rfl, rfl⟩⟩

theorem State.SameShow.trans {s t u : State} (h : s.SameShow t) (k : t.SameShow u) : s.SameShow u :=
  ⟨h.owners.trans k.owners, h.gens.trans k.gens, h.applied.trans k.applied, h.projected.trans k.projected, h.commits.trans k.commits,
    fun n => (h.states n).trans (k.states n), h.timing.trans k.timing, Surfaces.looksLike_trans h.surfaces k.surfaces⟩

theorem State.named_congr {c d : LayoutController} (ho : c.owners = d.owners) (hg : c.gens = d.gens) (h : Nat) : c.named h = d.named h := by
  unfold LayoutController.named; rw [ho, hg]

theorem State.Carries.of_describes {s t : State} (ht : s.scan.timing = t.scan.timing)
    (hw : ∀ h v n, s.layouts.named h = some (v, n) → t.layouts.named h = some (v, n)) (hs : s.surfaces.describes t.surfaces)
    (ps : List Pending) : s.Carries t (fun _ => False) ps :=
  ⟨ht, fun h v n e _ => hw h v n e, fun _ _ _ surface _ _ _ i f hf _ => hs surface i f hf⟩

theorem State.playsTo_ports {s : State} : ∀ {ps qs : List Pending}, ps.map (fun p => (p.port, p.ops)) = qs.map (fun p => (p.port, p.ops)) →
    ∀ {l last : Layout}, s.playsTo ps l last → s.playsTo qs l last := by
  intro ps
  induction ps with
  | nil =>
    intro qs e l last h
    cases qs with
    | nil => exact h
    | cons q qs => cases e
  | cons p ps ih =>
    intro qs e l last h
    cases qs with
    | nil => cases e
    | cons q qs =>
      simp only [List.map_cons, List.cons.injEq, Prod.mk.injEq] at e
      obtain ⟨⟨e1, e2⟩, e3⟩ := e
      have h1 := h.1
      have h2 := h.2
      rw [e1, e2] at h1
      rw [e2] at h2
      exact ⟨h1, h2.1, ih e3 h2.2⟩

theorem Pending.ops_congr {ps qs : List Pending} (e : ps.map (fun p => (p.port, p.ops)) = qs.map (fun p => (p.port, p.ops))) :
    ps.flatMap (fun p => p.ops) = qs.flatMap (fun p => p.ops) := by
  have key : ∀ xs : List Pending, xs.flatMap (fun p => p.ops) = (xs.map (fun p => (p.port, p.ops))).flatMap Prod.snd := by
    intro xs; rw [List.flatMap_map]
  rw [key, key, e]

theorem Pending.ports_congr {ps qs : List Pending} (e : ps.map (fun p => (p.port, p.ops)) = qs.map (fun p => (p.port, p.ops)))
    (P : Port → Prop) (h : ∀ p ∈ ps, P p.port) : ∀ q ∈ qs, P q.port := by
  intro q hq
  have : (q.port, q.ops) ∈ ps.map (fun p => (p.port, p.ops)) := by rw [e]; exact List.mem_map.mpr ⟨q, hq, rfl⟩
  obtain ⟨p, hp, he⟩ := List.mem_map.mp this
  injection he with he _
  rw [← he]; exact h p hp

theorem State.closes_congr {s t : State} (ho : s.layouts.owners = t.layouts.owners) (hs : ∀ n, (s.session n).state = (t.session n).state) :
    s.closes = t.closes := by
  funext w; unfold State.closes; rw [ho]; simp only [hs]

/-- A state that looks the same is as sound. -/
theorem State.presentationSound_congr {s t : State} (e : s.SameShow t) (h : s.presentationSound) : t.presentationSound := by
  obtain ⟨hA, hB, hC, hD, hE, hF, hG⟩ := h
  have hc := State.closes_congr e.owners e.states
  refine ⟨?_, ?_, ?_, ?_, ?_, ?_, ?_⟩
  · rw [← e.applied, ← e.projected, ← e.owners]; exact hA
  · rw [← e.timing, ← e.owners]; exact hB
  · rw [← e.applied, ← hc]; exact hC
  · exact Pending.ports_congr e.commits (fun n => (t.session n).state = .opened) (fun p hp => (e.states _).symm.trans (hD p hp))
  · intro i f hf
    have := (e.surfaces i).2
    rw [hf] at this
    cases hg : (tget s.surfaces.slots i).surface with
    | none => rw [hg] at this; cases this
    | some g =>
      rw [hg] at this
      simp only [Option.map_some, Option.some.injEq, Prod.mk.injEq] at this
      rw [← Pending.ops_congr e.commits, ← hE i g hg]; exact this.2.2.2.2.symm
  · rw [← e.applied]; exact State.showable_congr e.timing hF
  · rw [← e.applied, ← hc, ← e.projected]
    refine State.playsTo_ports e.commits ?_
    exact ((State.Carries.of_describes e.timing (fun x v n hx => by rw [← State.named_congr e.owners e.gens]; exact hx)
      (Surfaces.looksLike_describes e.surfaces) _).playsTo (Layout.agrees_refl _) (Layout.agrees_refl _) (fun _ x => x.elim) hG).1

theorem State.SameShow.of_surfaces {s t : State} (hl : s.layouts = t.layouts) (hs : s.sessions = t.sessions) (ht : s.scan.timing = t.scan.timing)
    (hf : s.surfaces.looksLike t.surfaces) : s.SameShow t :=
  ⟨by rw [hl], by rw [hl], by rw [hl], by rw [hl], by rw [hl], fun n => by unfold State.session; rw [hs], ht, hf⟩

theorem State.SameShow.of_eq {s t : State} (hl : s.layouts = t.layouts) (hs : s.sessions = t.sessions) (ht : s.scan.timing = t.scan.timing)
    (hf : s.surfaces = t.surfaces) : s.SameShow t :=
  State.SameShow.of_surfaces hl hs ht (hf ▸ Surfaces.looksLike_refl _)

/-! ### Requests -/

/-- CREATE_WINDOW keeps the presentation sound. -/
theorem State.serveCreateWindow_presentation (s : State) (n : Port) (p : List Byte) (h : s.presentationSound)
    (hn : (s.session n).state ≠ .closing) : (s.serveCreateWindow n p).1.presentationSound := by
  unfold State.serveCreateWindow
  split
  · exact h
  rename_i ht
  split
  · exact h
  split
  · exact h
  split
  · exact h
  rename_i w hw
  have hfree : tget s.layouts.owners w = none := by
    have := List.find?_some hw
    simpa using this
  obtain ⟨hA, hB, hC, hD, hE, hF, hG⟩ := h
  obtain ⟨hna, hnp⟩ := hA w
  rw [hfree] at hna hnp
  have hna : s.layouts.applied.record w = none := by simpa using hna
  have hnp : s.layouts.projected.record w = none := by simpa using hnp
  generalize hr : newWindow (field16 p 0) (field16 p 2) = r
  have hres : r.state = .reserved := by rw [← hr]; rfl
  show State.presentationSound (s.withLayouts (s.layouts.reserve n w (field16 p 0) (field16 p 2)))
  generalize hu : s.withLayouts (s.layouts.reserve n w (field16 p 0) (field16 p 2)) = u
  have ua : u.layouts.applied = s.layouts.applied.put w r := by rw [← hu, ← hr]; rfl
  have up : u.layouts.projected = s.layouts.projected.put w r := by rw [← hu, ← hr]; rfl
  have uo : u.layouts.owners = tput s.layouts.owners w (some n) := by rw [← hu]; rfl
  have ug : u.layouts.gens = s.layouts.gens := by rw [← hu]; rfl
  have uc : u.layouts.commits = s.layouts.commits := by rw [← hu]; rfl
  have us : u.surfaces = s.surfaces := by rw [← hu]; rfl
  have ut : u.scan = s.scan := by rw [← hu]; rfl
  have un : u.sessions = s.sessions := by rw [← hu]; rfl
  have hcw : u.closes w = false := by
    unfold State.closes State.session; rw [uo, un, tget_tput_same]
    simpa [State.session] using hn
  have hcv : ∀ v, w ≠ v → u.closes v = s.closes v := by
    intro v hv; unfold State.closes State.session; rw [uo, un, tget_tput_ne _ _ _ _ hv]
  have hwo : (s.layouts.applied.put w r).without u.closes = (s.layouts.applied.without s.closes).put w r := by
    refine Layout.ext_views (fun v => ?_) (fun k => ?_)
    · rw [Layout.without_record, Layout.put_record, Layout.put_record, Layout.without_record]
      by_cases e : w = v
      · subst e; simp [hcw]
      · rw [hcv v e]; simp [e]
    · rw [Layout.without_list]
      show (s.layouts.applied.bands.list k).filter _ = (s.layouts.applied.without s.closes).bands.list k
      rw [Layout.without_list]
      apply List.filter_congr
      intro v hv
      have : w ≠ v := by
        rintro rfl
        obtain ⟨r', hr', _⟩ := ((hF.1 k).2 w).mp hv
        rw [hna] at hr'; cases hr'
      rw [hcv v this]
  refine ⟨fun v => ?_, fun e => ?_, fun v r' hr' hs => ?_, ?_, ?_, ?_, ?_⟩
  · rw [ua, up, uo, Layout.put_record, Layout.put_record, tget_tput]
    by_cases e : w = v
    · rw [if_pos e, if_pos e, if_pos e]; exact ⟨rfl, rfl⟩
    · rw [if_neg e, if_neg e, if_neg e]; exact hA v
  · rw [ut] at e; rw [e] at ht; simp at ht
  · rw [ua, Layout.put_record] at hr'
    by_cases e : w = v
    · rw [if_pos e] at hr'; injection hr' with hr'; rw [← hr', hres] at hs; cases hs
    · rw [if_neg e] at hr'; rw [hcv v e]; exact hC v r' hr' hs
  · rw [uc]; intro p hp; unfold State.session; rw [un]; exact hD p hp
  · rw [us, uc]; exact hE
  · rw [ua]; exact State.showable_congr (by rw [ut]) (State.put_showable hna hres hF)
  · rw [ua, up, uc, hwo]
    have h1 := State.playsTo_put hres (by rw [Layout.without_record, hna]; split <;> rfl) hG
    refine ((State.Carries.of_describes (by rw [ut]) (fun x v m hx => ?_) (us ▸ Surfaces.looksLike_describes (Surfaces.looksLike_refl _)) _).playsTo
      (Layout.agrees_refl _) (Layout.agrees_refl _) (fun _ x => x.elim) h1).1
    have ho := State.named_owner hx
    have hv : w ≠ v := by rintro rfl; rw [hfree] at ho; cases ho.2
    unfold LayoutController.named at hx ⊢
    rw [ho.1] at hx ⊢
    dsimp only at hx ⊢
    rw [uo, ug, tget_tput_ne _ _ _ _ hv]; exact hx

theorem firstOver_within {b : Nat} {l : List Nat} (h : firstOver b 0 l = none) : ∀ x ∈ l, x ≤ b := firstOver_none b l 0 h

/-- COMMIT keeps the presentation sound. -/
theorem State.serveCommit_presentation (s : State) (n : Port) (tag : Byte) (p : List Byte) (h : s.presentationSound)
    (hn : (s.session n).state = .opened) : (s.serveCommit n tag p).1.presentationSound := by
  unfold State.serveCommit
  simp only
  split
  · exact h
  split
  · exact h
  split
  · exact h
  rename_i l ops hops
  split
  · exact h
  rename_i hload
  obtain ⟨hA, hB, hC, hD, hE, hF, hG⟩ := h
  have hlast := State.playsTo_showable hG (State.without_showable s.closes hF)
  obtain ⟨f1, f2, f3, f4⟩ := LayoutController.tryOps_finds _ _ _ _ _ hops hlast.1 hlast.2.1
  show State.presentationSound (s.acceptCommit n tag l ops)
  generalize hu : s.acceptCommit n tag l ops = u
  generalize hq : (⟨n, tag, tget s.drawing.issued n, s.drawing.isComplete n (tget s.drawing.issued n), ops, refreshedWindows ops⟩ : Pending) = q
  have ua : u.layouts.applied = s.layouts.applied := by rw [← hu]; rfl
  have up : u.layouts.projected = l := by rw [← hu]; rfl
  have uo : u.layouts.owners = s.layouts.owners := by rw [← hu]; rfl
  have ug : u.layouts.gens = s.layouts.gens := by rw [← hu]; rfl
  have uc : u.layouts.commits = s.layouts.commits ++ [q] := by rw [← hu, ← hq]; rfl
  have us : u.surfaces = s.surfaces.changed (fun i f => { f with queuedRefs := f.queuedRefs + (ops.map (fun op => op.refsOn i)).sum }) := by
    rw [← hu, ← Surfaces.mapQueued_raise]; rfl
  have ut : u.scan = s.scan := by rw [← hu]; rfl
  have un : u.sessions = s.sessions := by rw [← hu]; rfl
  have hc : u.closes = s.closes := State.closes_congr uo (fun m => by unfold State.session; rw [un])
  have qp : q.port = n := by rw [← hq]
  have qo : q.ops = ops := by rw [← hq]
  refine ⟨fun v => ?_, fun e => ?_, fun v r' hr' hs => ?_, ?_, ?_, ?_, ?_⟩
  · rw [ua, up, uo]
    refine ⟨(hA v).1, ?_⟩
    rw [← (hA v).2]
    have := LayoutController.tryOps_none s.layouts s.surfaces n _ v 0 _ _ _ hops
    cases h1 : l.record v <;> cases h2 : s.layouts.projected.record v
    · rfl
    · have := this.mp h1; rw [h2] at this; cases this
    · have := this.mpr h2; rw [h1] at this; cases this
    · rfl
  · rw [ut] at e; rw [uo]; exact hB e
  · rw [hc]; rw [ua] at hr'; exact hC v r' hr' hs
  · rw [uc]
    intro p hp
    unfold State.session; rw [un]
    rcases List.mem_append.mp hp with hp | hp
    · exact hD p hp
    · have : p = q := by simpa using hp
      rw [this, qp]; exact hn
  · intro i f hf
    rw [us, Surfaces.changed_slot] at hf
    cases hg : (tget s.surfaces.slots i).surface with
    | none => rw [hg] at hf; cases hf
    | some g =>
      rw [hg] at hf
      simp only [Option.map_some, Option.some.injEq] at hf
      subst hf
      show g.queuedRefs + _ = _
      rw [uc, hE i g hg, List.flatMap_append, List.map_append, List.sum_append]
      simp [qo]
  · rw [ua]; exact State.showable_congr (by rw [ut]) hF
  · rw [ua, up, uc, hc]
    have h1 : s.playsTo (s.layouts.commits ++ [q]) (s.layouts.applied.without s.closes) l := by
      refine State.playsTo_append [q] l hG (State.without_showable s.closes hF) (fun e he _ => ?_)
      have hq1 := (State.Carries.refl s [q]).findsAll (p := q) (by simp) ops (by rw [qo]; exact fun _ h => h) s.layouts.projected e
        (Layout.agrees_symm he) (fun _ x => x.elim) (by rw [qp]; exact f1)
      have hag : l.agrees (ops.foldl s.played e) := by rw [f2]; exact hq1.2.1
      refine ⟨by rw [qo]; exact hq1.1, ?_, ?_⟩
      · rw [qo]; exact State.agrees_showable hag ⟨f3, f4, firstOver_within hload⟩
      · rw [qo]; exact Layout.agrees_symm hag
    refine ((State.Carries.of_describes (by rw [ut]) (fun x v m hx => by rw [← hx]; exact State.named_congr uo ug x) ?_ _).playsTo
      (Layout.agrees_refl _) (Layout.agrees_refl _) (fun _ x => x.elim) h1).1
    rw [us]; exact Surfaces.describes_changed _ _ (fun _ _ => ⟨rfl, rfl, rfl, rfl⟩)

/-- SET_TIMING keeps the presentation sound. -/
theorem State.serveSetTiming_presentation (s : State) (p : List Byte) (h : s.presentationSound) : (s.serveSetTiming p).1.presentationSound := by
  unfold State.serveSetTiming
  split
  · exact h
  rename_i t _
  split
  · exact h
  split
  · rename_i ht
    obtain ⟨hA, hB, hC, hD, hE, hF, hG⟩ := h
    have hno := hB ht
    show State.presentationSound ((s.withScan (.configured t)).withLayouts (s.layouts.sizeTables t))
    generalize hu : (s.withScan (.configured t)).withLayouts (s.layouts.sizeTables t) = u
    have ua : u.layouts.applied = s.layouts.applied := by rw [← hu]; rfl
    have up : u.layouts.projected = s.layouts.projected := by rw [← hu]; rfl
    have uo : u.layouts.owners = s.layouts.owners := by rw [← hu]; rfl
    have ug : u.layouts.gens = s.layouts.gens := by rw [← hu]; rfl
    have uc : u.layouts.commits = s.layouts.commits := by rw [← hu]; rfl
    have us : u.surfaces = s.surfaces := by rw [← hu]; rfl
    have un : u.sessions = s.sessions := by rw [← hu]; rfl
    have hc : u.closes = s.closes := State.closes_congr uo (fun m => by unfold State.session; rw [un])
    have empty : ∀ w, s.layouts.applied.record w = none := by
      intro w; have := (hA w).1; rw [hno w] at this; simpa using this
    have show0 : ∀ l : Layout, (∀ w, l.record w = none) → s.showable l → u.showable l := by
      intro l hl hs
      refine ⟨hs.1, hs.2.1, ?_⟩
      unfold loadTable
      split
      · simp
      · intro x hx
        obtain ⟨y, _, hy⟩ := List.mem_map.mp hx
        rw [Layout.lineLoad_zero l _ _ hl] at hy; omega
    have hn0 : ∀ h v m, s.layouts.named h ≠ some (v, m) := by
      intro h v m e; have := (State.named_owner e).2; rw [hno v] at this; cases this
    have plays0 : ∀ (ps : List Pending) (l last : Layout), (∀ w, l.record w = none) → s.playsTo ps l last → u.playsTo ps l last := by
      intro ps
      induction ps with
      | nil => intro l last _ h; exact h
      | cons q ps ih =>
        intro l last hl h
        cases ho : q.ops with
        | cons op ops =>
          have := h.1; rw [ho] at this
          obtain ⟨w, hw, _⟩ := this.1
          exact absurd hw (hn0 _ _ _)
        | nil =>
          have h2 := h.2
          rw [ho] at h2
          refine ⟨by rw [ho]; trivial, ?_, ?_⟩
          · rw [ho]; exact show0 l hl h2.1
          · rw [ho]; exact ih l last hl h2.2
    refine ⟨?_, ?_, ?_, ?_, ?_, ?_, ?_⟩
    · show ∀ w, (u.layouts.applied.record w).isSome = _ ∧ _
      rw [ua, up, uo]; exact hA
    · show u.scan.timing = none → _
      rw [← hu]; intro e; cases e
    · show ∀ w r, u.layouts.applied.record w = some r → _
      rw [ua, hc]; exact hC
    · show ∀ p ∈ u.layouts.commits, _
      rw [uc]; intro p hp; unfold State.session; rw [un]; exact hD p hp
    · show ∀ i f, (tget u.surfaces.slots i).surface = some f → _
      rw [us, uc]; exact hE
    · rw [ua]; exact show0 _ empty hF
    · rw [ua, up, uc, hc]
      exact plays0 _ _ _ (fun w => by rw [Layout.without_record, empty]; split <;> rfl) hG
  · split
    · exact h
    · exact h

/-- The two states differ in surfaces alone, and those that pending commits name are described as they were. -/
theorem State.presentationSound_surfaces {s t : State} (hl : t.layouts = s.layouts) (hs : t.sessions = s.sessions) (ht : t.scan = s.scan)
    (hd : ∀ p ∈ s.layouts.commits, ∀ h surface sx sy, Op.source h 1 surface sx sy ∈ p.ops → ∀ i f, s.surfaces.named surface = some (i, f) →
      f.owner = p.port → ∃ g, t.surfaces.named surface = some (i, g) ∧ g.owner = f.owner ∧ g.width = f.width ∧ g.height = f.height ∧
        g.format = f.format)
    (hE' : ∀ i f, (tget t.surfaces.slots i).surface = some f →
      f.queuedRefs = ((t.layouts.commits.flatMap (fun p => p.ops)).map (fun op => op.refsOn i)).sum)
    (h : s.presentationSound) : t.presentationSound := by
  obtain ⟨hA, hB, hC, hD, hE, hF, hG⟩ := h
  have hc : t.closes = s.closes := State.closes_congr (by rw [hl]) (fun m => by unfold State.session; rw [hs])
  refine ⟨by rw [hl]; exact hA, by rw [hl, ht]; exact hB, by rw [hl, hc]; exact hC, ?_, hE', ?_, ?_⟩
  · rw [hl]; intro p hp; unfold State.session; rw [hs]; exact hD p hp
  · rw [hl]; exact State.showable_congr (by rw [ht]) hF
  · rw [hl, hc]
    exact (State.Carries.playsTo (s := s) (D := fun _ => False) ⟨by rw [ht], fun x v n e _ => by rw [hl]; exact e, hd⟩ (Layout.agrees_refl _)
      (Layout.agrees_refl _) (fun _ x => x.elim) hG).1

theorem State.queuedSound_none {s : State} (h : s.presentationSound) (i : SurfSlot)
    (hi : ∀ p ∈ s.layouts.commits, ∀ h surface sx sy, Op.source h 1 surface sx sy ∈ p.ops → surface % 64 ≠ i.val) :
    ((s.layouts.commits.flatMap (fun p => p.ops)).map (fun op => op.refsOn i)).sum = 0 := by
  have : ∀ op ∈ s.layouts.commits.flatMap (fun p => p.ops), op.refsOn i = 0 := by
    intro op hop
    obtain ⟨p, hp, hop⟩ := List.mem_flatMap.mp hop
    cases op
    case source h present surface sx sy _ =>
      show (if present = 1 then refTo surface i else 0) = 0
      split
      · rename_i e
        subst e
        exact if_neg (hi p hp h surface sx sy hop)
      · rfl
    all_goals rfl
  have key : ∀ xs : List Op, (∀ op ∈ xs, op.refsOn i = 0) → (xs.map (fun op => op.refsOn i)).sum = 0 := by
    intro xs
    induction xs with
    | nil => intro _; rfl
    | cons x xs ih => intro hx; rw [List.map_cons, List.sum_cons, hx x (List.mem_cons_self ..), ih (fun o ho => hx o (List.mem_cons_of_mem _ ho))]
  exact key _ this

/-- CREATE_SURFACE keeps the presentation sound. -/
theorem State.serveCreateSurface_presentation (s : State) (n : Port) (p : List Byte) (h : s.presentationSound) :
    (s.serveCreateSurface n p).1.presentationSound := by
  unfold State.serveCreateSurface
  split
  · exact h
  rename_i q _
  split
  · exact h
  split
  · exact h
  rename_i i hi
  split
  · exact h
  have hfree := Surfaces.freeSlot_free s.surfaces i hi
  have hslot : ∀ j, i ≠ j → tget (s.surfaces.create n i q).slots j = tget s.surfaces.slots j := fun j hj => by
    show tget (tmod _ i _) j = _; unfold tmod; rw [tget_tput_ne _ _ _ _ hj]
  have hpl := h.2.2.2.2.2.2
  have hsrc := State.playsTo_sources hpl
  have hne : ∀ p ∈ s.layouts.commits, ∀ h surface sx sy, Op.source h 1 surface sx sy ∈ p.ops → surface % 64 ≠ i.val := by
    intro p hp x surface sx sy hm e
    obtain ⟨j, f, hj, _⟩ := hsrc p hp x surface sx sy hm
    obtain ⟨h1, h2, _⟩ := (Surfaces.named_iff _ _ _ _).mp hj
    have : i = j := Fin.ext (by omega)
    rw [← this, hfree] at h2; cases h2
  refine State.presentationSound_surfaces (s := s) rfl rfl rfl (fun p hp x surface sx sy hm j f hf _ => ⟨f, ?_, rfl, rfl, rfl, rfl⟩) (fun j f hf => ?_) h
  · obtain ⟨h1, h2, h3⟩ := (Surfaces.named_iff _ _ _ _).mp hf
    have hj : i ≠ j := by rintro rfl; exact hne p hp x surface sx sy hm h1
    refine (Surfaces.named_iff _ _ _ _).mpr ⟨h1, ?_, ?_⟩
    · show (tget (s.surfaces.create n i q).slots j).surface = _; rw [hslot j hj]; exact h2
    · show _ = (tget (s.surfaces.create n i q).slots j).gen; rw [hslot j hj]; exact h3
  · change (tget (s.surfaces.create n i q).slots j).surface = some f at hf
    show f.queuedRefs = ((s.layouts.commits.flatMap (fun p => p.ops)).map (fun op => op.refsOn j)).sum
    by_cases e : i = j
    · subst e
      have : f = newSurface s.surfaces n q := by
        have : tget (s.surfaces.create n i q).slots i = ⟨(tget s.surfaces.slots i).gen, some (newSurface s.surfaces n q)⟩ := by
          show tget (tmod _ i _) i = _; unfold tmod; rw [tget_tput_same]
        rw [this] at hf; injection hf with hf; exact hf.symm
      rw [this, State.queuedSound_none h i hne]; rfl
    · rw [hslot j e] at hf; exact h.2.2.2.2.1 j f hf

theorem Surfaces.free_slot_ne (m : Surfaces) (i j : SurfSlot) (h : i ≠ j) : tget (m.free i).slots j = tget m.slots j := by
  unfold Surfaces.free
  split
  · rfl
  · exact tget_tput_ne _ _ _ _ h

theorem Surfaces.free_slot_same (m : Surfaces) (i : SurfSlot) : (tget (m.free i).slots i).surface = none := by
  unfold Surfaces.free
  split
  · assumption
  · simp only [tget_tput_same]

/-- DESTROY_SURFACE keeps the presentation sound: no pending commit names the surface. -/
theorem State.destroySurface_presentation (s : State) (n : Port) (p : List Byte) (i : SurfSlot) (f : Surface) (h : s.presentationSound)
    (hj : s.surfaces.judgeDestroy n p = .destroys i f) : (s.withSurfaces (s.surfaces.free i)).presentationSound := by
  have hf : (tget s.surfaces.slots i).surface = some f ∧ f.queuedRefs = 0 := by
    unfold Surfaces.judgeDestroy at hj
    split at hj
    · cases hj
    · rename_i i' f' hr
      split at hj
      · cases hj
      · rename_i hl
        split at hj
        · cases hj
        · injection hj with a b; subst a; subst b
          unfold Surfaces.resolve at hr
          split at hr
          · cases hr
          · rename_i j g hg
            split at hr
            · injection hr with hr; injection hr with a b; subst a; subst b
              refine ⟨((Surfaces.named_iff _ _ _ _).mp hg).2.1, ?_⟩
              unfold Surface.locked at hl
              simp at hl; omega
            · cases hr
  have hz := h.2.2.2.2.1 i f hf.1
  rw [hf.2] at hz
  have hne : ∀ p ∈ s.layouts.commits, ∀ h surface sx sy, Op.source h 1 surface sx sy ∈ p.ops → surface % 64 ≠ i.val := by
    intro p hp x surface sx sy hm e
    have : ∀ xs : List Op, Op.source x 1 surface sx sy ∈ xs → 0 < (xs.map (fun op => op.refsOn i)).sum := by
      intro xs
      induction xs with
      | nil => intro h; cases h
      | cons y ys ih =>
        intro hy
        rw [List.map_cons, List.sum_cons]
        rcases List.mem_cons.mp hy with rfl | hy
        · have : (Op.source x 1 surface sx sy).refsOn i = 1 := by unfold Op.refsOn refTo; simp [e]
          omega
        · have := ih hy; omega
    have hpos := this (s.layouts.commits.flatMap (fun p => p.ops)) (List.mem_flatMap.mpr ⟨p, hp, hm⟩)
    rw [← hz] at hpos
    exact Nat.lt_irrefl 0 hpos
  refine State.presentationSound_surfaces (s := s) rfl rfl rfl (fun p hp x surface sx sy hm j g hg _ => ⟨g, ?_, rfl, rfl, rfl, rfl⟩) (fun j g hg => ?_) h
  · obtain ⟨h1, h2, h3⟩ := (Surfaces.named_iff _ _ _ _).mp hg
    have hij : i ≠ j := by rintro rfl; exact hne p hp x surface sx sy hm h1
    refine (Surfaces.named_iff _ _ _ _).mpr ⟨h1, ?_, ?_⟩
    · show (tget (s.surfaces.free i).slots j).surface = _; rw [Surfaces.free_slot_ne _ _ _ hij]; exact h2
    · show _ = (tget (s.surfaces.free i).slots j).gen; rw [Surfaces.free_slot_ne _ _ _ hij]; exact h3
  · change (tget (s.surfaces.free i).slots j).surface = some g at hg
    by_cases e : i = j
    · subst e; rw [Surfaces.free_slot_same] at hg; cases hg
    · rw [Surfaces.free_slot_ne _ _ _ e] at hg; exact h.2.2.2.2.1 j g hg

end Sys2Proof.Machine
end

