-- ==== Sys2Proof/Laws/PresentedTeardowns.lean ====
section
/-! SUPPORT. The soundness of the presentation through a teardown: what its start and its finish do to windows, commits and surfaces, and
that both keep it. -/

namespace Sys2Proof.Machine

theorem State.drawOn_outstanding (s : State) (n : Port) : s.drawOn.drawing.outstanding n = s.drawing.outstanding n := by
  unfold State.drawOn State.writeNext
  repeat' split
  all_goals (unfold Drawing.outstanding Drawing.inFlightOf; simp [State.tick, State.withDrawing, State.withMem, *])

/-- The references of a port's jobs go with the jobs (R93). -/
theorem State.abortJobs_surfaces (s : State) (n : Port) : (s.abortJobs n).surfaces = s.surfaces.changed (fun i f =>
    { f with jobRefs := f.jobRefs - ((s.drawing.outstanding n).map (fun j => j.refsOn i)).sum }) := by
  unfold State.abortJobs
  split
  · rw [State.choose_surfaces]
    show Surfaces.dropJobs s.drawOn.surfaces (s.drawOn.drawing.outstanding n) = _
    rw [State.drawOn_outstanding, State.drawOn_surfaces, Surfaces.dropJobs_changed]
  · show Surfaces.dropJobs _ _ = _
    rw [Surfaces.dropJobs_changed]

/-- What a teardown start does to windows, commits and references (R93, R106, R133). -/
theorem State.teardownStart_effect (s : State) (n : Port) (cause : ClosingCause) (label : Option (BitVec 32)) :
    let t := s.teardownStart n cause label
    t.layouts = { s.layouts with
        commits := s.layouts.commits.filter (fun p => p.port ≠ n)
        projected := s.layouts.projected.without (fun w => tget s.layouts.owners w = some n)
        projectedLoad := loadTable s.scan.timing (s.layouts.projected.without (fun w => tget s.layouts.owners w = some n))
        holder := t.layouts.holder
        waiting := t.layouts.waiting } ∧
      t.surfaces = s.surfaces.changed (fun i f =>
        { f with
          jobRefs := f.jobRefs - ((s.drawing.outstanding n).map (fun j => j.refsOn i)).sum
          queuedRefs := f.queuedRefs -
            (((s.layouts.commits.filter (fun p => p.port = n)).flatMap (fun p => p.ops)).map (fun op => op.refsOn i)).sum }) ∧
      t.scan = s.scan ∧
      t.sessions = tput s.sessions n { s.session n with state := .closing, cause := cause, pendingLabel := label, headWait := .teardown } := by
  intro t
  have hs1 : ((s.mapSession n (fun c => { c with state := .closing, cause := cause, pendingLabel := label, headWait := .teardown })).mapLink n
      Link.teardownStart).sessions = tput s.sessions n { s.session n with state := .closing, cause := cause, pendingLabel := label, headWait := .teardown } := rfl
  have e : t = ((((s.mapSession n (fun c => { c with state := .closing, cause := cause, pendingLabel := label, headWait := .teardown })).mapLink n
      Link.teardownStart).abortJobs n).teardownLayouts n) := rfl
  generalize hS : (s.mapSession n (fun c => { c with state := .closing, cause := cause, pendingLabel := label, headWait := .teardown })).mapLink n
      Link.teardownStart = s1 at e hs1
  have a1 : s1.drawing = s.drawing := by subst hS; rfl
  have a2 : s1.layouts = s.layouts := by subst hS; rfl
  have a3 : s1.scan = s.scan := by subst hS; rfl
  have a4 : s1.surfaces = s.surfaces := by subst hS; rfl
  clear_value t
  refine ⟨?_, ?_, ?_, ?_⟩
  · rw [e]; unfold State.teardownLayouts; dsimp only
    unfold State.dropToken State.passToken State.dropCommits
    simp only [State.withLayouts_layouts, State.withSurfaces_layouts, State.abortJobs_layouts, a2, Layout.withdrawOwned_eq, State.abortJobs_scan,
      State.withLayouts_scan, State.withSurfaces_scan, a3]
    split
    · split <;> rfl
    · rfl
  · rw [e]; unfold State.teardownLayouts
    simp only [State.dropToken_surfaces, State.withLayouts_surfaces]
    unfold State.dropCommits
    simp only [State.withLayouts_surfaces, State.withSurfaces_surfaces, State.abortJobs_layouts]
    rw [a2, Surfaces.dropQueued_changed, State.abortJobs_surfaces, a1, a4, Surfaces.changed_changed]
    rfl
  · rw [e]; unfold State.teardownLayouts; simp [a3]
  · rw [e]; unfold State.teardownLayouts; simp [hs1]

theorem sum_filter_split (P : Pending → Bool) (f : Op → Nat) (ps : List Pending) :
    ((ps.flatMap (fun p => p.ops)).map f).sum =
      (((ps.filter P).flatMap (fun p => p.ops)).map f).sum + (((ps.filter (fun p => !P p)).flatMap (fun p => p.ops)).map f).sum := by
  induction ps with
  | nil => rfl
  | cons p ps ih =>
    rw [List.flatMap_cons, List.map_append, List.sum_append, ih]
    cases hp : P p
    · rw [List.filter_cons_of_neg (by simp [hp]), List.filter_cons_of_pos (by simp [hp]), List.flatMap_cons, List.map_append, List.sum_append]
      omega
    · rw [List.filter_cons_of_pos hp, List.filter_cons_of_neg (by simp [hp]), List.flatMap_cons, List.map_append, List.sum_append]
      omega

/-- A teardown start keeps the presentation sound. -/
theorem State.teardownStart_presentation (s : State) (n : Port) (cause : ClosingCause) (label : Option (BitVec 32))
    (h : s.presentationSound) : (s.teardownStart n cause label).presentationSound := by
  obtain ⟨el, es, et, en⟩ := State.teardownStart_effect s n cause label
  generalize hT : s.teardownStart n cause label = t at *
  have ua : t.layouts.applied = s.layouts.applied := by rw [el]
  have up : t.layouts.projected = s.layouts.projected.without (fun w => tget s.layouts.owners w = some n) := by rw [el]
  have uo : t.layouts.owners = s.layouts.owners := by rw [el]
  have ug : t.layouts.gens = s.layouts.gens := by rw [el]
  have uc : t.layouts.commits = s.layouts.commits.filter (fun p => p.port ≠ n) := by rw [el]
  have sn : (t.session n).state = .closing := by unfold State.session; rw [en, tget_tput_same]
  have so : ∀ m, n ≠ m → t.session m = s.session m := fun m hm => by unfold State.session; rw [en, tget_tput_ne _ _ _ _ hm]
  have hc : t.closes = fun w => s.closes w || decide (tget s.layouts.owners w = some n) := by
    funext w
    unfold State.closes
    rw [uo]
    cases tget s.layouts.owners w with
    | none => simp
    | some m =>
      by_cases e : n = m
      · subst e; simp [sn]
      · simp [so m e, Ne.symm e]
  obtain ⟨hA, hB, hC, hD, hE, hF, hG⟩ := h
  refine ⟨fun v => ?_, fun e => ?_, fun v r hr hs => ?_, fun p hp => ?_, fun i f hf => ?_, ?_, ?_⟩
  · rw [ua, up, uo]
    refine ⟨(hA v).1, ?_⟩
    rw [Layout.without_record, ← (hA v).2]
    split
    · simp
    · rfl
  · rw [et] at e; rw [uo]; exact hB e
  · rw [ua] at hr; rw [hc]; simp [hC v r hr hs]
  · rw [uc] at hp
    obtain ⟨hp1, hp2⟩ := List.mem_filter.mp hp
    rw [so _ (by simpa using Ne.symm (by simpa using hp2))]; exact hD p hp1
  · rw [es, Surfaces.changed_slot] at hf
    cases hg : (tget s.surfaces.slots i).surface with
    | none => rw [hg] at hf; cases hf
    | some g =>
      rw [hg] at hf
      simp only [Option.map_some, Option.some.injEq] at hf
      subst hf
      show g.queuedRefs - _ = _
      rw [uc, hE i g hg, sum_filter_split (fun p => p.port = n)]
      simp only [decide_not, ne_eq]
      omega
  · rw [ua]; exact State.showable_congr (by rw [et]) hF
  · rw [ua, up, uc, hc]
    have h1 := State.playsTo_without n hG
    dsimp only at h1
    rw [Layout.without_without] at h1
    exact ((State.Carries.of_describes (by rw [et]) (fun x v m hx => by rw [← hx]; exact State.named_congr uo ug x)
      (by rw [es]; exact Surfaces.describes_changed _ _ (fun _ _ => ⟨rfl, rfl, rfl, rfl⟩)) _).playsTo
      (Layout.agrees_refl _) (Layout.agrees_refl _) (fun _ x => x.elim) h1).1

/-! ### Teardown finish (R35, R36) -/

/-- What the freeing of windows of port `n`, some or all, leaves of a state. -/
structure State.Freed (n : Port) (s u : State) : Prop where
  others : ∀ v, tget s.layouts.owners v ≠ some n → tget u.layouts.owners v = tget s.layouts.owners v ∧
    tget u.layouts.gens v = tget s.layouts.gens v ∧ u.layouts.applied.record v = s.layouts.applied.record v ∧
    u.layouts.projected.record v = s.layouts.projected.record v
  own : ∀ v, tget s.layouts.owners v = some n → tget u.layouts.owners v = some n ∨
    (tget u.layouts.owners v = none ∧ u.layouts.applied.record v = none ∧ u.layouts.projected.record v = none)
  applied : ∀ k, (u.layouts.applied.bands.list k).filter (fun v => !decide (tget s.layouts.owners v = some n)) =
    (s.layouts.applied.bands.list k).filter (fun v => !decide (tget s.layouts.owners v = some n))
  projected : ∀ k, (u.layouts.projected.bands.list k).filter (fun v => !decide (tget s.layouts.owners v = some n)) =
    (s.layouts.projected.bands.list k).filter (fun v => !decide (tget s.layouts.owners v = some n))
  appliedStack : u.layouts.applied.stackSound
  projectedStack : u.layouts.projected.stackSound
  commits : u.layouts.commits = s.layouts.commits
  scan : u.scan = s.scan
  sessions : u.sessions = s.sessions
  surfaces : s.surfaces.looksLike u.surfaces

theorem State.freeWindow_effect (s : State) (w : WinSlot) (m : Port) (h : tget s.layouts.owners w = some m) :
    (s.freeWindow w).layouts = s.layouts.release w m ∧ (s.freeWindow w).scan = s.scan ∧ (s.freeWindow w).sessions = s.sessions ∧
      (s.freeWindow w).surfaces = s.surfaces.changed (fun i f => { f with shownRefs := f.shownRefs - s.layouts.applied.refsOn w i }) := by
  unfold State.freeWindow
  rw [h]; dsimp only
  rw [Surfaces.lowerShown_changed]
  exact ⟨rfl, rfl, rfl, rfl⟩

theorem Layout.forget_list (l : Layout) (w : WinSlot) (k : Band) : (l.forget w).bands.list k = (l.bands.list k).filter (· != w) :=
  Bands.list_remove _ _ _

theorem State.Freed.step {n : Port} {s u : State} (f : State.Freed n s u) (w : WinSlot) (hw : tget u.layouts.owners w = some n) :
    State.Freed n s (u.freeWindow w) := by
  obtain ⟨el, et, en, es⟩ := State.freeWindow_effect u w n hw
  have hsw : tget s.layouts.owners w = some n := by
    by_cases e : tget s.layouts.owners w = some n
    · exact e
    · rw [(f.others w e).1] at hw; exact hw
  have lists : ∀ l : Layout, ∀ k, ((l.forget w).bands.list k).filter (fun v => !decide (tget s.layouts.owners v = some n)) =
      (l.bands.list k).filter (fun v => !decide (tget s.layouts.owners v = some n)) := by
    intro l k
    rw [Layout.forget_list, filter_removed _ w (by simp [hsw])]
  generalize u.freeWindow w = x at *
  have xo : ∀ v, tget x.layouts.owners v = if w = v then none else tget u.layouts.owners v := fun v => by
    rw [el]; show tget (tput _ _ _) v = _; rw [tget_tput]
  have xg : ∀ v, w ≠ v → tget x.layouts.gens v = tget u.layouts.gens v := fun v hv => by
    rw [el]; show tget (tmod _ _ _) v = _; unfold tmod; rw [tget_tput_ne _ _ _ _ hv]
  have xa : x.layouts.applied = u.layouts.applied.forget w := by rw [el]; rfl
  have xp : x.layouts.projected = u.layouts.projected.forget w := by rw [el]; rfl
  refine ⟨fun v hv => ?_, fun v hv => ?_, fun k => ?_, fun k => ?_, ?_, ?_, ?_, ?_, ?_, ?_⟩
  · have hne : w ≠ v := by rintro rfl; exact hv hsw
    obtain ⟨a, b, c, d⟩ := f.others v hv
    rw [xo, if_neg hne, xg v hne, xa, xp, Layout.forget_record, Layout.forget_record, if_neg hne, if_neg hne]
    exact ⟨a, b, c, d⟩
  · rw [xo, xa, xp, Layout.forget_record, Layout.forget_record]
    by_cases e : w = v
    · rw [if_pos e, if_pos e, if_pos e]; exact Or.inr ⟨rfl, rfl, rfl⟩
    · rw [if_neg e, if_neg e, if_neg e]; exact f.own v hv
  · rw [xa, lists]; exact f.applied k
  · rw [xp, lists]; exact f.projected k
  · rw [xa]; exact Layout.forget_stack _ _ f.appliedStack
  · rw [xp]; exact Layout.forget_stack _ _ f.projectedStack
  · rw [el]; exact f.commits
  · rw [et]; exact f.scan
  · rw [en]; exact f.sessions
  · rw [es]; exact Surfaces.looksLike_trans f.surfaces (Surfaces.looksLike_changed _ _ (fun _ _ => rfl))

theorem State.freeWindowsOf_freed (s : State) (n : Port) (ha : s.layouts.applied.stackSound) (hp : s.layouts.projected.stackSound) :
    State.Freed n s (s.freeWindowsOf n) := by
  unfold State.freeWindowsOf
  refine foldl_keeps (State.Freed n s) _ (fun u w f => ?_) _ _
    ⟨fun _ _ => ⟨rfl, rfl, rfl, rfl⟩, fun _ h => Or.inl h, fun _ => rfl, fun _ => rfl, ha, hp, rfl, rfl, rfl, Surfaces.looksLike_refl _⟩
  split
  · rename_i hw; exact f.step w hw
  · exact f

theorem Surfaces.freeOwned_others (m : Surfaces) (n : Port) (i : SurfSlot)
    (h : ∀ f, (tget m.slots i).surface = some f → f.owner ≠ n) : tget (m.freeOwned n).slots i = tget m.slots i := by
  unfold Surfaces.freeOwned
  show tget (List.foldl _ m (allSlots 48)).slots i = _
  refine foldl_keeps (fun k : Surfaces => tget k.slots i = tget m.slots i) _ (fun k j hk => ?_) _ _ rfl
  split
  · rename_i hj
    have : j ≠ i := by
      rintro rfl
      rw [hk] at hj
      cases hs : (tget m.slots j).surface with
      | none => rw [hs] at hj; cases hj
      | some f => rw [hs] at hj; simp at hj; exact h f hs hj
    rw [Surfaces.free_slot_ne _ _ _ this]; exact hk
  · exact hk

/-- The return of a port's resources, in what the presentation reads (R35). -/
theorem State.returnResources_freed (s : State) (n : Port) (ha : s.layouts.applied.stackSound) (hp : s.layouts.projected.stackSound) :
    ∃ u, State.Freed n s u ∧ (s.returnResources n).layouts.owners = u.layouts.owners ∧ (s.returnResources n).layouts.gens = u.layouts.gens ∧
      (s.returnResources n).layouts.applied = u.layouts.applied ∧ (s.returnResources n).layouts.projected = u.layouts.projected ∧
      (s.returnResources n).layouts.commits = u.layouts.commits ∧ (s.returnResources n).scan = u.scan ∧
      (s.returnResources n).sessions = u.sessions ∧ (s.returnResources n).surfaces = u.surfaces.freeOwned n := by
  refine ⟨s.freeWindowsOf n, State.freeWindowsOf_freed s n ha hp, ?_⟩
  unfold State.returnResources
  exact ⟨rfl, rfl, rfl, rfl, rfl, rfl, rfl, rfl⟩

/-- The state a teardown finish leaves, in what the presentation reads. -/
theorem State.teardownFinish_effect (s : State) (n : Port) :
    (s.teardownFinish n).layouts = (s.returnResources n).layouts ∧ (s.teardownFinish n).surfaces = (s.returnResources n).surfaces ∧
      (s.teardownFinish n).scan = (s.returnResources n).scan ∧ (∀ m, n ≠ m → (s.teardownFinish n).session m = s.session m) ∧
      ((s.teardownFinish n).session n).state ≠ .closing := by
  have hend : ((s.returnResources n).endTeardown n).layouts = (s.returnResources n).layouts ∧
      ((s.returnResources n).endTeardown n).surfaces = (s.returnResources n).surfaces ∧
      ((s.returnResources n).endTeardown n).scan = (s.returnResources n).scan ∧
      (∀ m, n ≠ m → ((s.returnResources n).endTeardown n).session m = s.session m) ∧
      (((s.returnResources n).endTeardown n).session n).state ≠ .closing := by
    have hs : (s.returnResources n).sessions = s.sessions := by simp
    generalize s.returnResources n = u at hs
    unfold State.endTeardown
    split
    · refine ⟨rfl, rfl, rfl, fun m hm => ?_, ?_⟩
      · show tget (tput u.sessions n _) m = _; rw [tget_tput_ne _ _ _ _ hm, hs]; rfl
      · show (tget (tput u.sessions n _) n).state ≠ _; rw [tget_tput_same]; intro e; cases e
    all_goals
      refine ⟨rfl, rfl, rfl, fun m hm => ?_, ?_⟩
      · show tget (tput u.sessions n _) m = _; rw [tget_tput_ne _ _ _ _ hm, hs]; rfl
      · show (tget (tput u.sessions n _) n).state ≠ _; rw [tget_tput_same]; intro e; cases e
  obtain ⟨h1, h2, h3, h4, h5⟩ := hend
  unfold State.teardownFinish
  dsimp only
  generalize (s.returnResources n).endTeardown n = u at *
  split
  · refine ⟨h1, h2, h3, fun m hm => ?_, ?_⟩
    · show tget (tput u.sessions n _) m = _; rw [tget_tput_ne _ _ _ _ hm]; exact h4 m hm
    · show (tget (tput u.sessions n _) n).state ≠ _; rw [tget_tput_same]; exact h5
  · refine ⟨h1, h2, h3, fun m hm => ?_, ?_⟩
    · show tget (tput u.sessions n _) m = _; rw [tget_tput_ne _ _ _ _ hm]; exact h4 m hm
    · show (tget (tput u.sessions n _) n).state ≠ _; rw [tget_tput_same]; exact h5

theorem Layout.ext_lists {l k : Layout} (h : ∀ b, l.bands.list b = k.bands.list b) : l.bands = k.bands := by
  have a := h .base
  have b := h .main
  have c := h .overlay
  have d := h .alert
  simp only [Bands.list] at a b c d
  cases hb : l.bands
  cases hb' : k.bands
  rw [hb, hb'] at a b c d
  simp only at a b c d
  rw [a, b, c, d]

/-- A teardown finish keeps the presentation sound. -/
theorem State.teardownFinish_presentation (s : State) (n : Port) (h : s.presentationSound) (hn : (s.session n).state = .closing) :
    (s.teardownFinish n).presentationSound := by
  obtain ⟨hA, hB, hC, hD, hE, hF, hG⟩ := h
  have hlast := State.playsTo_showable hG (State.without_showable s.closes hF)
  obtain ⟨u, fr, eo, eg, ea, ep, ec, et, en, es⟩ := State.returnResources_freed s n hF.1 hlast.1
  obtain ⟨_, _, _, rown, rsurf⟩ := State.returnResources_returned s n
  obtain ⟨fl, fs, ft, fo, fn⟩ := State.teardownFinish_effect s n
  generalize s.teardownFinish n = t at *
  rw [eo] at rown
  have own : ∀ v, tget s.layouts.owners v = some n → tget u.layouts.owners v = none ∧ u.layouts.applied.record v = none ∧
      u.layouts.projected.record v = none := fun v hv => (fr.own v hv).resolve_left (rown v)
  have tow : t.layouts.owners = u.layouts.owners := by rw [fl, eo]
  have tg : t.layouts.gens = u.layouts.gens := by rw [fl, eg]
  have ta : t.layouts.applied = u.layouts.applied := by rw [fl, ea]
  have tp : t.layouts.projected = u.layouts.projected := by rw [fl, ep]
  have tc : t.layouts.commits = s.layouts.commits := by rw [fl, ec, fr.commits]
  have tt : t.scan = s.scan := by rw [ft, et, fr.scan]
  have clOwn : ∀ v, tget s.layouts.owners v = some n → s.closes v = true := by
    intro v hv; unfold State.closes; rw [hv]; simp [hn]
  have clOwn' : ∀ v, tget s.layouts.owners v = some n → t.closes v = false := by
    intro v hv; unfold State.closes; rw [tow, (own v hv).1]; rfl
  have clOther : ∀ v, tget s.layouts.owners v ≠ some n → t.closes v = s.closes v := by
    intro v hv
    unfold State.closes; rw [tow, (fr.others v hv).1]
    cases ho : tget s.layouts.owners v with
    | none => rfl
    | some m =>
      have : n ≠ m := by rintro rfl; exact hv ho
      simp [fo m this]
  -- the lists of the freed layouts hold no window of the port
  have lists : ∀ (l : Layout) (k : Band), l.stackSound → (∀ v, tget s.layouts.owners v = some n → l.record v = none) →
      (l.bands.list k).filter (fun v => !decide (tget s.layouts.owners v = some n)) = l.bands.list k := by
    intro l k hl hr
    refine List.filter_eq_self.mpr (fun v hv => ?_)
    obtain ⟨r, hr', _⟩ := ((hl k).2 v).mp hv
    have : tget s.layouts.owners v ≠ some n := by intro e; rw [hr v e] at hr'; cases hr'
    simp [this]
  have la : ∀ k, u.layouts.applied.bands.list k =
      (s.layouts.applied.bands.list k).filter (fun v => !decide (tget s.layouts.owners v = some n)) := fun k => by
    rw [← fr.applied k, lists _ k fr.appliedStack (fun v hv => (own v hv).2.1)]
  have lp : ∀ k, u.layouts.projected.bands.list k =
      (s.layouts.projected.bands.list k).filter (fun v => !decide (tget s.layouts.owners v = some n)) := fun k => by
    rw [← fr.projected k, lists _ k fr.projectedStack (fun v hv => (own v hv).2.2)]
  -- what the surfaces of other ports look like
  have surf : ∀ i f, (tget s.surfaces.slots i).surface = some f → f.owner ≠ n →
      ∃ g, (tget t.surfaces.slots i).surface = some g ∧ (tget t.surfaces.slots i).gen = (tget s.surfaces.slots i).gen ∧ g.owner = f.owner ∧
        g.width = f.width ∧ g.height = f.height ∧ g.format = f.format ∧ g.queuedRefs = f.queuedRefs := by
    intro i f hf ho
    have e := fr.surfaces i
    rw [hf] at e
    cases hg : (tget u.surfaces.slots i).surface with
    | none => rw [hg] at e; cases e.2
    | some g =>
      rw [hg] at e
      simp only [Option.map_some, Option.some.injEq, Prod.mk.injEq] at e
      obtain ⟨e0, e1, e2, e3, e4, e5⟩ := e
      have := Surfaces.freeOwned_others u.surfaces n i (fun x hx => by rw [hg] at hx; injection hx with hx; rw [← hx, ← e1]; exact ho)
      refine ⟨g, ?_, ?_, e1.symm, e2.symm, e3.symm, e4.symm, e5.symm⟩
      · rw [fs, es, this]; exact hg
      · rw [fs, es, this]; exact e0.symm
  refine ⟨fun v => ?_, fun e v => ?_, fun v r hr hs => ?_, fun p hp => ?_, fun i f hf => ?_, ?_, ?_⟩
  · rw [ta, tp, tow]
    by_cases e : tget s.layouts.owners v = some n
    · obtain ⟨a, b, c⟩ := own v e; rw [a, b, c]; exact ⟨rfl, rfl⟩
    · obtain ⟨a, _, b, c⟩ := fr.others v e; rw [a, b, c]; exact hA v
  · rw [tt] at e
    rw [tow, (fr.others v (by rw [hB e v]; simp)).1]; exact hB e v
  · rw [ta] at hr
    have e : tget s.layouts.owners v ≠ some n := by intro e; rw [(own v e).2.1] at hr; cases hr
    rw [clOther v e]
    rw [(fr.others v e).2.2.1] at hr
    exact hC v r hr hs
  · rw [tc] at hp
    have := hD p hp
    have hne : n ≠ p.port := by intro e; rw [← e, hn] at this; cases this
    rw [fo _ hne]; exact this
  · rw [fs] at hf
    have ho := rsurf i f hf
    -- the surface was there before
    have : ∃ g, (tget s.surfaces.slots i).surface = some g ∧ g.owner ≠ n := by
      rw [es] at hf
      have e := fr.surfaces i
      cases hx : (tget u.surfaces.slots i).surface with
      | none =>
        rw [Surfaces.freeOwned_others u.surfaces n i (fun y hy => by rw [hx] at hy; cases hy), hx] at hf; cases hf
      | some x =>
        rw [hx] at e
        cases hg : (tget s.surfaces.slots i).surface with
        | none => rw [hg] at e; cases e.2
        | some g =>
          rw [hg] at e
          simp only [Option.map_some, Option.some.injEq, Prod.mk.injEq] at e
          refine ⟨g, rfl, fun hgn => ?_⟩
          -- x is the port's, so it was destroyed
          have hxn : x.owner = n := by rw [← e.2.1]; exact hgn
          have hgone : (tget (u.surfaces.freeOwned n).slots i).surface = none := by
            unfold Surfaces.freeOwned
            show (tget (List.foldl _ u.surfaces (allSlots 48)).slots i).surface = none
            have inv : ∀ (js : List SurfSlot) (k : Surfaces), (tget k.slots i = tget u.surfaces.slots i ∨ (tget k.slots i).surface = none) →
                (i ∈ js ∨ (tget k.slots i).surface = none) →
                (tget (js.foldl (fun m i => if (tget m.slots i).surface.any (fun f => f.owner = n) then m.free i else m) k).slots i).surface = none := by
              intro js
              induction js with
              | nil => intro k _ h2; rcases h2 with h2 | h2; cases h2; exact h2
              | cons j js ih =>
                intro k h1 h2
                rw [List.foldl_cons]
                by_cases e : j = i
                · subst e
                  have : (tget ((if (tget k.slots j).surface.any (fun f => f.owner = n) then k.free j else k)).slots j).surface = none := by
                    split
                    · exact Surfaces.free_slot_same _ _
                    · rename_i hh
                      rcases h1 with h1 | h1
                      · rw [h1, hx] at hh; simp [hxn] at hh
                      · exact h1
                  exact ih _ (Or.inr this) (Or.inr this)
                · have : tget ((if (tget k.slots j).surface.any (fun f => f.owner = n) then k.free j else k)).slots i = tget k.slots i := by
                    split
                    · exact Surfaces.free_slot_ne _ _ _ e
                    · rfl
                  refine ih _ (by rw [this]; exact h1) ?_
                  rw [this]
                  rcases h2 with h2 | h2
                  · rcases List.mem_cons.mp h2 with h2 | h2
                    · exact absurd h2.symm e
                    · exact Or.inl h2
                  · exact Or.inr h2
            exact inv _ _ (Or.inl rfl) (Or.inl (mem_allSlots i))
          rw [hgone] at hf; cases hf
    obtain ⟨g, hg, hgo⟩ := this
    obtain ⟨g', h1, _, _, _, _, _, h2⟩ := surf i g hg hgo
    rw [fs, hf] at h1; injection h1 with h1
    rw [h1, h2, tc]; exact hE i g hg
  · rw [ta]
    refine State.showable_congr (s := s) (by rw [tt]) ⟨fr.appliedStack, ?_, ?_⟩
    · have := la .alert
      simp only [Bands.list] at this
      rw [this]; exact Nat.le_trans (List.length_filter_le _ _) hF.2.1
    · refine loadTable_le _ _ s.layouts.applied _ (fun ha y v => ?_) hF.2.2
      unfold Layout.slotCost
      by_cases e : tget s.layouts.owners v = some n
      · rw [(own v e).2.1]; exact Nat.zero_le _
      · exact Nat.le_of_eq (by rw [(fr.others v e).2.2.1])
  · rw [ta, tp, tc]
    have dead : ∀ w, decide (tget s.layouts.owners w = some n) = true → ¬ (s.layouts.applied.without s.closes).live w := by
      intro w hw x
      have := ((Layout.without_live _ _ _).mp x).1
      rw [clOwn w (by simpa using hw)] at this; cases this
    have hdead := ((State.Carries.playsTo (s := s) (t := s) (D := fun w => decide (tget s.layouts.owners w = some n) = true)
      ⟨rfl, fun _ _ _ h _ => h, fun _ _ _ _ _ _ _ _ f hf _ => ⟨f, hf, rfl, rfl, rfl, rfl⟩⟩
      (Layout.agrees_refl _) (Layout.agrees_refl _) dead hG).2)
    have aa : (s.layouts.applied.without s.closes).agrees (u.layouts.applied.without t.closes) := by
      refine ⟨Layout.ext_lists (fun k => ?_), fun v => ?_⟩
      · rw [Layout.without_list, Layout.without_list, la k, List.filter_filter]
        apply List.filter_congr
        intro v _
        by_cases e : tget s.layouts.owners v = some n
        · simp [e, clOwn v e]
        · simp [e, clOther v e]
      · by_cases e : tget s.layouts.owners v = some n
        · refine Or.inr ⟨dead v (by simp [e]), ?_⟩
          rintro ⟨r, hr, _⟩
          rw [Layout.without_record, (own v e).2.1] at hr
          split at hr <;> cases hr
        · left
          rw [Layout.without_record, Layout.without_record, clOther v e, (fr.others v e).2.2.1]
    have pp : s.layouts.projected.agrees u.layouts.projected := by
      refine ⟨Layout.ext_lists (fun k => ?_), fun v => ?_⟩
      · rw [lp k]
        symm
        refine List.filter_eq_self.mpr (fun v hv => ?_)
        obtain ⟨r, hr, h1, _⟩ := ((hlast.1 k).2 v).mp hv
        cases e : decide (tget s.layouts.owners v = some n)
        · rfl
        · exact absurd ⟨r, hr, by rw [h1]; decide⟩ (hdead v e)
      · by_cases e : tget s.layouts.owners v = some n
        · refine Or.inr ⟨hdead v (by simp [e]), ?_⟩
          rintro ⟨r, hr, _⟩
          rw [(own v e).2.2] at hr; cases hr
        · left; exact (fr.others v e).2.2.2.symm
    refine (State.Carries.playsTo (s := s) (t := t) (D := fun w => decide (tget s.layouts.owners w = some n) = true)
      ⟨by rw [tt], fun x v m hx hv => ?_, fun p hp x surface sx sy _ i f hf hof => ?_⟩ aa pp dead hG).1
    · have hv : tget s.layouts.owners v ≠ some n := by simpa using hv
      have ho := State.named_owner hx
      obtain ⟨a, b, _⟩ := fr.others v hv
      unfold LayoutController.named at hx ⊢
      rw [ho.1] at hx ⊢
      dsimp only at hx ⊢
      rw [tow, tg, a, b]; exact hx
    · have hne : f.owner ≠ n := by
        rw [hof]; intro e
        have := hD p hp
        rw [e, hn] at this; cases this
      obtain ⟨h1, h2, h3⟩ := (Surfaces.named_iff _ _ _ _).mp hf
      obtain ⟨g, g1, g0, g2, g3, g4, g5, _⟩ := surf i f h2 hne
      exact ⟨g, (Surfaces.named_iff _ _ _ _).mpr ⟨h1, g1, g0 ▸ h3⟩, g2, g3, g4, g5⟩

end Sys2Proof.Machine
end

