-- ==== Sys2Proof/Laws/PresentedBoundary.lean ====
section
/-! SUPPORT. The soundness of the presentation through a frame boundary: the withdrawal of CLOSING ports' windows, the application of a
ready commit one operation at a time, and the aging of windows. -/

namespace Sys2Proof.Machine

/-! ### Step 1 of a boundary -/

theorem State.reload_sameShow (s : State) : s.SameShow s.reload := ⟨rfl, rfl, rfl, rfl, rfl, fun _ => rfl, rfl, Surfaces.looksLike_refl _⟩

theorem State.post_sameShow (s : State) (n : Port) (p : List Byte) : s.SameShow (s.post n p) :=
  ⟨rfl, rfl, rfl, rfl, rfl, fun _ => rfl, rfl, Surfaces.looksLike_refl _⟩

/-- The windows of CLOSING ports are WITHDRAWN in the applied layout, as they are after step 1 of a boundary (R126). -/
def State.withdrew (s : State) : Prop := ∀ w, s.closes w = true → ¬ s.layouts.applied.live w

theorem State.withdrawClosing_presentation (s : State) (h : s.presentationSound) :
    s.withdrawClosing.presentationSound ∧ s.withdrawClosing.withdrew := by
  rw [State.withdrawClosing_effect]
  generalize hu : (s.withSurfaces _).withLayouts { s.layouts with applied := s.layouts.applied.without s.closes } = u
  have ua : u.layouts.applied = s.layouts.applied.without s.closes := by rw [← hu]; rfl
  have up : u.layouts.projected = s.layouts.projected := by rw [← hu]; rfl
  have uo : u.layouts.owners = s.layouts.owners := by rw [← hu]; rfl
  have ug : u.layouts.gens = s.layouts.gens := by rw [← hu]; rfl
  have uc : u.layouts.commits = s.layouts.commits := by rw [← hu]; rfl
  have ut : u.scan = s.scan := by rw [← hu]; rfl
  have un : u.sessions = s.sessions := by rw [← hu]; rfl
  have us : s.surfaces.looksLike u.surfaces := by rw [← hu]; exact Surfaces.looksLike_changed _ _ (fun _ _ => rfl)
  have hc : u.closes = s.closes := State.closes_congr uo (fun m => by unfold State.session; rw [un])
  obtain ⟨hA, hB, hC, hD, hE, hF, hG⟩ := h
  constructor
  · refine State.presentationSound_congr (State.reload_sameShow u) ⟨fun v => ?_, fun e => ?_, fun v r hr hs => ?_, fun p hp => ?_, fun i f hf => ?_, ?_, ?_⟩
    · rw [ua, up, uo]
      refine ⟨?_, (hA v).2⟩
      rw [Layout.without_record, ← (hA v).1]
      split
      · simp
      · rfl
    · rw [ut] at e; rw [uo]; exact hB e
    · rw [hc]
      rw [ua, Layout.without_record] at hr
      cases hv : s.closes v
      · rw [hv] at hr; rw [← hv]; exact hC v r hr hs
      · rfl
    · rw [uc] at hp; unfold State.session; rw [un]; exact hD p hp
    · have e := (us i).2
      rw [hf] at e
      cases hg : (tget s.surfaces.slots i).surface with
      | none => rw [hg] at e; cases e
      | some g =>
        rw [hg] at e
        simp only [Option.map_some, Option.some.injEq, Prod.mk.injEq] at e
        rw [uc, ← e.2.2.2.2]; exact hE i g hg
    · rw [ua]; exact State.showable_congr (by rw [ut]) (State.without_showable _ hF)
    · rw [ua, up, uc, hc, Layout.without_without]
      have : (fun w => s.closes w || s.closes w) = s.closes := by funext w; cases s.closes w <;> rfl
      rw [this]
      exact ((State.Carries.of_describes (by rw [ut]) (fun x v m hx => by rw [← hx]; exact State.named_congr uo ug x)
        (Surfaces.looksLike_describes us) _).playsTo (Layout.agrees_refl _) (Layout.agrees_refl _) (fun _ x => x.elim) hG).1
  · intro w hw x
    change u.closes w = true at hw
    change u.layouts.applied.live w at x
    rw [hc] at hw
    rw [ua] at x
    have := ((Layout.without_live _ _ _).mp x).1
    rw [hw] at this; cases this

/-! ### Step 2 of a boundary: the operations of a ready commit, one at a time -/

/-- In the application of commit `p`, with its operations `ops` still to come and the commits `rest` behind it. -/
structure State.Applying (s : State) (p : Pending) (ops : List Op) (rest : List Pending) : Prop where
  records : ∀ w, ((s.layouts.applied.record w).isSome = (tget s.layouts.owners w).isSome) ∧
    ((s.layouts.projected.record w).isSome = (tget s.layouts.owners w).isSome)
  unconfigured : s.scan.timing = none → ∀ w, tget s.layouts.owners w = none
  withdrawn : ∀ w r, s.layouts.applied.record w = some r → r.state = .withdrawn → s.closes w = true
  opened : ∀ q ∈ rest, (s.session q.port).state = .opened
  queued : ∀ i f, (tget s.surfaces.slots i).surface = some f →
    f.queuedRefs = ((p.ops ++ rest.flatMap (fun p => p.ops)).map (fun op => op.refsOn i)).sum
  waiting : s.layouts.commits = rest
  stack : s.layouts.applied.stackSound
  withdrew : s.withdrew
  within : ∀ op ∈ ops, op ∈ p.ops
  finds : s.findsAll p.port ops s.layouts.applied
  shows : s.showable (ops.foldl s.played s.layouts.applied)
  plays : s.playsTo rest (ops.foldl s.played s.layouts.applied) s.layouts.projected

theorem Op.onRecord_live (op : Op) (m : Surfaces) (r : WindowRec) (hd : ∀ h, op ≠ .destroy h) (hr : r.state ≠ .withdrawn) :
    (op.onRecord m r).state ≠ .withdrawn := by
  have hi : r.inserted.state ≠ .withdrawn := by
    unfold WindowRec.inserted; split
    · intro e; cases e
    · exact hr
  cases op
  case destroy h => exact absurd rfl (hd h)
  case band x code =>
    unfold Op.onRecord
    dsimp only
    split
    · intro e; cases e
    · exact hi
  all_goals exact hi

theorem Layout.withdraw_agrees_forget (l : Layout) (w : WinSlot) : (l.withdraw w).agrees (l.forget w) := by
  refine ⟨rfl, fun v => ?_⟩
  by_cases e : w = v
  · refine Or.inr ⟨?_, ?_⟩
    · rintro ⟨r, hr, hs⟩
      rw [Layout.withdraw_record, if_pos e] at hr
      cases hx : l.record v with
      | none => rw [hx] at hr; cases hr
      | some q => rw [hx] at hr; injection hr with hr; rw [← hr] at hs; exact hs rfl
    · rintro ⟨r, hr, _⟩
      rw [Layout.forget_record, if_pos e] at hr; cases hr
  · left; rw [Layout.withdraw_record, Layout.forget_record, if_neg e, if_neg e]

/-- A layout agrees with itself less a window that is not live in it. -/
theorem Layout.agrees_forget {l : Layout} (h : l.stackSound) (w : WinSlot) (hw : ¬ l.live w) : l.agrees (l.forget w) := by
  refine ⟨Layout.ext_lists (fun k => ?_), fun v => ?_⟩
  · rw [Layout.forget_list]
    symm
    refine List.filter_eq_self.mpr (fun v hv => ?_)
    obtain ⟨r, hr, h1, _⟩ := ((h k).2 v).mp hv
    have : v ≠ w := by rintro rfl; exact hw ⟨r, hr, by rw [h1]; decide⟩
    simp [this]
  · by_cases e : w = v
    · subst e
      refine Or.inr ⟨hw, ?_⟩
      rintro ⟨r, hr, _⟩
      rw [Layout.forget_record, if_pos rfl] at hr; cases hr
    · left; rw [Layout.forget_record, if_neg e]

theorem State.applyChange_effect (s : State) (op : Op) (w : WinSlot) :
    (s.applyChange op w).layouts.applied = op.carryOut s.surfaces w s.layouts.applied ∧
      (s.applyChange op w).layouts.projected = s.layouts.projected ∧ (s.applyChange op w).layouts.owners = s.layouts.owners ∧
      (s.applyChange op w).layouts.gens = s.layouts.gens ∧ (s.applyChange op w).layouts.commits = s.layouts.commits ∧
      (s.applyChange op w).scan = s.scan ∧ (s.applyChange op w).sessions = s.sessions ∧
      s.surfaces.looksLike (s.applyChange op w).surfaces := by
  unfold State.applyChange
  refine ⟨?_, ?_, ?_, ?_, ?_, rfl, rfl, ?_⟩
  · simp only [State.withLayouts_layouts]; split <;> rfl
  · simp only [State.withLayouts_layouts]; split <;> rfl
  · simp only [State.withLayouts_layouts]; split <;> rfl
  · simp only [State.withLayouts_layouts]; split <;> rfl
  · simp only [State.withLayouts_layouts]; split <;> rfl
  · simp only [State.withLayouts_surfaces, State.withSurfaces_surfaces, Surfaces.moveShown_changed]
    exact Surfaces.looksLike_changed _ _ (fun _ _ => rfl)

theorem Surfaces.looksLike_queued {m k : Surfaces} (h : m.looksLike k) (i : SurfSlot) (f : Surface) (hf : (tget k.slots i).surface = some f) :
    ∃ g, (tget m.slots i).surface = some g ∧ g.queuedRefs = f.queuedRefs := by
  have e := (h i).2
  rw [hf] at e
  cases hg : (tget m.slots i).surface with
  | none => rw [hg] at e; cases e
  | some g =>
    rw [hg] at e
    simp only [Option.map_some, Option.some.injEq, Prod.mk.injEq] at e
    exact ⟨g, rfl, e.2.2.2.2⟩

/-- The application goes on with its next operation. -/
theorem State.Applying.step {s : State} {p : Pending} {op : Op} {ops : List Op} {rest : List Pending} (a : s.Applying p (op :: ops) rest) :
    (s.applyOp op).Applying p ops rest := by
  obtain ⟨hf, hfs⟩ := a.finds
  obtain ⟨w, hn, hl, hpl⟩ := State.finds_live hf
  have hs := a.shows
  have hp := a.plays
  rw [List.foldl_cons, hpl] at hs hp
  rw [hpl] at hfs
  obtain ⟨r, hr, hrs⟩ := hl
  have hlive : s.layouts.applied.live w := ⟨r, hr, hrs⟩
  have hwithin : ∀ o ∈ ops, o ∈ p.ops := fun o ho => a.within o (List.mem_cons_of_mem _ ho)
  have dead : ∀ v, s.closes v = true → w ≠ v := by rintro v hv rfl; exact a.withdrew w hv hlive
  by_cases hd : ∃ h, op = .destroy h
  · obtain ⟨h, rfl⟩ := hd
    rw [State.applyOp_destroy s h w _ hn]
    have how := (State.named_owner hn).2
    obtain ⟨el, et, en, es⟩ := State.freeWindow_effect s w p.port how
    have us : s.surfaces.looksLike (s.freeWindow w).surfaces := by rw [es]; exact Surfaces.looksLike_changed _ _ (fun _ _ => rfl)
    generalize s.freeWindow w = u at *
    have uo : ∀ v, tget u.layouts.owners v = if w = v then none else tget s.layouts.owners v := fun v => by
      rw [el]; show tget (tput _ _ _) v = _; rw [tget_tput]
    have ug : ∀ v, w ≠ v → tget u.layouts.gens v = tget s.layouts.gens v := fun v hv => by
      rw [el]; show tget (tmod _ _ _) v = _; unfold tmod; rw [tget_tput_ne _ _ _ _ hv]
    have ua : u.layouts.applied = s.layouts.applied.forget w := by rw [el]; rfl
    have up : u.layouts.projected = s.layouts.projected.forget w := by rw [el]; rfl
    have uc : u.layouts.commits = s.layouts.commits := by rw [el]; rfl
    have hcl : ∀ v, w ≠ v → u.closes v = s.closes v := by
      intro v hv; unfold State.closes State.session; rw [uo, if_neg hv, en]
    have hcw : u.closes w = false := by unfold State.closes; rw [uo, if_pos rfl]; rfl
    change s.findsAll p.port ops (s.layouts.applied.withdraw w) at hfs
    change s.showable (ops.foldl s.played (s.layouts.applied.withdraw w)) at hs
    change s.playsTo rest (ops.foldl s.played (s.layouts.applied.withdraw w)) s.layouts.projected at hp
    have hD : ∀ v, v = w → ¬ (s.layouts.applied.withdraw w).live v := by
      rintro v rfl ⟨q, hq, hqs⟩
      rw [Layout.withdraw_record, if_pos rfl, hr] at hq
      injection hq with hq; rw [← hq] at hqs; exact hqs rfl
    have carry : s.Carries u (fun v => v = w) (p :: rest) := by
      refine ⟨by rw [et], fun x v m hx hv => ?_, fun _ _ _ surface _ _ _ i f hf _ => Surfaces.looksLike_describes us surface i f hf⟩
      have ho := State.named_owner hx
      have hv : w ≠ v := fun e => hv e.symm
      unfold LayoutController.named at hx ⊢
      rw [ho.1] at hx ⊢
      dsimp only at hx ⊢
      rw [uo, if_neg hv, ug v hv]; exact hx
    have hlast := State.playsTo_showable hp hs
    obtain ⟨f1, f2, f3⟩ := carry.findsAll (List.mem_cons_self ..) ops hwithin _ u.layouts.applied
      (by rw [ua]; exact Layout.withdraw_agrees_forget _ _) hD hfs
    have hdead := (State.Carries.playsTo (s := s) (t := s) (D := fun v => v = w)
      ⟨rfl, fun _ _ _ h _ => h, fun _ _ _ _ _ _ _ _ f hf _ => ⟨f, hf, rfl, rfl, rfl, rfl⟩⟩
      (Layout.agrees_refl _) (Layout.agrees_refl _) f3 hp).2
    refine ⟨fun v => ?_, fun e v => ?_, fun v q hq hqs => ?_, fun q hq => ?_, fun i f hf => ?_, ?_, ?_, fun v hv x => ?_, hwithin, f1, ?_, ?_⟩
    · rw [ua, up, uo, Layout.forget_record, Layout.forget_record]
      by_cases e : w = v
      · rw [if_pos e, if_pos e, if_pos e]; exact ⟨rfl, rfl⟩
      · rw [if_neg e, if_neg e, if_neg e]; exact a.records v
    · rw [et] at e; rw [uo]; split
      · rfl
      · exact a.unconfigured e v
    · rw [ua, Layout.forget_record] at hq
      by_cases e : w = v
      · rw [if_pos e] at hq; cases hq
      · rw [if_neg e] at hq; rw [hcl v e]; exact a.withdrawn v q hq hqs
    · unfold State.session; rw [en]; exact a.opened q hq
    · obtain ⟨g, hg, hgq⟩ := Surfaces.looksLike_queued us i f hf
      rw [← hgq]; exact a.queued i g hg
    · rw [uc]; exact a.waiting
    · rw [ua]; exact Layout.forget_stack _ _ a.stack
    · rw [ua] at x
      by_cases e : w = v
      · subst e; rw [hcw] at hv; cases hv
      · rw [hcl v e] at hv
        exact a.withdrew v hv ((Layout.live_congr (by rw [Layout.forget_record, if_neg e])).mp x)
    · exact State.showable_congr (by rw [et]) (State.agrees_showable f2 hs)
    · rw [up]
      exact (carry.tail.playsTo f2 (Layout.agrees_forget hlast.1 w (hdead w rfl)) f3 hp).1
  · have hd : ∀ h, op ≠ .destroy h := fun h e => hd ⟨h, e⟩
    rw [State.applyOp_change s op w _ hn hd]
    obtain ⟨ua, up, uo, ug, uc, et, en, us⟩ := State.applyChange_effect s op w
    generalize s.applyChange op w = u at *
    have hcl : u.closes = s.closes := State.closes_congr uo (fun m => by unfold State.session; rw [en])
    have carry : s.Carries u (fun _ => False) (p :: rest) :=
      State.Carries.of_describes (by rw [et]) (fun x v m hx => by rw [← hx]; exact State.named_congr uo ug x) (Surfaces.looksLike_describes us) _
    obtain ⟨f1, f2, _⟩ := carry.findsAll (List.mem_cons_self ..) ops hwithin _ u.layouts.applied
      (by rw [ua]; exact Layout.agrees_refl _) (fun _ x => x.elim) hfs
    refine ⟨fun v => ?_, fun e v => ?_, fun v q hq hqs => ?_, fun q hq => ?_, fun i f hf => ?_, ?_, ?_, fun v hv x => ?_, hwithin, f1, ?_, ?_⟩
    · rw [ua, up, uo, Op.carryOut_record]
      refine ⟨?_, (a.records v).2⟩
      rw [← (a.records v).1]
      split
      · simp
      · rfl
    · rw [et] at e; rw [uo]; exact a.unconfigured e v
    · rw [hcl]
      rw [ua, Op.carryOut_record] at hq
      by_cases e : w = v
      · subst e
        rw [if_pos rfl, hr] at hq; injection hq with hq
        rw [← hq] at hqs
        exact absurd hqs (Op.onRecord_live op _ r hd hrs)
      · rw [if_neg e] at hq; exact a.withdrawn v q hq hqs
    · unfold State.session; rw [en]; exact a.opened q hq
    · obtain ⟨g, hg, hgq⟩ := Surfaces.looksLike_queued us i f hf
      rw [← hgq]; exact a.queued i g hg
    · rw [uc]; exact a.waiting
    · rw [ua]; exact Op.carryOut_stack op _ w _ a.stack r hr hrs
    · rw [hcl] at hv
      rw [ua] at x
      exact a.withdrew v hv ((Layout.live_congr (Op.carryOut_other op _ _ (dead v hv))).mp x)
    · exact State.showable_congr (by rw [et]) (State.agrees_showable f2 hs)
    · rw [up]; exact (carry.tail.playsTo f2 (Layout.agrees_refl _) (fun _ x => x.elim) hp).1

theorem State.Applying.all {p : Pending} {rest : List Pending} : ∀ (ops : List Op) {s : State}, s.Applying p ops rest →
    (ops.foldl State.applyOp s).Applying p [] rest := by
  intro ops
  induction ops with
  | nil => intro s a; exact a
  | cons op ops ih => intro s a; rw [List.foldl_cons]; exact ih a.step

/-- The application of a ready commit keeps the presentation sound (R127, R128). -/
theorem State.applyCommit_presentation (s : State) (p : Pending) (rest : List Pending) (h : s.presentationSound ∧ s.withdrew)
    (hc : s.layouts.commits = p :: rest) :
    ((s.withLayouts { s.layouts with commits := rest }).applyCommit p).presentationSound ∧
      ((s.withLayouts { s.layouts with commits := rest }).applyCommit p).withdrew := by
  obtain ⟨⟨hA, hB, hC, hD, hE, hF, hG⟩, hw⟩ := h
  have hag : (s.layouts.applied.without s.closes).agrees s.layouts.applied := Layout.agrees_symm (Layout.agrees_without hF.1 hw)
  have hpl := State.playsTo_agrees hag hG
  rw [hc] at hpl
  obtain ⟨g1, g2, g3⟩ := hpl
  generalize hs0 : s.withLayouts { s.layouts with commits := rest } = s0
  have a0 : s0.layouts.applied = s.layouts.applied := by rw [← hs0]; rfl
  have a1 : s0.layouts.projected = s.layouts.projected := by rw [← hs0]; rfl
  have a2 : s0.layouts.owners = s.layouts.owners := by rw [← hs0]; rfl
  have a3 : s0.layouts.gens = s.layouts.gens := by rw [← hs0]; rfl
  have a4 : s0.layouts.commits = rest := by rw [← hs0]; rfl
  have a5 : s0.surfaces = s.surfaces := by rw [← hs0]; rfl
  have a6 : s0.scan = s.scan := by rw [← hs0]; rfl
  have a7 : s0.sessions = s.sessions := by rw [← hs0]; rfl
  have hcl : s0.closes = s.closes := State.closes_congr a2 (fun m => by unfold State.session; rw [a7])
  have carry : s.Carries s0 (fun _ => False) (p :: rest) :=
    State.Carries.of_describes (by rw [a6]) (fun x v m hx => by rw [← hx]; exact State.named_congr a2 a3 x)
      (by rw [a5]; exact Surfaces.looksLike_describes (Surfaces.looksLike_refl _)) _
  obtain ⟨f1, f2, _⟩ := carry.findsAll (List.mem_cons_self ..) p.ops (fun _ h => h) _ s.layouts.applied (Layout.agrees_refl _)
    (fun _ x => x.elim) g1
  have start : s0.Applying p p.ops rest := by
    refine ⟨by rw [a0, a1, a2]; exact hA, by rw [a6, a2]; exact hB, by rw [a0, hcl]; exact hC, fun q hq => ?_, ?_, a4, by rw [a0]; exact hF.1,
      ?_, fun _ h => h, by rw [a0]; exact f1, ?_, ?_⟩
    · unfold State.session; rw [a7]; exact hD q (by rw [hc]; exact List.mem_cons_of_mem _ hq)
    · rw [a5]; rw [hc] at hE; exact hE
    · unfold State.withdrew; rw [hcl, a0]; exact hw
    · rw [a0]; exact State.showable_congr (by rw [a6]) (State.agrees_showable f2 g2)
    · rw [a0, a1]; exact (carry.tail.playsTo f2 (Layout.agrees_refl _) (fun _ x => x.elim) g3).1
  have a := State.Applying.all p.ops start
  unfold State.applyCommit
  generalize p.ops.foldl State.applyOp s0 = u at a
  simp only [LayoutController.restart_fresh, Surfaces.mapQueued_lower]
  generalize hv : State.withLayouts (u.withSurfaces _) _ = v
  have b0 : v.layouts.applied = u.layouts.applied := by rw [← hv]; rfl
  have b1 : v.layouts.projected = u.layouts.projected := by rw [← hv]; rfl
  have b2 : v.layouts.owners = u.layouts.owners := by rw [← hv]; rfl
  have b3 : v.layouts.gens = u.layouts.gens := by rw [← hv]; rfl
  have b4 : v.layouts.commits = rest := by rw [← hv]; exact a.waiting
  have b5 : v.surfaces = u.surfaces.changed (fun i f => { f with queuedRefs := f.queuedRefs - (p.ops.map (fun op => op.refsOn i)).sum }) := by
    rw [← hv]; rfl
  have b6 : v.scan = u.scan := by rw [← hv]; rfl
  have b7 : v.sessions = u.sessions := by rw [← hv]; rfl
  have hcv : v.closes = u.closes := State.closes_congr b2 (fun m => by unfold State.session; rw [b7])
  have hws : u.showable u.layouts.applied := a.shows
  have hag2 : u.layouts.applied.agrees (u.layouts.applied.without u.closes) := Layout.agrees_without a.stack a.withdrew
  have sound : v.presentationSound := by
    refine ⟨by rw [b0, b1, b2]; exact a.records, by rw [b6, b2]; exact a.unconfigured, by rw [b0, hcv]; exact a.withdrawn, fun q hq => ?_,
      fun i f hf => ?_, ?_, ?_⟩
    · rw [b4] at hq; unfold State.session; rw [b7]; exact a.opened q hq
    · rw [b5, Surfaces.changed_slot] at hf
      cases hg : (tget u.surfaces.slots i).surface with
      | none => rw [hg] at hf; cases hf
      | some g =>
        rw [hg] at hf
        simp only [Option.map_some, Option.some.injEq] at hf
        subst hf
        show g.queuedRefs - _ = _
        rw [a.queued i g hg, b4, List.map_append, List.sum_append]
        omega
    · rw [b0]; exact State.showable_congr (by rw [b6]) hws
    · rw [b0, b1, b4, hcv]
      exact ((State.Carries.of_describes (by rw [b6]) (fun x w m hx => by rw [← hx]; exact State.named_congr b2 b3 x)
        (by rw [b5]; exact Surfaces.describes_changed _ _ (fun _ _ => ⟨rfl, rfl, rfl, rfl⟩)) _).playsTo hag2 (Layout.agrees_refl _)
        (fun _ x => x.elim) a.plays).1
  have e := (State.reload_sameShow v).trans (State.post_sameShow v.reload p.port (presentedPayload p.tag v.scan.frame))
  refine ⟨State.presentationSound_congr e sound, ?_⟩
  intro w hw' x
  change v.closes w = true at hw'
  change v.layouts.applied.live w at x
  rw [hcv] at hw'; rw [b0] at x
  exact a.withdrew w hw' x

theorem State.applyCommits_presentation (s : State) (h : s.presentationSound ∧ s.withdrew) : s.applyCommits.presentationSound :=
  (State.applyCommits_keeps (fun s => s.presentationSound ∧ s.withdrew) (fun s p rest h hc _ => State.applyCommit_presentation s p rest h hc) s h).1

theorem State.ageWindows_sameShow (s : State) : s.SameShow s.ageWindows := by
  refine State.ageWindows_keeps (fun t => s.SameShow t) (fun t w h => h.trans ?_) (fun t h => h.trans ?_) s (State.SameShow.refl s)
  · unfold State.ageWindow
    dsimp only
    repeat' split
    · exact ⟨rfl, rfl, rfl, rfl, rfl, fun _ => rfl, rfl, Surfaces.looksLike_refl _⟩
    · exact ⟨rfl, rfl, rfl, rfl, rfl, fun _ => rfl, rfl, Surfaces.looksLike_refl _⟩
    · exact ⟨rfl, rfl, rfl, rfl, rfl, fun _ => rfl, rfl, Surfaces.looksLike_refl _⟩
    · exact State.SameShow.refl _
  · exact ⟨rfl, rfl, rfl, rfl, rfl, fun _ => rfl, rfl, Surfaces.looksLike_refl _⟩

end Sys2Proof.Machine
end

