-- ==== Sys2Proof/Laws/PresentedHeads.lean ====
section
/-! SUPPORT. The soundness of the presentation through the requests of a port's head, with what lets a head be served at all. -/

namespace Sys2Proof.Machine

/-- The presentation is sound, and the head of every CLOSING port waits for the teardown (R25). -/
def State.presents (s : State) : Prop :=
  s.presentationSound ∧ ∀ n, (s.session n).state = .closing → (s.session n).headWait = .teardown

theorem State.presents_same {s t : State} (e : s.SameShow t) (hs : t.sessions = s.sessions) (h : s.presents) : t.presents :=
  ⟨State.presentationSound_congr e h.1, fun n hn => by unfold State.session at *; rw [hs] at *; exact h.2 n hn⟩

theorem State.presents_of {s t : State} (ht : t.presentationSound) (hs : t.sessions = s.sessions) (h : s.presents) : t.presents :=
  ⟨ht, fun n hn => by unfold State.session at *; rw [hs] at *; exact h.2 n hn⟩

theorem State.withLink_sameShow (s : State) (n : Port) (l : Link) : s.SameShow (s.withLink n l) :=
  ⟨rfl, rfl, rfl, rfl, rfl, fun _ => rfl, rfl, Surfaces.looksLike_refl _⟩

theorem State.setHeadWait_presents (s : State) (n : Port) (w : HeadWait) (h : s.presents) (hn : (s.session n).state ≠ .closing) :
    (s.setHeadWait n w).presents := by
  have hs : ∀ m, ((s.setHeadWait n w).session m).state = (s.session m).state := by
    intro m
    by_cases e : n = m
    · subst e; show (tget (tput s.sessions n _) n).state = _; rw [tget_tput_same]
    · show (tget (tput s.sessions n _) m).state = _; rw [tget_tput_ne _ _ _ _ e]; rfl
  refine ⟨State.presentationSound_congr (s := s) ⟨rfl, rfl, rfl, rfl, rfl, fun m => (hs m).symm, rfl, Surfaces.looksLike_refl _⟩ h.1, fun m hm => ?_⟩
  have e : n ≠ m := by rintro rfl; rw [hs] at hm; exact hn hm
  rw [hs] at hm
  show (tget (tput s.sessions n _) m).headWait = _
  rw [tget_tput_ne _ _ _ _ e]; exact h.2 m hm

theorem State.answer_presents (s : State) (n : Port) (tag : Byte) (p : List Byte) (h : s.presents) (hn : (s.session n).state ≠ .closing) :
    (s.answer n tag p).presents :=
  State.setHeadWait_presents _ _ _ (State.presents_same (s := s) (State.withLink_sameShow _ _ _) rfl h) hn

/-- A session opened on a port that is not CLOSING. -/
theorem State.openSession_presents (s : State) (n : Port) (label : BitVec 32) (h : s.presents) (hn : (s.session n).state ≠ .closing) :
    (s.openSession n label).presents ∧ ((s.openSession n label).session n).state ≠ .closing := by
  have sn : ((s.openSession n label).session n).state = .opened := by show (tget (tput s.sessions n _) n).state = _; rw [tget_tput_same]
  have so : ∀ m, n ≠ m → (s.openSession n label).session m = s.session m := fun m hm => by
    show tget (tput s.sessions n _) m = _; rw [tget_tput_ne _ _ _ _ hm]; rfl
  have hc : (s.openSession n label).closes = s.closes := by
    funext w
    unfold State.closes
    show (tget s.layouts.owners w).any _ = _
    cases tget s.layouts.owners w with
    | none => rfl
    | some m =>
      by_cases e : n = m
      · subst e; simp [sn, hn]
      · simp [so m e]
  obtain ⟨⟨hA, hB, hC, hD, hE, hF, hG⟩, hw⟩ := h
  refine ⟨⟨⟨hA, hB, fun v r hr hs => by rw [hc]; exact hC v r hr hs, fun p hp => ?_, hE, State.showable_congr (s := s) rfl hF, ?_⟩, fun m hm => ?_⟩,
    by rw [sn]; decide⟩
  · by_cases e : n = p.port
    · rw [← e]; exact sn
    · rw [so _ e]; exact hD p hp
  · rw [hc]
    exact ((State.Carries.of_describes (s := s) (t := s.openSession n label) rfl (fun _ _ _ h => h) (Surfaces.looksLike_describes (Surfaces.looksLike_refl _)) _).playsTo
      (Layout.agrees_refl _) (Layout.agrees_refl _) (fun _ x => x.elim) hG).1
  · by_cases e : n = m
    · subst e; rw [sn] at hm; cases hm
    · rw [so m e] at hm ⊢; exact hw m hm

theorem State.choose_sameShow (s : State) : s.SameShow s.choose := State.SameShow.of_eq (by simp) (by simp) (by simp) (by simp)

theorem State.serveDrawing_sameShow (s : State) (n : Port) (k : Kind) (q : DrawRequest) : s.SameShow (s.serveDrawing n k q).1 := by
  unfold State.serveDrawing
  split
  · exact State.SameShow.refl s
  · unfold State.acceptJob
    refine State.SameShow.trans ?_ (State.choose_sameShow _)
    refine State.SameShow.of_surfaces rfl rfl rfl ?_
    show s.surfaces.looksLike (s.surfaces.mapJob _ _)
    rw [Surfaces.mapJob_raise]
    exact Surfaces.looksLike_changed _ _ (fun _ _ => rfl)

theorem State.withToken_sameShow (s : State) (h : Option Port) (w : List Port) : s.SameShow (s.withLayouts (s.layouts.withToken h w)) :=
  ⟨rfl, rfl, rfl, rfl, rfl, fun _ => rfl, rfl, Surfaces.looksLike_refl _⟩

theorem State.passToken_sameShow (s : State) : s.SameShow s.passToken := by
  unfold State.passToken
  split
  · exact (State.withToken_sameShow s _ _).trans (State.post_sameShow _ _ _)
  · exact State.withToken_sameShow s _ _

/-- What the requests of a port's head keep. -/
theorem State.headKept_presents (n : Port) : HeadKept n (fun s => (s.session n).state ≠ .closing) State.presents where
  awake s h hw := fun e => hw (h.2 n e)
  wait s w h ha := State.setHeadWait_presents s n w h ha
  answer s tag p h ha := State.answer_presents s n tag p h ha
  openSession s l h ha _ := State.openSession_presents s n l h ha
  teardownStart s c l h _ _ := by
    refine ⟨State.teardownStart_presentation s n c l h.1, fun m hm => ?_⟩
    obtain ⟨_, _, _, en⟩ := State.teardownStart_effect s n c l
    unfold State.session at *
    rw [en] at hm ⊢
    by_cases e : n = m
    · subst e; rw [tget_tput_same]
    · rw [tget_tput_ne _ _ _ _ e] at hm ⊢; exact h.2 m hm
  teardownFinish s h hn := by
    refine ⟨State.teardownFinish_presentation s n h.1 hn, fun m hm => ?_⟩
    obtain ⟨_, _, _, fo, fn⟩ := State.teardownFinish_effect s n
    by_cases e : n = m
    · subst e; exact absurd hm fn
    · rw [fo m e] at hm ⊢; exact h.2 m hm
  setTiming s p h ha := ⟨State.presents_of (State.serveSetTiming_presentation s p h.1) (by simp) h, by unfold State.session at *; simpa using ha⟩
  createSurface s p h ha :=
    ⟨State.presents_of (State.serveCreateSurface_presentation s n p h.1) (by simp) h, by unfold State.session at *; simpa using ha⟩
  destroySurface s p i f h ha hj := ⟨State.presents_of (s := s) (State.destroySurface_presentation s n p i f h.1 hj) rfl h, ha⟩
  drawing s k q h ha _ := ⟨State.presents_same (State.serveDrawing_sameShow s n k q) (by simp) h, by unfold State.session at *; simpa using ha⟩
  createWindow s p h ha _ :=
    ⟨State.presents_of (State.serveCreateWindow_presentation s n p h.1 ha) (by simp) h, by unfold State.session at *; simpa using ha⟩
  commit s tag p h ha hc := by
    have ho : (s.session n).state = .opened := by
      cases e : (s.session n).state
      · exact absurd e hc
      · rfl
      · exact absurd e ha
    exact ⟨State.presents_of (State.serveCommit_presentation s n tag p h.1 ho) (by simp) h, by unfold State.session at *; simpa using ha⟩
  acquireAlert s h ha := by
    refine ⟨State.presents_same ?_ (by simp) h, by unfold State.session at *; simpa using ha⟩
    unfold State.serveAcquireAlert
    repeat' split
    · exact State.withToken_sameShow s _ _
    · exact State.SameShow.refl s
    · exact State.SameShow.refl s
    · exact State.withToken_sameShow s _ _
  releaseAlert s h ha := by
    have e : (s.serveReleaseAlert n).1.sessions = s.sessions := by simp
    refine ⟨State.presents_same ?_ e h, by unfold State.session at *; rw [e]; exact ha⟩
    unfold State.serveReleaseAlert
    repeat' split
    · exact State.SameShow.refl s
    · exact State.passToken_sameShow s
    · exact State.withToken_sameShow s _ _
    · exact State.SameShow.refl s

end Sys2Proof.Machine
end

