-- ==== Sys2Proof/Laws/Writes.lean ====
section
/-! SUPPORT. The job in flight writing on: the order of its writes, what stands of them in memory after some more, and that drawing on is
State.drawsOn (R87, R89). -/

namespace Sys2Proof.Machine

/-- The model's order of writes is that of R87 and R89. -/
theorem Job.order_eq (j : Job) : j.order = j.writeOrder := by
  unfold Job.order Job.writeOrder rectPositions rectsMeet
  simp only [List.range_eq_range']
  cases j.work with
  | copy source sx sy =>
    simp only [Bool.and_eq_true, decide_eq_true_eq, and_assoc]
  | write _ => rfl
  | fill _ => rfl
  | checksum => rfl

/-- The model's pixel for a position is the job's. -/
theorem InFlight.places_pixelAt {f : InFlight} {bytes : Nat} {p : Nat × Nat} {pixel : List Byte} (h : f.places bytes p pixel) :
    f.pixelAt bytes p = pixel := by
  unfold InFlight.pixelAt
  rcases h.2 with ⟨given, hw, rfl⟩ | hw | ⟨source, sx, sy, hw, ht⟩
  · rw [hw]
  · rw [hw]
  · rw [hw]
    show f.taken.getD _ [] = _
    rw [List.getD_eq_getElem?_getD, ht]
    rfl

/-- A pixel reads as before where only other positions are written. -/
theorem InFlight.readPixel_writePositions_other (f : InFlight) (g : Surface) (hg : g.laidOut) (p : Nat × Nat) (ps : List (Nat × Nat))
    (hp : f.job.x + p.1 < g.width ∧ f.job.y + p.2 < g.height)
    (hin : ∀ q ∈ ps, f.job.x + q.1 < g.width ∧ f.job.y + q.2 < g.height) (hn : p ∉ ps) (m : Memory) (hm : Memory.wf m = true) :
    readPixel (f.writePositions g m ps) g (f.job.x + p.1) (f.job.y + p.2) =
      readPixel m g (f.job.x + p.1) (f.job.y + p.2) := by
  obtain ⟨pg, _, ha, _, _⟩ := g.address_pixel hg _ _ hp.1 hp.2
  unfold readPixel
  rw [ha]
  refine List.map_congr_left (fun x hx => InFlight.read_writePositions f g ps x m hm (fun q hq b hb => ?_))
  have hq' := hin q hq
  have hne : (f.job.x + p.1, f.job.y + p.2) ≠ (f.job.x + q.1, f.job.y + q.2) := by
    intro e
    injection e with e1 e2
    exact hn ((Prod.ext (by omega) (by omega) : p = q) ▸ hq)
  have := g.address_apart hg _ _ _ _ _ _ hp.1 hp.2 hq'.1 hq'.2 ha hb hne
  simp only [List.mem_range'_1] at hx
  omega

/-- Every position of the order lies in the rectangle. -/
theorem Job.mem_order {j : Job} {p : Nat × Nat} (h : p ∈ j.order) : p.1 < j.w ∧ p.2 < j.h := by
  rw [Job.order_eq] at h
  by_cases hc : j.work = .checksum
  · unfold Job.writeOrder at h
    rw [hc] at h
    cases h
  · exact ((j.writeOrder_spec hc).2 p.1 p.2).mp h

/-- No position stands twice in the order. -/
theorem Job.order_nodup (j : Job) : j.order.Nodup := by
  rw [Job.order_eq]
  by_cases hc : j.work = .checksum
  · unfold Job.writeOrder
    rw [hc]
    exact List.nodup_nil
  · exact (j.writeOrder_spec hc).1

/-- The first positions hold their pixels after the next `n` are written, if those before them did; the others read as before. -/
theorem InFlight.stands_write (f : InFlight) (g : Surface) (hg : g.laidOut) (hx : f.job.x + f.job.w ≤ g.width)
    (hy : f.job.y + f.job.h ≤ g.height) (m : Memory) (hm : Memory.wf m = true) (n : Nat) :
    (f.stands m g f.written →
      f.stands (f.writePositions g m ((f.job.order.drop f.written).take n)) g (f.written + n)) ∧
    ∀ p ∈ f.job.order.drop (f.written + n),
      readPixel (f.writePositions g m ((f.job.order.drop f.written).take n)) g (f.job.x + p.1) (f.job.y + p.2) =
        readPixel m g (f.job.x + p.1) (f.job.y + p.2) := by
  have within : ∀ p ∈ f.job.order, f.job.x + p.1 < g.width ∧ f.job.y + p.2 < g.height := by
    intro p hp
    have := Job.mem_order hp
    omega
  have inside : ∀ q ∈ (f.job.order.drop f.written).take n, f.job.x + q.1 < g.width ∧ f.job.y + q.2 < g.height :=
    fun q hq => within q (List.mem_of_mem_drop (List.mem_of_mem_take hq))
  have nodup := f.job.order_nodup
  constructor
  · intro h p hp pixel hpix
    rw [List.take_add] at hp
    by_cases e : p ∈ (f.job.order.drop f.written).take n
    · have hl : (f.pixelAt g.format.bytes p).length = g.format.bytes := by rw [InFlight.places_pixelAt hpix]; exact hpix.1
      rw [InFlight.readPixel_writePositions f g hg p _ inside hl m hm
        ((nodup.sublist (List.drop_sublist _ _)).sublist (List.take_sublist _ _)) e]
      exact InFlight.places_pixelAt hpix
    · have old : p ∈ f.job.order.take f.written := (List.mem_append.mp hp).resolve_right e
      rw [InFlight.readPixel_writePositions_other f g hg p _ (within p (List.mem_of_mem_take old)) inside e m hm]
      exact h p old pixel hpix
  · intro p hp
    refine InFlight.readPixel_writePositions_other f g hg p _ (within p (List.mem_of_mem_drop hp)) inside (fun e => ?_) m hm
    have split : (f.job.order.drop f.written).Nodup := nodup.sublist (List.drop_sublist _ _)
    rw [← List.take_append_drop n (f.job.order.drop f.written), List.nodup_append] at split
    rw [← List.drop_drop] at hp
    exact split.2.2 p e p hp rfl

/-- The writes of the job in flight leave every byte outside its rectangle's pixels. -/
theorem State.writeNext_read (s : State) (f : InFlight) (k : Nat) (h : s.drawing.inFlight = some f) (hm : Memory.wf s.mem = true)
    (x : Nat) (hx : s.outside f.job x) : Memory.read (s.writeNext k).mem x = Memory.read s.mem x := by
  unfold State.writeNext
  rw [h]
  dsimp only
  cases hn : s.surfaces.named f.job.target with
  | none => rfl
  | some p =>
    obtain ⟨i, g⟩ := p
    refine InFlight.read_writePositions f g _ x s.mem hm (fun p hp a ha => ?_)
    rw [← Job.order_eq] at hp
    have hr := Job.mem_order (List.mem_of_mem_drop (List.mem_of_mem_take hp))
    exact hx i g p.1 p.2 a hn hr.1 hr.2 ha

/-- The memory after the next `k` pixels of the job in flight are written. -/
theorem State.writeNext_mem (s : State) (f : InFlight) (k : Nat) (i : SurfSlot) (g : Surface) (h : s.drawing.inFlight = some f)
    (hn : s.surfaces.named f.job.target = some (i, g)) :
    (s.writeNext k).mem = f.writePositions g s.mem ((f.job.order.drop f.written).take k) := by
  unfold State.writeNext
  rw [h]
  dsimp only
  rw [hn, Job.order_eq]
  rfl

/-- The job in flight drawing on. -/
theorem State.drawOn_drawsOn (s : State) : s.drawsOn s.drawOn := by
  refine ⟨fun h => ?_, fun f h => ?_⟩
  · unfold State.drawOn
    rw [h]
    exact ⟨rfl, rfl⟩
  · have e : s.drawOn = (s.writeNext (min (Config.drawnPixels s.free) (f.job.writeOrder.length - 1 - f.written))).tick := by
      unfold State.drawOn
      rw [h]
    rw [e]
    generalize min (Config.drawnPixels s.free) (f.job.writeOrder.length - 1 - f.written) = n
    have memory : (s.writeNext n).tick.mem = (s.writeNext n).mem := rfl
    have engine : (s.writeNext n).tick.drawing = (s.writeNext n).drawing := rfl
    rw [memory, engine]
    cases hn : s.surfaces.named f.job.target with
    | none =>
      have stays : s.writeNext n = s := by
        unfold State.writeNext
        rw [h]
        dsimp only
        rw [hn]
      rw [stays]
      exact ⟨f.written, Nat.le_refl _, by show s.drawing = _; rw [← h], fun _ => rfl,
        fun _ => ⟨fun _ _ => rfl, fun _ _ _ _ _ _ => ⟨id, fun _ _ => rfl⟩⟩⟩
    | some q =>
      obtain ⟨i, g⟩ := q
      refine ⟨f.written + n, Nat.le_add_right _ _, ?_, fun hc => ?_, fun hm => ⟨fun x hx => State.writeNext_read s f n h hm x hx,
        fun i' g' hn' hg hx hy => ?_⟩⟩
      · unfold State.writeNext
        rw [h]
        dsimp only
        rw [hn]
        rfl
      · rw [State.writeNext_mem s f n i g h hn]
        have nothing : f.job.order = [] := by
          unfold Job.order
          rw [hc]
        rw [nothing, List.drop_nil, List.take_nil]
        rfl
      · injection hn' with hn'
        injection hn' with _ hg'
        subst hg'
        rw [State.writeNext_mem s f n i g h hn]
        exact f.stands_write g hg hx hy s.mem hm n

/-- Drawing on is said of frame memory and the drawing engine alone. -/
theorem State.drawsOn_congr {s t u : State} (h : s.drawsOn t) (hm : u.mem = t.mem) (hd : u.drawing = t.drawing) : s.drawsOn u := by
  unfold State.drawsOn at h ⊢
  rw [hm, hd]
  exact h

end Sys2Proof.Machine
end

