-- ==== Sys2Proof/Laws/Starts.lean ====
section
/-! SUPPORT. A teardown's start is State.startsTeardown: the abort of the port's jobs, said by whose the job in flight is, and the start as a
whole (R32, R93). -/

namespace Sys2Proof.Machine

/-! ### The abort (R93) -/

/-- A port whose job is not in flight loses its queue alone. -/
theorem State.abortJobs_queued (s : State) (n : Port) (h : ∀ f, s.drawing.inFlight = some f → f.job.port ≠ n) :
    (s.abortJobs n).mem = s.mem ∧ (s.abortJobs n).drawing = { s.drawing with queues := tput s.drawing.queues n [] } := by
  have idle : s.drawing.inFlightOf n = none := by
    unfold Drawing.inFlightOf
    split
    · rfl
    · rename_i f hf
      rw [if_neg (h f hf)]
  unfold State.abortJobs
  rw [idle]
  exact ⟨rfl, rfl⟩

/-- A port whose job is in flight has it stopped after it has drawn on for a while, and the engine, IDLE, makes its next choice. -/
theorem State.abortJobs_inFlight (s : State) (n : Port) (f : InFlight) (h : s.drawing.inFlight = some f) (hn : f.job.port = n) :
    ∃ u : State, s.abortJobs n = u.choose ∧ u.mem = s.drawOn.mem ∧ u.surfaces = (s.abortJobs n).surfaces ∧
      u.drawing = { s.drawing with queues := tput s.drawing.queues n [], inFlight := none } := by
  have own : s.drawing.inFlightOf n = some f.job := by
    unfold Drawing.inFlightOf
    rw [h]
    dsimp only
    rw [if_pos hn]
  obtain ⟨k, _, engine, _⟩ := (State.drawOn_drawsOn s).2 f h
  have e : s.abortJobs n = ((s.drawOn.withSurfaces (s.drawOn.surfaces.dropJobs (s.drawOn.drawing.outstanding n))).withDrawing
      { s.drawOn.drawing with queues := tput s.drawOn.drawing.queues n [], inFlight := none }).choose := by
    unfold State.abortJobs
    rw [own]
  refine ⟨_, e, rfl, by rw [e, State.choose_surfaces], ?_⟩
  simp only [State.withDrawing_drawing, engine]

/-- A choice leaves each port's jobs queued or in flight, its queues being their own ports'. -/
theorem State.choose_keeps_outstanding (s : State) (m : Port) (h : s.drawing.inFlight = none)
    (hq : ∀ k, ∀ j ∈ tget s.drawing.queues k, j.port = k) : s.choose.drawing.outstanding m = s.drawing.outstanding m := by
  unfold State.choose
  rw [h]
  dsimp only
  cases s.drawing.choice with
  | none => rfl
  | some p =>
    dsimp only
    cases hj : tget s.drawing.queues p with
    | nil => rfl
    | cons j rest =>
      have port : j.port = p := hq p j (by rw [hj]; exact List.mem_cons_self ..)
      unfold Drawing.outstanding Drawing.inFlightOf
      rw [h]
      simp only [State.withDrawing_drawing]
      by_cases e : p = m
      · subst e
        rw [if_pos port, tget_tput_same, hj]
        rfl
      · rw [if_neg (by rw [port]; exact e), tget_tput_ne _ _ _ _ e]

/-- The abort leaves the other ports' jobs. -/
theorem State.abortJobs_others (s : State) (n m : Port) (hm : m ≠ n) (hd : s.drawing.sound) :
    (s.abortJobs n).drawing.outstanding m = s.drawing.outstanding m := by
  by_cases h : ∃ f, s.drawing.inFlight = some f ∧ f.job.port = n
  · obtain ⟨f, hf, hn⟩ := h
    obtain ⟨u, e, _, _, engine⟩ := State.abortJobs_inFlight s n f hf hn
    have queues : ∀ k, ∀ j ∈ tget u.drawing.queues k, j.port = k := by
      intro k j hj
      rw [engine] at hj
      by_cases ek : n = k
      · subst ek
        simp at hj
      · simp only [tget_tput_ne _ _ _ _ ek] at hj
        exact (hd k).2 j hj
    rw [e, State.choose_keeps_outstanding u m (by rw [engine]) queues, engine]
    unfold Drawing.outstanding Drawing.inFlightOf
    rw [hf]
    dsimp only
    rw [if_neg (by rw [hn]; exact hm.symm), tget_tput_ne _ _ _ _ hm.symm]
  · rw [(State.abortJobs_queued s n (fun f hf hn => h ⟨f, hf, hn⟩)).2]
    unfold Drawing.outstanding Drawing.inFlightOf
    dsimp only
    rw [tget_tput_ne _ _ _ _ hm.symm]

/-! ### The start (R32) -/

/-- A teardown start leaves every other port's link, but that of the port the token passes to. -/
theorem State.teardownStart_link (s : State) (n m : Port) (cause : ClosingCause) (label : Option (BitVec 32)) (hm : m ≠ n)
    (h : s.layouts.holder = some n → s.layouts.waiting.head? ≠ some m) :
    (s.teardownStart n cause label).link m = s.link m := by
  unfold State.teardownStart State.teardownLayouts
  dsimp only
  generalize hu : ((State.withLayouts _ _).withLayouts _) = u
  have links : u.links = tput s.links n (s.link n).teardownStart := by rw [← hu]; simp
  have claim : u.layouts.holder = s.layouts.holder ∧ u.layouts.waiting = s.layouts.waiting := by
    rw [← hu]
    unfold State.dropCommits
    simp
  have stays : tget u.links m = s.link m := by
    rw [links, tget_tput_ne _ _ _ _ hm.symm]
    rfl
  unfold State.dropToken State.passToken
  rw [claim.1, claim.2]
  split
  · rename_i hold
    have := h hold
    cases hw : s.layouts.waiting with
    | nil => exact stays
    | cons q rest =>
      rw [hw] at this
      have hq : q ≠ m := fun e => this (by rw [e]; rfl)
      show tget (tput u.links q _) m = _
      rw [tget_tput_ne _ _ _ _ hq, stays]
  · exact stays

/-- A teardown start on a port whose only request is the one that starts it is what State.startsTeardown says. -/
theorem State.teardownStart_starts (s : State) (n : Port) (r : Request) (cause : ClosingCause) (label : Option (BitVec 32))
    (hd : s.drawing.sound) (hk : s.layouts.tokenSound) :
    s.startsTeardown n cause label r ((s.heard n r).teardownStart n cause label) := by
  obtain ⟨layouts, surfaces, _, _⟩ := State.teardownStart_effect (s.heard n r) n cause label
  have others := State.teardownStart_link (s.heard n r) n
  obtain ⟨t, e, session, link, outstanding, issued, completed, _, _, _, kept, freed, passed, _, _, scan, _, sessions⟩ :=
    State.teardownStart_spec (s.heard n r) n cause label hd hk
  have engine : t.drawing = (((s.heard n r).mapSession n (fun c =>
      { c with state := .closing, cause := cause, pendingLabel := label, headWait := .teardown })).mapLink n
      Link.teardownStart |>.abortJobs n).drawing ∧ t.mem = (((s.heard n r).mapSession n (fun c =>
      { c with state := .closing, cause := cause, pendingLabel := label, headWait := .teardown })).mapLink n
      Link.teardownStart |>.abortJobs n).mem := by
    rw [e]
    unfold State.teardownStart State.teardownLayouts
    simp
  rw [← e] at layouts surfaces ⊢
  have heard : (s.heard n r).link n = (s.link n).afterTransaction [r] false := by unfold State.heard; simp
  have away : ∀ m, m ≠ n → (s.heard n r).link m = s.link m := fun m hm => State.link_withLink_ne _ _ _ _ hm.symm
  rw [heard] at link
  generalize hu : ((s.heard n r).mapSession n _).mapLink n Link.teardownStart = u at engine
  have drawing : u.drawing = s.drawing := by rw [← hu]; rfl
  have memory : u.mem = s.mem := by rw [← hu]; rfl
  have manager : u.surfaces = s.surfaces := by rw [← hu]; rfl
  obtain ⟨engine, writes⟩ := engine
  refine ⟨session, fun m hm => sessions m hm, by rw [link]; rfl, by rw [link]; rfl, by rw [link]; rfl, by rw [link]; rfl,
    by rw [link]; rfl, fun m hm h => ?_, layouts, kept, freed, fun q rest h1 h2 => ?_, surfaces, scan, issued, completed,
    outstanding, fun m hm => ?_, fun h => ?_, fun f hf hn => ?_⟩
  · rw [e, others m cause label hm h, away m hm]
  · obtain ⟨x, y, z⟩ := passed q rest h1 h2
    refine ⟨x, y, ?_⟩
    have hq : q ≠ n := by rintro rfl; exact hk.2.1 q h1 (by rw [h2]; exact List.mem_cons_self ..)
    rw [away q hq] at z
    exact z
  · rw [engine, State.abortJobs_others u n m hm (by rw [drawing]; exact hd), drawing]
  · have := State.abortJobs_queued u n (by rw [drawing]; exact h)
    rw [engine, writes, this.1, this.2, memory, drawing]
    exact ⟨rfl, rfl⟩
  · obtain ⟨v, hv, mem, slots, idle⟩ := State.abortJobs_inFlight u n f (by rw [drawing]; exact hf) hn
    rw [drawing] at idle
    have chosen : t.drawing = v.choose.drawing := by rw [engine, hv]
    have choice : v.choose.mem = v.mem := by
      unfold State.choose
      repeat' split
      all_goals rfl
    have store : t.mem = v.mem := by rw [writes, hv, choice]
    refine ⟨fun empty => ?_, fun k j rest hkn hkq hki => ?_, fun wf x hx => ?_⟩
    · rw [chosen, State.choose_empty v (fun m => ?_), idle]
      rw [idle]
      by_cases em : n = m
      · subst em; exact tget_tput_same ..
      · exact (tget_tput_ne _ _ _ _ em).trans (empty m (Ne.symm em))
    · have at' := State.choose_at v k j rest (by rw [idle])
        (by rw [idle]; exact (tget_tput_ne _ _ _ _ hkn.symm).trans hkq)
        (by
          intro i hi
          rw [idle]
          by_cases em : n = s.drawing.pointer + i
          · show tget (tput s.drawing.queues n []) (s.drawing.pointer + i) = []
            rw [← em]; exact tget_tput_same ..
          · exact (tget_tput_ne _ _ _ _ em).trans (hki i hi (Ne.symm em)))
      refine ⟨j.takes v.mem v.surfaces, ?_, fun source sx sy i g a b hw hg ha hb => ?_⟩
      · rw [chosen, at', State.withDrawing_drawing, idle]
      · rw [store, slots, State.abortJobs_surfaces, manager]
        exact Job.takes_at j _ s.surfaces (fun i f => { f with jobRefs := f.jobRefs - _ }) (fun _ _ => ⟨rfl, rfl, rfl⟩) hw hg ha hb
    · obtain ⟨_, _, _, _, before⟩ := (State.drawOn_drawsOn u).2 f (by rw [drawing]; exact hf)
      rw [store, mem, ← memory]
      exact (before (by rw [memory]; exact wf)).1 x (fun i g => by rw [manager]; exact hx i g)

end Sys2Proof.Machine
end

