-- ==== Sys2Proof/Laws/Transactions.lean ====
section
/-! SUPPORT. One whole transaction that carries a request on an IDLE link, and the examination that follows it on a quiet port. What a
request does is then what serving it does: State.transact_answered, transact_waits, transact_held and transact_finished. -/

namespace Sys2Proof.Machine

/-- The frame chosen on an IDLE link comes from the response queue exactly when that queue is not empty (R3). -/
theorem Link.chosen_origin (l : Link) :
    l.chosen.origin =
      if l.responses.isEmpty then (if l.events.isEmpty then none else some .eventQueue) else some .responseQueue := by
  unfold Link.chosen
  cases l.responses <;> cases l.events <;> rfl

/-- A link in IDLE at the end of a transaction in which the bytes `bs`, at least as many as the outbound frame has, were clocked. -/
theorem Link.transaction_idle (l : Link) (bs : List Byte) (hi : l.trans = .idle)
    (hb : l.chosen.bytes.length ≤ bs.length) :
    ∃ d, (l.selectActive.clockBytes bs) =
        { l with trans := .active, out := some l.chosen, reported := l.flags, inBytes := bs, inBits := [], dout := d } ∧
      (l.selectActive.clockBytes bs).trans = .active ∧
      (l.selectActive.clockBytes bs).deliversResponse = !l.responses.isEmpty := by
  have hs : l.selectActive =
      Link.drive { l with trans := .active, out := some l.chosen, reported := l.flags, inBytes := [], inBits := [] } := by
    unfold Link.selectActive; rw [hi]
  obtain ⟨d, hd⟩ := Link.clockBytes_active bs l.selectActive (by rw [hs]; rfl) (by rw [hs]; rfl)
  have he : l.selectActive.clockBytes bs =
      { l with trans := .active, out := some l.chosen, reported := l.flags, inBytes := bs, inBits := [], dout := d } := by
    rw [hd, hs]; simp [Link.drive]
  refine ⟨d, he, by rw [he], ?_⟩
  rw [he]
  simp only [Link.deliversResponse, Link.delivered, hb, decide_true, Bool.true_and, Link.chosen_origin]
  cases l.responses <;> cases l.events <;> rfl

/-- What the end of that transaction leaves, by what the inbound frame is judged to be. -/
theorem Link.finish_idle (l : Link) (bs : List Byte) (d : Option Bool) (q : List Request) (b : Bool)
    (hb : l.chosen.bytes.length ≤ bs.length)
    (hq : Link.receive { l with trans := .active, out := some l.chosen, reported := l.flags, inBytes := bs, inBits := [], dout := d }
        (judge bs) =
      { l with
        trans := .active, requests := q, flags := { l.flags with overrun := l.flags.overrun || b }
        out := some l.chosen, reported := { l.flags with overrun := l.flags.overrun && !b }
        inBytes := bs, inBits := [], dout := d }) :
    Link.finishTransaction { l with trans := .active, out := some l.chosen, reported := l.flags, inBytes := bs, inBits := [], dout := d } =
      l.afterTransaction q b := by
  unfold Link.finishTransaction
  rw [hq]
  simp only [Link.deliver, Link.delivered, hb, decide_true, if_true, Link.chosen_origin]
  obtain ⟨t, r, p, v, ⟨f1, f2, f3⟩, g, sq, o, ib, bits, dd⟩ := l
  cases p <;> cases v <;> cases f1 <;> cases f2 <;> cases f3 <;> cases b <;> rfl

theorem Link.receive_request (l : Link) (r : Request) (h : l.requests.length < Config.requestDepth) :
    l.receive (.request r) = { l with requests := l.requests ++ [r] } := by
  simp only [Link.receive, if_pos h]

theorem Link.receive_overrun (l : Link) (r : Request) (h : ¬ l.requests.length < Config.requestDepth) :
    l.receive (.request r) = l.setOverrun := by
  simp only [Link.receive, if_neg h]

/-- The link of a whole transaction that carries a request other than NOP, on an IDLE link. -/
def Link.afterRequest (l : Link) (r : Request) : Link :=
  if l.requests.length < Config.requestDepth then l.afterTransaction (l.requests ++ [r]) false
  else l.afterTransaction l.requests true

/-- The end of the transaction of a request, in the state. -/
theorem State.transact_idle (s : State) (n : Port) (r : Request) (hi : (s.link n).trans = .idle)
    (hp : r.payload.length ≤ Config.maxPayload) (hk : r.kind ≠ nopCode) :
    s.transact n r =
      if (s.link n).requests = [] ∨ ((s.link n).responses ≠ [] ∧ (s.session n).headWait = .responseRoom) then
        (s.withLink n ((s.link n).afterRequest r)).examine n
      else s.withLink n ((s.link n).afterRequest r) := by
  have hrel : s.release n = s := by unfold State.release; rw [hi]
  generalize hl : s.link n = l at *
  have hol : l.selectActive.outLength = l.chosen.bytes.length := by
    unfold Link.selectActive; rw [hi]; rfl
  have hbs : l.chosen.bytes.length ≤ (clockedBytes r.frame l.chosen.bytes.length).length := clockedBytes_length _ _
  have hj := judge_clockedBytes r l.chosen.bytes.length hp hk
  generalize hbe : clockedBytes r.frame l.chosen.bytes.length = bs at hbs hj
  obtain ⟨d, he, hact, hdel⟩ := Link.transaction_idle l bs hi hbs
  have hfin : (l.selectActive.clockBytes bs).finishTransaction = l.afterRequest r := by
    rw [he]
    unfold Link.afterRequest
    split
    · rename_i h
      refine Link.finish_idle l bs d _ false hbs ?_
      rw [hj, Link.receive_request _ r (by exact h)]
      simp
    · rename_i h
      refine Link.finish_idle l bs d _ true hbs ?_
      rw [hj, Link.receive_overrun _ r (by exact h)]
      simp [Link.setOverrun]
  have hin : (l.selectActive.clockBytes bs).inBytes = bs := by rw [he]
  have hrq : (l.selectActive.clockBytes bs).requests = l.requests := by rw [he]
  have hrr : ((l.selectActive.clockBytes bs).receive (.request r)).requests.isEmpty = false ∨ l.requests ≠ [] := by
    unfold Link.receive
    simp only
    split
    · left; simp
    · right
      intro e
      rename_i hh
      apply hh
      rw [hrq, e]; decide
  have hlink : (s.mapLink n (fun l => l.selectActive.clockBytes bs)).link n = l.selectActive.clockBytes bs := by
    rw [State.link_mapLink_same, hl]
  have hstart : ((s.release n).selectActive n).mapLink n (fun l => l.clockBytes (clockedBytes r.frame l.outLength)) =
      s.withLink n (l.selectActive.clockBytes bs) := by
    rw [hrel]
    show (s.withLink n (Link.selectActive (s.link n))).mapLink n _ = _
    unfold State.mapLink
    rw [State.link_withLink_same, hl]
    dsimp only
    rw [hol, hbe]
    show ({ s with links := _ } : State) = { s with links := _ }
    simp
  unfold State.transact
  simp only
  rw [hstart]
  unfold State.selectInactive
  rw [State.link_withLink_same, hact]
  simp only
  have hmap : (s.withLink n (l.selectActive.clockBytes bs)).mapLink n Link.finishTransaction = s.withLink n (l.afterRequest r) := by
    unfold State.mapLink
    rw [State.link_withLink_same, hfin]
    show ({ s with links := _ } : State) = { s with links := _ }
    simp
  rw [hmap]
  have hex : (s.withLink n (l.selectActive.clockBytes bs)).examinesAtEnd n =
      decide (l.requests = [] ∨ (l.responses ≠ [] ∧ (s.session n).headWait = .responseRoom)) := by
    unfold State.examinesAtEnd
    simp only [State.link_withLink_same, hin, hj, hdel, State.session_withLink, hrq]
    rcases hrr with h | h
    · rw [h]
      cases l.requests <;> cases l.responses <;> simp <;> exact decide_eq_decide.mpr Iff.rfl
    · cases hreq : l.requests with
      | nil => exact absurd hreq h
      | cons a b => cases l.responses <;> simp <;> exact decide_eq_decide.mpr Iff.rfl
  rw [hex]
  simp only [decide_eq_true_eq]

/-- On a quiet port the request comes to the head of the queue and is examined. -/
theorem State.transact_quiet (s : State) (n : Port) (r : Request) (hq : s.quiet n)
    (hp : r.payload.length ≤ Config.maxPayload) (hk : r.kind ≠ nopCode) : s.transact n r = (s.heard n r).examine n := by
  obtain ⟨hi, hr, _, _⟩ := hq
  rw [State.transact_idle s n r hi hp hk, if_pos (Or.inl hr)]
  unfold State.heard Link.afterRequest
  rw [hr, if_pos (by decide)]
  rfl

theorem State.heard_requests (s : State) (n : Port) (r : Request) : ((s.heard n r).link n).requests = [r] := by
  unfold State.heard; rw [State.link_withLink_same]; rfl

theorem State.heard_responses (s : State) (n : Port) (r : Request) :
    ((s.heard n r).link n).responses = (s.link n).responses.tail := by
  unfold State.heard; rw [State.link_withLink_same]; rfl

/-- The examination of a request on a quiet port comes to serving it. -/
theorem State.examineHead_heard (s : State) (n : Port) (r : Request) (hq : s.quiet n) :
    (s.heard n r).examineHead n =
      match (s.heard n r).serve n r with
      | .answered t payload => (t.answer n r.tag payload, true)
      | .waits w => ((s.heard n r).setHeadWait n w, false)
      | .held t => (t, false)
      | .finished t => (t, true) := by
  obtain ⟨_, _, hrs, hw⟩ := hq
  have hlt : ((s.heard n r).link n).responses.length < Config.responseDepth := by
    rw [State.heard_responses, List.length_tail]
    unfold Config.responseDepth at *; omega
  have hw' : ((s.heard n r).session n).headWait ≠ .teardown := hw
  unfold State.examineHead
  rw [State.heard_requests]
  simp only [if_neg hw', hlt, not_true_eq_false, if_false]
  all_goals rfl

/-- With no request left behind it, an answered head ends the examination. -/
theorem State.examineUpTo_stop (s : State) (n : Port) (k : Nat) (h : (s.link n).requests = []) :
    State.examineUpTo (k + 1) n s = s := by
  have : s.examineHead n = (s, false) := by unfold State.examineHead; rw [h]
  unfold State.examineUpTo
  rw [this]
  simp

theorem State.answer_requests (s : State) (n : Port) (tag : Byte) (p : List Byte) :
    ((s.answer n tag p).link n).requests = (s.link n).requests.tail := by
  unfold State.answer
  rw [State.link_setHeadWait, State.link_mapLink_same]; rfl

/-- A request that is answered at once: the state its serving leaves, with the answer placed. -/
theorem State.transact_answered (s : State) (n : Port) (r : Request) (t : State) (payload : List Byte) (hq : s.quiet n)
    (hp : r.payload.length ≤ Config.maxPayload) (hk : r.kind ≠ nopCode)
    (hs : (s.heard n r).serve n r = .answered t payload) (ht : (t.link n).requests = [r]) :
    s.transact n r = t.answer n r.tag payload := by
  rw [State.transact_quiet s n r hq hp hk]
  unfold State.examine
  rw [State.heard_requests]
  have he := State.examineHead_heard s n r hq
  rw [hs] at he
  show State.examineUpTo 2 n _ = _
  unfold State.examineUpTo
  rw [he]
  simp only [if_true]
  exact State.examineUpTo_stop _ _ _ (by rw [State.answer_requests, ht]; rfl)

/-- A request that has to wait: it stays at the head, and head wait says on what. -/
theorem State.transact_waits (s : State) (n : Port) (r : Request) (w : HeadWait) (hq : s.quiet n)
    (hp : r.payload.length ≤ Config.maxPayload) (hk : r.kind ≠ nopCode) (hs : (s.heard n r).serve n r = .waits w) :
    s.transact n r = (s.heard n r).setHeadWait n w := by
  rw [State.transact_quiet s n r hq hp hk]
  unfold State.examine
  rw [State.heard_requests]
  have he := State.examineHead_heard s n r hq
  rw [hs] at he
  show State.examineUpTo 2 n _ = _
  unfold State.examineUpTo
  rw [he]
  simp

/-- A request that starts a teardown and stays at the head. -/
theorem State.transact_held (s : State) (n : Port) (r : Request) (t : State) (hq : s.quiet n)
    (hp : r.payload.length ≤ Config.maxPayload) (hk : r.kind ≠ nopCode) (hs : (s.heard n r).serve n r = .held t) :
    s.transact n r = t := by
  rw [State.transact_quiet s n r hq hp hk]
  unfold State.examine
  rw [State.heard_requests]
  have he := State.examineHead_heard s n r hq
  rw [hs] at he
  show State.examineUpTo 2 n _ = _
  unfold State.examineUpTo
  rw [he]
  simp

/-- A request that starts a teardown which finishes in the same event. -/
theorem State.transact_finished (s : State) (n : Port) (r : Request) (t : State) (hq : s.quiet n)
    (hp : r.payload.length ≤ Config.maxPayload) (hk : r.kind ≠ nopCode) (hs : (s.heard n r).serve n r = .finished t)
    (ht : (t.link n).requests = []) : s.transact n r = t := by
  rw [State.transact_quiet s n r hq hp hk]
  unfold State.examine
  rw [State.heard_requests]
  have he := State.examineHead_heard s n r hq
  rw [hs] at he
  show State.examineUpTo 2 n _ = _
  unfold State.examineUpTo
  rw [he]
  simp only [if_true]
  exact State.examineUpTo_stop _ _ _ ht

/-- A NOP on an IDLE link: the outbound frame is delivered, and nothing joins the request queue (R8). -/
theorem State.transact_nop (s : State) (n : Port) (r : Request) (hi : (s.link n).trans = .idle)
    (hp : r.payload.length ≤ Config.maxPayload) (hk : r.kind = nopCode) :
    s.transact n r =
      if (s.link n).responses ≠ [] ∧ (s.session n).headWait = .responseRoom then
        (s.withLink n ((s.link n).afterTransaction (s.link n).requests false)).examine n
      else s.withLink n ((s.link n).afterTransaction (s.link n).requests false) := by
  have hrel : s.release n = s := by unfold State.release; rw [hi]
  generalize hl : s.link n = l at *
  have hol : l.selectActive.outLength = l.chosen.bytes.length := by
    unfold Link.selectActive; rw [hi]; rfl
  have hbs : l.chosen.bytes.length ≤ (clockedBytes r.frame l.chosen.bytes.length).length := clockedBytes_length _ _
  have hj := judge_clockedBytes_nop r l.chosen.bytes.length hp hk
  generalize hbe : clockedBytes r.frame l.chosen.bytes.length = bs at hbs hj
  obtain ⟨d, he, hact, hdel⟩ := Link.transaction_idle l bs hi hbs
  have hrecv : ∀ k : Link, k.receive (judge bs) = k := by
    intro k; rcases hj with h | h <;> rw [h] <;> rfl
  have hfin : (l.selectActive.clockBytes bs).finishTransaction = l.afterTransaction l.requests false := by
    rw [he]
    refine Link.finish_idle l bs d _ false hbs ?_
    rw [hrecv]
    simp
  have hin : (l.selectActive.clockBytes bs).inBytes = bs := by rw [he]
  have hrq : (l.selectActive.clockBytes bs).requests = l.requests := by rw [he]
  have hstart : ((s.release n).selectActive n).mapLink n (fun l => l.clockBytes (clockedBytes r.frame l.outLength)) =
      s.withLink n (l.selectActive.clockBytes bs) := by
    rw [hrel]
    show (s.withLink n (Link.selectActive (s.link n))).mapLink n _ = _
    unfold State.mapLink
    rw [State.link_withLink_same, hl]
    dsimp only
    rw [hol, hbe]
    show ({ s with links := _ } : State) = { s with links := _ }
    simp
  unfold State.transact
  simp only
  rw [hstart]
  unfold State.selectInactive
  rw [State.link_withLink_same, hact]
  simp only
  have hmap : (s.withLink n (l.selectActive.clockBytes bs)).mapLink n Link.finishTransaction =
      s.withLink n (l.afterTransaction l.requests false) := by
    unfold State.mapLink
    rw [State.link_withLink_same, hfin]
    show ({ s with links := _ } : State) = { s with links := _ }
    simp
  rw [hmap]
  have hex : (s.withLink n (l.selectActive.clockBytes bs)).examinesAtEnd n =
      decide (l.responses ≠ [] ∧ (s.session n).headWait = .responseRoom) := by
    unfold State.examinesAtEnd
    simp only [State.link_withLink_same, hin, hrecv, hdel, State.session_withLink, hrq]
    cases l.requests <;> cases l.responses <;> simp <;> exact decide_eq_decide.mpr Iff.rfl
  rw [hex]
  simp only [decide_eq_true_eq]

/-! ### From a command to what its request does -/

/-- A command that carries a request is the whole transaction of it. -/
theorem exec_carried (c : Instr) (s : State) (n : Port) (r : Request) (h : carried c = some (n, r)) :
    exec c s = .next (s.transact n r).settle := by
  cases c <;> cases h <;> rfl

/-- The code of a kind stands for it, and is not NOP's. -/
theorem Kind.ofCode_code (k : Kind) : Kind.ofCode k.code = some k := by cases k <;> decide

theorem Kind.code_ne_nop (k : Kind) : k.code ≠ nopCode := by cases k <;> decide

/-- A request of a known kind and length on a port that is not CLOSED is carried out. -/
theorem State.serve_known (s : State) (n : Port) (k : Kind) (tag : Byte) (p : List Byte)
    (hl : k.lengthOk p.length = true) (hc : (s.session n).state ≠ .closed) :
    s.serve n ⟨k.code, tag, p⟩ = s.carryOut n k ⟨k.code, tag, p⟩ := by
  unfold State.serve
  rw [Kind.ofCode_code]
  simp [hl, hc]

theorem State.heard_sessions (s : State) (n : Port) (r : Request) : (s.heard n r).sessions = s.sessions := rfl
theorem State.heard_session (s : State) (n m : Port) (r : Request) : (s.heard n r).session m = s.session m := rfl
theorem State.heard_scan (s : State) (n : Port) (r : Request) : (s.heard n r).scan = s.scan := rfl
theorem State.heard_surfaces (s : State) (n : Port) (r : Request) : (s.heard n r).surfaces = s.surfaces := rfl
theorem State.heard_mem (s : State) (n : Port) (r : Request) : (s.heard n r).mem = s.mem := rfl
theorem State.heard_drawing (s : State) (n : Port) (r : Request) : (s.heard n r).drawing = s.drawing := rfl
theorem State.heard_layouts (s : State) (n : Port) (r : Request) : (s.heard n r).layouts = s.layouts := rfl
theorem State.heard_free (s : State) (n : Port) (r : Request) : (s.heard n r).free = s.free := rfl

/-- The answer to a request that changes nothing else. -/
theorem State.heard_answer (s : State) (n : Port) (r : Request) (payload : List Byte) :
    (s.heard n r).answer n r.tag payload = s.replied n r.tag payload := by
  unfold State.answer State.heard State.replied State.mapLink State.setHeadWait State.mapSession
  simp only [State.link_withLink_same]
  unfold State.withLink State.withSession
  simp only [Link.answerHead, Link.afterTransaction, State.session, List.tail_cons]
  congr 1
  exact tput_tput _ _ _ _

/-- A request on a quiet port that is answered at once and changes nothing else. -/
theorem State.transact_replied (s : State) (n : Port) (r : Request) (payload : List Byte) (hq : s.quiet n)
    (hp : r.payload.length ≤ Config.maxPayload) (hk : r.kind ≠ nopCode)
    (hs : (s.heard n r).serve n r = .answered (s.heard n r) payload) :
    s.transact n r = s.replied n r.tag payload := by
  rw [State.transact_answered s n r _ payload hq hp hk hs (State.heard_requests s n r), State.heard_answer]

/-- The same for a request of a known kind and length on a port that is not CLOSED. -/
theorem State.transact_decided (s : State) (n : Port) (k : Kind) (tag : Byte) (p payload : List Byte) (hq : s.quiet n)
    (hc : (s.session n).state ≠ .closed) (hl : k.lengthOk p.length = true) (hp : p.length ≤ Config.maxPayload)
    (hs : (s.heard n ⟨k.code, tag, p⟩).carryOut n k ⟨k.code, tag, p⟩ = .answered (s.heard n ⟨k.code, tag, p⟩) payload) :
    s.transact n ⟨k.code, tag, p⟩ = s.replied n tag payload := by
  refine State.transact_replied s n ⟨k.code, tag, p⟩ payload hq hp (Kind.code_ne_nop k) ?_
  rw [State.serve_known (s.heard n _) n k tag p hl hc, hs]

end Sys2Proof.Machine
end

