-- ==== Sys2Proof/Tests/Slice0.lean ====
section
/-! SUPPORT. The model's own tests: ill-formed commands refused, at most two small theorems for each command (expectations from the
spec's worked examples and tables), and for every statement with hypotheses a theorem witness_<Name> that a concrete state and
operands meet them, at the boundary values of each clause. -/

open Sys2Proof Sys2Proof.Machine

namespace Sys2Proof.Tests

set_option Elab.async false

/-! ### Small states -/

/-- A small panel: 64 by 48, htotal 67, vtotal 51, budget 402. -/
def tiny : Timing := ⟨64, 1, 1, 1, 48, 1, 1, 1, .activeHigh, .activeHigh, .activeHigh, 1, ⟨16, 32, 48⟩⟩

/-- The state a command leaves. -/
def after (c : Instr) (s : State) : State :=
  match exec c s with
  | .next t => t
  | .fault _ => s
  | .refused _ => s

/-- The state a few commands leave, one after another. -/
def afterAll (cs : List Instr) (s : State) : State := cs.foldl (fun s c => after c s) s

/-- The state after reset with a panel. -/
def panel (t : Timing) : State :=
  (State.reset.withScan (.configured t)).withLayouts (State.reset.layouts.sizeTables t)

/-- Ports 0 and 1 open, a small panel. -/
def desk : State := ((panel tiny).openSession 0 7).openSession 1 8

/-- With surfaces 0 (port 0, 8 by 1 P16), 1 (port 0, 64 by 48 P32) and 2 (port 1, 16 by 16 P32A DIRECT), and windows 0 (port 0,
64 by 48) and 1 (port 1, 16 by 16). -/
def office : State :=
  (desk.withSurfaces
    (((desk.surfaces.create 0 0 ⟨8, 1, .p16, false⟩).create 0 1 ⟨64, 48, .p32, false⟩).create 1 2 ⟨16, 16, .p32a, true⟩)
  ).withLayouts ((desk.layouts.reserve 0 0 64 48).reserve 1 1 16 16)

/-- The payload of the last response placed on a port. -/
def said (n : Port) (s : State) : List Byte :=
  match (s.link n).responses.getLast? with
  | some r => r.payload
  | none => []

/-- The payload of the last event posted to a port. -/
def posted (n : Port) (s : State) : List Byte :=
  match (s.link n).events.getLast? with
  | some e => e.payload
  | none => []

/-- A commit operation of `code` on window handle 0 to 255, with its argument bytes, padded to 12 bytes. -/
def opBytes (code w : Byte) (args : List Byte) : List Byte := ([code, 0, w] ++ args ++ List.replicate 9 0).take 12

/-- A COMMIT payload of the operations. -/
def commitOf (ops : List (List Byte)) : List Byte := [BitVec.ofNat 8 ops.length, 0, 0, 0] ++ ops.flatten

/-- SOURCE window 0 surface 1, SHOW window 0. -/
def showing : List Byte := commitOf [opBytes 2 0 [1, 0, 1], opBytes 6 0 []]

/-- Window 0 on the panel with surface 1. -/
def shown : State := afterAll [.commit 0 6 showing, .frameBoundary] office

/-- A DRAWING request's fixed part: target, x, y, w, h, notify. -/
def rect (target x y w h notify : Byte) : List Byte := [0, target, 0, x, 0, y, 0, w, 0, h, notify]

/-! ### Which commands a sender can give -/

theorem test_wellFormed_accepts : Instr.wellFormed (.write 0 1 (List.replicate 1024 0)) = true := by decide +kernel

theorem test_wellFormed_refuses_long_payload : Instr.wellFormed (.write 0 1 (List.replicate 1025 0)) = false := by
  decide +kernel

theorem test_wellFormed_refuses_known_kind : Instr.wellFormed (.unknownKind 0 0x41 1 []) = false := by decide +kernel

theorem test_wellFormed_refuses_nop_kind : Instr.wellFormed (.unknownKind 0 0x00 1 []) = false := by decide +kernel

theorem test_no_row_has_bits : decodeTableWord 8 0x41 = none := by decide +kernel

/-! ### Check values -/

/-- R7: the ASCII digits 1 to 9 give 0x29B1. -/
theorem test_crc16 : crc16 [0x31, 0x32, 0x33, 0x34, 0x35, 0x36, 0x37, 0x38, 0x39] = 0x29B1 := by decide +kernel

/-- R90's check value. -/
theorem test_crc32 : crc32 [0x31, 0x32, 0x33, 0x34, 0x35, 0x36, 0x37, 0x38, 0x39] = 0xCBF43926 := by decide +kernel

/-! ### Links -/

/-- An IDLE frame: kind, tag and flags 0, credits 4, length 0; the first bit driven is 0. -/
theorem test_selectActive_idle_frame :
    ((((after (.selectActive 0) State.reset).link 0).out).map (fun f => (f.bytes.take 6, f.bytes.length, f.origin))) =
      some ([0, 0, 0, 4, 0, 0], 8, none) ∧
    ((after (.selectActive 0) State.reset).link 0).dout = some false := by decide +kernel

/-- Port 2 of 11.5: a waiting WRITE, a response of tag 0x30, four jobs 18 to 21. -/
def truncated : State :=
  let j : Nat → Job := fun k => ⟨k, 2, 0, 0, 0, 1, 1, false, .fill [0, 0]⟩
  let s := (panel tiny).openSession 2 7
  let s := s.withSurfaces (s.surfaces.create 2 0 ⟨8, 1, .p16, false⟩)
  let s := s.withSurfaces (s.surfaces.mapSurface 0 (fun f => { f with jobRefs := 4 }))
  let s := s.withDrawing
    { s.drawing with
      queues := tput s.drawing.queues 2 [j 19, j 20, j 21], inFlight := some ⟨j 18, [], 0⟩
      issued := tput s.drawing.issued 2 21, completed := tput s.drawing.completed 2 17 }
  (s.withLink 2
    { s.link 2 with
      requests := [⟨0x40, 0x31, rect 0 0 0 1 1 0 ++ [0, 5, 6]⟩], responses := [⟨0x30, [0x41, 0, 0, 21]⟩] }).setHeadWait 2 .jobRoom

/-- Bytes clocked on a link by its commands. -/
def clocked (n : Port) (bytes : List Byte) (s : State) : State :=
  afterAll (bytes.flatMap (fun b => (bitsOfByte b).map (fun d => .byteClocked n d))) s

/-- 11.5, T1: 11 of the 12 bytes of response 0x30 are shifted: it stays, and QUERY_SESSION 0x32 is queued behind 0x31. -/
theorem test_selectInactive_short_frame_is_not_delivered :
    let s := after (.selectInactive 2)
      (clocked 2 (Request.frame ⟨0x10, 0x32, []⟩ ++ List.replicate 5 0) (after (.selectActive 2) truncated))
    (s.link 2).requests.map (·.tag) = [0x31, 0x32] ∧ (s.link 2).responses.map (·.tag) = [0x30] ∧
      (s.link 2).flags = .clear ∧ (s.link 2).trans = .idle := by decide +kernel

/-- 11.5, T2 to T5: 0x30 delivered, 0x33 and 0x34 queued, 0x35 overruns, and a frame of filler clears OVERRUN. -/
theorem test_selectInactive_overrun_and_its_report :
    let s := afterAll [.querySession 2 0x32 [], .checksum 2 0x33 (rect 0 0 0 1 1 0 |>.take 10),
      .fill 2 0x34 (rect 0 0 0 1 1 0 ++ [1, 2, 3, 0]), .fill 2 0x35 (rect 0 0 0 1 1 0 ++ [1, 2, 3, 0])] truncated
    (s.link 2).requests.map (·.tag) = [0x31, 0x32, 0x33, 0x34] ∧ (s.link 2).flags = ⟨true, false, false⟩ ∧
      tget s.pins.attention 2 = true ∧
      let t := after (.selectInactive 2) (clocked 2 (List.replicate 8 0) (after (.selectActive 2) s))
      (t.link 2).flags = .clear ∧ tget t.pins.attention 2 = false := by decide +kernel

/-- Seven bits wait and the eighth makes the byte; the ninth bit driven is the first of the second outbound byte. -/
theorem test_byteClocked_makes_a_byte :
    let s := clocked 0 [0xA5] (after (.selectActive 0) State.reset)
    (s.link 0).inBytes = [0xA5] ∧ (s.link 0).inBits = [] ∧
      ((after (.byteClocked 0 true) s).link 0).inBits = [true] := by decide +kernel

/-- With select released the edge is ignored; in IGNORED it drives 0 and collects nothing. -/
theorem test_byteClocked_outside_a_transaction :
    (after (.byteClocked 0 true) State.reset).link 0 = State.reset.link 0 ∧
      (let s := after (.byteClocked 0 true) (after (.deviceReset true false false false) State.reset)
       (s.link 0).dout = some false ∧ (s.link 0).inBits = []) := by decide +kernel

/-- A NOP to a full request queue sets no flag and joins nothing. -/
theorem test_nop_at_a_full_queue :
    let s := State.reset.withLink 1 { State.reset.link 1 with requests := List.replicate 4 ⟨0x10, 1, []⟩ }
    let t := after (.nop 1 9 [1, 2]) s
    (t.link 1).requests = (s.link 1).requests ∧ (t.link 1).flags = .clear ∧ (t.link 1).responses = [] := by decide +kernel

/-! ### Reset, identification, sessions -/

/-- A link selected at the release of RESET_N is IGNORED, the others IDLE; sessions and panel are at their reset values. -/
theorem test_deviceReset :
    let s := after (.deviceReset true false false true) shown
    (s.link 0).trans = .ignored ∧ (s.link 1).trans = .idle ∧ (s.link 3).trans = .ignored ∧
      s.sessions = State.reset.sessions ∧ s.scan = Scan.reset ∧ s.layouts = LayoutController.reset ∧
      s.pins = Pins.reset := by decide +kernel

theorem test_unknownKind : said 3 (after (.unknownKind 3 0x99 1 [1, 2, 3]) State.reset) = [0x99, 0x01] := by
  decide +kernel

/-- IDENTIFY is served on a CLOSED port; a wrong length is refused. -/
theorem test_identify :
    said 3 (after (.identify 3 1 []) State.reset) =
        [0x01, 0x00, 0x03, 0xA1, 0x04, 0x24, 0x01, 0x04, 0x30, 0x10, 0x18, 0x08, 0x10, 0x00, 0x10, 0x00, 0x02, 0x80, 0x06, 0x00,
          0x04, 0x04, 0x10, 0x04, 0x08, 0x02, 0x10, 0x04, 0x00] ∧
      said 3 (after (.identify 3 1 [0]) State.reset) = 0x01 :: 0x02 :: List.replicate 27 0 := by decide +kernel

/-- 11.1, T1. -/
theorem test_openSession :
    let s := after (.openSession 0 1 [0x45, 0x4E, 0x47, 0x31]) State.reset
    (s.link 0).responses = [⟨1, [0x02, 0x00, 0x01]⟩] ∧ s.session 0 = ⟨.opened, 1, 0x454E4731, .none, none, .none⟩ ∧
      tget s.pins.attention 0 = true := by decide +kernel

/-- A takeover waits for the boundary, which answers it with session 2. -/
theorem test_openSession_takeover :
    let s := after (.openSession 0 2 [0, 0, 0, 9]) office
    (s.session 0).state = .closing ∧ (s.session 0).pendingLabel = some 9 ∧ (s.link 0).responses = [] ∧
      let t := after .frameBoundary s
      t.session 0 = ⟨.opened, 2, 9, .none, none, .none⟩ ∧ said 0 t = [0x02, 0x00, 0x02] ∧
        tget t.layouts.owners 0 = none ∧ tget t.layouts.gens 0 = 1 ∧ t.surfaces.freePages.length = 4095 := by
  decide +kernel

/-- CLOSE without a panel is answered at once; on a CLOSED port it is refused. -/
theorem test_closeSession :
    said 0 (after (.closeSession 0 2 []) (State.reset.openSession 0 7)) = [0x03, 0x00, 0x01] ∧
      said 0 (after (.closeSession 0 2 []) State.reset) = [0x03, 0x04, 0x00] := by decide +kernel

theorem test_querySession :
    said 1 (after (.querySession 1 2 []) office) =
      [0x10, 0x00, 0x01, 0x01, 0, 0, 0, 8, 0, 0, 0, 0, 0, 1, 1] := by decide +kernel

/-! ### Panel -/

/-- The record of 3.7 and its background. -/
def bringUp (back : Byte) : List Byte :=
  [0x05, 0x00, 48, 32, 80, 0x03, 0x20, 3, 6, 14, 1, 1, 0, 2, back, back, back]

/-- 3.7: budget 8,640, line 800, syncs released high, data-enable released low, 800 lines of zero. -/
theorem test_setTiming :
    let s := after (.setTiming 0 2 (bringUp 0)) (State.reset.openSession 0 7)
    said 0 s = [0x20, 0x00, 0x21, 0xC0] ∧ s.scan.pos = some (800, 0) ∧ s.scan.frame = 0 ∧
      s.pins.panel = ⟨true, true, true, false, 0⟩ ∧ s.layouts.appliedLoad = List.replicate 800 0 := by decide +kernel

/-- 3.7: the same record is answered OK, another background TIMING_LOCKED. -/
theorem test_setTiming_running :
    let s := after (.setTiming 0 2 (bringUp 0)) ((State.reset.openSession 0 7).openSession 2 7)
    said 2 (after (.setTiming 2 3 (bringUp 0x10)) s) = [0x20, 0x06, 0, 0] ∧
      said 2 (after (.setTiming 2 3 (bringUp 0)) s) = [0x20, 0x00, 0x21, 0xC0] := by decide +kernel

theorem test_queryPanel :
    said 0 (after (.queryPanel 0 1 []) desk) =
        [0x11, 0x00, 1, 1, 0, 64, 1, 1, 1, 0, 48, 1, 1, 1, 0, 0, 0, 1, 16, 32, 48, 0, 0, 0, 0, 0x01, 0x92] ∧
      said 0 (after (.queryPanel 0 1 []) (State.reset.openSession 0 7)) = 0x11 :: 0x00 :: List.replicate 25 0 := by
  decide +kernel

/-- The boundary that applies the commit of `shown`: PRESENTED with tag 6 and frame 1. -/
theorem test_frameBoundary :
    shown.scan.frame = 1 ∧ shown.scan.pos = some (47, 64) ∧ shown.layouts.applied.bands.main = [0] ∧
      posted 0 shown = [0x01, 6, 0, 0, 0, 1] ∧ shown.layouts.appliedLoad = List.replicate 48 256 := by decide +kernel

/-- 8.3: a window of deadline 3 refreshed at one boundary goes stale at the third after it. -/
def aging : State :=
  afterAll [.commit 0 6 (commitOf [opBytes 8 0 [3], opBytes 6 0 []]), .frameBoundary, .frameBoundary, .frameBoundary] office

theorem test_stale :
    let s := after (.stale 0) aging
    (tget aging.layouts.fresh 0) = ⟨2, false, false⟩ ∧ (tget s.layouts.fresh 0) = ⟨3, true, false⟩ ∧ s.scan.frame = 4 ∧
      posted 0 s = [0x03, 0, 0, 0, 0, 0, 4] := by decide +kernel

/-- A clock in the blanking moves on by one; the last active pixel raises the boundary; the last clock of the frame wraps. -/
theorem test_pixelClock :
    let at_ : Nat → Nat → State := fun line clock => desk.withScan { desk.scan with pos := some (line, clock) }
    (after .pixelClock (at_ 48 0)).scan.pos = some (48, 1) ∧ (after .pixelClock (at_ 48 0)).scan.frame = 0 ∧
      (after .pixelClock (at_ 47 63)).scan.pos = some (47, 64) ∧ (after .pixelClock (at_ 47 63)).scan.frame = 1 ∧
      (after .pixelClock (at_ 50 66)).scan.pos = some (0, 0) := by decide +kernel

/-- 3.5: background, window A from P16, window B hidden, window C from P32A at opacity 128; then C stale. -/
theorem test_composition :
    let a : WindowRec := { newWindow 64 48 with state := .stacked, band := .base, visible := true, source := some ⟨0, 64, 48, .p16⟩ }
    let b : WindowRec := { newWindow 64 48 with state := .stacked, source := some ⟨0, 64, 48, .p16⟩ }
    let c : WindowRec := { newWindow 64 48 with
      state := .stacked, band := .overlay, visible := true, source := some ⟨1, 64, 48, .p32a⟩, opacity := 128
      fill := ⟨0xFF, 0xFF, 0x00⟩ }
    let l : Layout :=
      ⟨tput (tput (tput Layout.empty.recs 0 (some a)) 1 (some b)) 2 (some c), ⟨[0], [1], [2], []⟩⟩
    let s := (desk.withLayouts { desk.layouts with applied := l }).withScan
      { desk.scan with shown := [⟨0, 4, [0x08, 0x84]⟩, ⟨2, 4, [0, 0, 255, 200]⟩] }
    let t := s.withLayouts { s.layouts with fresh := tput s.layouts.fresh 2 ⟨9, true, false⟩ }
    s.pixel tiny 4 3 = ⟨180, 79, 40⟩ ∧ (t.pixel tiny 4 3).red = 194 := by decide +kernel

/-! ### Surfaces -/

/-- 11.1, T3: stride 5,120 and 1000 pages; pool use 360. -/
theorem test_createSurface :
    let s := after (.createSurface 0 3 [0x05, 0x00, 0x03, 0x20, 2, 0]) (State.reset.openSession 0 7)
    said 0 s = [0x30, 0x00, 0x00, 0x00, 0x14, 0x00, 0x03, 0xE8] ∧ poolUse s.surfaces.pageCount = 360 ∧
      s.surfaces.freePages.length = 3096 ∧ s.surfaces.freePages.head? = some 1000 := by decide +kernel

/-- Zero width, an unknown format and an unknown DIRECT code are refused. -/
theorem test_createSurface_refused :
    [[0, 0, 0, 1, 1, 0], [0, 1, 0, 1, 4, 0], [0, 1, 0, 1, 1, 2], [0x08, 0x01, 0, 1, 1, 0]].all (fun p =>
      said 0 (after (.createSurface 0 3 p) desk) = [0x30, 0x03, 0, 0, 0, 0, 0, 0]) = true := by decide +kernel

/-- An own surface is destroyed and its handle names nothing then; another port's and a shown one are refused. -/
theorem test_destroySurface :
    said 0 (after (.destroySurface 0 1 [0, 1]) office) = [0x31, 0x00, 0x00, 0x03] ∧
      said 0 (afterAll [.destroySurface 0 1 [0, 1], .destroySurface 0 2 [0, 1]] office) = [0x31, 0x09, 0, 0] ∧
      said 0 (after (.destroySurface 0 1 [0, 2]) office) = [0x31, 0x0F, 0, 0] ∧
      said 0 (after (.destroySurface 0 1 [0, 1]) shown) = [0x31, 0x0A, 0, 0] := by decide +kernel

theorem test_querySurface :
    said 0 (after (.querySurface 0 1 [0, 1]) shown) =
      [0x12, 0x00, 0, 1, 0, 0, 64, 0, 48, 2, 0, 0x01, 0x00, 0, 3, 1, 0, 0] := by decide +kernel

/-- The free pages and the four page counts of `office` add up to 4096. -/
theorem test_queryMemory :
    said 0 (after (.queryMemory 0 1 []) office) = [0x13, 0x00, 0x0F, 0xFB, 0, 0, 0, 4, 0, 1, 0, 0, 0, 0] := by
  decide +kernel

/-! ### Drawing -/

/-- 10.6: handle 0x0043, colour 0xFF8040, notify; accepted as job 9; the bytes 08 FC 08 FC; the event of JOB_DONE. -/
theorem test_fill :
    let s := desk.openSession 2 7
    let m := s.surfaces
    let m := { m with slots := tput m.slots 3 ⟨1, none⟩ }
    let s := s.withSurfaces (m.create 2 3 ⟨8, 2, .p16, false⟩)
    let s := s.withDrawing { s.drawing with issued := tput s.drawing.issued 2 8 }
    let t := after (.fill 2 0x2A [0x00, 0x43, 0, 4, 0, 0, 0, 2, 0, 1, 1, 0xFF, 0x80, 0x40, 0]) s
    (t.link 2).responses = [⟨0x2A, [0x41, 0x00, 0x00, 0x09]⟩] ∧
      let u := after .jobCompletion t
      u.mem = [(8, 0x08), (9, 0xFC), (10, 0x08), (11, 0xFC)] ∧ posted 2 u = [0x02, 0x00, 0x09, 0x00, 0, 0, 0, 0] ∧
        tget u.drawing.completed 2 = 9 := by decide +kernel

/-- Notify 2, a foreign surface, a rectangle past the edge, and a shown target are refused; no number is used. -/
theorem test_fill_refused :
    said 0 (after (.fill 0 1 (rect 1 0 0 1 1 2 ++ [1, 2, 3, 4])) office) = [0x41, 0x03, 0, 0] ∧
      said 0 (after (.fill 0 1 (rect 2 0 0 1 1 0 ++ [1, 2, 3, 4])) office) = [0x41, 0x0F, 0, 0] ∧
      said 0 (after (.fill 0 1 (rect 1 64 0 1 1 0 ++ [1, 2, 3, 4])) office) = [0x41, 0x0C, 0, 0] ∧
      said 0 (after (.fill 0 1 (rect 1 0 0 1 1 0 ++ [1, 2, 3, 4])) shown) = [0x41, 0x0A, 0, 0] := by decide +kernel

/-- WRITE's row of eight pixels A to H, as in 5.9. -/
def letters : State :=
  afterAll [.write 0 1 (rect 0 0 0 8 1 0 ++ [0] ++ [1, 0xA, 2, 0xB, 3, 0xC, 4, 0xD, 5, 0xE, 6, 0xF, 7, 0x1A, 8, 0x1B]),
    .jobCompletion] office

/-- The bytes stand at the pixels' addresses; a payload of another length is refused. -/
theorem test_write :
    letters.mem = [(0, 1), (1, 0xA), (2, 2), (3, 0xB), (4, 3), (5, 0xC), (6, 4), (7, 0xD), (8, 5), (9, 0xE), (10, 6), (11, 0xF),
        (12, 7), (13, 0x1A), (14, 8), (15, 0x1B)] ∧
      said 0 (after (.write 0 1 (rect 0 0 0 2 1 0 ++ [0] ++ [1, 2, 3])) office) = [0x40, 0x02, 0, 0] := by decide +kernel

/-- 5.9: A B C D E F G H becomes A B A B C D G H. -/
theorem test_copy :
    let s := afterAll [.copy 0 2 (rect 0 2 0 4 1 0 ++ [0, 0, 0, 0, 0, 0]), .jobCompletion] letters
    s.mem.map (·.2) = [1, 0xA, 2, 0xB, 1, 0xA, 2, 0xB, 3, 0xC, 4, 0xD, 7, 0x1A, 8, 0x1B] := by decide +kernel

/-- JOB_DONE carries R90's CRC of the rectangle's bytes, though no notify is asked; nothing is written. -/
theorem test_checksum :
    let s := afterAll [.checksum 0 2 ((rect 0 0 0 4 1 0).take 10), .jobCompletion] letters
    posted 0 s = [0x02, 0x00, 0x02, 0x00] ++ bytes32 (crc32 [1, 0xA, 2, 0xB, 3, 0xC, 4, 0xD]) ∧
      s.mem = letters.mem := by decide +kernel

/-- 5.8: the completions run 2:5, 3:1, 0:11, 2:6, 0:12. -/
theorem test_jobCompletion_takes_turns :
    let j : Port → Nat → Job := fun n k => ⟨k, n, 0, 0, 0, 1, 1, false, .checksum⟩
    let s := desk.withDrawing
      { desk.drawing with
        inFlight := some ⟨j 2 5, [], 0⟩, pointer := 3
        queues := tput (tput (tput desk.drawing.queues 0 [j 0 11, j 0 12]) 2 [j 2 6]) 3 [j 3 1] }
    let running : State → Option (Port × Nat) := fun s => s.drawing.inFlight.map (fun f => (f.job.port, f.job.number))
    let s1 := after .jobCompletion s
    let s2 := after .jobCompletion s1
    let s3 := after .jobCompletion s2
    let s4 := after .jobCompletion s3
    [running s1, running s2, running s3, running s4, running (after .jobCompletion s4)] =
        [some (3, 1), some (0, 11), some (2, 6), some (0, 12), none] ∧
      [s1, s2, s3, s4].map (·.drawing.pointer) = [0, 1, 3, 1] := by decide +kernel

/-- 11.5: job 18 completes: 0x31 becomes job 22, 0x32 is served, 0x33 waits for job room. -/
theorem test_jobCompletion_frees_job_room :
    let s := after .jobCompletion (afterAll [.querySession 2 0x32 [], .checksum 2 0x33 ((rect 0 0 0 1 1 0).take 10),
      .fill 2 0x34 (rect 0 0 0 1 1 0 ++ [1, 2, 3, 0])] truncated)
    (s.link 2).requests.map (·.tag) = [0x33, 0x34] ∧ (s.link 2).responses.map (·.tag) = [0x31, 0x32] ∧
      (s.session 2).headWait = .jobRoom ∧ tget s.drawing.issued 2 = 22 ∧ tget s.drawing.completed 2 = 18 := by
  decide +kernel

/-! ### Windows, commits, the alert token -/

/-- The lowest slot, RESERVED with the creation values; NO_PANEL without a panel. -/
theorem test_createWindow :
    said 0 (after (.createWindow 0 1 [0, 64, 0, 48]) office) = [0x50, 0x00, 0x00, 0x02] ∧
      (after (.createWindow 0 1 [0, 64, 0, 48]) office).layouts.applied.record 2 = some (newWindow 64 48) ∧
      said 0 (after (.createWindow 0 1 [0, 64, 0, 48]) (State.reset.openSession 0 7)) = [0x50, 0x05, 0, 0] := by
  decide +kernel

/-- Both records of window 0 after the commit is accepted and before it is applied. -/
theorem test_queryWindow :
    said 0 (afterAll [.commit 0 6 showing, .queryWindow 0 7 [0, 0]] office) =
      [0x14, 0x00, 0, 0] ++ [1, 1, 0xFF, 0, 0, 0, 0, 0, 64, 0, 48, 0, 0, 0, 0, 0, 0, 0, 255, 0, 0, 0, 0, 0, 0, 0] ++
        [2, 1, 0, 0, 0, 0, 0, 0, 64, 0, 48, 1, 0, 1, 0, 0, 0, 0, 255, 0, 0, 0, 1, 0, 0, 0] := by decide +kernel

theorem test_queryLoad :
    said 0 (after (.queryLoad 0 7 []) (after (.commit 0 6 showing) office)) =
      [0x15, 0x00, 0x01, 0x92, 0, 0, 0, 0, 0x01, 0x00, 0, 0, 0x01, 0x00] := by decide +kernel

/-- The fence is the issued number, the surface is named by the queue, the applied layout stands. -/
theorem test_commit :
    let s := after (.commit 0 6 showing) office
    said 0 s = [0x51, 0x00, 0xFF, 0, 0, 0, 0] ∧ s.layouts.projected.bands.main = [0] ∧ s.layouts.applied.bands.main = [] ∧
      ((tget s.surfaces.slots 1).surface.map (·.queuedRefs)) = some 1 := by decide +kernel

/-- Two windows of 256 bytes a line are over 402: window 0 meets one that stands on lines 2 to 47 of the projected layout. -/
def crowded : State :=
  let r : WindowRec := { newWindow 64 46 with state := .stacked, y := 2, visible := true, source := some ⟨1, 64, 48, .p32⟩ }
  office.withLayouts
    { office.layouts with
      owners := tput office.layouts.owners 2 (some 0)
      projected := ⟨tput office.layouts.projected.recs 2 (some r), ⟨[], [2], [], []⟩⟩ }

/-- Index of the failing operation; the lowest line over the budget. -/
theorem test_commit_refused :
    said 0 (after (.commit 0 6 (commitOf [opBytes 6 0 [], opBytes 6 1 []])) office) = [0x51, 0x0F, 1, 0, 0, 0, 0] ∧
      said 0 (after (.commit 0 6 (commitOf [opBytes 11 0 []])) office) = [0x51, 0x03, 0, 0, 0, 0, 0] ∧
      said 0 (after (.commit 0 6 showing) crowded) = [0x51, 0x10, 0xFF, 0, 0, 0, 2] := by decide +kernel

/-- 8.1: ports 2, 0 and 3 ask; port 0 asks again. -/
def asked : State :=
  afterAll [.acquireAlert 2 1 [], .acquireAlert 0 1 [], .acquireAlert 3 1 [], .acquireAlert 0 2 []]
    ((desk.openSession 2 7).openSession 3 7)

theorem test_acquireAlert :
    said 2 asked = [0x60, 0x00, 1, 0] ∧ said 3 asked = [0x60, 0x00, 2, 2] ∧ said 0 asked = [0x60, 0x00, 2, 1] ∧
      asked.layouts.holder = some 2 ∧ asked.layouts.waiting = [0, 3] := by decide +kernel

/-- 8.1: port 2 releases and ALERT_GRANTED goes to port 0; port 3 leaves the list; port 0 releases to none. -/
theorem test_releaseAlert :
    let s := after (.releaseAlert 2 3 []) asked
    let t := after (.releaseAlert 3 3 []) s
    let u := after (.releaseAlert 0 3 []) t
    said 2 s = [0x61, 0x00, 3] ∧ posted 0 s = [0x04] ∧ s.layouts.holder = some 0 ∧ s.layouts.waiting = [3] ∧
      said 3 t = [0x61, 0x00, 4] ∧ t.layouts.waiting = [] ∧ said 0 u = [0x61, 0x00, 3] ∧ u.layouts.holder = none := by
  decide +kernel

theorem test_queryAlert : said 1 (after (.queryAlert 1 1 []) asked) = [0x16, 0x00, 2, 2, 0, 3, 0xFF] := by decide +kernel

/-- A step takes the front command, and idles on an empty queue. -/
theorem test_step :
    step (State.reset.withPending [.identify 0 1 [], .pixelClock]) = exec (.identify 0 1 []) (State.reset.withPending [.pixelClock]) ∧
      step State.reset = .next State.reset := by exact ⟨rfl, rfl⟩

/-! ### Witnesses: states and operands that meet each statement's hypotheses -/

theorem witness_StepTakesTheFrontCommand :
    (State.reset.withPending [.pixelClock, .frameBoundary]).pending = .pixelClock :: [.frameBoundary] ∧
      State.reset.pending = [] := by decide +kernel

/-- A state with a byte in memory, a waiting request, events to the brim, a running panel and a command to step. -/
def busy : State :=
  ({ desk with mem := [(0, 1), (5, 2)] }.withLink 1
      { desk.link 1 with
        requests := List.replicate 4 ⟨0x10, 1, []⟩, responses := List.replicate 4 ⟨1, [0x10, 0]⟩
        events := List.replicate 16 ⟨0, [4]⟩ }).withPending [.frameBoundary]

theorem witness_MemoryStaysCanonical : Memory.wf busy.mem = true ∧ ∃ t, step busy = .next t :=
  ⟨by decide +kernel, _, rfl⟩

/-- A queue of exactly its depth, and a port CLOSING. -/
theorem witness_QueuesStayBounded :
    busy.queuesBounded ∧ ((after (.closeSession 0 1 []) desk).withPending [.frameBoundary]).queuesBounded ∧
      ((after (.closeSession 0 1 []) desk).session 0).state = .closing ∧ ∃ t, step busy = .next t :=
  ⟨by unfold State.queuesBounded; decide +kernel, by unfold State.queuesBounded; decide +kernel, by decide +kernel, _, rfl⟩

theorem witness_ScanStaysSound :
    busy.scan.sound ∧ State.reset.scan.sound ∧
      (desk.withScan { desk.scan with pos := some (50, 66) }).scan.sound ∧ ∃ t, step busy = .next t :=
  ⟨⟨by decide +kernel, 48, 0, rfl, by decide +kernel, by decide +kernel⟩, ⟨rfl, rfl⟩,
    ⟨by decide +kernel, 50, 66, rfl, by decide +kernel, by decide +kernel⟩, _, rfl⟩

/-- Four jobs of port 2, one in flight. -/
theorem witness_JobsStayBounded :
    (truncated.withPending [.jobCompletion]).drawing.sound ∧ (truncated.drawing.outstanding 2).length = 4 ∧
      ∃ t, step (truncated.withPending [.jobCompletion]) = .next t :=
  ⟨by unfold Drawing.sound; decide +kernel, by decide +kernel, _, rfl⟩

theorem witness_AlertTokenStaysSound :
    (asked.withPending [.releaseAlert 2 1 []]).layouts.tokenSound ∧ asked.layouts.waiting = [0, 3] ∧
      ∃ t, step (asked.withPending [.releaseAlert 2 1 []]) = .next t :=
  ⟨by unfold LayoutController.tokenSound; decide +kernel, by decide +kernel, _, rfl⟩

theorem count_range_of_lt (n p : Nat) : (List.range' 0 n).count p = if p < n then 1 else 0 := by
  rw [List.Nodup.count (List.nodup_range' 1)]
  simp [List.mem_range'_1]

theorem reset_pagesSound : State.reset.surfaces.pagesSound := by
  refine ⟨fun p => ?_, List.Pairwise.imp (fun h => Nat.le_of_lt h) List.pairwise_lt_range'⟩
  have e : (fun i : SurfSlot => (tget State.reset.surfaces.slots i).countPage p) = fun _ => 0 := by
    funext i
    simp [State.reset, Surfaces.reset, tget, SurfaceEntry.countPage]
  rw [e, sum_zero]
  exact count_range_of_lt 4096 p

theorem reset_accountsSound : State.reset.surfaces.accountsSound := by
  have empty : ∀ i, (tget State.reset.surfaces.slots i).surface = none := by decide +kernel
  refine ⟨fun i f h => ?_, by decide +kernel, by decide +kernel⟩
  rw [empty i] at h
  cases h

/-- Three creations on the tables of a device after reset. -/
theorem office_surfacesSound : office.surfaces.pagesSound ∧ office.surfaces.accountsSound := by
  have create : ∀ (m : Surfaces) (n : Port) (i : SurfSlot) (q : SurfaceRequest), m.pagesSound ∧ m.accountsSound →
      m.freeSlot = some i → (1 ≤ q.width ∧ q.width ≤ 2048 ∧ 1 ≤ q.height ∧ q.height ≤ 2048) →
      tget m.surfCount n < Config.surfacesPerPort →
      poolUse (tmod m.pageCount n (· + pagesOf q.width q.height q.format)) ≤ Config.pool →
      (m.create n i q).pagesSound ∧ (m.create n i q).accountsSound :=
    fun m n i q h hi hq hc hp => ⟨Surfaces.create_sound m n i q hi h.1, Surfaces.create_accounts m n i q hi hq hc hp h.1 h.2⟩
  refine create _ 1 2 ⟨16, 16, .p32a, true⟩ (create _ 0 1 ⟨64, 48, .p32, false⟩ (create _ 0 0 ⟨8, 1, .p16, false⟩
    ⟨reset_pagesSound, reset_accountsSound⟩ ?_ ?_ ?_ ?_) ?_ ?_ ?_ ?_) ?_ ?_ ?_ ?_
  all_goals decide +kernel

/-- The tables of a device after reset, and of one with three surfaces of two ports and a window of each. -/
theorem witness_PagesStayConserved :
    State.reset.surfaces.pagesSound ∧ State.reset.surfaces.accountsSound ∧ office.surfaces.pagesSound ∧
      office.surfaces.accountsSound ∧ office.layouts.countsSound ∧ office.surfaces.pageCount = #v[4, 1, 0, 0] ∧
      (∃ t, step (State.reset.withPending [.openSession 0 1 [0, 0, 0, 7]]) = .next t) ∧
      ∃ t, step (office.withPending [.destroySurface 0 1 [0, 0]]) = .next t :=
  ⟨reset_pagesSound, reset_accountsSound, office_surfacesSound.1, office_surfacesSound.2,
    by unfold LayoutController.countsSound; decide +kernel, by decide +kernel, ⟨_, rfl⟩, _, rfl⟩

/-- Loads on a panel where nothing is shown, and on the busy table. -/
theorem witness_LoadsStayWithinBudget :
    (desk.withPending [.frameBoundary]).recordsOwned ∧ (desk.withPending [.frameBoundary]).loadsSound ∧
      desk.scan.timing.isSome = true ∧ ∃ t, step (desk.withPending [.frameBoundary]) = .next t :=
  ⟨⟨by decide +kernel, by decide +kernel⟩, ⟨by decide +kernel, by decide +kernel, by decide +kernel⟩, by decide +kernel, _, rfl⟩

/-- A window of the token's holder alone in band ALERT of the projected layout, another window in MAIN. -/
def alerted : State :=
  let r : Band → WindowRec := fun k => { newWindow 64 48 with state := .stacked, band := k }
  office.withLayouts
    { office.layouts with
      holder := some 0
      projected := ⟨tput (tput office.layouts.projected.recs 0 (some (r .alert))) 1 (some (r .main)), ⟨[], [1], [], [0]⟩⟩ }

theorem alerted_stack (k : Band) : (alerted.layouts.projected.bands.list k).Nodup ∧
    ∀ w, w ∈ alerted.layouts.projected.bands.list k ↔
      ∃ r, alerted.layouts.projected.record w = some r ∧ r.state = .stacked ∧ r.band = k := by
  have h : ∀ w : WinSlot,
      (alerted.layouts.projected.record w = some { newWindow 64 48 with state := .stacked, band := .alert } ∧ w = 0) ∨
        (alerted.layouts.projected.record w = some { newWindow 64 48 with state := .stacked, band := .main } ∧ w = 1) ∨
          (alerted.layouts.projected.record w = none ∧ w ≠ 0 ∧ w ≠ 1) := by decide +kernel
  have b : alerted.layouts.projected.bands = ⟨[], [1], [], [0]⟩ := by decide +kernel
  rw [b]
  refine ⟨by cases k <;> decide, fun w => ?_⟩
  rcases h w with ⟨e, rfl⟩ | ⟨e, rfl⟩ | ⟨e, h0, h1⟩ <;> rw [e] <;> cases k <;> simp_all [Bands.list]

theorem witness_ProjectedStackStaysSound :
    alerted.recordsOwned ∧ alerted.layouts.tokenSound ∧ alerted.layouts.projected.stackSound ∧ alerted.layouts.alertSound ∧
      alerted.layouts.projected.bands.alert = [0] ∧ ∃ t, step (alerted.withPending [.frameBoundary]) = .next t :=
  ⟨⟨by decide +kernel, by decide +kernel⟩, by unfold LayoutController.tokenSound; decide +kernel, alerted_stack,
    by unfold LayoutController.alertSound; decide +kernel, by decide +kernel, _, rfl⟩

/-- A stack is right that agrees with the table of its windows, band by band. -/
theorem stackSound_of {l : Layout} (h : ∀ k ∈ [Band.base, .main, .overlay, .alert], (l.bands.list k).Nodup ∧
    ∀ w, decide (w ∈ l.bands.list k) = (l.record w).any (fun r => decide (r.state = .stacked ∧ r.band = k))) :
    l.stackSound := by
  intro k
  have hk : k ∈ [Band.base, .main, .overlay, .alert] := by cases k <;> decide
  refine ⟨(h k hk).1, fun w => ?_⟩
  have e := (h k hk).2 w
  rw [← decide_eq_true_iff (p := w ∈ _), e, Option.any_eq_true]
  simp only [decide_eq_true_eq, and_assoc]

/-- `office` with the commit of `shown` pending: the applied layout shows nothing yet, the projected one window 0. -/
def waiting : State := after (.commit 0 6 showing) office

theorem live_of {l : Layout} {w : WinSlot} (h : (l.record w).any (fun r => decide (r.state ≠ .withdrawn)) = true) :
    l.live w := by
  rw [Option.any_eq_true] at h
  simpa [Layout.live] using h

theorem waiting_presentationSound : waiting.presentationSound := by
  have one : waiting.layouts.commits = [⟨0, 6, 0, true, [.source 0 1 1 0 0, .showWindow 0], [0]⟩] := by decide +kernel
  have noClosing : waiting.layouts.applied.without waiting.closes = waiting.layouts.applied := by decide +kernel
  have last : [Op.source 0 1 1 0 0, .showWindow 0].foldl waiting.played waiting.layouts.applied = waiting.layouts.projected := by
    decide +kernel
  have shown0 : waiting.layouts.named 0 = some (0, 0) := by decide +kernel
  have sourced : (waiting.surfaces.named 1).any (fun q => decide (q.2.owner = 0)) = true := by decide +kernel
  refine ⟨by decide +kernel, fun h => ?_, fun w r e h => ?_, ?_, fun i f e => ?_,
    ⟨stackSound_of (by decide +kernel), by decide +kernel, by decide +kernel⟩, ?_⟩
  · have : waiting.scan.timing.isSome = true := by decide +kernel
    rw [h] at this; cases this
  · have all : ∀ w, (waiting.layouts.applied.record w).all (fun r => decide (r.state ≠ .withdrawn)) = true := by decide +kernel
    have := all w
    rw [e] at this
    simp [h] at this
  · rw [one]
    decide +kernel
  · have all : ∀ i, (tget waiting.surfaces.slots i).surface.all (fun f => decide (f.queuedRefs =
        ((waiting.layouts.commits.flatMap (fun p => p.ops)).map (fun op => op.refsOn i)).sum)) = true := by decide +kernel
    have := all i
    rw [e] at this
    simpa using this
  · rw [one, noClosing]
    refine ⟨⟨⟨0, shown0, live_of (by decide +kernel), nofun, fun h surface sx sy e => ?_⟩,
      ⟨0, shown0, live_of (by decide +kernel), nofun, nofun⟩, trivial⟩, ?_, ?_⟩
    · cases e
      rw [Option.any_eq_true] at sourced
      obtain ⟨⟨i, f⟩, e, h⟩ := sourced
      exact ⟨i, f, e, by simpa using h⟩
    · rw [last]
      exact ⟨stackSound_of (by decide +kernel), by decide +kernel, by decide +kernel⟩
    · rw [last]
      exact ⟨rfl, fun w => Or.inl rfl⟩

theorem desk_presentationSound : desk.presentationSound := by
  have noWindow : ∀ w, desk.layouts.applied.record w = none := by decide +kernel
  have noSurface : ∀ i, (tget desk.surfaces.slots i).surface = none := by decide +kernel
  refine ⟨by decide +kernel, fun _ => by decide +kernel, fun w r e h => ?_, by decide +kernel, fun i f e => ?_,
    ⟨stackSound_of (by decide +kernel), by decide +kernel, by decide +kernel⟩, ⟨by decide +kernel, fun w => Or.inl ?_⟩⟩
  · rw [noWindow w] at e
    cases e
  · rw [noSurface i] at e
    cases e
  · revert w
    decide +kernel

/-- A commit pending; none, with no port CLOSING. -/
theorem witness_LayoutsStayInAgreement :
    waiting.queuesBounded ∧ waiting.presentationSound ∧ waiting.loadsSound ∧ waiting.layouts.commits.length = 1 ∧
      (∃ t, step (waiting.withPending [.frameBoundary]) = .next t) ∧ desk.presentationSound ∧ desk.loadsSound ∧
      desk.layouts.commits = [] ∧ ∀ n, (desk.session n).state ≠ .closing :=
  ⟨by unfold State.queuesBounded; decide +kernel, waiting_presentationSound, by unfold State.loadsSound; decide +kernel,
    by decide +kernel, ⟨_, rfl⟩, desk_presentationSound, by unfold State.loadsSound; decide +kernel, by decide +kernel⟩

theorem witness_RequestFramesAreReadBack :
    (List.replicate 1024 (0 : Byte)).length ≤ 1024 ∧ Kind.write.code ≠ nopCode ∧ ([] : List Byte).length ≤ 1024 := by decide +kernel

/-- A link with a response and an event, with an event alone, with neither, and not IDLE. -/
theorem witness_SelectActiveChoosesTheFrame :
    (busy.link 1).trans = .idle ∧ (busy.link 1).responses.length = 4 ∧ (shown.link 0).trans = .idle ∧
      ((after (.identify 0 1 []) (after (.identify 0 1 []) shown)).link 0).trans = .idle ∧
      (State.reset.link 0).responses = [] ∧ (State.reset.link 0).events = [] ∧ (State.reset.link 0).trans = .idle ∧
      (State.reset.withLink 0 { State.reset.link 0 with events := [⟨0, [4]⟩] }).links ≠ State.reset.links ∧
      ((after (.selectActive 0) State.reset).link 0).trans ≠ .idle := by decide +kernel

/-- Six bits collected, seven bits and the last of a byte, IGNORED and IDLE. -/
theorem witness_ByteClockedSamplesAndDrives :
    let s := after (.selectActive 0) State.reset
    let six := afterAll (List.replicate 6 (.byteClocked 0 true)) s
    let seven := after (.byteClocked 0 false) six
    (six.link 0).trans = .active ∧ (six.link 0).out.isSome = true ∧ (six.link 0).inBits.length = 6 ∧
      (seven.link 0).inBits ++ [true] = bitsOfByte 0xFD ∧
      ((after (.deviceReset true false false false) State.reset).link 0).trans = .ignored ∧
      (State.reset.link 0).trans = .idle := by decide +kernel

/-- A delivered IDLE frame of 8 bytes and one of 7; filler, a NOP, a short frame and a request; queues of 3 and of 4; IGNORED. -/
theorem witness_SelectInactiveJudgesAndDelivers :
    let s := after (.selectActive 0) State.reset
    let whole := clocked 0 (List.replicate 8 0) s
    let short := clocked 0 (List.replicate 7 0) s
    (whole.link 0).trans = .active ∧
      (whole.link 0).out.map (fun f => decide (f.bytes.length ≤ (whole.link 0).inBytes.length)) = some true ∧
      (short.link 0).out.map (fun f => decide (f.bytes.length ≤ (short.link 0).inBytes.length)) = some false ∧
      judge (whole.link 0).inBytes = .nothing ∧ judge [1, 2, 3] = .frameError ∧
      judge (Request.frame ⟨0x00, 1, [7]⟩) = .nop ∧ judge (Request.frame ⟨0x10, 1, []⟩) = .request ⟨0x10, 1, []⟩ ∧
      ((State.reset.withLink 0 { State.reset.link 0 with requests := List.replicate 3 ⟨0x10, 1, []⟩ }).link 0).requests.length < 4 ∧
      ¬ (busy.link 1).requests.length < 4 ∧
      ((after (.deviceReset true false false false) State.reset).link 0).trans = .ignored := by decide +kernel

/-- Queues of 0, 3 and 4 requests, on links in IDLE; a link ACTIVE, and one IGNORED. -/
theorem witness_RequestIsOneTransaction :
    carried (.write 1 2 (List.replicate 1024 0)) = some (1, ⟨0x40, 2, List.replicate 1024 0⟩) ∧ (0x40 : Byte) ≠ nopCode ∧
      (List.replicate 1024 (0 : Byte)).length ≤ 1024 ∧ (busy.link 1).trans = .idle ∧ (busy.link 1).requests.length = 4 ∧
      (truncated.link 2).trans = .idle ∧ (truncated.link 2).requests.length < 4 ∧ (State.reset.link 0).trans = .idle ∧
      carried (.identify 0 1 []) = some (0, ⟨0x01, 1, []⟩) ∧
      ((after (.selectActive 0) State.reset).link 0).trans = .active ∧
      ((after (.deviceReset true false false false) State.reset).link 0).trans = .ignored := by
  decide +kernel

theorem witness_NopIsConsumed :
    (List.replicate 1024 (0 : Byte)).length ≤ 1024 ∧ (busy.link 1).trans = .idle ∧
      judge (Request.frame ⟨0x00, 9, [1]⟩) = .nop ∧ judge [0, 9, 0, 0, 0, 0] = .frameError := by decide +kernel

/-- 15 events and 16. -/
theorem witness_EventsAreNumbered :
    ({ Link.reset with events := List.replicate 15 ⟨0, [4]⟩ } : Link).events.length < 16 ∧
      ¬ (busy.link 1).events.length < 16 := by decide +kernel

/-- A port alone; the holder of the token, whose release or teardown sends ALERT_GRANTED to position 1. -/
theorem witness_PortsAreIndependent :
    carried (.openSession 0 1 [0, 0, 0, 9]) = some (0, ⟨0x02, 1, [0, 0, 0, 9]⟩) ∧ (1 : Port) ≠ 0 ∧
      carried (.releaseAlert 2 1 []) = some (2, ⟨0x61, 1, []⟩) ∧ 0 ∈ asked.layouts.waiting ∧
      (after (.releaseAlert 2 1 []) asked).link 0 = (asked.link 0).post [0x04] ∧
      (after (.closeSession 2 1 []) asked).link 0 = (asked.link 0).post [0x04] := by decide +kernel

theorem office_quiet (n : Port) : office.quiet n := by unfold State.quiet; revert n; decide +kernel
theorem alerted_quiet (n : Port) : alerted.quiet n := by unfold State.quiet; revert n; decide +kernel
theorem asked_quiet (n : Port) : asked.quiet n := by unfold State.quiet; revert n; decide +kernel
theorem desk_quiet (n : Port) : desk.quiet n := by unfold State.quiet; revert n; decide +kernel
theorem reset_quiet (n : Port) : State.reset.quiet n := by unfold State.quiet; revert n; decide +kernel
theorem shown_quiet (n : Port) : shown.quiet n := by unfold State.quiet; revert n; decide +kernel

/-- An unknown kind; WRITE of 11 and COMMIT of 3 bytes, each one short; a kind that needs a session on a CLOSED port. -/
theorem witness_RefusalsAtTheHead :
    State.reset.quiet 3 ∧ (0x99 : Byte) ∉ knownKindCodes ∧ Kind.write.lengthOk 11 = false ∧ Kind.write.lengthOk 1025 = false ∧
      Kind.commit.lengthOk 3 = false ∧
      carried (.write 0 1 (List.replicate 11 0)) = some (0, ⟨Kind.write.code, 1, List.replicate 11 0⟩) ∧
      carried (.commit 0 1 [1, 0, 0]) = some (0, ⟨Kind.commit.code, 1, [1, 0, 0]⟩) ∧
      carried (.queryLoad 3 1 []) = some (3, ⟨Kind.queryLoad.code, 1, []⟩) ∧ Kind.queryLoad.lengthOk 0 = true ∧
      (State.reset.session 3).state = .closed :=
  ⟨reset_quiet 3, by decide +kernel⟩

/-- A CLOSED port whose last session was number 255, and one of number 254. -/
theorem witness_OpenOnAClosedPort :
    let s : Nat → State := fun k => State.reset.withSession 0 { Session.reset with number := k }
    (s 255).quiet 0 ∧ (s 254).quiet 0 ∧ [0, 0, 0, 7].length = 4 ∧ ((s 255).session 0).state = .closed ∧
      ((s 255).session 0).number = 255 ∧ ((s 254).session 0).number = 254 := by
  unfold State.quiet
  decide +kernel

/-- A port with windows, without the token; the holder with an empty list; the holder with a waiting port. -/
theorem witness_TeardownStarts :
    office.quiet 0 ∧ office.drawing.sound ∧ office.layouts.tokenSound ∧ alerted.quiet 0 ∧ alerted.drawing.sound ∧
      alerted.layouts.tokenSound ∧ asked.quiet 2 ∧ asked.drawing.sound ∧ asked.layouts.tokenSound ∧
      (office.session 0).state = .opened ∧ office.scan.timing.isSome = true ∧ [0, 0, 0, 9].length = 4 ∧
      tget office.layouts.owners 0 = some 0 ∧ office.layouts.holder ≠ some 0 ∧ office.drawing.inFlight = none ∧
      (alerted.session 0).state = .opened ∧ alerted.scan.timing.isSome = true ∧ alerted.layouts.holder = some 0 ∧
      alerted.layouts.waiting = [] ∧ (asked.session 2).state = .opened ∧ asked.scan.timing.isSome = true ∧
      asked.layouts.holder = some 2 ∧ asked.layouts.waiting = [0, 3] :=
  ⟨office_quiet 0, by unfold Drawing.sound; decide +kernel, by unfold LayoutController.tokenSound; decide +kernel, alerted_quiet 0,
    by unfold Drawing.sound; decide +kernel, by unfold LayoutController.tokenSound; decide +kernel, asked_quiet 2,
    by unfold Drawing.sound; decide +kernel, by unfold LayoutController.tokenSound; decide +kernel, by decide +kernel⟩

/-- Port 0's FILL in flight, nothing queued. -/
def filling : State := after (.fill 0 1 (rect 0 0 0 1 1 0 ++ [1, 2, 3, 4])) office

/-- Port 0's FILL in flight, port 1's CHECKSUM queued. -/
def contended : State := after (.checksum 1 1 ((rect 2 0 0 1 1 0).take 10)) filling

/-- The port's own job in flight, with nothing queued, and with another port's job queued; another port's in flight, seen from 1. -/
theorem witness_TeardownStarts_aborts :
    (filling.session 0).state = .opened ∧ (contended.session 0).state = .opened ∧ (contended.session 1).state = .opened ∧
      filling.drawing.inFlight.map (fun f => f.job.port) = some 0 ∧ (∀ m, m ≠ 0 → tget filling.drawing.queues m = []) ∧
      contended.drawing.inFlight.map (fun f => f.job.port) = some 0 ∧
      (tget contended.drawing.queues (contended.drawing.pointer + 0)).map (fun j => j.work) = [.checksum] ∧
      contended.drawing.pointer + 0 = 1 ∧ Memory.wf contended.mem = true ∧ (contended.surfaces.named 0).isSome = true := by
  decide +kernel

theorem witness_TeardownStarts_aborts_sound : filling.quiet 0 ∧ filling.drawing.sound ∧ filling.layouts.tokenSound ∧
    contended.quiet 0 ∧ contended.quiet 1 ∧ contended.drawing.sound ∧ contended.layouts.tokenSound :=
  ⟨by unfold State.quiet; decide +kernel, by unfold Drawing.sound; decide +kernel,
    by unfold LayoutController.tokenSound; decide +kernel, by unfold State.quiet; decide +kernel,
    by unfold State.quiet; decide +kernel, by unfold Drawing.sound; decide +kernel,
    by unfold LayoutController.tokenSound; decide +kernel⟩

/-- No panel: port 0 with a surface, its FILL in flight, and the token that port 1 waits for. -/
def unlit : State :=
  let s := (State.reset.openSession 0 7).openSession 1 8
  afterAll [.acquireAlert 0 1 [], .acquireAlert 1 1 [], .fill 0 2 (rect 0 0 0 1 1 0 ++ [1, 2, 3, 4])]
    (s.withSurfaces (s.surfaces.create 0 0 ⟨8, 1, .p16, false⟩))

theorem witness_TeardownFinishesAtOnceWithoutAPanel :
    (State.reset.openSession 0 7).quiet 0 ∧ ((State.reset.openSession 0 7).session 0).state = .opened ∧
      (State.reset.openSession 0 7).scan.timing = none ∧ [0, 0, 0, 9].length = 4 := by
  unfold State.quiet
  decide +kernel

/-- With a job in flight and the token held. -/
theorem witness_TeardownFinishesAtOnceWithoutAPanel_halves :
    unlit.quiet 0 ∧ unlit.drawing.sound ∧ unlit.layouts.tokenSound ∧ (unlit.session 0).state = .opened ∧
      unlit.scan.timing = none ∧ unlit.drawing.inFlight.map (fun f => f.job.port) = some 0 ∧ unlit.layouts.holder = some 0 ∧
      unlit.layouts.waiting = [1] ∧ tget unlit.surfaces.pageCount 0 = 1 :=
  ⟨by unfold State.quiet; decide +kernel, by unfold Drawing.sound; decide +kernel,
    by unfold LayoutController.tokenSound; decide +kernel, by decide +kernel⟩

/-- One port CLOSING by CLOSE, and one by a takeover, with nothing pending, another port's window and a surface of each. -/
theorem witness_TeardownFinishesAtTheBoundary :
    let s := after (.closeSession 0 1 []) office
    let t := after (.openSession 0 1 [0, 0, 0, 9]) office
    s.scan.timing.isSome = true ∧ (s.session 0).state = .closing ∧ (∀ m, m ≠ 0 → (s.session m).state ≠ .closing) ∧
      (s.session 0).cause = .close ∧ (s.link 0).requests = [⟨0x03, 1, []⟩] ∧ (t.session 0).state = .closing ∧
      (∀ m, m ≠ 0 → (t.session m).state ≠ .closing) ∧ (t.session 0).cause = .takeover ∧
      (t.link 0).requests = [⟨0x02, 1, [0, 0, 0, 9]⟩] ∧ t.scan.timing.isSome = true ∧
      (∀ w : WinSlot, decide (w = 0) = true ↔ tget s.layouts.owners w = some 0) ∧
      (∀ w : WinSlot, decide (w = 0) = true ↔ tget t.layouts.owners w = some 0) ∧ s.layouts.commits = [] ∧
      tget s.layouts.owners 1 = some 1 ∧ (tget s.surfaces.slots 0).surface.map (·.owner) = some 0 ∧
      (tget s.surfaces.slots 2).surface.map (·.owner) = some 1 := by decide +kernel

/-- A request behind the one that waits for its teardown; no port CLOSING; two ports CLOSING. -/
theorem witness_TeardownFinishesAtTheBoundary_queues :
    let s := afterAll [.closeSession 0 1 [], .querySession 0 2 []] office
    let t := after (.closeSession 1 1 []) s
    (s.link 0).requests = ⟨0x03, 1, []⟩ :: [⟨0x10, 2, []⟩] ∧ (s.session 0).state = .closing ∧
      (∀ m, m ≠ 0 → (s.session m).state ≠ .closing) ∧ (∀ n, (office.session n).state ≠ .closing) ∧
      [0, 1, 2, 3].filter (fun n : Port => (t.session n).state = .closing) = [0, 1] := by decide +kernel

/-- Four responses queued; four jobs of a quiet port. -/
theorem witness_HeadsWait :
    let s := truncated.withLink 2 { truncated.link 2 with requests := [] }
    (busy.link 1).requests = ⟨0x10, 1, []⟩ :: List.replicate 3 ⟨0x10, 1, []⟩ ∧ (busy.session 1).headWait ≠ .teardown ∧
      4 ≤ (busy.link 1).responses.length ∧ s.quiet 2 ∧ (s.session 2).state ≠ .closed ∧
      Kind.fill.lengthOk (rect 0 0 0 1 1 0 ++ [1, 2, 3, 0]).length = true ∧
      carried (.fill 2 1 (rect 0 0 0 1 1 0 ++ [1, 2, 3, 0])) =
        some (2, ⟨Kind.fill.code, 1, rect 0 0 0 1 1 0 ++ [1, 2, 3, 0]⟩) ∧
      4 ≤ (s.drawing.outstanding 2).length := by
  unfold State.quiet
  decide +kernel


/-- A payload whose record, if it has one, is not valid. -/
theorem not_valid_of (p : List Byte) (h : (timingOfBytes p).any (fun t => t.valid) = false) :
    ∀ t, timingOfBytes p = some t → t.valid = false := by
  intro t e
  rw [e] at h
  simpa using h

/-- The record of 3.7 on an UNCONFIGURED engine; a valid record to a running panel, the one in force and another; one of a width
that is no multiple of 8, and one with an unknown polarity, in either scan state. -/
theorem witness_SetTimingIsServed :
    desk.quiet 0 ∧ (State.reset.openSession 0 7).quiet 0 ∧
      (∀ t, timingOfBytes ((bringUp 0).set 10 2) = some t → t.valid = false) ∧
      (∀ t, timingOfBytes ((bringUp 0).set 1 1) = some t → t.valid = false) ∧ (desk.session 0).state ≠ .closed ∧
      ((State.reset.openSession 0 7).session 0).state ≠ .closed ∧ (bringUp 0).length = 17 ∧ (bytesTiming tiny).length = 17 ∧
      (State.reset.openSession 0 7).scan.timing = none ∧ timingOfBytes (bytesTiming tiny) = some tiny ∧ tiny.valid = true ∧
      desk.scan.timing = some tiny ∧ (timingOfBytes (bringUp 0)).any (fun t => t.valid) = true :=
  ⟨desk_quiet 0, by unfold State.quiet; decide +kernel, not_valid_of _ (by decide +kernel), not_valid_of _ (by decide +kernel),
    by decide +kernel⟩

/-- The smallest record, and the one of the largest totals, 2400 and 1300. -/
theorem witness_TimingRecordsAreReadBack :
    tiny.valid = true ∧
      (⟨1920, 255, 200, 25, 1200, 63, 36, 1, .activeLow, .activeHigh, .activeLow, 16, ⟨255, 0, 1⟩⟩ : Timing).valid = true := by
  decide +kernel

/-- Positions: within a line, at its end, at the end of the frame, and at the last active pixel; with no job in flight, and with one that
writes and one that does not. -/
theorem witness_PixelClockAdvancesThePosition :
    let at_ : Nat → Nat → State := fun line clock => desk.withScan { desk.scan with pos := some (line, clock) }
    desk.scan.timing = some tiny ∧ desk.scan.pos = some (48, 0) ∧ 65 + 1 < tiny.htotal ∧ ¬ 66 + 1 < tiny.htotal ∧
      49 + 1 < tiny.vtotal ∧ ¬ 50 + 1 < tiny.vtotal ∧ (at_ 50 66).scan.pos = some (50, 66) ∧
      (at_ 47 63).scan.pos = some (47, 63) ∧ 47 + 1 = tiny.vactive ∧ 63 + 1 = tiny.hactive ∧ desk.drawing.inFlight = none ∧
      filling.scan.timing = some tiny ∧ filling.scan.pos = some (48, 0) ∧
      filling.drawing.inFlight.map (fun f => f.job.work) = some (.fill [0, 0]) ∧
      (after .jobCompletion contended).scan.pos = some (48, 0) ∧
      (after .jobCompletion contended).drawing.inFlight.map (fun f => f.job.work) = some .checksum := by decide +kernel

/-- After a pixel clock in the last active line, in the sync of the next, and while UNCONFIGURED. -/
theorem witness_PanelFollowsThePosition :
    let at_ : Nat → Nat → State := fun line clock => desk.withScan { desk.scan with pos := some (line, clock) }
    let u := after .pixelClock (at_ 47 62)
    let v := after .pixelClock (at_ 49 64)
    u.scan.timing = some tiny ∧ u.scan.pos = some (47, 63) ∧ 47 < tiny.vactive ∧ 63 < tiny.hactive ∧
      v.scan.pos = some (49, 65) ∧ (after .pixelClock State.reset).scan.timing = none ∧ State.reset.scan.timing = none := by
  decide +kernel

/-- A window on the panel: its last column, the one past it, a hidden one, a source with its pixel fetched, and none; a P16 pixel at
65535. -/
theorem witness_CompositionOfAPixel :
    ∃ r d, shown.layouts.applied.record 0 = some r ∧ shown.layouts.applied.stack = [] ++ [0] ∧ r.source = some d ∧
      (tget shown.layouts.fresh 0).stale = false ∧ r.visible = true ∧ r.x ≤ ((63 : Nat) : Int) ∧
      ((63 : Nat) : Int) < r.x + r.width ∧ ¬ ((64 : Nat) : Int) < r.x + r.width ∧ r.y ≤ ((47 : Nat) : Int) ∧
      ((47 : Nat) : Int) < r.y + r.height ∧ [(⟨0, 62, [1, 2, 3, 0]⟩ : Fetched), ⟨0, 63, [4, 5, 6, 0]⟩].find?
        (fun f => f.win = 0 && f.col = 63) = some ⟨0, 63, [4, 5, 6, 0]⟩ ∧
      desk.layouts.applied.stack = [] ∧ 65535 < 65536 ∧ 65535 % 256 = 255 ∧
      (aging.layouts.applied.record 0).map (fun q => decide (q.source = none)) = some true ∧
      aging.layouts.applied.stack = [0] ∧
      (⟨Vector.replicate 24 none, ⟨[3], [1, 2], [], [0]⟩⟩ : Layout).stack = [3, 1, 2, 0] :=
  ⟨{ newWindow 64 48 with state := .stacked, visible := true, source := some ⟨1, 64, 48, .p32⟩ }, ⟨1, 64, 48, .p32⟩,
    by decide +kernel⟩

/-- The line below, and line 0 below the last; within the line and at its end; a pixel needed at the panel's corner; the blanking; the
last pixel of a surface of three pages. -/
theorem witness_SourcePixelsAreFetched :
    let at_ : Nat → Nat → State := fun line clock => shown.withScan { shown.scan with pos := some (line, clock) }
    (at_ 46 65).scan.timing = some tiny ∧ (at_ 46 65).scan.pos = some (46, 65) ∧ (at_ 50 66).scan.pos = some (50, 66) ∧
      (at_ 47 64).scan.pos = some (47, 64) ∧
      tiny.valid = true ∧ 46 + 1 < tiny.vactive ∧ 50 + 1 = tiny.vtotal ∧ 65 + 1 < tiny.htotal ∧ 66 + 1 = tiny.htotal ∧
      0 ∈ shown.layouts.applied.stack ∧ (tget shown.layouts.fresh 0).stale = false ∧ 63 < tiny.hactive ∧
      (shown.layouts.applied.record 0).any (fun r => decide (r.visible = true ∧ r.source.isSome = true ∧ r.x ≤ (63 : Int) ∧
        (63 : Int) < r.x + r.width ∧ r.y ≤ (47 : Int) ∧ (47 : Int) < r.y + r.height ∧ (63 : Int) = r.sx + (63 - r.x) ∧
        (47 : Int) = r.sy + (47 - r.y))) = true ∧
      tiny.vactive ≤ 47 + 1 ∧ 47 + 1 ≠ tiny.vtotal ∧ ¬ (47 + 1 = tiny.vactive ∧ 64 + 1 = tiny.hactive) ∧
      (shown.surfaces.named 1).map (fun q => (47 * q.2.stride + 63 * 4, q.2.pageList[(47 * q.2.stride + 63 * 4) / 4096]?)) =
        some (12284, some 3) := by decide +kernel

theorem witness_BlendIsTheRule : (255 : Nat) ≤ 255 ∧ (0 : Nat) ≤ 255 := by decide +kernel

/-- A running panel with nothing pending, and no port CLOSING. -/
theorem witness_FrameBoundaryAdvancesTheFrame :
    shown.scan.timing = some tiny ∧ shown.layouts.commits = [] ∧ (∀ n, (shown.session n).state ≠ .closing) := by decide +kernel

/-- One boundary short of the deadline, and at it; ages 254 and 255; a stale window, and one with deadline 0. -/
theorem witness_StaleComesAtTheDeadline :
    let before := afterAll [.commit 0 6 (commitOf [opBytes 8 0 [3], opBytes 6 0 []]), .frameBoundary, .frameBoundary] office
    let old : Nat → Bool → State := fun a b =>
      aging.withLayouts { aging.layouts with fresh := tput aging.layouts.fresh 0 ⟨a, b, false⟩ }
    (aging.layouts.applied.record 0).map (fun r => (r.state, r.visible, r.deadline)) = some (.stacked, true, 3) ∧
      (before.layouts.applied.record 0).isSome = true ∧ tget before.layouts.fresh 0 = ⟨1, false, false⟩ ∧
      tget aging.layouts.fresh 0 = ⟨2, false, false⟩ ∧ tget aging.layouts.owners 0 = some 0 ∧
      aging.layouts.commits = [] ∧ (∀ n, (aging.session n).state ≠ .closing) ∧ aging.scan.timing.isSome = true ∧
      tget (old 254 true).layouts.fresh 0 = ⟨254, true, false⟩ ∧ tget (old 255 true).layouts.fresh 0 = ⟨255, true, false⟩ ∧
      (shown.layouts.applied.record 0).map (·.deadline) = some 0 ∧ tget shown.layouts.owners 0 = some 0 := by decide +kernel

/-- The largest surface; the pool filled to exactly 1536; the last slot. -/
theorem witness_CreateSurfaceCreates :
    let p : List Byte := [0x08, 0x00, 0x08, 0x00, 1, 0]
    let full : State :=
      desk.withSurfaces
        { desk.surfaces with
          slots := Vector.ofFn (fun i => if i.val < 47 then ⟨0, some (newSurface desk.surfaces 1 ⟨8, 8, .p16, false⟩)⟩ else ⟨5, none⟩) }
    desk.quiet 0 ∧ full.quiet 0 ∧ (full.session 0).state ≠ .closed ∧ p.length = 6 ∧ field16 p 0 = 2048 ∧ field16 p 2 = 2048 ∧
      formatOfCode (field8 p 4) = some .p16 ∧ boolOfCode (field8 p 5) = some false ∧
      ((2048 * 2 + 63) / 64 * 64 * 2048 + 4095) / 4096 = 2048 ∧ tget full.surfaces.surfCount 0 < 16 ∧
      tget full.surfaces.slots 47 = ⟨5, none⟩ ∧ (∀ j : SurfSlot, j < 47 → (tget full.surfaces.slots j).surface.isSome = true) ∧
      poolUse (tput full.surfaces.pageCount 0 (tget full.surfaces.pageCount 0 + 2048)) ≤ 1536 ∧
      poolUse (tput full.surfaces.pageCount 0 (128 + 2048)) = 1536 := by
  unfold State.quiet
  decide +kernel

/-- 16 surfaces of a port; a full table; a pool use of 1537; 8 windows of a port; a full window table; width 0 and 2049. -/
theorem witness_CreationsAreRefused :
    let p : List Byte := [0x08, 0x00, 0x08, 0x00, 1, 0]
    let many := desk.withSurfaces { desk.surfaces with surfCount := tput desk.surfaces.surfCount 0 16 }
    let full := desk.withSurfaces
      { desk.surfaces with slots := Vector.replicate 48 ⟨0, some (newSurface desk.surfaces 1 ⟨8, 8, .p16, false⟩)⟩ }
    let heavy := desk.withSurfaces { desk.surfaces with pageCount := tput desk.surfaces.pageCount 0 129 }
    let wins := desk.withLayouts { desk.layouts with winCount := tput desk.layouts.winCount 0 8 }
    let packed := desk.withLayouts { desk.layouts with owners := Vector.replicate 24 (some 1) }
    many.quiet 0 ∧ full.quiet 0 ∧ heavy.quiet 0 ∧ wins.quiet 0 ∧ packed.quiet 0 ∧ (many.session 0).state ≠ .closed ∧
      surfaceRequestOf [0, 0, 0, 1, 1, 0] = none ∧ surfaceRequestOf p = some ⟨2048, 2048, .p16, false⟩ ∧
      16 ≤ tget many.surfaces.surfCount 0 ∧ (∀ i, (tget full.surfaces.slots i).surface.isSome = true) ∧
      tget heavy.surfaces.surfCount 0 < 16 ∧ (tget heavy.surfaces.slots 0).surface = none ∧
      1536 < poolUse (tput heavy.surfaces.pageCount 0 (tget heavy.surfaces.pageCount 0 + 2048)) ∧
      (State.reset.openSession 0 7).quiet 0 ∧ (State.reset.openSession 0 7).scan.timing = none ∧
      desk.quiet 0 ∧ desk.scan.timing.isSome = true ∧ ¬ 1 ≤ field16 [0, 0, 0, 1] 0 ∧ ¬ field16 [0x08, 0x01, 0, 1] 0 ≤ 2048 ∧
      8 ≤ tget wins.layouts.winCount 0 ∧ (∀ w, (tget packed.layouts.owners w).isSome = true) := by
  unfold State.quiet
  decide +kernel

/-- A handle that names nothing, another port's, a shown one, one with a job, and a free one of generation 1023. -/
theorem witness_DestroySurfaceDestroys :
    let s := after (.fill 0 1 (rect 0 0 0 1 1 0 ++ [1, 2, 3, 4])) office
    let last := office.withSurfaces
      { office.surfaces with slots := tmod office.surfaces.slots 1 (fun e => { e with gen := 1023 }) }
    office.quiet 0 ∧ shown.quiet 0 ∧ s.quiet 0 ∧ last.quiet 0 ∧ (office.session 0).state ≠ .closed ∧
      office.surfaces.named (field16 [0, 9] 0) = none ∧
      (office.surfaces.named (field16 [0, 2] 0)).map (fun q => q.2.owner) = some 1 ∧
      (shown.surfaces.named (field16 [0, 1] 0)).map (fun q => (q.2.owner, q.2.shownRefs)) = some (0, 1) ∧
      (s.surfaces.named (field16 [0, 0] 0)).map (fun q => (q.2.owner, q.2.shownRefs, q.2.queuedRefs, q.2.jobRefs)) =
        some (0, 0, 0, 1) ∧
      (last.surfaces.named (field16 [0xFF, 0xC1] 0)).map (fun q => (q.2.owner, q.2.shownRefs, q.2.queuedRefs, q.2.jobRefs)) =
        some (0, 0, 0, 0) := by
  unfold State.quiet
  decide +kernel

/-- A surface handle of slot 47 and generation 1023, and one of slot field 48; a window handle of slot 23 and generation 2047, and one
of slot field 24; slots that hold a surface and a window. -/
theorem witness_HandlesName :
    surfaceHandle 47 1023 = 65519 ∧ surfaceSlotOf 65519 = some 47 ∧ surfaceSlotOf (1023 * 64 + 48) = none ∧
      (tget office.surfaces.slots 1).surface.isSome = true ∧ windowHandle 23 2047 = 65527 ∧ windowSlotOf 65527 = some 23 ∧
      windowSlotOf (2047 * 32 + 24) = none ∧ (tget office.layouts.owners 1).isSome = true := by decide +kernel

/-- Each drawing kind accepted, with three jobs outstanding, and numbers 65534 and 65535. -/
theorem witness_DrawingRequestsBecomeJobs :
    let j : Job := ⟨1, 0, 0, 0, 0, 1, 1, false, .checksum⟩
    let s : Nat → State := fun k => office.withDrawing
      { office.drawing with queues := tput office.drawing.queues 0 [j, j, j], issued := tput office.drawing.issued 0 k }
    (s 65534).quiet 0 ∧ (s 65535).quiet 0 ∧ ((s 65535).session 0).state ≠ .closed ∧
      ((s 65535).drawing.outstanding 0).length < 4 ∧ tget (s 65535).drawing.issued 0 ≥ 65535 ∧
      ¬ tget (s 65534).drawing.issued 0 ≥ 65535 ∧ Kind.write.lengthOk 14 = true ∧ Kind.fill.lengthOk 15 = true ∧
      Kind.copy.lengthOk 17 = true ∧ Kind.checksum.lengthOk 10 = true ∧
      (match office.surfaces.judgeDrawing 0 (writeRequest (rect 0 7 0 1 1 0 ++ [0, 5, 6])) with
        | .ok r => decide (r = (false, .write [5, 6])) | .error _ => false) = true ∧
      (match office.surfaces.judgeDrawing 0 (fillRequest (rect 0 7 0 1 1 1 ++ [1, 2, 3, 4])) with
        | .ok r => r.1 | .error _ => false) = true ∧
      (match office.surfaces.judgeDrawing 0 (copyRequest (rect 0 7 0 1 1 0 ++ [0, 0, 0, 0, 0, 0])) with
        | .ok r => decide (r = (false, .copy 0 0 0)) | .error _ => false) = true ∧
      (match office.surfaces.judgeDrawing 0 (checksumRequest ((rect 0 0 0 8 1 0).take 10)) with
        | .ok r => decide (r = (true, .checksum)) | .error _ => false) = true := by
  unfold State.quiet
  decide +kernel

/-- Refused for each kind: an unknown notify, a rectangle one column past the edge, another port's source, no such surface. -/
theorem witness_RefusedDrawingChangesNothing :
    office.quiet 0 ∧ (office.session 0).state ≠ .closed ∧ (office.drawing.outstanding 0).length < 4 ∧
      (match office.surfaces.judgeDrawing 0 (writeRequest (rect 0 7 0 1 1 2 ++ [0, 5, 6])) with
        | .ok _ => none | .error st => some st) = some .badArgument ∧
      (match office.surfaces.judgeDrawing 0 (fillRequest (rect 0 8 0 1 1 0 ++ [1, 2, 3, 4])) with
        | .ok _ => none | .error st => some st) = some .badRect ∧
      (match office.surfaces.judgeDrawing 0 (copyRequest (rect 0 0 0 1 1 0 ++ [0, 2, 0, 0, 0, 0])) with
        | .ok _ => none | .error st => some st) = some .notOwner ∧
      (match office.surfaces.judgeDrawing 0 (checksumRequest ((rect 9 0 0 8 1 0).take 10)) with
        | .ok _ => none | .error st => some st) = some .noSuchSurface := by
  unfold State.quiet
  decide +kernel

/-- A request of each body on an own target, of each format, one on another port's and one on none; an own and a foreign source; one
with an unknown notify code. -/
theorem witness_DrawingIsJudgedInOrder :
    (office.surfaces.named 0).map (fun q => (q.2.owner, q.2.format)) = some (0, .p16) ∧
      (office.surfaces.named 1).map (fun q => (q.2.owner, q.2.format)) = some (0, .p32) ∧
      (office.surfaces.named 2).map (fun q => (q.2.owner, q.2.format)) = some (1, .p32a) ∧ office.surfaces.named 9 = none ∧
      (writeRequest (rect 0 0 0 8 1 1 ++ [0])).notify = some true ∧ (writeRequest (rect 0 0 0 8 1 2 ++ [0])).notify = none ∧
      (writeRequest (rect 0 0 0 8 1 1 ++ [0, 9])).body = .write [9] ∧
      (fillRequest (rect 0 0 0 8 1 1 ++ [1, 2, 3, 4])).body = .fill ⟨1, 2, 3⟩ 4 ∧
      (copyRequest (rect 0 0 0 8 1 1 ++ [0, 1, 0, 2, 0, 3])).body = .copy 1 2 3 ∧
      (checksumRequest (rect 0 0 0 8 1 1)).body = .checksum := by decide +kernel

/-- The pointer at 3: its own queue first; the three before it empty; every queue empty; the engine BUSY. -/
theorem witness_ArbiterTakesTurns :
    let j : Port → Job := fun n => ⟨1, n, 0, 0, 0, 1, 1, false, .copy 0 0 0⟩
    let d := office.drawing
    let own := office.withDrawing { d with pointer := 3, queues := tput d.queues 3 [j 3] }
    let far := office.withDrawing { d with pointer := 3, queues := tput d.queues 2 [j 2] }
    own.drawing.inFlight = none ∧ tget own.drawing.queues (own.drawing.pointer + 0) = j 3 :: [] ∧
      tget far.drawing.queues (far.drawing.pointer + 3) = j 2 :: [] ∧
      (∀ i : Fin 4, i < 3 → tget far.drawing.queues (far.drawing.pointer + i) = []) ∧
      (∀ n, tget office.drawing.queues n = []) ∧ truncated.drawing.inFlight.isSome = true := by decide +kernel

/-- No job in flight; a job in flight with notify and without, with every queue empty and with jobs queued; a port waiting on nothing,
on job room and on job references. -/
theorem witness_JobCompletionCompletes :
    let s := after (.checksum 0 1 ((rect 0 0 0 8 1 0).take 10)) office
    office.drawing.inFlight = none ∧ s.drawing.inFlight.map (fun f => (f.job.port, f.job.notify)) = some (0, true) ∧
      (s.session 0).headWait = .none ∧ (∀ n, tget s.drawing.queues n = []) ∧
      (s.surfaces.named 0).isSome = true ∧ filling.drawing.inFlight.map (fun f => f.job.notify) = some false ∧
      ((after (.destroySurface 0 2 [0, 0]) filling).session 0).headWait = .jobRefs ∧
      (truncated.session 2).headWait = .jobRoom ∧ truncated.drawing.inFlight.map (fun f => f.job.port) = some 2 ∧
      (tget truncated.drawing.queues (truncated.drawing.pointer + 2)).map (·.number) = [19, 20, 21] ∧
      (∀ i : Fin 4, i < 2 → tget truncated.drawing.queues (truncated.drawing.pointer + i) = []) := by decide +kernel

/-- A COPY within `letters` whose rectangle ends at the surface's last column; a WRITE and a FILL. -/
theorem witness_JobsWriteTheirRectangle :
    (after (.write 0 1 (rect 0 7 0 1 1 0 ++ [0, 5, 6])) letters).drawing.inFlight.map (fun f => (f.written, f.job.work)) =
        some (0, .write [5, 6]) ∧
      (after (.fill 0 1 (rect 0 7 0 1 1 0 ++ [8, 4, 8, 0])) letters).drawing.inFlight.map (fun f => (f.written, f.job.work)) =
        some (0, .fill [0x21, 0x08]) ∧
    let s := after (.copy 0 2 (rect 0 2 0 6 1 0 ++ [0, 0, 0, 0, 0, 0])) letters
    Memory.wf s.mem = true ∧
      s.drawing.inFlight.map (fun f => (f.written, f.job.target, f.job.x, f.job.w, f.taken.length)) = some (0, 0, 2, 6, 6) ∧
      (s.surfaces.named 0).any (fun p => decide (p.2.pageList.Nodup ∧ p.2.stride % 64 = 0 ∧
        p.2.width * p.2.format.bytes ≤ p.2.stride ∧ p.2.stride * p.2.height ≤ 4096 * p.2.pageList.length ∧
        2 + 6 ≤ p.2.width ∧ 0 + 1 ≤ p.2.height)) = true ∧
      (s.session 0).headWait ≠ .jobRoom ∧ (s.session 0).headWait ≠ .jobRefs := by decide +kernel

/-- A FILL of the row of surface 0 that has written three of its eight pixels. -/
def midway : State := (after (.fill 0 1 (rect 0 0 0 8 1 0 ++ [8, 4, 8, 0])) office).writeNext 3

/-- A job that has written some of its pixels. -/
theorem witness_JobsWriteTheirRectangle_midway :
    let g : Surface := ⟨0, 8, 1, .p16, false, 64, 1, [0], 0, 0, 1⟩
    let f : InFlight := ⟨⟨1, 0, 0, 0, 0, 8, 1, false, .fill [0x21, 0x08]⟩, [], 3⟩
    Memory.wf midway.mem = true ∧ midway.drawing.inFlight = some f ∧ midway.surfaces.named f.job.target = some (0, g) ∧
      g.laidOut ∧ f.stands midway.mem g f.written ∧ f.job.x + f.job.w ≤ g.width ∧ f.job.y + f.job.h ≤ g.height ∧
      (midway.session f.job.port).headWait = .none := by
  refine ⟨by decide +kernel, by decide +kernel, by decide +kernel, by unfold Surface.laidOut; decide +kernel, ?_, by decide +kernel⟩
  intro p hp pixel h
  have written : ∀ p ∈ (⟨⟨1, 0, 0, 0, 0, 8, 1, false, .fill [0x21, 0x08]⟩, [], 3⟩ : InFlight).job.order.take 3,
      readPixel midway.mem ⟨0, 8, 1, .p16, false, 64, 1, [0], 0, 0, 1⟩ (0 + p.1) (0 + p.2) = [0x21, 0x08] := by decide +kernel
  rcases h.2 with ⟨_, e, _⟩ | e | ⟨_, _, _, e, _⟩
  · cases e
  · injection e with e
    exact (written p hp).trans e
  · cases e

/-- R89's orders: a COPY upward, downward, to the left, to the right and onto itself, and one between two surfaces. -/
theorem witness_JobsWriteTheirRectangle_orders :
    let copy : Nat → Nat → Nat → Nat → Nat → Job := fun source x y sx sy => ⟨1, 0, 0, x, y, 2, 2, false, .copy source sx sy⟩
    (copy 0 4 4 4 5).order = [(0, 0), (1, 0), (0, 1), (1, 1)] ∧ (copy 0 4 5 4 4).order = [(0, 1), (1, 1), (0, 0), (1, 0)] ∧
      (copy 0 4 4 5 4).order = [(0, 0), (1, 0), (0, 1), (1, 1)] ∧ (copy 0 5 4 4 4).order = [(1, 0), (0, 0), (1, 1), (0, 1)] ∧
      (copy 0 4 4 4 4).order = [(0, 0), (1, 0), (0, 1), (1, 1)] ∧ (copy 1 5 4 4 4).order = [(0, 0), (1, 0), (0, 1), (1, 1)] ∧
      (copy 0 6 4 4 4).order = [(0, 0), (1, 0), (0, 1), (1, 1)] := by decide +kernel

/-- The seventh window of a port, in the last slot, of the largest size. -/
theorem witness_CreateWindowReserves :
    let s := desk.withLayouts
      { desk.layouts with
        owners := tput (Vector.replicate 24 (some 1)) 23 none, winCount := tput desk.layouts.winCount 0 7
        gens := tput desk.layouts.gens 23 2047 }
    s.quiet 0 ∧ (s.session 0).state ≠ .closed ∧ [0x08, 0x00, 0x00, 0x01].length = 4 ∧ s.scan.timing.isSome = true ∧
      field16 [0x08, 0x00, 0x00, 0x01] 0 = 2048 ∧ field16 [0x08, 0x00, 0x00, 0x01] 2 = 1 ∧ tget s.layouts.winCount 0 < 8 ∧
      tget s.layouts.owners 23 = none ∧ (∀ v : WinSlot, v < 23 → (tget s.layouts.owners v).isSome = true) := by
  unfold State.quiet
  decide +kernel

/-- A sourced window of columns -2 to 3 and rows 5 to 8: its first and last rows, and those beside them; records of owned slots. -/
theorem witness_CostCountsTheColumns :
    let r : WindowRec := { newWindow 6 4 with state := .stacked, visible := true, x := -2, y := 5, source := some ⟨1, 6, 4, .p32⟩ }
    r.y ≤ ((5 : Nat) : Int) ∧ ((8 : Nat) : Int) < r.y + r.height ∧ ((4 : Nat) : Int) < r.y ∧
      r.y + r.height ≤ ((9 : Nat) : Int) ∧ r.cost 64 5 = 16 ∧ r.cost 64 9 = 0 ∧
      (∀ w, tget office.layouts.owners w = none →
        office.layouts.applied.record w = none ∧ office.layouts.projected.record w = none) := by decide +kernel

/-- One operation and sixteen; one commit of the port pending. -/
theorem witness_CommitIsAccepted :
    let p := commitOf (List.replicate 16 (opBytes 9 0 []))
    let s := after (.commit 0 6 showing) office
    s.quiet 0 ∧ (s.session 0).state ≠ .closed ∧ field8 p 0 = 16 ∧ p.length = 4 + 12 * 16 ∧
      field8 (commitOf [opBytes 9 0 []]) 0 = 1 ∧ (s.layouts.commits.filter (fun p => p.port = 0)).length < 2 ∧
      (match s.layouts.tryOps s.surfaces 0 0 (opChunks 1 ((commitOf [opBytes 9 0 []]).drop 4)) s.layouts.projected with
        | .ok r => (loadTable s.scan.timing r.1).all (fun x => decide (x ≤ s.scan.budget)) | .error _ => false) = true := by
  unfold State.quiet
  decide +kernel

/-- Counts 0 and 17; a length one byte short; two commits pending; a failing operation; a line over the budget. -/
theorem witness_CommitIsRefused :
    let two := afterAll [.commit 0 6 (commitOf [opBytes 9 0 []]), .commit 0 7 (commitOf [opBytes 9 0 []])] office
    office.quiet 0 ∧ two.quiet 0 ∧ crowded.quiet 0 ∧ (office.session 0).state ≠ .closed ∧ field8 [0, 0, 0, 0] 0 = 0 ∧
      field8 (commitOf (List.replicate 17 (opBytes 9 0 []))) 0 = 17 ∧
      (commitOf (List.replicate 17 (opBytes 9 0 []))).length ≤ 1024 ∧
      ((commitOf [opBytes 9 0 []]).take 15).length ≠ 4 + 12 * 1 ∧
      2 ≤ (two.layouts.commits.filter (fun p => p.port = 0)).length ∧
      (match office.layouts.tryOps office.surfaces 0 0 (opChunks 1 ((commitOf [opBytes 9 1 []]).drop 4)) office.layouts.projected with
        | .ok _ => none | .error e => some e) = some (.notOwner, 0) ∧
      (match crowded.layouts.tryOps crowded.surfaces 0 0 (opChunks 2 (showing.drop 4)) crowded.layouts.projected with
        | .ok r => firstOver crowded.scan.budget 0 (loadTable crowded.scan.timing r.1) | .error _ => none) = some 2 := by
  unfold State.quiet
  decide +kernel

/-- Codes 0, 1, 10 and 11; a handle that names nothing, an own window, another port's, and a WITHDRAWN one. -/
theorem witness_OperationsAreJudgedInOrder :
    let l := office.layouts.projected.withdraw 0
    ¬ (1 ≤ field8 (opBytes 0 0 []) 0) ∧ ¬ field8 (opBytes 11 0 []) 0 ≤ 10 ∧ opOfBytes (opBytes 9 0 []) = some (.touch 0) ∧
      opOfBytes (opBytes 10 1 []) = some (.destroy 1) ∧ office.layouts.named 9 = none ∧ office.layouts.named 0 = some (0, 0) ∧
      office.layouts.named 1 = some (1, 1) ∧ (office.layouts.projected.record 0).map (·.state) = some .reserved ∧
      (l.record 0).map (·.state) = some .withdrawn ∧
      Op.refusedBy (.band 0 4) office.layouts office.surfaces 0 office.layouts.projected 0 (newWindow 64 48) =
        some .badArgument ∧
      Op.refusedBy (.touch 0) office.layouts office.surfaces 0 office.layouts.projected 0 (newWindow 64 48) = none ∧
      (match office.layouts.tryOps office.surfaces 0 1 [opBytes 11 0 []] office.layouts.projected with
        | .ok _ => none | .error e => some e) = some (.badArgument, 1) := by decide +kernel

/-- Coordinates -2048, 2047 and one past each; sizes 0, 1, 2048, 2049; codes 3 and 4; the surfaces and references of each clause. -/
theorem witness_OperationsAreChecked :
    let pl : Int → Nat → WindowRec → Option Status := fun x width r =>
      Op.refusedBy (.place 0 x 2047 width 48) office.layouts office.surfaces 0 office.layouts.projected 0 r
    let sr : WindowRec := { newWindow 64 48 with source := some ⟨1, 64, 48, .p32⟩ }
    let so : Nat → Nat → Nat → Option Status := fun present surface sx =>
      Op.refusedBy (.source 0 present surface sx 0) office.layouts office.surfaces 0 office.layouts.projected 0 (newWindow 64 48)
    let re : Nat → Nat → Option Status := fun code ref =>
      Op.refusedBy (.restack 1 code ref) alerted.layouts office.surfaces 1 alerted.layouts.projected 1
        { newWindow 64 48 with state := .stacked }
    [pl (-2048) 1 (newWindow 64 48), pl (-2049) 1 (newWindow 64 48), pl 2047 2048 (newWindow 64 48), pl 2048 1 (newWindow 64 48),
        pl 0 2049 (newWindow 64 48), pl 0 0 (newWindow 64 48), pl 0 64 sr, pl 0 65 sr] =
      [none, some .badArgument, none, some .badArgument, some .badArgument, some .badArgument, none, some .badRect] ∧
    [so 2 1 0, so 0 9 2047, so 0 9 2048, so 1 9 0, so 1 2 0, so 1 1 0, so 1 1 1] =
      [some .badArgument, none, some .badArgument, some .noSuchSurface, some .notOwner, none, some .badRect] ∧
    [re 4 0, re 1 9, re 2 0, re 3 1] = [some .badArgument, none, some .badStackRef, some .badStackRef] ∧
    office.layouts.holder ≠ some 0 ∧ alerted.layouts.holder = some 0 ∧ alerted.layouts.projected.bands.alert = [0] := by
  decide +kernel

/-- A STACKED window with an own surface, and one of the band it stands in above which and below which it can go. -/
theorem witness_OperationsSetTheirFields :
    (shown.layouts.projected.record 0).map (·.state) = some .stacked ∧ (shown.surfaces.named 1).isSome = true := by
  decide +kernel

/-- A RESERVED window, and two STACKED in MAIN, either a reference for the other; the codes of the bands and of RESTACK. -/
theorem witness_OperationsMoveWindows :
    let c := (office.layouts.projected.stackIfReserved 0).stackIfReserved 1
    (office.layouts.projected.record 0).map (·.state) = some .reserved ∧ (∀ h, Op.touch 0 ≠ .destroy h) ∧
      (c.record 0).map (fun r => (r.state, r.band)) = some (.stacked, .main) ∧ 3 < 4 ∧ Band.base ≠ .main ∧ 1 % 32 = (1 : WinSlot).val ∧
      (1 : WinSlot) ≠ 0 ∧ (1 : WinSlot) ∉ ([] : List WinSlot) ∧ (c.bands.list .main).filter (· != 0) = [] ++ 1 :: [] :=
  ⟨by decide +kernel, nofun, by decide +kernel⟩

/-- A head that is not ready, a ready head alone, and a ready head before one that is not; its first operation a SOURCE, a DESTROY or
none, with the window's record applied; a boundary with a job in flight and without; a port CLOSING with a window. -/
theorem witness_ReadyCommitsAreApplied :
    let late := after (.commit 0 7 showing) filling
    let destroying := after (.commit 0 6 (commitOf [opBytes 10 0 []])) office
    (late.layouts.commits.map (·.reached)) = [false] ∧ late.drawing.inFlight.isSome = true ∧
      (waiting.layouts.commits.map (fun p => (p.reached, p.ops))) = [(true, [.source 0 1 1 0 0, .showWindow 0])] ∧
      waiting.layouts.named 0 = some (0, 0) ∧ (waiting.layouts.applied.record 0).isSome = true ∧
      ((Op.carryOut (.source 0 1 1 0 0) waiting.surfaces 0 waiting.layouts.applied).record 0).isSome = true ∧
      (destroying.layouts.commits.map (fun p => (p.reached, p.ops))) = [(true, [.destroy 0])] ∧
      (destroying.layouts.applied.record 0).isSome = true ∧ waiting.drawing.inFlight = none ∧
      waiting.scan.timing = some tiny ∧ (after (.closeSession 0 1 []) office).closes 0 = true ∧
      (after (.commit 0 7 showing) (after (.fill 0 1 (rect 0 0 0 1 1 0 ++ [1, 2, 3, 4])) waiting)).layouts.commits.map
        (·.reached) = [true, false] := by decide +kernel

/-- The last active pixel of a frame, with a commit to apply. -/
theorem witness_ReadyCommitsAreApplied_pixelClock :
    let s := waiting.withScan { waiting.scan with pos := some (47, 63) }
    s.scan.timing = some tiny ∧ tiny.valid = true ∧ s.scan.pos = some (tiny.vactive - 1, tiny.hactive - 1) ∧
      s.layouts.commits.length = 1 := by decide +kernel

/-- A ready head whose operations have all been carried out. -/
theorem witness_ReadyCommitsAreApplied_presents :
    let done : Pending := ⟨0, 6, 0, true, [], [0]⟩
    let s := shown.withLayouts { shown.layouts with commits := [done] }
    s.layouts.commits = done :: [] ∧ done.reached = true ∧ done.ops = [] := by decide +kernel

/-- A free token; the holder; a port that waits at position 2; a port new to the list. -/
theorem witness_AcquireAlertAnswers :
    asked.quiet 3 ∧ asked.quiet 1 ∧ asked.quiet 2 ∧ desk.quiet 0 ∧ (asked.session 1).state ≠ .closed ∧
      (desk.session 0).state ≠ .closed ∧ desk.layouts.holder = none ∧ asked.layouts.holder = some 2 ∧
      asked.layouts.waiting = [0] ++ 3 :: [] ∧ (3 : Port) ∉ [(0 : Port)] ∧ (1 : Port) ∉ asked.layouts.waiting := by
  unfold State.quiet
  decide +kernel

/-- The holder with a window in the band; the holder without one, with an empty list and with a waiting port; a waiting port; a port
that neither holds nor waits. -/
theorem witness_ReleaseAlertAnswers :
    let s := after (.acquireAlert 0 1 []) desk
    alerted.quiet 0 ∧ alerted.layouts.tokenSound ∧ asked.quiet 2 ∧ asked.quiet 3 ∧ asked.quiet 1 ∧ asked.layouts.tokenSound ∧
      s.quiet 0 ∧ s.layouts.tokenSound ∧ (alerted.session 0).state ≠ .closed ∧ alerted.layouts.holder = some 0 ∧
      0 ∈ alerted.layouts.projected.bands.alert ∧ tget alerted.layouts.owners 0 = some 0 ∧
      (∀ n, (asked.session n).state ≠ .closed) ∧ asked.layouts.holder = some 2 ∧ asked.layouts.applied.bands.alert = [] ∧
      asked.layouts.projected.bands.alert = [] ∧ asked.layouts.waiting = 0 :: [3] ∧ 1 ∉ asked.layouts.waiting ∧
      s.layouts.holder = some 0 ∧ s.layouts.waiting = [] ∧ (s.session 0).state ≠ .closed :=
  ⟨alerted_quiet 0, by unfold LayoutController.tokenSound; decide +kernel, asked_quiet 2, asked_quiet 3, asked_quiet 1,
    by unfold LayoutController.tokenSound; decide +kernel, by unfold State.quiet; decide +kernel,
    by unfold LayoutController.tokenSound; decide +kernel, by decide +kernel⟩

theorem witness_IdentifyAndSessionQueries :
    State.reset.quiet 3 ∧ desk.quiet 0 ∧ (desk.session 0).state ≠ .closed ∧ desk.scan.timing = some tiny ∧
      (State.reset.openSession 0 7).quiet 0 ∧ ((State.reset.openSession 0 7).session 0).state ≠ .closed ∧
      (State.reset.openSession 0 7).scan.timing = none := by
  unfold State.quiet
  decide +kernel

/-- Waiting lists of none, one and two ports; a surface of the port, of another, and none. -/
theorem witness_SurfaceMemoryAndAlertQueries :
    office.quiet 0 ∧ (office.session 0).state ≠ .closed ∧ office.layouts.waiting = [] ∧ office.layouts.holder = none ∧
      asked.quiet 1 ∧ (asked.session 1).state ≠ .closed ∧ asked.layouts.holder = some 2 ∧ asked.layouts.waiting = [0, 3] ∧
      (after (.releaseAlert 3 3 []) asked).layouts.waiting = [0] ∧ (after (.acquireAlert 1 3 []) asked).layouts.waiting = [0, 3, 1] ∧
      [0, 1].length = 2 ∧ office.surfaces.named (field16 [0, 9] 0) = none ∧
      (office.surfaces.named (field16 [0, 1] 0)).map (fun q => q.2.owner) = some 0 ∧
      (office.surfaces.named (field16 [0, 2] 0)).map (fun q => q.2.owner) = some 1 := by
  unfold State.quiet
  decide +kernel

/-- A window of the port, of another, and none; no panel; loads of zero, and a projected peak at line 0; records RESERVED, WITHDRAWN and
STACKED second of its band, with a source and without, at a negative column. -/
theorem witness_WindowAndLoadQueries :
    let s := waiting
    office.quiet 0 ∧ (office.session 0).state ≠ .closed ∧ office.layouts.named (field16 [0, 9] 0) = none ∧
      office.layouts.named (field16 [0, 0] 0) = some (0, 0) ∧ office.layouts.named (field16 [0, 1] 0) = some (1, 1) ∧
      (office.layouts.applied.record 0).isSome = true ∧ (office.layouts.projected.record 0).isSome = true ∧
      (State.reset.openSession 0 7).quiet 0 ∧ (State.reset.openSession 0 7).scan.timing = none ∧
      (State.reset.openSession 0 7).layouts.appliedLoad = [] ∧ s.quiet 0 ∧ (s.session 0).state ≠ .closed ∧
      s.scan.timing = some tiny ∧ (∀ x ∈ s.layouts.appliedLoad, x = 0) ∧ s.layouts.projectedLoad[0]? = some 256 ∧
      (∀ x ∈ s.layouts.projectedLoad, x ≤ 256) ∧
      (office.layouts.applied.record 0).map (fun r => (r.state, r.source)) = some (.reserved, none) ∧
      ((s.layouts.projected.withdraw 0).record 0).map (·.state) = some .withdrawn ∧
      (s.layouts.projected.record 0).map (fun r => (r.state, r.band, r.source.map (·.handle))) = some (.stacked, .main, some 1) ∧
      (⟨[], [1, 0], [], []⟩ : Bands).list .main = [1] ++ 0 :: [] ∧ (0 : WinSlot) ∉ [(1 : WinSlot)] ∧
      ((-1 : Int) % 65536).toNat = 65535 := by
  unfold State.quiet
  decide +kernel

end Sys2Proof.Tests
end

section
/-! What a session controller can do with the head of its queue, said once: what serving a request can come to, and what one examination
can leave (R22 to R31). -/

namespace Sys2Proof.Machine

/-! ### What serving a head decides -/

/-- `t` is `s` after a request of port `n` that touches no link and no session record, and leaves the alert token with its holder: at
most the port takes the free token or joins the waiting list (R24, R136). -/
structure State.Aside (s : State) (n : Port) (t : State) : Prop where
  links : t.links = s.links
  sessions : t.sessions = s.sessions
  holder : ∀ q, s.layouts.holder = some q → t.layouts.holder = some q
  waiting : ∀ q ∈ t.layouts.waiting, q ≠ n → q ∈ s.layouts.waiting

/-- The states that a request of port `n`, served and answered, can leave: beside the work of the other blocks, a session opened on a
CLOSED port, or the alert token passed on by its holder (R29, R137). -/
inductive State.Decides (s : State) (n : Port) : State → Prop
  | aside (t : State) (h : s.Aside n t) : Decides s n t
  | opens (label : BitVec 32) (closed : (s.session n).state = .closed) : Decides s n (s.openSession n label)
  | passes (holds : s.layouts.holder = some n) : Decides s n s.passToken

/-- What serving a request of port `n` can come to (R23 to R31). -/
inductive Served.From (s : State) (n : Port) : Served → Prop
  | answered (t : State) (payload : List Byte) (h : s.Decides n t) : From s n (.answered t payload)
  | waits (w : HeadWait) : From s n (.waits w)
  | held (c : ClosingCause) (l : Option (BitVec 32)) (opened : (s.session n).state = .opened) :
      From s n (.held (s.teardownStart n c l))
  | finished (c : ClosingCause) (l : Option (BitVec 32)) (opened : (s.session n).state = .opened) :
      From s n (.finished ((s.teardownStart n c l).teardownFinish n))

theorem State.Aside.same (s : State) (n : Port) : s.Aside n s := ⟨rfl, rfl, fun _ h => h, fun _ h _ => h⟩

/-- Work that leaves links, session records and the token alone. -/
theorem State.Aside.of_eq {s t : State} (n : Port) (links : t.links = s.links) (sessions : t.sessions = s.sessions)
    (holder : t.layouts.holder = s.layouts.holder) (waiting : t.layouts.waiting = s.layouts.waiting) : s.Aside n t :=
  ⟨links, sessions, fun _ h => holder.trans h, fun _ h _ => waiting ▸ h⟩

/-- An answer that leaves the state as it is. -/
theorem Served.From.unchanged (s : State) (n : Port) (p : List Byte) : (Served.answered s p).From s n :=
  .answered s p (.aside s (State.Aside.same s n))

/-! ### The owning blocks and the token -/

theorem State.serveSetTiming_aside (s : State) (n : Port) (p : List Byte) : s.Aside n (s.serveSetTiming p).1 := by
  unfold State.serveSetTiming
  repeat' split
  all_goals exact .of_eq n rfl rfl rfl rfl

theorem State.serveCreateSurface_aside (s : State) (n : Port) (p : List Byte) : s.Aside n (s.serveCreateSurface n p).1 :=
  .of_eq n (by simp) (by simp) (by simp) (by simp)

theorem State.serveCreateWindow_aside (s : State) (n : Port) (p : List Byte) : s.Aside n (s.serveCreateWindow n p).1 := by
  unfold State.serveCreateWindow
  repeat' split
  all_goals exact .of_eq n rfl rfl rfl rfl

theorem State.serveCommit_aside (s : State) (n : Port) (tag : Byte) (p : List Byte) : s.Aside n (s.serveCommit n tag p).1 := by
  unfold State.serveCommit
  dsimp only
  repeat' split
  all_goals exact .of_eq n rfl rfl rfl rfl

theorem State.serveDrawing_aside (s : State) (n : Port) (k : Kind) (q : DrawRequest) : s.Aside n (s.serveDrawing n k q).1 :=
  .of_eq n (by simp) (by simp) (by simp) (by simp)

theorem State.serveAcquireAlert_aside (s : State) (n : Port) : s.Aside n (s.serveAcquireAlert n).1 := by
  unfold State.serveAcquireAlert
  split
  · rename_i free
    exact ⟨rfl, rfl, fun q h => (nomatch free.symm.trans h), fun _ h _ => h⟩
  · rename_i h held
    split
    · exact .same s n
    · split
      · exact .same s n
      · refine ⟨rfl, rfl, fun q hq => by rw [← hq]; exact held.symm, fun q hq hn => ?_⟩
        rcases List.mem_append.mp hq with hq | hq
        · exact hq
        · exact absurd (List.mem_singleton.mp hq) hn

theorem State.serveReleaseAlert_decides (s : State) (n : Port) : s.Decides n (s.serveReleaseAlert n).1 := by
  unfold State.serveReleaseAlert
  split
  · rename_i holds
    split
    · exact .aside s (.same s n)
    · exact .passes holds
  · split
    · exact .aside _ ⟨rfl, rfl, fun _ h => h, fun q hq _ => (List.mem_filter.mp hq).1⟩
    · exact .aside s (.same s n)

/-! ### One request -/

theorem State.beginTeardown_from (s : State) (n : Port) (c : ClosingCause) (l : Option (BitVec 32))
    (opened : (s.session n).state = .opened) : (s.beginTeardown n c l).From s n := by
  unfold State.beginTeardown
  dsimp only
  split
  · exact .finished c l opened
  · exact .held c l opened

theorem State.serveOpen_from (s : State) (n : Port) (p : List Byte) : (s.serveOpen n p).From s n := by
  unfold State.serveOpen
  split
  · rename_i closed
    exact .answered _ _ (.opens _ closed)
  · rename_i opened
    exact s.beginTeardown_from n _ _ opened
  · exact .waits _

theorem State.serveClose_from (s : State) (n : Port) : (s.serveClose n).From s n := by
  unfold State.serveClose
  split
  · exact .unchanged s n _
  · rename_i opened
    exact s.beginTeardown_from n _ _ opened
  · exact .waits _

theorem State.serveDestroySurface_from (s : State) (n : Port) (p : List Byte) : (s.serveDestroySurface n p).From s n := by
  unfold State.serveDestroySurface
  split
  · exact .unchanged s n _
  · exact .waits _
  · exact .answered _ _ (.aside _ (.of_eq n rfl rfl rfl rfl))

theorem State.serveDrawingKind_from (s : State) (n : Port) (k : Kind) (q : DrawRequest) : (s.serveDrawingKind n k q).From s n := by
  unfold State.serveDrawingKind
  split
  · exact .answered _ _ (.aside _ (s.serveDrawing_aside n k q))
  · exact .waits _

theorem State.carryOut_from (s : State) (n : Port) (k : Kind) (r : Request) : (s.carryOut n k r).From s n := by
  cases k
  case openSession => exact s.serveOpen_from n _
  case closeSession => exact s.serveClose_from n
  case destroySurface => exact s.serveDestroySurface_from n _
  case setTiming => exact .answered _ _ (.aside _ (s.serveSetTiming_aside n _))
  case createSurface => exact .answered _ _ (.aside _ (s.serveCreateSurface_aside n _))
  case createWindow => exact .answered _ _ (.aside _ (s.serveCreateWindow_aside n _))
  case commit => exact .answered _ _ (.aside _ (s.serveCommit_aside n _ _))
  case acquireAlert => exact .answered _ _ (.aside _ (s.serveAcquireAlert_aside n))
  case releaseAlert => exact .answered _ _ (s.serveReleaseAlert_decides n)
  case write => exact s.serveDrawingKind_from n _ _
  case fill => exact s.serveDrawingKind_from n _ _
  case copy => exact s.serveDrawingKind_from n _ _
  case checksum => exact s.serveDrawingKind_from n _ _
  all_goals exact .unchanged s n _

theorem State.serve_from (s : State) (n : Port) (r : Request) : (s.serve n r).From s n := by
  unfold State.serve
  split
  · exact .unchanged s n _
  · split
    · exact .unchanged s n _
    · split
      · exact .unchanged s n _
      · exact s.carryOut_from n _ r

/-! ### One examination -/

/-- What one examination of port `n`'s head can leave: nothing done, the head waiting, the head answered with room in the response
queue, or a teardown started and perhaps finished at once (R22, R25, R34). -/
inductive State.HeadStep (s : State) (n : Port) : State → Prop
  | rests : HeadStep s n s
  | waits (w : HeadWait) (awake : (s.session n).headWait ≠ .teardown) : HeadStep s n (s.setHeadWait n w)
  | answers (t : State) (tag : Byte) (payload : List Byte) (awake : (s.session n).headWait ≠ .teardown)
      (room : (s.link n).responses.length < Config.responseDepth) (h : s.Decides n t) : HeadStep s n (t.answer n tag payload)
  | starts (c : ClosingCause) (l : Option (BitVec 32)) (opened : (s.session n).state = .opened) :
      HeadStep s n (s.teardownStart n c l)
  | finishes (c : ClosingCause) (l : Option (BitVec 32)) (opened : (s.session n).state = .opened) :
      HeadStep s n ((s.teardownStart n c l).teardownFinish n)

theorem State.examineHead_step (s : State) (n : Port) : s.HeadStep n (s.examineHead n).1 := by
  unfold State.examineHead
  split
  · exact .rests
  · rename_i r _ _
    split
    · exact .rests
    · rename_i awake
      split
      · exact .waits _ awake
      · rename_i room
        have served := s.serve_from n r
        cases e : s.serve n r with
        | answered t payload =>
          rw [e] at served
          cases served with
          | answered _ _ h => exact .answers t _ _ awake (Decidable.not_not.mp room) h
        | waits w => exact .waits w awake
        | held t =>
          rw [e] at served
          cases served with
          | held c l opened => exact .starts c l opened
        | finished t =>
          rw [e] at served
          cases served with
          | finished c l opened => exact .finishes c l opened

/-- A condition that every examination of port `n`'s head keeps is kept by the work through its queue (R22). -/
theorem State.examine_keeps {P : State → Prop} {n : Port} (step : ∀ s, P s → P (s.examineHead n).1) (s : State) (h : P s) :
    P (s.examine n) := by
  have upTo : ∀ k s, P s → P (State.examineUpTo k n s) := by
    intro k
    induction k with
    | zero => exact fun _ h => h
    | succ k ih =>
      intro s h
      unfold State.examineUpTo
      split
      · exact ih _ (step s h)
      · exact step s h
  exact upTo _ s h

end Sys2Proof.Machine
end

section
/-! A request of one port and the other ports: each doing of a head is at its own port alone, but for the alert token passed on
(R18, R32, R140). -/

namespace Sys2Proof.Machine

/-! ### The two halves of a teardown, port by port -/

/-- A teardown start is the token dropped in a state whose links and session records differ at the port alone (R32). -/
theorem State.teardownStart_drops (s : State) (n : Port) (c : ClosingCause) (l : Option (BitVec 32)) :
    ∃ u : State, s.teardownStart n c l = u.dropToken n ∧ u.links = tput s.links n (s.link n).teardownStart ∧
      u.sessions = tput s.sessions n { s.session n with state := .closing, cause := c, pendingLabel := l, headWait := .teardown } ∧
      u.layouts.holder = s.layouts.holder ∧ u.layouts.waiting = s.layouts.waiting := by
  unfold State.teardownStart State.teardownLayouts State.dropCommits
  exact ⟨_, rfl, by simp, by simp, by simp, by simp⟩

theorem State.returnResources_link (s : State) (n m : Port) : (s.returnResources n).link m = s.link m := by
  unfold State.link; rw [State.returnResources_links]

theorem State.endTeardown_link (s : State) (n m : Port) :
    (s.endTeardown n).link m = s.link m ∨ m = n ∧ (s.endTeardown n).link m = (s.link m).openSession := by
  rw [State.endTeardown_effect]
  split
  · by_cases e : n = m
    · subst e; exact .inr ⟨rfl, tget_tput_same ..⟩
    · exact .inl (tget_tput_ne _ _ _ _ e)
  · exact .inl rfl

/-- A teardown finish leaves the other ports' links. -/
theorem State.teardownFinish_link (s : State) (n m : Port) (h : m ≠ n) : (s.teardownFinish n).link m = s.link m := by
  have ended : ((s.returnResources n).endTeardown n).link m = s.link m := by
    rcases (s.returnResources n).endTeardown_link n m with e | ⟨e, _⟩
    · rw [e, State.returnResources_link]
    · exact absurd e h
  unfold State.teardownFinish
  dsimp only
  split
  · rw [State.answer, State.link_setHeadWait, State.link_mapLink_ne _ _ _ _ h.symm, ended]
  · exact ended

/-- A teardown finish answers one request at most on the port's own link. -/
theorem State.teardownFinish_own (s : State) (n : Port) :
    ((s.teardownFinish n).link n).responses.length ≤ (s.link n).responses.length + 1 ∧
      ((s.teardownFinish n).link n).events = (s.link n).events := by
  have ended : (((s.returnResources n).endTeardown n).link n).responses = (s.link n).responses ∧
      (((s.returnResources n).endTeardown n).link n).events = (s.link n).events := by
    rcases (s.returnResources n).endTeardown_link n n with e | ⟨_, e⟩ <;> rw [e, State.returnResources_link] <;> exact ⟨rfl, rfl⟩
  unfold State.teardownFinish
  dsimp only
  split
  · unfold State.answer
    rw [State.link_setHeadWait, State.link_mapLink_same]
    exact ⟨by simp [Link.answerHead, ended.1], ended.2⟩
  · rw [State.link_setHeadWait]
    exact ⟨by rw [ended.1]; exact Nat.le_succ _, ended.2⟩

/-- A teardown finish leaves the alert token. -/
theorem State.teardownFinish_token (s : State) (n : Port) :
    (s.teardownFinish n).layouts.holder = s.layouts.holder ∧ (s.teardownFinish n).layouts.waiting = s.layouts.waiting := by
  obtain ⟨_, returned, _⟩ := State.returnResources_effect s n _ _ rfl rfl
  rw [(State.teardownFinish_effect s n).1, returned]
  exact ⟨rfl, rfl⟩

/-! ### One port's doings -/

/-- From `s` to `t` the links and session records of all ports but `n` stand, and so does the alert token, but that port `n` may take
it when it is free, and join or leave the waiting list. -/
structure State.OnlyAt (s : State) (n : Port) (t : State) : Prop where
  link : ∀ m, m ≠ n → t.link m = s.link m
  session : ∀ m, m ≠ n → t.session m = s.session m
  holder : ∀ q, q ≠ n → s.layouts.holder = some q → t.layouts.holder = some q
  waiting : ∀ q ∈ t.layouts.waiting, q ≠ n → q ∈ s.layouts.waiting

theorem State.OnlyAt.same (s : State) (n : Port) : s.OnlyAt n s := ⟨fun _ _ => rfl, fun _ _ => rfl, fun _ _ h => h, fun _ h _ => h⟩

theorem State.OnlyAt.trans {s t u : State} {n : Port} (h : s.OnlyAt n t) (k : t.OnlyAt n u) : s.OnlyAt n u where
  link m hm := (k.link m hm).trans (h.link m hm)
  session m hm := (k.session m hm).trans (h.session m hm)
  holder q hq e := k.holder q hq (h.holder q hq e)
  waiting q hq hn := h.waiting q (k.waiting q hq hn) hn

/-- A change of port `n`'s link and session record alone. -/
theorem State.OnlyAt.of_tput {s t : State} {n : Port} {l : Link} {c : Session} (links : t.links = tput s.links n l)
    (sessions : t.sessions = tput s.sessions n c) (holder : t.layouts.holder = s.layouts.holder)
    (waiting : t.layouts.waiting = s.layouts.waiting) : s.OnlyAt n t where
  link m hm := by unfold State.link; rw [links, tget_tput_ne _ _ _ _ hm.symm]
  session m hm := by unfold State.session; rw [sessions, tget_tput_ne _ _ _ _ hm.symm]
  holder _ _ h := holder.trans h
  waiting _ h _ := waiting ▸ h

theorem State.mapLink_onlyAt (s : State) (n : Port) (f : Link → Link) : s.OnlyAt n (s.mapLink n f) :=
  .of_tput rfl (tput_tget s.sessions n).symm rfl rfl

theorem State.setHeadWait_onlyAt (s : State) (n : Port) (w : HeadWait) : s.OnlyAt n (s.setHeadWait n w) :=
  .of_tput (tput_tget s.links n).symm rfl rfl rfl

theorem State.answer_onlyAt (s : State) (n : Port) (tag : Byte) (p : List Byte) : s.OnlyAt n (s.answer n tag p) :=
  (s.mapLink_onlyAt n _).trans (State.setHeadWait_onlyAt _ n _)

theorem State.openSession_onlyAt (s : State) (n : Port) (label : BitVec 32) : s.OnlyAt n (s.openSession n label) :=
  .of_tput rfl rfl rfl rfl

theorem State.Aside.onlyAt {s t : State} {n : Port} (h : s.Aside n t) : s.OnlyAt n t where
  link m _ := by unfold State.link; rw [h.links]
  session m _ := by unfold State.session; rw [h.sessions]
  holder q _ := h.holder q
  waiting := h.waiting

theorem State.teardownFinish_onlyAt (s : State) (n : Port) : s.OnlyAt n (s.teardownFinish n) where
  link m hm := s.teardownFinish_link n m hm
  session m hm := (State.teardownFinish_effect s n).2.2.2.1 m hm.symm
  holder _ _ h := (s.teardownFinish_token n).1.trans h
  waiting _ h _ := (s.teardownFinish_token n).2 ▸ h

/-! ### The other ports, and the one that the token passes to -/

/-- From `s` to `t` the session records of all ports but `n` stand, and so do their links, but that one of them that waited for the
alert token may have been sent ALERT_GRANTED and hold it (R139). -/
def State.OthersStand (n : Port) (s t : State) : Prop :=
  (∀ m, m ≠ n → t.session m = s.session m) ∧
    (((∀ m, m ≠ n → t.link m = s.link m) ∧ ∀ q ∈ t.layouts.waiting, q ≠ n → q ∈ s.layouts.waiting) ∨
      ∃ q, q ≠ n ∧ q ∈ s.layouts.waiting ∧ t.layouts.holder = some q ∧ t.link q = (s.link q).post alertGrantedPayload ∧
        ∀ m, m ≠ n → m ≠ q → t.link m = s.link m)

theorem State.OthersStand.same (n : Port) (s : State) : State.OthersStand n s s :=
  ⟨fun _ _ => rfl, .inl ⟨fun _ _ => rfl, fun _ h _ => h⟩⟩

/-- Port `n`'s own doings leave the others as they stand. -/
theorem State.OthersStand.onlyAt {n : Port} {s t u : State} (h : State.OthersStand n s t) (k : t.OnlyAt n u) :
    State.OthersStand n s u := by
  obtain ⟨sessions, before | ⟨q, hq, waited, holds, granted, rest⟩⟩ := h
  · obtain ⟨links, waiting⟩ := before
    exact ⟨fun m hm => (k.session m hm).trans (sessions m hm),
      .inl ⟨fun m hm => (k.link m hm).trans (links m hm), fun q h hq => waiting q (k.waiting q h hq) hq⟩⟩
  · exact ⟨fun m hm => (k.session m hm).trans (sessions m hm),
      .inr ⟨q, hq, waited, k.holder q hq holds, (k.link q hq).trans granted, fun m hm hmq => (k.link m hm).trans (rest m hm hmq)⟩⟩

/-- Port `n` passes the token it holds: for the first time to another port, for another port would hold it ever after (R138). -/
theorem State.OthersStand.passToken {n : Port} {s t : State} (h : State.OthersStand n s t) (holds : t.layouts.holder = some n) :
    State.OthersStand n s t.passToken := by
  obtain ⟨sessions, ⟨links, waiting⟩ | ⟨q, hq, _, held, _⟩⟩ := h
  · have records : ∀ m, m ≠ n → t.passToken.session m = s.session m := fun m hm => by
      unfold State.session; rw [State.passToken_sessions]; exact sessions m hm
    refine ⟨records, ?_⟩
    unfold State.passToken
    cases list : t.layouts.waiting with
    | nil => exact .inl ⟨links, fun _ h => by cases h⟩
    | cons q rest =>
      rw [list] at waiting
      by_cases own : q = n
      · subst own
        exact .inl ⟨fun m hm => (State.link_mapLink_ne _ _ _ _ hm.symm).trans (links m hm),
          fun p h hp => waiting p (List.mem_cons_of_mem _ h) hp⟩
      · refine .inr ⟨q, own, waiting q (List.mem_cons_self ..) own, rfl, ?_, fun m hm hmq => ?_⟩
        · exact (State.link_mapLink_same _ _ _).trans (by rw [State.link_withLayouts, links q own])
        · exact (State.link_mapLink_ne _ _ _ _ hmq.symm).trans (links m hm)
  · rw [holds] at held
    exact absurd (Option.some.inj held).symm hq

theorem State.OthersStand.dropToken {n : Port} {s t : State} (h : State.OthersStand n s t) : State.OthersStand n s (t.dropToken n) := by
  unfold State.dropToken
  split
  · rename_i holds
    exact h.passToken holds
  · exact h.onlyAt ⟨fun _ _ => rfl, fun _ _ => rfl, fun _ _ e => e, fun q hq _ => (List.mem_filter.mp hq).1⟩

theorem State.OthersStand.teardownStart {n : Port} {s t : State} (h : State.OthersStand n s t) (c : ClosingCause)
    (l : Option (BitVec 32)) : State.OthersStand n s (t.teardownStart n c l) := by
  obtain ⟨u, e, links, sessions, holder, waiting⟩ := t.teardownStart_drops n c l
  rw [e]
  exact (h.onlyAt (.of_tput links sessions holder waiting)).dropToken

theorem State.OthersStand.decides {n : Port} {s t u : State} (h : State.OthersStand n s t) (k : t.Decides n u) :
    State.OthersStand n s u := by
  cases k with
  | aside _ k => exact h.onlyAt k.onlyAt
  | opens label _ => exact h.onlyAt (t.openSession_onlyAt n label)
  | passes holds => exact h.passToken holds

theorem State.OthersStand.headStep {n : Port} {s t u : State} (h : State.OthersStand n s t) (k : t.HeadStep n u) :
    State.OthersStand n s u := by
  cases k with
  | rests => exact h
  | waits w _ => exact h.onlyAt (t.setHeadWait_onlyAt n w)
  | answers v tag payload _ _ k => exact (h.decides k).onlyAt (v.answer_onlyAt n tag payload)
  | starts c l _ => exact h.teardownStart c l
  | finishes c l _ => exact (h.teardownStart c l).onlyAt (State.teardownFinish_onlyAt _ n)

theorem State.OthersStand.examine {n : Port} {s t : State} (h : State.OthersStand n s t) : State.OthersStand n s (t.examine n) :=
  State.examine_keeps (P := State.OthersStand n s) (fun u k => k.headStep (u.examineHead_step n)) t h

theorem State.OthersStand.selectInactive {n : Port} {s t : State} (h : State.OthersStand n s t) :
    State.OthersStand n s (t.selectInactive n) := by
  unfold State.selectInactive
  split
  · dsimp only
    split
    · exact (h.onlyAt (t.mapLink_onlyAt n _)).examine
    · exact h.onlyAt (t.mapLink_onlyAt n _)
  · exact h.onlyAt (t.mapLink_onlyAt n _)
  · exact h

/-- A whole transaction of port `n` leaves the other ports as they stand. -/
theorem State.transact_othersStand (s : State) (n : Port) (r : Request) : State.OthersStand n s (s.transact n r) := by
  have released : State.OthersStand n s (s.release n) := by
    unfold State.release
    split
    · exact .same n s
    · exact (State.OthersStand.same n s).selectInactive
    · exact (State.OthersStand.same n s).selectInactive
  exact ((released.onlyAt (State.mapLink_onlyAt _ n _)).onlyAt (State.mapLink_onlyAt _ n _)).selectInactive

end Sys2Proof.Machine

open Sys2Proof Sys2Proof.Machine

/-- Settles O21: one transaction of the port leaves the others as they stand, whatever heads its end examines. -/
theorem portsAreIndependent : Obligations.PortsAreIndependent := by
  intro c n r s carries
  obtain ⟨sessions, links⟩ := s.transact_othersStand n r
  refine ⟨_, exec_carried c s n r carries, sessions, ?_⟩
  rcases links with ⟨same, _⟩ | granted
  · exact .inl same
  · exact .inr granted

end

section
/-! The depths of the link queues through every command (R9, R12, R13), and the CLOSING port's head, which waits with the response queue
empty (R25, R33). -/

namespace Sys2Proof.Machine

/-! ### One port's queues -/

/-- What State.queuesBounded says of one port, with link `l` and session record `c`. -/
def Link.Bounded (l : Link) (c : Session) : Prop :=
  l.requests.length ≤ Config.requestDepth ∧ l.responses.length ≤ Config.responseDepth ∧
    l.events.length ≤ Config.eventDepth ∧ (c.state = .closing → c.headWait = .teardown ∧ l.responses = [])

variable {l : Link} {c d : Session}

theorem Link.Bounded.post (h : l.Bounded c) (p : List Byte) : (l.post p).Bounded c := by
  obtain ⟨requests, responses, events, closing⟩ := h
  unfold Link.post
  split
  · rename_i room
    exact ⟨requests, responses, by simp only [List.length_append, List.length_singleton]; exact room, closing⟩
  · exact ⟨requests, responses, events, closing⟩

/-- An answer to the head stays within the depth when there is room, on a port that is not CLOSING. -/
theorem Link.Bounded.answerHead (h : l.Bounded c) (tag : Byte) (p : List Byte) (room : l.responses.length < Config.responseDepth)
    (awake : d.state ≠ .closing) : (l.answerHead tag p).Bounded d := by
  obtain ⟨requests, _, events, _⟩ := h
  refine ⟨?_, ?_, events, fun e => absurd e awake⟩
  · show l.requests.tail.length ≤ _
    rw [List.length_tail]
    exact Nat.le_trans (Nat.sub_le ..) requests
  · simp only [Link.answerHead, List.length_append, List.length_singleton]
    exact room

/-- A teardown start empties the response and event queues (R16). -/
theorem Link.Bounded.teardownStart (h : l.Bounded c) (waits : d.headWait = .teardown) : l.teardownStart.Bounded d :=
  ⟨h.1, Nat.zero_le _, Nat.zero_le _, fun _ => ⟨waits, rfl⟩⟩

theorem Link.Bounded.awake (h : l.Bounded c) (awake : d.state ≠ .closing) : l.Bounded d := by
  obtain ⟨requests, responses, events, _⟩ := h
  exact ⟨requests, responses, events, fun e => absurd e awake⟩

/-- The end of a transaction: a request joins only where there is room, and a delivery shortens a queue (R9, R10). -/
theorem Link.Bounded.receive (h : l.Bounded c) (i : Inbound) : (l.receive i).Bounded c := by
  obtain ⟨requests, rest⟩ := h
  cases i with
  | nothing => exact ⟨requests, rest⟩
  | frameError => exact ⟨requests, rest⟩
  | nop => exact ⟨requests, rest⟩
  | request r =>
    unfold Link.receive
    dsimp only
    split
    · rename_i room
      exact ⟨by simp only [List.length_append, List.length_singleton]; exact room, rest⟩
    · exact ⟨requests, rest⟩

theorem Link.Bounded.deliver (h : l.Bounded c) : l.deliver.Bounded c := by
  have shorter {α : Type} (q : List α) (k : Nat) (hq : q.length ≤ k) : q.tail.length ≤ k := by
    rw [List.length_tail]; omega
  obtain ⟨requests, responses, events, closing⟩ := h
  unfold Link.deliver
  split
  · split
    · dsimp only
      split
      · exact ⟨requests, shorter _ _ responses, events,
          fun e => ⟨(closing e).1, show l.responses.tail = [] by rw [(closing e).2]; rfl⟩⟩
      · exact ⟨requests, responses, shorter _ _ events, closing⟩
      · exact ⟨requests, responses, events, closing⟩
    · exact ⟨requests, responses, events, closing⟩
  · exact ⟨requests, responses, events, closing⟩

theorem Link.Bounded.finishTransaction (h : l.Bounded c) : l.finishTransaction.Bounded c := (h.receive _).deliver

theorem Link.Bounded.selectActive (h : l.Bounded c) : l.selectActive.Bounded c := by
  unfold Link.selectActive
  split <;> exact h

theorem Link.Bounded.clockEdge (h : l.Bounded c) (di : Bool) : (l.clockEdge di).Bounded c := by
  unfold Link.clockEdge Link.sample
  repeat' split
  all_goals exact h

theorem Link.Bounded.clockBytes (h : l.Bounded c) (bytes : List Byte) : (l.clockBytes bytes).Bounded c :=
  foldl_keeps (Link.Bounded · c) _ (fun _ b k => foldl_keeps (Link.Bounded · c) _ (fun _ di k => k.clockEdge di) (bitsOfByte b) _ k)
    bytes l h

/-! ### The queues of all ports -/

variable {s t : State} {n : Port}

theorem State.queuesBounded_of_eq (h : s.queuesBounded) (links : t.links = s.links) (sessions : t.sessions = s.sessions) :
    t.queuesBounded := by
  intro m
  unfold State.link State.session
  rw [links, sessions]
  exact h m

/-- A change at one port needs to be looked at there alone. -/
theorem State.queuesBounded_at (h : s.queuesBounded) (k : s.OnlyAt n t) (own : (t.link n).Bounded (t.session n)) :
    t.queuesBounded := by
  intro m
  by_cases e : m = n
  · subst e; exact own
  · rw [k.link m e, k.session m e]; exact h m

theorem State.queuesBounded_mapLink (h : s.queuesBounded) (n : Port) (f : Link → Link)
    (own : (f (s.link n)).Bounded (s.session n)) : (s.mapLink n f).queuesBounded :=
  State.queuesBounded_at h (s.mapLink_onlyAt n f) (by rw [State.link_mapLink_same]; exact own)

theorem State.queuesBounded_post (h : s.queuesBounded) (n : Port) (p : List Byte) : (s.post n p).queuesBounded :=
  State.queuesBounded_mapLink h n _ (Link.Bounded.post (h n) p)

theorem State.queuesBounded_setHeadWait (h : s.queuesBounded) (n : Port) (w : HeadWait) (awake : (s.session n).state ≠ .closing) :
    (s.setHeadWait n w).queuesBounded :=
  State.queuesBounded_at h (s.setHeadWait_onlyAt n w)
    (Link.Bounded.awake (h n) (by unfold State.setHeadWait; rw [State.session_mapSession_same]; exact awake))

theorem State.queuesBounded_answer (h : s.queuesBounded) (n : Port) (tag : Byte) (p : List Byte)
    (room : (s.link n).responses.length < Config.responseDepth) (awake : (s.session n).state ≠ .closing) :
    (s.answer n tag p).queuesBounded := by
  have placed : (s.mapLink n (fun l => l.answerHead tag p)).queuesBounded :=
    State.queuesBounded_mapLink h n _ (Link.Bounded.answerHead (h n) tag p room awake)
  exact State.queuesBounded_setHeadWait placed n .none awake

theorem State.openSession_opened (s : State) (n : Port) (label : BitVec 32) :
    ((s.openSession n label).session n).state = .opened := by
  show (tget (tput s.sessions n _) n).state = _
  rw [tget_tput_same]

theorem State.openSession_link (s : State) (n : Port) (label : BitVec 32) :
    (s.openSession n label).link n = (s.link n).openSession := State.link_mapLink_same _ _ _

theorem State.queuesBounded_openSession (h : s.queuesBounded) (n : Port) (label : BitVec 32) :
    (s.openSession n label).queuesBounded := by
  refine State.queuesBounded_at h (s.openSession_onlyAt n label) ?_
  rw [State.openSession_link]
  exact Link.Bounded.awake (c := s.session n) (h n) (by rw [State.openSession_opened]; decide)

theorem State.queuesBounded_passToken (h : s.queuesBounded) : s.passToken.queuesBounded := by
  unfold State.passToken
  split
  · exact State.queuesBounded_post (State.queuesBounded_of_eq h rfl rfl) _ _
  · exact State.queuesBounded_of_eq h rfl rfl

theorem State.queuesBounded_dropToken (h : s.queuesBounded) (n : Port) : (s.dropToken n).queuesBounded := by
  unfold State.dropToken
  split
  · exact State.queuesBounded_passToken h
  · exact State.queuesBounded_of_eq h rfl rfl

theorem State.queuesBounded_teardownStart (h : s.queuesBounded) (n : Port) (cause : ClosingCause) (label : Option (BitVec 32)) :
    (s.teardownStart n cause label).queuesBounded := by
  obtain ⟨u, e, links, sessions, holder, waiting⟩ := s.teardownStart_drops n cause label
  rw [e]
  refine State.queuesBounded_dropToken (State.queuesBounded_at h (.of_tput links sessions holder waiting) ?_) n
  unfold State.link State.session
  rw [links, sessions, tget_tput_same, tget_tput_same]
  exact Link.Bounded.teardownStart (h n) rfl

/-- A CLOSING port has no response, so its teardown finish finds room for its answer (R33). -/
theorem State.queuesBounded_teardownFinish (h : s.queuesBounded) (n : Port) (closing : (s.session n).state = .closing) :
    (s.teardownFinish n).queuesBounded := by
  obtain ⟨requests, _, events, closes⟩ := h n
  obtain ⟨answered, posted⟩ := s.teardownFinish_own n
  obtain ⟨_, _, _, _, ended⟩ := State.teardownFinish_effect s n
  refine State.queuesBounded_at h (s.teardownFinish_onlyAt n) ⟨?_, ?_, posted ▸ events, fun e => absurd e ended⟩
  · rw [State.teardownFinish_requests, List.length_tail]
    exact Nat.le_trans (Nat.sub_le ..) requests
  · rw [(closes closing).2] at answered
    exact Nat.le_trans answered (by decide)

/-! ### An examination -/

theorem Link.post_responses (l : Link) (p : List Byte) : (l.post p).responses = l.responses := by unfold Link.post; split <;> rfl

theorem State.passToken_responses (s : State) (n : Port) : (s.passToken.link n).responses = (s.link n).responses := by
  unfold State.passToken
  split
  · rename_i q _ _
    by_cases e : q = n
    · subst e
      unfold State.post
      rw [State.link_mapLink_same, Link.post_responses, State.link_withLayouts]
    · unfold State.post
      rw [State.link_mapLink_ne _ _ _ _ e, State.link_withLayouts]
  · rfl

/-- What a request decides leaves the port's responses, and the port not CLOSING. -/
theorem State.Decides.own (k : s.Decides n t) (awake : (s.session n).state ≠ .closing) :
    (t.link n).responses = (s.link n).responses ∧ (t.session n).state ≠ .closing := by
  cases k with
  | aside _ k =>
    unfold State.link State.session at *
    rw [k.links, k.sessions]
    exact ⟨rfl, awake⟩
  | opens label _ =>
    rw [State.openSession_link, State.openSession_opened]
    exact ⟨rfl, by decide⟩
  | passes _ =>
    refine ⟨s.passToken_responses n, ?_⟩
    unfold State.session at *
    rw [State.passToken_sessions]
    exact awake

theorem State.queuesBounded_decides (h : s.queuesBounded) (k : s.Decides n t) : t.queuesBounded := by
  cases k with
  | aside _ k => exact State.queuesBounded_of_eq h k.links k.sessions
  | opens label _ => exact State.queuesBounded_openSession h n label
  | passes _ => exact State.queuesBounded_passToken h

theorem State.queuesBounded_headStep (h : s.queuesBounded) (k : s.HeadStep n t) : t.queuesBounded := by
  have awake (w : (s.session n).headWait ≠ .teardown) : (s.session n).state ≠ .closing := by
    obtain ⟨_, _, _, closes⟩ := h n
    exact fun e => w (closes e).1
  cases k with
  | rests => exact h
  | waits w a => exact State.queuesBounded_setHeadWait h n w (awake a)
  | answers u tag p a room k =>
    obtain ⟨responses, state⟩ := k.own (awake a)
    exact State.queuesBounded_answer (State.queuesBounded_decides h k) n tag p (by rw [responses]; exact room) state
  | starts c l _ => exact State.queuesBounded_teardownStart h n c l
  | finishes c l _ =>
    exact State.queuesBounded_teardownFinish (State.queuesBounded_teardownStart h n c l) n (State.teardownStart_closing s n c l)

theorem State.queuesBounded_examine (h : s.queuesBounded) (n : Port) : (s.examine n).queuesBounded :=
  State.examine_keeps (P := State.queuesBounded) (fun u k => State.queuesBounded_headStep k (u.examineHead_step n)) s h

/-! ### A frame boundary -/

theorem State.HeadStep.session (k : s.HeadStep n t) (m : Port) (hm : m ≠ n) : t.session m = s.session m :=
  ((State.OthersStand.same n s).headStep k).1 m hm

/-- Controllers with work left: each port once, and CLOSING if its teardown is still to finish. -/
def State.Finishing (s : State) (todo : List (Port × Bool)) : Prop :=
  (todo.map Prod.fst).Nodup ∧ ∀ p ∈ todo, p.2 = true → (s.session p.1).state = .closing

/-- After an act of port `n`'s controller the others are where they were. -/
theorem State.Finishing.acted {before after : List (Port × Bool)} {b : Bool} (h : s.Finishing (before ++ (n, b) :: after))
    (others : ∀ m, m ≠ n → t.session m = s.session m) :
    t.Finishing (before ++ after ++ [(n, false)]) ∧ t.Finishing (before ++ after) := by
  obtain ⟨once, closing⟩ := h
  have first : ((n, b) :: (before ++ after)).map Prod.fst |>.Nodup :=
    (List.perm_middle.map Prod.fst).nodup_iff.mp once
  obtain ⟨apart, rest⟩ := List.nodup_cons.mp first
  have state : ∀ p ∈ before ++ after, p.2 = true → (t.session p.1).state = .closing := by
    intro p hp hb
    have away : p.1 ≠ n := fun e => apart (List.mem_map.mpr ⟨p, hp, e⟩)
    rw [others p.1 away]
    refine closing p ?_ hb
    rcases List.mem_append.mp hp with h | h
    · exact List.mem_append_left _ h
    · exact List.mem_append_right _ (List.mem_cons_of_mem _ h)
  refine ⟨⟨?_, fun p hp hb => ?_⟩, rest, state⟩
  · exact ((List.perm_append_singleton (n, false) (before ++ after)).map Prod.fst).nodup_iff.mpr first
  · rcases List.mem_append.mp hp with h | h
    · exact state p h hb
    · rw [List.mem_singleton.mp h] at hb
      cases hb

/-- The session controllers of the CLOSING ports, in whatever order they act (R34, log entry 10). -/
theorem State.queuesBounded_controllersRun {todo : List (Port × Bool)} (run : State.ControllersRun todo s t) :
    s.Finishing todo → s.queuesBounded → t.queuesBounded := by
  induction run with
  | done s => exact fun _ h => h
  | finish s t before after n k _ ih =>
    intro todo h
    have closing : (s.session n).state = .closing := todo.2 (n, true) (by simp) rfl
    exact ih (todo.acted (State.teardownFinish_onlyAt ({ s with free := k } : State) n).session).1
      (State.queuesBounded_teardownFinish (s := ({ s with free := k } : State)) h n closing)
  | more s t before after n k _ _ ih =>
    intro todo h
    have step := State.examineHead_step ({ s with free := k } : State) n
    exact ih (todo.acted step.session).1 (State.queuesBounded_headStep (s := ({ s with free := k } : State)) h step)
  | last s t before after n k _ _ ih =>
    intro todo h
    have step := State.examineHead_step ({ s with free := k } : State) n
    exact ih (todo.acted step.session).2 (State.queuesBounded_headStep (s := ({ s with free := k } : State)) h step)

theorem State.closingPorts_finishing (s : State) : s.Finishing (s.closingPorts.map (fun n => (n, true))) := by
  refine ⟨?_, fun p hp _ => ?_⟩
  · have once : s.closingPorts.Nodup := (show allPorts.Nodup by decide).filter _
    simpa [Function.comp_def] using once
  · obtain ⟨n, hn, rfl⟩ := List.mem_map.mp hp
    exact of_decide_eq_true (List.mem_filter.mp hn).2

theorem State.queuesBounded_withdrawClosing (h : s.queuesBounded) : s.withdrawClosing.queuesBounded :=
  State.queuesBounded_of_eq h (by simp) (by simp)

theorem State.queuesBounded_applyCommits (h : s.queuesBounded) : s.applyCommits.queuesBounded :=
  State.applyCommits_keeps State.queuesBounded (fun _ _ _ h _ _ => State.applyCommit_keeps State.queuesBounded State.queuesBounded
    (fun u op k => State.queuesBounded_of_eq k (by simp) (by simp)) (fun _ _ k => k) (fun _ _ k => k)
    (fun u n p k => State.queuesBounded_post (s := u.reload) k n p) _ _ h) _ h

theorem State.queuesBounded_ageWindow (h : s.queuesBounded) (w : WinSlot) : (s.ageWindow w).queuesBounded := by
  unfold State.ageWindow
  split
  · dsimp only
    split
    · split
      · exact State.queuesBounded_post (State.queuesBounded_of_eq h rfl rfl) _ _
      · exact State.queuesBounded_of_eq h rfl rfl
    · exact State.queuesBounded_of_eq h rfl rfl
  · exact h

theorem State.queuesBounded_ageWindows (h : s.queuesBounded) : s.ageWindows.queuesBounded :=
  State.ageWindows_keeps State.queuesBounded (fun _ w k => State.queuesBounded_ageWindow k w) (fun _ k => k) _ h

theorem State.queuesBounded_boundary (h : s.queuesBounded) : s.boundary.queuesBounded := by
  have aged : ((s.withScan _).withdrawClosing.applyCommits).ageWindows.queuesBounded :=
    State.queuesBounded_ageWindows (State.queuesBounded_applyCommits (State.queuesBounded_withdrawClosing
      (s := s.withScan { s.scan with frame := s.scan.frame + 1, shown := [], fetched := [] }) h))
  exact State.queuesBounded_controllersRun (State.finishTeardowns_run _) (State.closingPorts_finishing _) aged

/-! ### Every command -/

theorem State.queuesBounded_frameBoundary (h : s.queuesBounded) : s.frameBoundary.queuesBounded := by
  unfold State.frameBoundary
  split
  · exact h
  · exact State.queuesBounded_boundary (State.queuesBounded_of_eq h (by simp) (by simp))

theorem State.queuesBounded_pixelClock (h : s.queuesBounded) : s.pixelClock.queuesBounded := by
  unfold State.pixelClock
  split
  · dsimp only
    split
    · exact State.queuesBounded_boundary (State.queuesBounded_of_eq h (by simp) (by simp))
    · exact State.queuesBounded_of_eq h (by simp) (by simp)
  · exact h

theorem State.queuesBounded_becomeStale (h : s.queuesBounded) (w : WinSlot) : (s.becomeStale w).queuesBounded := by
  unfold State.becomeStale
  split
  · exact State.queuesBounded_frameBoundary h
  · exact h

theorem State.queuesBounded_completeJob (h : s.queuesBounded) : s.completeJob.queuesBounded := by
  unfold State.completeJob
  split
  · exact h
  · rename_i f _
    have written : (s.writeNext (f.job.writeOrder.length - f.written)).queuesBounded :=
      State.queuesBounded_of_eq h (by simp) (by simp)
    generalize s.writeNext (f.job.writeOrder.length - f.written) = u at written
    refine State.queuesBounded_of_eq (s := u.retireJob f.job) ?_ (by simp) (by simp)
    unfold State.retireJob
    dsimp only
    split
    · exact State.queuesBounded_post (State.queuesBounded_of_eq written rfl rfl) _ _
    · exact State.queuesBounded_of_eq written rfl rfl

theorem State.queuesBounded_jobCompletion (h : s.queuesBounded) : s.jobCompletion.queuesBounded := by
  unfold State.jobCompletion
  split
  · exact h
  · unfold State.examineWaiting
    split
    · exact State.queuesBounded_examine (State.queuesBounded_completeJob h) _
    · exact State.queuesBounded_completeJob h

theorem State.queuesBounded_selectActive (h : s.queuesBounded) (n : Port) : (s.selectActive n).queuesBounded :=
  State.queuesBounded_mapLink h n _ (Link.Bounded.selectActive (h n))

theorem State.queuesBounded_selectInactive (h : s.queuesBounded) (n : Port) : (s.selectInactive n).queuesBounded := by
  have finished : (s.mapLink n Link.finishTransaction).queuesBounded :=
    State.queuesBounded_mapLink h n _ (Link.Bounded.finishTransaction (h n))
  unfold State.selectInactive
  split
  · dsimp only
    split
    · exact State.queuesBounded_examine finished n
    · exact finished
  · exact State.queuesBounded_mapLink h n Link.endTransaction (h n)
  · exact h

theorem State.queuesBounded_transact (h : s.queuesBounded) (n : Port) (r : Request) : (s.transact n r).queuesBounded := by
  have released : (s.release n).queuesBounded := by
    unfold State.release
    split
    · exact h
    · exact State.queuesBounded_selectInactive h n
    · exact State.queuesBounded_selectInactive h n
  have active := State.queuesBounded_selectActive released n
  exact State.queuesBounded_selectInactive (State.queuesBounded_mapLink active n _ (Link.Bounded.clockBytes (active n) _)) n

theorem State.deviceReset_link (s : State) (a b c d : Bool) (n : Port) :
    ∃ selected, (s.deviceReset a b c d).link n = Link.afterReset selected := by
  match n with
  | 0 => exact ⟨a, rfl⟩
  | 1 => exact ⟨b, rfl⟩
  | 2 => exact ⟨c, rfl⟩
  | 3 => exact ⟨d, rfl⟩

theorem State.queuesBounded_deviceReset (s : State) (a b c d : Bool) : (s.deviceReset a b c d).queuesBounded := by
  intro n
  obtain ⟨selected, e⟩ := s.deviceReset_link a b c d n
  have closed : ((s.deviceReset a b c d).session n).state = .closed := by
    show (tget (Vector.replicate 4 Session.reset) n).state = _
    rw [tget_replicate]
    rfl
  rw [e, closed]
  exact ⟨Nat.zero_le _, Nat.zero_le _, Nat.zero_le _, fun k => by cases k⟩

theorem exec_queuesBounded (c : Instr) (s : State) (h : s.queuesBounded) :
    ∃ u : State, exec c s = .next u.settle ∧ u.queuesBounded := by
  cases c
  case selectActive n => exact ⟨_, rfl, State.queuesBounded_selectActive h n⟩
  case selectInactive n => exact ⟨_, rfl, State.queuesBounded_selectInactive h n⟩
  case deviceReset a b c d => exact ⟨_, rfl, s.queuesBounded_deviceReset a b c d⟩
  case frameBoundary => exact ⟨_, rfl, State.queuesBounded_frameBoundary h⟩
  case stale w => exact ⟨_, rfl, State.queuesBounded_becomeStale h w⟩
  case jobCompletion => exact ⟨_, rfl, State.queuesBounded_jobCompletion h⟩
  case pixelClock => exact ⟨_, rfl, State.queuesBounded_pixelClock h⟩
  case byteClocked n di => exact ⟨_, rfl, State.queuesBounded_mapLink h n _ (Link.Bounded.clockEdge (h n) di)⟩
  all_goals exact ⟨_, rfl, State.queuesBounded_transact h _ _⟩

end Sys2Proof.Machine

open Sys2Proof Sys2Proof.Machine

/-- Settles O5: no operation of a command lets a queue grow over its depth, and a head of a CLOSING port is not served. -/
theorem queuesStayBounded : Obligations.QueuesStayBounded := by
  intro s t h e
  unfold step at e
  split at e
  · injection e with e
    exact e ▸ h
  · rename_i c rest _
    obtain ⟨u, next, bounded⟩ := exec_queuesBounded c (s.withPending rest) h
    rw [next] at e
    injection e with e
    exact e ▸ bounded

end

section
/-! The client links' own statements (chapter 1): attention, the request's frame, the three events of a transaction, one whole
transaction, and the numbering of events. -/

namespace Sys2Proof.Machine

/-! ### Attention (R15) -/

/-- Every command ends with the pins following the state it leaves. -/
theorem exec_settles (c : Instr) (s : State) : ∃ u : State, exec c s = .next u.settle := by
  cases c <;> exact ⟨_, rfl⟩

theorem State.settle_attention (s : State) (n : Port) : tget s.settle.pins.attention n = (s.link n).attention := by
  match n with
  | 0 => rfl
  | 1 => rfl
  | 2 => rfl
  | 3 => rfl

theorem Link.attention_iff (l : Link) :
    l.attention = true ↔ (l.responses ≠ [] ∨ l.events ≠ [] ∨ l.flags.overrun = true ∨ l.flags.frameError = true ∨
      l.flags.eventsLost = true) := by
  simp [Link.attention, or_assoc]

end Sys2Proof.Machine

open Sys2Proof Sys2Proof.Machine

/-- Settles O13: the pins a command ends with are computed from the links it leaves, which after a reset hold nothing to attend to. -/
theorem attentionFollowsTheLink : Obligations.AttentionFollowsTheLink := by
  refine ⟨fun c s => ?_, fun s a b c d => ⟨_, rfl, fun n => ?_⟩⟩
  · obtain ⟨u, e⟩ := exec_settles c s
    refine ⟨_, e, fun n => ?_⟩
    rw [State.settle_attention, State.link_settle]
    exact Link.attention_iff _
  · obtain ⟨selected, e⟩ := s.deviceReset_link a b c d n
    rw [State.settle_attention, e]
    rfl

/-- Settles O14: a request's frame is no filler, for its kind is not zero, and the judgement reads its fields back. -/
theorem requestFramesAreReadBack : Obligations.RequestFramesAreReadBack := by
  intro r extra hp hk
  rw [judge_frame r extra hp (r.frame_not_zero extra hk), if_neg hk]

namespace Sys2Proof.Machine

/-! ### Select active (R3 to R5) -/

/-- The first bit of an outbound frame is the first bit of its kind code, which is 0 (R158). -/
theorem OutKind.code_first_bit (k : OutKind) : k.code.getLsbD 7 = false := by cases k <;> rfl

/-- The choice of the outbound frame makes its first bit 0 (R3). -/
theorem Link.chosen_first_bit (l : Link) : (l.chosen.bytes.getD 0 0).getLsbD 7 = false := by
  unfold Link.chosen
  split
  · exact OutKind.code_first_bit .response
  · exact OutKind.code_first_bit .event
  · exact OutKind.code_first_bit .idle

theorem Link.selectActive_idle (l : Link) (idle : l.trans = .idle) :
    l.selectActive =
      { l with
        trans := .active, out := some l.chosen, reported := l.flags, inBytes := [], inBits := [], dout := some false } := by
  unfold Link.selectActive
  rw [idle]
  show Link.drive _ = _
  unfold Link.drive Link.nextOutBit
  simp only [List.length_nil, Nat.sub_zero, Link.chosen_first_bit]

theorem Link.selectActive_busy (l : Link) (busy : l.trans ≠ .idle) : l.selectActive = l := by
  unfold Link.selectActive
  cases e : l.trans with
  | idle => exact absurd e busy
  | active => rfl
  | ignored => rfl

/-- A link changed to itself. -/
theorem State.mapLink_self (s : State) (n : Port) (f : Link → Link) (h : f (s.link n) = s.link n) : s.mapLink n f = s := by
  unfold State.mapLink State.withLink
  rw [h, State.link, tput_tget]

end Sys2Proof.Machine

/-- Settles O15, by the three cases of the choice. -/
theorem selectActiveChoosesTheFrame : Obligations.SelectActiveChoosesTheFrame := by
  intro s n
  refine ⟨fun kind tag payload origin idle chosen => ?_, fun busy => ?_⟩
  · have frame : (s.link n).chosen =
        ⟨withCrc ([kind, tag,
            (if (s.link n).flags.overrun then 0x80 else 0) ||| (if (s.link n).flags.frameError then 0x40 else 0) |||
              (if (s.link n).flags.eventsLost then 0x20 else 0)] ++
            bytes8 (4 - (s.link n).requests.length) ++ bytes16 payload.length ++ payload), origin⟩ := by
      unfold Link.chosen
      cases responses : (s.link n).responses with
      | cons r rest =>
        rw [responses] at chosen
        obtain ⟨rfl, rfl, rfl, rfl⟩ := chosen
        rfl
      | nil =>
        cases events : (s.link n).events with
        | cons e rest =>
          rw [responses, events] at chosen
          obtain ⟨rfl, rfl, rfl, rfl⟩ := chosen
          rfl
        | nil =>
          rw [responses, events] at chosen
          obtain ⟨rfl, rfl, rfl, rfl⟩ := chosen
          rfl
    rw [← frame, ← Link.selectActive_idle _ idle]
    rfl
  · show settled (s.selectActive n) = _
    unfold State.selectActive
    rw [s.mapLink_self n _ (Link.selectActive_busy _ busy)]
    rfl

namespace Sys2Proof.Machine

/-! ### Clocking (R1, R2, R6) -/

/-- An edge within a byte: the bit joins the unfinished byte, and the next outbound bit is driven. -/
theorem Link.clockEdge_within (l : Link) (f : OutFrame) (di : Bool) (active : l.trans = .active) (out : l.out = some f)
    (within : l.inBits.length < 7) :
    l.clockEdge di =
      { l with
        inBits := l.inBits ++ [di]
        dout := some ((f.bytes.getD l.inBytes.length 0).getLsbD (6 - l.inBits.length)) } := by
  have bit : 7 - (l.inBits.length + 1) = 6 - l.inBits.length := by omega
  unfold Link.clockEdge Link.sample
  rw [active, if_pos (by omega)]
  simp only [Link.drive, Link.nextOutBit, out, List.length_append, List.length_singleton, bit]

/-- The eighth edge of a byte: the byte is complete, and the first bit of the next outbound byte is driven. -/
theorem Link.clockEdge_eighth (l : Link) (f : OutFrame) (b : Byte) (di : Bool) (active : l.trans = .active)
    (out : l.out = some f) (bits : l.inBits ++ [di] = bitsOfByte b) :
    l.clockEdge di =
      { l with
        inBytes := l.inBytes ++ [b]
        inBits := []
        dout := some ((f.bytes.getD (l.inBytes.length + 1) 0).getLsbD 7) } := by
  have eight : l.inBits.length + 1 = 8 := by
    have := congrArg List.length bits
    rwa [List.length_append] at this
  unfold Link.clockEdge Link.sample
  rw [active, if_neg (by omega), bits, byteOfBits_bitsOfByte]
  simp only [Link.drive, Link.nextOutBit, out, List.length_append, List.length_singleton, List.length_nil, Nat.sub_zero]

/-- In IGNORED nothing is collected and 0 is driven (R2). -/
theorem Link.clockEdge_ignored (l : Link) (di : Bool) (ignored : l.trans = .ignored) :
    l.clockEdge di = { l with dout := some false } := by
  unfold Link.clockEdge
  split
  · rename_i e; cases ignored.symm.trans e
  · rfl
  · rename_i e; cases ignored.symm.trans e

theorem Link.clockEdge_idle (l : Link) (di : Bool) (idle : l.trans = .idle) : l.clockEdge di = l := by
  unfold Link.clockEdge
  rw [idle]

end Sys2Proof.Machine

/-- Settles O16, by the transaction state of the link. -/
theorem byteClockedSamplesAndDrives : Obligations.ByteClockedSamplesAndDrives := by
  intro s n di
  have clocked (l : Link) (h : (s.link n).clockEdge di = l) : exec (.byteClocked n di) s = .next (s.withLink n l).settle := by
    rw [← h]
    rfl
  refine ⟨fun f active out within => clocked _ (Link.clockEdge_within _ f di active out within),
    fun f b active out bits => clocked _ (Link.clockEdge_eighth _ f b di active out bits),
    fun ignored => clocked _ (Link.clockEdge_ignored _ di ignored), fun idle => ?_⟩
  show settled (s.mapLink n _) = _
  rw [s.mapLink_self n _ (Link.clockEdge_idle _ di idle)]
  rfl

end

section
/-! The end of a transaction (R7 to R11, R22): select inactive, one whole transaction of a request or a NOP, and the numbering of events
(R13, R14). -/

namespace Sys2Proof.Machine

/-! ### Select inactive -/

/-- The link when its inbound frame has left the request queue `queue`, and has set OVERRUN or FRAME_ERROR anew where the Bools say so
(R4, R7). -/
def Link.received (l : Link) (queue : List Request) (overrun error : Bool) : Link :=
  { l with
    requests := queue
    flags := ⟨l.flags.overrun || overrun, l.flags.frameError || error, l.flags.eventsLost⟩
    reported := ⟨l.reported.overrun && !overrun, l.reported.frameError && !error, l.reported.eventsLost⟩ }

theorem Link.received_nothing (l : Link) : l.received l.requests false false = l := by
  simp [Link.received]

theorem Link.receive_frameError (l : Link) : l.receive .frameError = l.received l.requests false true := by
  simp [Link.receive, Link.setFrameError, Link.received]

theorem Link.receive_joins (l : Link) (r : Request) (room : l.requests.length < Config.requestDepth) :
    l.receive (.request r) = l.received (l.requests ++ [r]) false false := by
  simp [l.receive_request r room, Link.received]

theorem Link.receive_overruns (l : Link) (r : Request) (full : ¬ l.requests.length < Config.requestDepth) :
    l.receive (.request r) = l.received l.requests true false := by
  simp [l.receive_overrun r full, Link.setOverrun, Link.received]

/-- A flag at the end of a transaction: set anew, or set before and not delivered as reported (R11). -/
theorem flag_after (flag reported anew delivered : Bool) :
    (if delivered then (flag || anew) && !(reported && !anew) else flag || anew) = (anew || (flag && !(delivered && reported))) := by
  revert flag reported anew delivered
  decide

/-- What the end of a transaction leaves of the link. -/
theorem Link.finishTransaction_eq (l : Link) (f : OutFrame) (queue : List Request) (overrun error delivered : Bool)
    (out : l.out = some f) (whole : delivered = decide (f.bytes.length ≤ l.inBytes.length))
    (inbound : l.receive (judge l.inBytes) = l.received queue overrun error) :
    l.finishTransaction =
      { l with
        trans := .idle
        requests := queue
        responses := if delivered = true ∧ f.origin = some .responseQueue then l.responses.tail else l.responses
        events := if delivered = true ∧ f.origin = some .eventQueue then l.events.tail else l.events
        flags :=
          ⟨overrun || (l.flags.overrun && !(delivered && l.reported.overrun)),
            error || (l.flags.frameError && !(delivered && l.reported.frameError)),
            l.flags.eventsLost && !(delivered && l.reported.eventsLost)⟩
        out := none
        reported := ⟨false, false, false⟩
        inBytes := []
        inBits := []
        dout := none } := by
  have shifted : (l.received queue overrun error).delivered = delivered := by
    rw [whole]; simp only [Link.delivered, Link.received, out]
  unfold Link.finishTransaction
  rw [inbound]
  unfold Link.deliver
  rw [shifted]
  simp only [Link.received, out]
  rw [← flag_after l.flags.overrun, ← flag_after l.flags.frameError]
  cases delivered with
  | false => simp [Link.endTransaction, LinkFlags.clear]
  | true =>
    cases origin : f.origin with
    | none => simp [Link.endTransaction, LinkFlags.clear, LinkFlags.afterDelivery]
    | some o => cases o <;> simp [Link.endTransaction, LinkFlags.clear, LinkFlags.afterDelivery]

/-- When the end of a transaction examines the head (R22). -/
theorem State.examinesAtEnd_eq (s : State) (n : Port) (f : OutFrame) (queue : List Request) (joins overrun error delivered : Bool)
    (out : (s.link n).out = some f) (whole : delivered = decide (f.bytes.length ≤ (s.link n).inBytes.length))
    (inbound : (s.link n).receive (judge (s.link n).inBytes) = (s.link n).received queue overrun error)
    (joined : (s.link n).requests = [] → (joins = true ↔ queue ≠ [])) :
    s.examinesAtEnd n = decide ((joins = true ∧ (s.link n).requests = []) ∨
      (delivered = true ∧ f.origin = some .responseQueue ∧ (s.session n).headWait = .responseRoom)) := by
  have arrives : ((s.link n).requests.isEmpty && !queue.isEmpty) = decide (joins = true ∧ (s.link n).requests = []) := by
    cases requests : (s.link n).requests with
    | nil => cases queue <;> simp [joined requests]
    | cons r rest => simp
  unfold State.examinesAtEnd Link.deliversResponse Link.delivered
  simp only [inbound, out]
  rw [← whole]
  show (_ && !queue.isEmpty || _) = _
  rw [arrives, Bool.eq_iff_iff]
  simp only [Bool.or_eq_true, Bool.and_eq_true, decide_eq_true_eq, and_assoc]

/-- Select inactive on a link in ACTIVE, by what its inbound frame is judged to be. -/
theorem State.selectInactive_active (s : State) (n : Port) (f : OutFrame) (queue : List Request)
    (joins overrun error delivered : Bool) (active : (s.link n).trans = .active)
    (out : (s.link n).out = some f) (whole : delivered = decide (f.bytes.length ≤ (s.link n).inBytes.length))
    (inbound : (s.link n).receive (judge (s.link n).inBytes) = (s.link n).received queue overrun error)
    (joined : (s.link n).requests = [] → (joins = true ↔ queue ≠ [])) :
    s.selectInactive n =
      if (joins = true ∧ (s.link n).requests = []) ∨
          (delivered = true ∧ f.origin = some .responseQueue ∧ (s.session n).headWait = .responseRoom)
      then (s.mapLink n Link.finishTransaction).examine n else s.mapLink n Link.finishTransaction := by
  unfold State.selectInactive
  rw [active]
  dsimp only
  rw [s.examinesAtEnd_eq n f queue joins overrun error delivered out whole inbound joined]
  simp only [decide_eq_true_eq]

theorem State.selectInactive_ignored (s : State) (n : Port) (ignored : (s.link n).trans = .ignored) :
    s.selectInactive n = s.mapLink n Link.endTransaction := by
  unfold State.selectInactive
  rw [ignored]

theorem State.selectInactive_released (s : State) (n : Port) (idle : (s.link n).trans = .idle) : s.selectInactive n = s := by
  unfold State.selectInactive
  rw [idle]

end Sys2Proof.Machine

open Sys2Proof Sys2Proof.Machine

/-- Settles O17, by the rows of R7's table. -/
theorem selectInactiveJudgesAndDelivers : Obligations.SelectInactiveJudgesAndDelivers := by
  intro s n
  refine ⟨fun f joins overruns errs delivered q active out whole judged => ?_, fun ignored => ?_, fun idle => ?_⟩
  · have inbound : (s.link n).receive (judge (s.link n).inBytes) = (s.link n).received q overruns errs ∧
        ((s.link n).requests = [] → (joins = true ↔ q ≠ [])) := by
      cases frame : judge (s.link n).inBytes with
      | nothing =>
        rw [frame] at judged
        obtain ⟨rfl, rfl, rfl, rfl⟩ := judged
        exact ⟨(Link.received_nothing _).symm, fun e => by simp [e]⟩
      | nop =>
        rw [frame] at judged
        obtain ⟨rfl, rfl, rfl, rfl⟩ := judged
        exact ⟨(Link.received_nothing _).symm, fun e => by simp [e]⟩
      | frameError =>
        rw [frame] at judged
        obtain ⟨rfl, rfl, rfl, rfl⟩ := judged
        exact ⟨Link.receive_frameError _, fun e => by simp [e]⟩
      | request r =>
        rw [frame] at judged
        dsimp only at judged
        by_cases room : (s.link n).requests.length < 4
        · rw [if_pos room] at judged
          obtain ⟨rfl, rfl, rfl, rfl⟩ := judged
          exact ⟨Link.receive_joins _ r room, fun _ => by simp⟩
        · rw [if_neg room] at judged
          obtain ⟨rfl, rfl, rfl, rfl⟩ := judged
          exact ⟨Link.receive_overruns _ r room, fun e => by simp [e]⟩
    show settled (s.selectInactive n) = _
    rw [s.selectInactive_active n f q joins overruns errs delivered active out whole inbound.1 inbound.2]
    unfold State.mapLink
    rw [Link.finishTransaction_eq _ f q overruns errs delivered out whole inbound.1]
    rfl
  · show settled (s.selectInactive n) = _
    rw [s.selectInactive_ignored n ignored]
    rfl
  · show settled (s.selectInactive n) = _
    rw [s.selectInactive_released n idle]
    rfl

/-- Settles O18: on an IDLE link the transaction is State.transact_idle; on another it begins with the release of the link. -/
theorem requestIsOneTransaction : Obligations.RequestIsOneTransaction := by
  intro c n r s carries
  refine ⟨fun kind payload idle => ?_, fun busy => ⟨s.selectInactive n, rfl, s.selectInactive_idle n, ?_⟩⟩
  · rw [exec_carried c s n r carries, s.transact_idle n r idle payload kind]
    rfl
  · have released : s.release n = (s.selectInactive n).release n := by
      unfold State.release
      rw [s.selectInactive_idle n]
      cases e : (s.link n).trans with
      | idle => exact absurd e busy
      | active => rfl
      | ignored => rfl
    rw [exec_carried c s n r carries, exec_carried c _ n r carries]
    unfold State.transact
    rw [released]

/-- Settles O19: a NOP's transaction is State.transact_nop, and a frame judged NOP changes nothing of the link. -/
theorem nopIsConsumed : Obligations.NopIsConsumed := by
  refine ⟨fun s n tag payload short idle => ?_, fun l bytes nop => ?_, fun l bytes invalid => ?_⟩
  · rw [exec_carried _ s n ⟨nopCode, tag, payload⟩ rfl, s.transact_nop n ⟨nopCode, tag, payload⟩ idle short rfl]
  · rw [nop]
    rfl
  · rw [invalid]
    rfl

namespace Sys2Proof.Machine

/-! ### The numbering of events (R13, R14) -/

theorem Link.post_room (l : Link) (payload : List Byte) (room : l.events.length < Config.eventDepth) :
    l.post payload = { l with events := l.events ++ [⟨l.seq, payload⟩], seq := l.seq + 1 } := by
  unfold Link.post
  rw [if_pos room]

theorem Link.post_full (l : Link) (payload : List Byte) (full : ¬ l.events.length < Config.eventDepth) :
    l.post payload = { l.setEventsLost with seq := l.seq + 1 } := by
  unfold Link.post
  rw [if_neg full]

end Sys2Proof.Machine

/-- Settles O20, by the room in the event queue. -/
theorem eventsAreNumbered : Obligations.EventsAreNumbered := by
  refine ⟨fun l payload => ⟨fun room => l.post_room payload room, fun full => ?_⟩, by decide, fun s a b c d n => ?_,
    fun s n label => ?_, fun l => rfl⟩
  · rw [l.post_full payload full]
    exact ⟨rfl, rfl, rfl, rfl⟩
  · obtain ⟨selected, e⟩ := s.deviceReset_link a b c d n
    rw [e]
    rfl
  · rw [s.openSession_link n label]
    rfl

end

section
/-! The requests that a session controller decides by itself (chapter 2): the refusals of R23, OPEN on a CLOSED port, and the heads
that wait (R22, R25, R26, R29). -/

namespace Sys2Proof.Machine

/-! ### The checks at the head (R23) -/

/-- The codes of R160 are NOP's and those of the request kinds. -/
theorem knownKindCodes_eq : knownKindCodes = nopCode :: Kind.all.map Kind.code := by decide

/-- A code outside the table of R160 is not NOP's and stands for no kind. -/
theorem Kind.ofCode_unknown (b : Byte) (unknown : b ∉ knownKindCodes) : b ≠ nopCode ∧ Kind.ofCode b = none := by
  rw [knownKindCodes_eq, List.mem_cons, not_or] at unknown
  obtain ⟨notNop, noKind⟩ := unknown
  refine ⟨notNop, List.find?_eq_none.mpr fun k hk e => noKind ?_⟩
  exact of_decide_eq_true e ▸ List.mem_map_of_mem hk

variable (s : State) (n : Port)

theorem State.serve_unknown (r : Request) (unknown : Kind.ofCode r.kind = none) :
    s.serve n r = .answered s (unknownKindReply r.kind) := by
  unfold State.serve
  rw [unknown]

theorem State.serve_badLength (k : Kind) (tag : Byte) (p : List Byte) (length : k.lengthOk p.length = false) :
    s.serve n ⟨k.code, tag, p⟩ = .answered s (refusalAtHead k .badLength) := by
  unfold State.serve
  rw [Kind.ofCode_code]
  dsimp only
  rw [if_pos (by rw [length]; exact Bool.false_ne_true)]

theorem State.serve_noSession (k : Kind) (tag : Byte) (p : List Byte) (length : k.lengthOk p.length = true)
    (session : k.needsNoSession = false) (closed : (s.session n).state = .closed) :
    s.serve n ⟨k.code, tag, p⟩ = .answered s (refusalAtHead k .noSession) := by
  unfold State.serve
  rw [Kind.ofCode_code]
  dsimp only
  rw [if_neg (Decidable.not_not.mpr length), if_pos ⟨closed, session⟩]

theorem Kind.needsNoSession_false (k : Kind) (identify : k ≠ .identify) (opens : k ≠ .openSession) : k.needsNoSession = false := by
  simp [Kind.needsNoSession, identify, opens]

/-- The response of a wrong length; COMMIT's carries operation index 255 (log entry 12). -/
theorem refusalAtHead_badLength (k : Kind) :
    refusalAtHead k .badLength =
      if k = .commit then [0x51, 0x02, 0xFF, 0, 0, 0, 0] else k.code :: 0x02 :: List.replicate (k.responseLength - 2) 0 := by
  by_cases commit : k = .commit
  · subst commit
    decide
  · rw [if_neg commit]
    exact if_neg fun h => commit h.1

theorem refusalAtHead_noSession (k : Kind) :
    refusalAtHead k .noSession = k.code :: 0x04 :: List.replicate (k.responseLength - 2) 0 :=
  if_neg fun h => nomatch h.2

/-! ### OPEN on a CLOSED port (R29) -/

/-- OPEN passes the checks of R23 on a port in any state. -/
theorem State.serve_open (tag : Byte) (p : List Byte) (length : p.length = 4) :
    s.serve n ⟨Kind.openSession.code, tag, p⟩ = s.serveOpen n p := by
  have allowed : Kind.openSession.lengthOk p.length = true := decide_eq_true length
  unfold State.serve
  rw [Kind.ofCode_code]
  dsimp only
  rw [if_neg (Decidable.not_not.mpr allowed), if_neg (fun h => Bool.noConfusion h.2)]
  rfl

theorem State.serveOpen_closed (p : List Byte) (closed : (s.session n).state = .closed) :
    s.serveOpen n p = .answered (s.openSession n (field32 p 0))
      (reply .openSession .ok (bytes8 (nextSessionNumber (s.session n).number))) := by
  have number : ((s.openSession n (field32 p 0)).session n).number = nextSessionNumber (s.session n).number := by
    show (tget (tput s.sessions n _) n).number = _
    rw [tget_tput_same]
  unfold State.serveOpen
  rw [closed]
  dsimp only
  rw [number]

/-- A session opened on a port and its request answered, as one change of the state. -/
theorem State.openSession_answer (r : Request) (payload : List Byte) (label : BitVec 32) :
    ((s.heard n r).openSession n label).answer n r.tag payload =
      { s.replied n r.tag payload with
        links := tput s.links n
          { (s.link n).afterTransaction [] false with
            responses := (s.link n).responses.tail ++ [⟨r.tag, payload⟩]
            seq := 0 }
        sessions := tput s.sessions n ⟨.opened, nextSessionNumber (s.session n).number, label, .none, none, .none⟩
        drawing := s.drawing.openSession n } := by
  have opened : (s.heard n r).openSession n label =
      { s with
        links := tput s.links n { (s.link n).afterTransaction [r] false with seq := 0 }
        sessions := tput s.sessions n
          { s.session n with
            state := .opened, number := nextSessionNumber (s.session n).number, label := label, cause := .none, pendingLabel := none }
        drawing := s.drawing.openSession n } := by
    unfold State.openSession State.heard State.mapLink State.mapSession State.withLink State.withSession State.link
      Link.openSession
    simp only [tget_tput_same, tput_tput]
    rfl
  rw [opened, State.answer_effect]
  unfold State.link State.session
  simp only [tget_tput_same, tput_tput]
  rfl

/-! ### Heads that wait (R22, R25, R26) -/

/-- A head that finds the response queue full waits, and ends the examination. -/
theorem State.examine_responseRoom (r : Request) (rest : List Request) (queue : (s.link n).requests = r :: rest)
    (awake : (s.session n).headWait ≠ .teardown) (full : Config.responseDepth ≤ (s.link n).responses.length) :
    s.examine n = s.setHeadWait n .responseRoom := by
  have head : s.examineHead n = (s.setHeadWait n .responseRoom, false) := by
    unfold State.examineHead
    rw [queue]
    dsimp only
    rw [if_neg awake, if_pos (Nat.not_lt.mpr full)]
  unfold State.examine State.examineUpTo
  rw [head, if_neg Bool.false_ne_true]

/-- A drawing request for which there is no job room waits, whatever its arguments. -/
theorem State.serveDrawingKind_jobRoom (k : Kind) (q : DrawRequest) (full : Config.jobDepth ≤ (s.drawing.outstanding n).length) :
    s.serveDrawingKind n k q = .waits .jobRoom :=
  if_neg (Nat.not_lt.mpr full)

theorem State.carryOut_jobRoom (k : Kind) (r : Request) (drawing : k ∈ [Kind.write, .fill, .copy, .checksum])
    (full : Config.jobDepth ≤ (s.drawing.outstanding n).length) : s.carryOut n k r = .waits .jobRoom := by
  obtain rfl | rfl | rfl | rfl : k = .write ∨ k = .fill ∨ k = .copy ∨ k = .checksum := by simpa using drawing
  all_goals exact s.serveDrawingKind_jobRoom n _ _ full

end Sys2Proof.Machine

open Sys2Proof Sys2Proof.Machine

/-- Settles O22, by the three checks of R23 in their order. -/
theorem refusalsAtTheHead : Obligations.RefusalsAtTheHead := by
  refine ⟨fun s n kind tag payload quiet short unknown => ?_,
    fun c s n k tag payload quiet short carries length => ?_,
    fun c s n k tag payload quiet short carries length identify opens closed => ?_⟩
  · obtain ⟨notNop, noKind⟩ := Kind.ofCode_unknown kind unknown
    rw [exec_carried _ s n ⟨kind, tag, payload⟩ rfl,
      s.transact_replied n _ _ quiet short notNop (State.serve_unknown _ n _ noKind)]
    rfl
  · rw [exec_carried c s n _ carries,
      s.transact_replied n _ _ quiet short k.code_ne_nop (State.serve_badLength _ n k tag payload length), refusalAtHead_badLength]
  · rw [exec_carried c s n _ carries,
      s.transact_replied n _ _ quiet short k.code_ne_nop
        (State.serve_noSession _ n k tag payload length (k.needsNoSession_false identify opens) closed), refusalAtHead_noSession]

/-- Settles O23: the head is served by a session opened and answered at once. -/
theorem openOnAClosedPort : Obligations.OpenOnAClosedPort := by
  rintro s n tag label _ quiet length closed rfl
  have served : (s.heard n ⟨Kind.openSession.code, tag, label⟩).serve n ⟨Kind.openSession.code, tag, label⟩ =
      .answered ((s.heard n ⟨Kind.openSession.code, tag, label⟩).openSession n (field32 label 0))
        (reply .openSession .ok (bytes8 (nextSessionNumber (s.session n).number))) := by
    exact (State.serve_open _ n tag label length).trans (State.serveOpen_closed (s.heard n _) n label closed)
  have waits : (((s.heard n ⟨Kind.openSession.code, tag, label⟩).openSession n (field32 label 0)).link n).requests =
      [⟨Kind.openSession.code, tag, label⟩] := by
    rw [State.openSession_link]
    exact s.heard_requests n _
  rw [exec_carried _ s n _ rfl,
    s.transact_answered n _ _ _ quiet (by rw [length]; decide) Kind.openSession.code_ne_nop served waits,
    State.openSession_answer]
  rfl

/-- Settles O27: each wait is decided before the request is carried out. -/
theorem headsWait : Obligations.HeadsWait := by
  refine ⟨fun s n r rest queue awake full => s.examine_responseRoom n r rest queue awake full,
    fun c s n k tag payload quiet session short drawing length carries full => ?_⟩
  have served : (s.heard n ⟨k.code, tag, payload⟩).serve n ⟨k.code, tag, payload⟩ = .waits .jobRoom := by
    rw [State.serve_known (s.heard n _) n k tag payload length session]
    exact State.carryOut_jobRoom _ n k _ drawing full
  rw [exec_carried c s n _ carries, s.transact_waits n _ _ quiet short k.code_ne_nop served]

end

section
/-! Teardowns as requests start them (chapter 2): CLOSE and a takeover OPEN on an OPEN port, whose teardown waits for the frame boundary
on a RUNNING panel and finishes in the same event without one (R30 to R36). -/

namespace Sys2Proof.Machine

/-! ### The requests that start a teardown (R30, R31) -/

/-- Command `c` sends CLOSE, or an OPEN that takes port `n` over; `cause` and `label` are what the teardown holds, and `kind` is the
request's kind (R19, R30, R31). -/
def TeardownRequest (c : Instr) (n : Port) (tag : Byte) (payload : List Byte) (cause : ClosingCause) (label : Option (BitVec 32))
    (kind : Kind) : Prop :=
  (c = .closeSession n tag payload ∧ payload = [] ∧ cause = .close ∧ label = none ∧ kind = .closeSession) ∨
    (c = .openSession n tag payload ∧ payload.length = 4 ∧ cause = .takeover ∧ label = some (field32 payload 0) ∧
      kind = .openSession)

section Requests

variable {c : Instr} {n : Port} {tag : Byte} {payload : List Byte} {cause : ClosingCause} {label : Option (BitVec 32)} {kind : Kind}

theorem TeardownRequest.carried_eq (h : TeardownRequest c n tag payload cause label kind) :
    carried c = some (n, ⟨kind.code, tag, payload⟩) := by
  obtain ⟨rfl, _, _, _, rfl⟩ | ⟨rfl, _, _, _, rfl⟩ := h
  · rfl
  · rfl

theorem TeardownRequest.short (h : TeardownRequest c n tag payload cause label kind) : payload.length ≤ Config.maxPayload := by
  obtain ⟨_, rfl, _⟩ | ⟨_, length, _⟩ := h
  · exact Nat.zero_le _
  · rw [length]
    decide

theorem TeardownRequest.lengthOk (h : TeardownRequest c n tag payload cause label kind) : kind.lengthOk payload.length = true := by
  obtain ⟨_, rfl, _, _, rfl⟩ | ⟨_, length, _, _, rfl⟩ := h
  · rfl
  · exact decide_eq_true length

/-- On an OPEN port the request begins a teardown. -/
theorem TeardownRequest.serve_eq (h : TeardownRequest c n tag payload cause label kind) (s : State)
    (opened : (s.session n).state = .opened) :
    s.serve n ⟨kind.code, tag, payload⟩ = s.beginTeardown n cause label := by
  rw [State.serve_known s n kind tag payload h.lengthOk (by rw [opened]; decide)]
  obtain ⟨_, _, rfl, rfl, rfl⟩ | ⟨_, _, rfl, rfl, rfl⟩ := h
  · show s.serveClose n = _
    unfold State.serveClose
    rw [opened]
  · show s.serveOpen n payload = _
    unfold State.serveOpen
    rw [opened]

/-- With a panel the command is the teardown start, and the request stays at the head. -/
theorem TeardownRequest.exec_running (h : TeardownRequest c n tag payload cause label kind) (s : State) (quiet : s.quiet n)
    (opened : (s.session n).state = .opened) (panel : s.scan.timing.isSome = true) :
    exec c s = .next ((s.heard n ⟨kind.code, tag, payload⟩).teardownStart n cause label).settle := by
  have held : (s.heard n ⟨kind.code, tag, payload⟩).serve n ⟨kind.code, tag, payload⟩ =
      .held ((s.heard n ⟨kind.code, tag, payload⟩).teardownStart n cause label) := by
    rw [h.serve_eq (s.heard n _) opened]
    exact if_neg (by rw [State.heard_scan, Option.isNone_iff_eq_none]; exact Option.isSome_iff_ne_none.mp panel)
  rw [exec_carried c s n _ h.carried_eq, s.transact_held n _ _ quiet h.short kind.code_ne_nop held]

end Requests

/-! ### What a start leaves of the port (R16, R32) -/

/-- What of a link no posted event changes, the claim on the alert token given up leaves too, though ALERT_GRANTED may be posted. -/
theorem State.dropToken_view {α : Type} (view : Link → α) (kept : ∀ l p, view (l.post p) = view l) (s : State) (n m : Port) :
    view ((s.dropToken n).link m) = view (s.link m) := by
  unfold State.dropToken State.passToken
  split
  · split
    · rename_i q _ _
      by_cases e : q = m
      · subst e
        unfold State.post
        rw [State.link_mapLink_same, kept, State.link_withLayouts]
      · unfold State.post
        rw [State.link_mapLink_ne _ _ _ _ e, State.link_withLayouts]
    · rfl
  · rfl

/-- A teardown start holds the port's request, empties its response queue and notes cause and label. -/
theorem State.teardownStart_own (s : State) (n : Port) (cause : ClosingCause) (label : Option (BitVec 32)) :
    ((s.teardownStart n cause label).link n).requests = (s.link n).requests ∧
      ((s.teardownStart n cause label).link n).responses = [] ∧
      (s.teardownStart n cause label).session n =
        { s.session n with state := .closing, cause := cause, pendingLabel := label, headWait := .teardown } := by
  obtain ⟨u, e, links, sessions, _, _⟩ := s.teardownStart_drops n cause label
  have own : u.link n = (s.link n).teardownStart := by unfold State.link; rw [links, tget_tput_same]; rfl
  have requests := State.dropToken_view Link.requests Link.post_requests u n n
  have responses := State.dropToken_view Link.responses Link.post_responses u n n
  rw [e, requests, responses, own]
  refine ⟨rfl, rfl, ?_⟩
  unfold State.session
  rw [State.dropToken_sessions, sessions, tget_tput_same]
  rfl

/-! ### What a finish leaves of the port (R35, R36) -/

/-- The session number that the end of a teardown leaves, by its cause (R20, R36). -/
def ClosingCause.numberAfter (cause : ClosingCause) (number : Nat) : Nat :=
  if cause = .takeover then (if number ≥ 255 then 1 else number + 1) else number

/-- After a teardown finish the port owns no page, surface or window (R35). -/
theorem State.teardownFinish_returned (s : State) (n : Port) :
    tget (s.teardownFinish n).surfaces.pageCount n = 0 ∧ tget (s.teardownFinish n).surfaces.surfCount n = 0 ∧
      tget (s.teardownFinish n).layouts.winCount n = 0 ∧ (∀ w, tget (s.teardownFinish n).layouts.owners w ≠ some n) ∧
      ∀ i f, (tget (s.teardownFinish n).surfaces.slots i).surface = some f → f.owner ≠ n := by
  obtain ⟨layouts, surfaces, _⟩ := s.teardownFinish_effect n
  rw [layouts, surfaces]
  exact s.returnResources_returned n

section Finish

variable {s t : State} {n : Port} {r : Request} {rest : List Request}

/-- The port's session record after the finish. -/
theorem State.finishesTeardown.session_eq (h : s.finishesTeardown n r rest t) :
    t.session n =
      if (s.session n).cause = .takeover then
        ⟨.opened, (s.session n).cause.numberAfter (s.session n).number, (s.session n).pendingLabel.getD 0, .none, none, .none⟩
      else ⟨.closed, (s.session n).cause.numberAfter (s.session n).number, 0, .none, none, .none⟩ := by
  obtain ⟨_, sessions, _⟩ := h
  unfold State.session
  rw [sessions, tget_tput_same]
  rfl

/-- The port's link after the finish: the head answered, and after a takeover the event counter 0. -/
theorem State.finishesTeardown.link_eq (h : s.finishesTeardown n r rest t) :
    t.link n =
      { s.link n with
        requests := rest
        responses := (s.link n).responses ++
          [⟨r.tag, [if (s.session n).cause = .takeover then 0x02 else 0x03, 0x00,
            BitVec.ofNat 8 ((s.session n).cause.numberAfter (s.session n).number)]⟩]
        seq := if (s.session n).cause = .takeover then 0 else (s.link n).seq } := by
  obtain ⟨links, _⟩ := h
  unfold State.link
  rw [links, tget_tput_same]
  rfl

/-- After a takeover the port's job numbers are 0. -/
theorem State.finishesTeardown.jobNumbers (h : s.finishesTeardown n r rest t) (takeover : (s.session n).cause = .takeover) :
    tget t.drawing.issued n = 0 ∧ tget t.drawing.completed n = 0 := by
  obtain ⟨_, _, drawing, _⟩ := h
  rw [drawing, if_pos takeover]
  exact ⟨tget_tput_same .., tget_tput_same ..⟩

end Finish

/-! ### A teardown without a panel (R34) -/

/-- A start on a quiet port, and the finish that follows it at once. -/
theorem State.start_finishes (s : State) (n : Port) (r : Request) (cause : ClosingCause) (label : Option (BitVec 32)) :
    ((s.heard n r).teardownStart n cause label).finishesTeardown n r []
      (((s.heard n r).teardownStart n cause label).teardownFinish n) :=
  State.teardownFinish_finishes _ n r [] (by rw [((s.heard n r).teardownStart_own n cause label).1, State.heard_requests])

/-- Without a panel the command is the teardown start and then its finish. -/
theorem TeardownRequest.exec_unconfigured {c : Instr} {n : Port} {tag : Byte} {payload : List Byte} {cause : ClosingCause}
    {label : Option (BitVec 32)} {kind : Kind} (h : TeardownRequest c n tag payload cause label kind) (s : State)
    (quiet : s.quiet n) (opened : (s.session n).state = .opened) (dark : s.scan.timing = none) :
    exec c s = .next (((s.heard n ⟨kind.code, tag, payload⟩).teardownStart n cause label).teardownFinish n).settle := by
  have finished : (s.heard n ⟨kind.code, tag, payload⟩).serve n ⟨kind.code, tag, payload⟩ =
      .finished (((s.heard n ⟨kind.code, tag, payload⟩).teardownStart n cause label).teardownFinish n) := by
    rw [h.serve_eq (s.heard n _) opened]
    exact if_pos (by rw [State.heard_scan, dark]; rfl)
  have served : ((((s.heard n ⟨kind.code, tag, payload⟩).teardownStart n cause label).teardownFinish n).link n).requests = [] := by
    rw [(s.start_finishes n ⟨kind.code, tag, payload⟩ cause label).link_eq]
  rw [exec_carried c s n _ h.carried_eq, s.transact_finished n _ _ quiet h.short kind.code_ne_nop finished served]

/-- What a teardown that starts and finishes in one event leaves of the port, by its cause. -/
theorem State.start_finish_leaves (s : State) (n : Port) (r : Request) (cause : ClosingCause) (label : Option (BitVec 32)) :
    let t := ((s.heard n r).teardownStart n cause label).teardownFinish n
    t.session n =
        (if cause = .takeover then
          ⟨.opened, cause.numberAfter (s.session n).number, label.getD 0, .none, none, .none⟩
        else ⟨.closed, cause.numberAfter (s.session n).number, 0, .none, none, .none⟩) ∧
      (t.link n).requests = [] ∧
      (t.link n).responses =
        [⟨r.tag, [if cause = .takeover then 0x02 else 0x03, 0x00, BitVec.ofNat 8 (cause.numberAfter (s.session n).number)]⟩] ∧
      (cause = .takeover → (t.link n).seq = 0 ∧ tget t.drawing.issued n = 0 ∧ tget t.drawing.completed n = 0) := by
  intro t
  obtain ⟨_, responses, session⟩ := (s.heard n r).teardownStart_own n cause label
  have finish := s.start_finishes n r cause label
  have own := finish.session_eq
  have link := finish.link_eq
  have jobs := finish.jobNumbers
  rw [session] at own link jobs
  rw [responses] at link
  refine ⟨own, by rw [link], by rw [link]; rfl, fun takeover => ⟨by rw [link]; exact if_pos takeover, jobs takeover⟩⟩

end Sys2Proof.Machine

open Sys2Proof Sys2Proof.Machine

/-- Settles O24: the request is held by the start of its teardown. -/
theorem teardownStarts : Obligations.TeardownStarts := by
  intro c s n tag payload cause label kind quiet jobs token opened panel request
  exact ⟨_, TeardownRequest.exec_running request s quiet opened panel,
    s.teardownStart_starts n ⟨kind.code, tag, payload⟩ cause label jobs token⟩

/-- Settles O25: the event is a start and then a finish, and each is what it is on a RUNNING panel. -/
theorem teardownFinishesAtOnceWithoutAPanel : Obligations.TeardownFinishesAtOnceWithoutAPanel := by
  refine ⟨fun s n tag quiet opened dark => ⟨?_, fun label length => ?_⟩,
    fun c s n tag payload cause label kind quiet jobs token opened dark request => ?_⟩
  · have request : TeardownRequest (.closeSession n tag []) n tag [] .close none .closeSession := .inl ⟨rfl, rfl, rfl, rfl, rfl⟩
    obtain ⟨session, requests, responses, _⟩ := s.start_finish_leaves n ⟨Kind.closeSession.code, tag, []⟩ .close none
    obtain ⟨pages, surfaces, windows, owners, _⟩ := State.teardownFinish_returned
      ((s.heard n ⟨Kind.closeSession.code, tag, []⟩).teardownStart n .close none) n
    exact ⟨_, request.exec_unconfigured s quiet opened dark, session, requests, responses, pages, surfaces, windows, owners⟩
  · have request : TeardownRequest (.openSession n tag label) n tag label .takeover (some (field32 label 0)) .openSession :=
      .inr ⟨rfl, length, rfl, rfl, rfl⟩
    obtain ⟨session, requests, responses, restarts⟩ :=
      s.start_finish_leaves n ⟨Kind.openSession.code, tag, label⟩ .takeover (some (field32 label 0))
    obtain ⟨seq, issued, completed⟩ := restarts rfl
    obtain ⟨pages, surfaces, windows, owners, _⟩ := State.teardownFinish_returned
      ((s.heard n ⟨Kind.openSession.code, tag, label⟩).teardownStart n .takeover (some (field32 label 0))) n
    exact ⟨_, request.exec_unconfigured s quiet opened dark, session, requests, responses, seq, issued, completed, pages, surfaces,
      windows, owners⟩
  · exact ⟨_, _, s.teardownStart_starts n ⟨kind.code, tag, payload⟩ cause label jobs token,
      s.start_finishes n ⟨kind.code, tag, payload⟩ cause label, TeardownRequest.exec_unconfigured request s quiet opened dark⟩

end

section
/-! Teardowns that finish at a frame boundary (R34 to R36, R126): what its first three steps leave for the last, and the finish of the
one CLOSING port. -/

namespace Sys2Proof.Machine

/-! ### The state that the boundary's last step finds -/

/-- `u` is what the first three steps of a frame boundary that begins in `s` leave for its last step: the sessions, the requests and
responses, the jobs but for the progress of the one in flight, and the surfaces but for their reference counts stand; with no
commit pending the windows of CLOSING ports are withdrawn, and nothing else but ages has changed of the layouts (R126). -/
structure State.ComesToFinish (s u : State) : Prop where
  sessions : u.sessions = s.sessions
  requests : ∀ n, (u.link n).requests = (s.link n).requests
  responses : ∀ n, (u.link n).responses = (s.link n).responses
  queues : u.drawing.queues = s.drawing.queues
  issued : u.drawing.issued = s.drawing.issued
  completed : u.drawing.completed = s.drawing.completed
  surfaces : u.surfaces.bareView = s.surfaces.bareView
  timing : u.scan.timing = s.scan.timing
  layouts : s.layouts.commits = [] → u.layouts =
    { s.layouts with
      applied := s.layouts.applied.without s.closes
      appliedLoad := loadTable s.scan.timing (s.layouts.applied.without s.closes)
      projectedLoad := loadTable s.scan.timing s.layouts.projected
      fresh := u.layouts.fresh }
  references : s.layouts.commits = [] → u.surfaces =
    s.surfaces.changed (fun i f => { f with shownRefs := f.shownRefs - s.layouts.applied.refsTo s.closes i })

/-- The job in flight writing on leaves the queues and the job numbers. -/
theorem State.drawOn_jobs (s : State) :
    s.drawOn.drawing.queues = s.drawing.queues ∧ s.drawOn.drawing.issued = s.drawing.issued ∧
      s.drawOn.drawing.completed = s.drawing.completed := by
  obtain ⟨idle, busy⟩ := s.drawOn_drawsOn
  cases job : s.drawing.inFlight with
  | none =>
    obtain ⟨_, drawing⟩ := idle job
    rw [drawing]
    exact ⟨rfl, rfl, rfl⟩
  | some f =>
    obtain ⟨_, _, drawing, _⟩ := busy f job
    rw [drawing]
    exact ⟨rfl, rfl, rfl⟩

/-- FRAME_BOUNDARY of a RUNNING panel ends in the last step. -/
theorem State.frameBoundary_comes (s : State) (panel : s.scan.timing.isSome = true) :
    ∃ u, s.ComesToFinish u ∧ s.frameBoundary = u.finishTeardowns := by
  obtain ⟨timing, running⟩ := Option.isSome_iff_exists.mp panel
  obtain ⟨v, links, sessions, surfaces, layouts, _, drawing, scan, steps⟩ := s.frameBoundary_steps timing running
  obtain ⟨keptSessions, keptDrawing, keptScan, _, _, bare, queues⟩ := v.steps_keep
  obtain ⟨jobQueues, issued, completed⟩ := s.drawOn_jobs
  have link : ∀ n, v.link n = s.link n := fun n => by unfold State.link; rw [links]
  have timed : v.scan.timing = s.scan.timing := by rw [scan, running]
  have closes : v.closes = s.closes :=
    State.closes_congr (by rw [layouts]) (fun n => by unfold State.session; rw [sessions])
  refine ⟨_, ⟨keptSessions.trans sessions, fun n => ?_, fun n => ?_, ?_, ?_, ?_, bare.trans (by rw [surfaces]), by rw [keptScan, timed],
    fun settled => ?_, fun settled => ?_⟩, steps⟩
  · rw [← link n]; exact (queues n).1
  · rw [← link n]; exact (queues n).2.1
  · rw [keptDrawing, drawing, jobQueues]
  · rw [keptDrawing, drawing, issued]
  · rw [keptDrawing, drawing, completed]
  · rw [(v.steps_quiet (by rw [layouts]; exact settled)).1, closes, layouts, timed]
  · rw [(v.steps_quiet (by rw [layouts]; exact settled)).2, closes, layouts, surfaces]

/-! ### One CLOSING port -/

/-- With one port CLOSING the windows that a boundary withdraws are that port's. -/
theorem State.closes_one (s : State) (n : Port) (closing : (s.session n).state = .closing)
    (others : ∀ m, m ≠ n → (s.session m).state ≠ .closing) :
    s.closes = fun w => decide (tget s.layouts.owners w = some n) := by
  funext w
  unfold State.closes
  cases tget s.layouts.owners w with
  | none => rfl
  | some m =>
    by_cases e : m = n
    · subst e; simp [closing]
    · simp [e, others m e]

/-- The boundary is the finish of the one CLOSING port, when no request stands behind the one that waits for it. -/
theorem State.frameBoundary_finish (s : State) (n : Port) (r : Request) (panel : s.scan.timing.isSome = true)
    (closing : (s.session n).state = .closing) (others : ∀ m, m ≠ n → (s.session m).state ≠ .closing)
    (queue : (s.link n).requests = [r]) :
    ∃ u, s.ComesToFinish u ∧ u.finishesTeardown n r [] (u.teardownFinish n) ∧ s.frameBoundary = u.teardownFinish n := by
  obtain ⟨u, comes, steps⟩ := s.frameBoundary_comes panel
  have session : ∀ m, u.session m = s.session m := fun m => by unfold State.session; rw [comes.sessions]
  have finishes := u.teardownFinish_finishes n r [] (by rw [comes.requests, queue])
  refine ⟨u, comes, finishes, ?_⟩
  rw [steps, u.finishTeardowns_one n (by rw [session]; exact closing) (fun m hm => by rw [session]; exact others m hm)]
  exact State.examineUpTo_stop _ _ _ (by rw [finishes.link_eq])

section Finish

variable {s u t : State} {n : Port} {r : Request} {rest : List Request}

theorem Surfaces.ownedBy_surface {m : Surfaces} {i : SurfSlot} {f : Surface} (n : Port) (slot : (tget m.slots i).surface = some f) :
    m.ownedBy n i = decide (f.owner = n) := by
  unfold Surfaces.ownedBy
  rw [slot]
  rfl

/-- The same bare view says the same generation and owner of each slot. -/
theorem Surfaces.bareView_slot {m k : Surfaces} (h : m.bareView = k.bareView) (n : Port) (i : SurfSlot) :
    (tget m.slots i).gen = (tget k.slots i).gen ∧ m.ownedBy n i = k.ownedBy n i := by
  obtain ⟨slots, _⟩ := Surfaces.bareView_eq h
  have owned : ∀ m : Surfaces, m.ownedBy n i = ((tget m.slots i).surface.map Surface.bare).any (fun f => f.owner = n) := fun m => by
    unfold Surfaces.ownedBy
    cases (tget m.slots i).surface <;> rfl
  rw [owned, owned]
  obtain ⟨gen, surface⟩ := SurfaceEntry.mk.inj (slots i)
  exact ⟨gen, by rw [surface]⟩

/-- A slot of the port's is FREE after its finish, the generation advanced (R71). -/
theorem State.finishesTeardown.slot_owned (h : u.finishesTeardown n r rest t) (i : SurfSlot) (owned : u.surfaces.ownedBy n i = true) :
    tget t.surfaces.slots i =
      ⟨if (tget u.surfaces.slots i).gen + 1 ≥ 1024 then 0 else (tget u.surfaces.slots i).gen + 1, none⟩ := by
  obtain ⟨_, _, _, _, slots, _⟩ := h
  exact (slots i).trans (if_pos owned)

/-- Another port's surface loses the references of the windows freed. -/
theorem State.finishesTeardown.slot_other (h : u.finishesTeardown n r rest t) (i : SurfSlot) (other : ¬ u.surfaces.ownedBy n i = true) :
    tget t.surfaces.slots i =
      ⟨(tget u.surfaces.slots i).gen, (tget u.surfaces.slots i).surface.map (fun f =>
        { f with
          shownRefs := f.shownRefs - u.layouts.applied.refsTo (fun w => decide (tget u.layouts.owners w = some n)) i })⟩ := by
  obtain ⟨_, _, _, _, slots, _⟩ := h
  exact (slots i).trans (if_neg other)

theorem State.finishesTeardown.queues (h : u.finishesTeardown n r rest t) : t.drawing.queues = u.drawing.queues := by
  obtain ⟨_, _, drawing, _⟩ := h
  rw [drawing]
  split <;> rfl

/-- Another port's session record, job numbers and accounts stand. -/
theorem State.finishesTeardown.others (h : u.finishesTeardown n r rest t) (m : Port) (hm : m ≠ n) :
    t.session m = u.session m ∧ tget t.drawing.issued m = tget u.drawing.issued m ∧
      tget t.drawing.completed m = tget u.drawing.completed m ∧
      tget t.surfaces.pageCount m = tget u.surfaces.pageCount m ∧ tget t.surfaces.surfCount m = tget u.surfaces.surfCount m := by
  obtain ⟨_, sessions, drawing, _, _, _, pages, surfaces, _⟩ := h
  have jobs : tget t.drawing.issued m = tget u.drawing.issued m ∧ tget t.drawing.completed m = tget u.drawing.completed m := by
    rw [drawing]
    split
    · exact ⟨tget_tput_ne _ _ _ _ hm.symm, tget_tput_ne _ _ _ _ hm.symm⟩
    · exact ⟨rfl, rfl⟩
  refine ⟨?_, jobs.1, jobs.2, ?_, ?_⟩
  · unfold State.session
    rw [sessions, tget_tput_ne _ _ _ _ hm.symm]
  · rw [pages, tget_tput_ne _ _ _ _ hm.symm]
  · rw [surfaces, tget_tput_ne _ _ _ _ hm.symm]

/-- With no commit pending, the layouts after the boundary are those before it without the port's windows. -/
theorem State.ComesToFinish.finished_layouts (comes : s.ComesToFinish u) (h : u.finishesTeardown n r rest t)
    (settled : s.layouts.commits = []) (own : WinSlot → Bool) (owns : own = fun w => decide (tget s.layouts.owners w = some n))
    (closes : s.closes = own) :
    t.layouts =
      { s.layouts with
        owners := tabulate (fun w => if own w then none else tget s.layouts.owners w)
        gens := tabulate (fun w =>
          if own w then (if tget s.layouts.gens w + 1 ≥ 2048 then 0 else tget s.layouts.gens w + 1) else tget s.layouts.gens w)
        winCount := tput s.layouts.winCount n 0
        applied := s.layouts.applied.lacking own
        projected := s.layouts.projected.lacking own
        appliedLoad := loadTable s.scan.timing (s.layouts.applied.lacking own)
        projectedLoad := loadTable s.scan.timing (s.layouts.projected.lacking own)
        fresh := t.layouts.fresh } := by
  obtain ⟨_, _, _, layouts, _⟩ := h
  have before := comes.layouts settled
  generalize u.layouts.fresh = ages at before
  rw [before, comes.timing, closes] at layouts
  rw [layouts, ← Layout.without_lacking s.layouts.applied own]
  subst owns
  rfl

/-- And another port's surface has lost the references of the port's applied windows. -/
theorem State.ComesToFinish.finished_slot (comes : s.ComesToFinish u) (h : u.finishesTeardown n r rest t)
    (settled : s.layouts.commits = []) (closes : s.closes = fun w => decide (tget s.layouts.owners w = some n)) (i : SurfSlot) (f : Surface)
    (slot : (tget s.surfaces.slots i).surface = some f) (other : f.owner ≠ n) :
    tget t.surfaces.slots i =
      ⟨(tget s.surfaces.slots i).gen, some { f with shownRefs := f.shownRefs - s.layouts.applied.refsTo s.closes i }⟩ := by
  have foreign : ¬ s.surfaces.ownedBy n i = true := by
    rw [Surfaces.ownedBy_surface n slot]
    exact fun own => other (of_decide_eq_true own)
  obtain ⟨_, owned⟩ := Surfaces.bareView_slot comes.surfaces n i
  have entry : tget u.surfaces.slots i =
      ⟨(tget s.surfaces.slots i).gen, some { f with shownRefs := f.shownRefs - s.layouts.applied.refsTo s.closes i }⟩ := by
    rw [comes.references settled]
    unfold Surfaces.changed
    rw [tget_tabulate, slot]
    rfl
  have applied : u.layouts.applied.refsTo (fun w => decide (tget u.layouts.owners w = some n)) i = 0 := by
    rw [comes.layouts settled, closes]
    exact Layout.without_refsTo _ _ i
  rw [h.slot_other i (by rw [owned]; exact foreign), entry, applied]
  rfl

end Finish

end Sys2Proof.Machine

open Sys2Proof Sys2Proof.Machine

/-- Settles O26: the boundary is the finish of its one CLOSING port, in the state that its first three steps leave. -/
theorem teardownFinishesAtTheBoundary : Obligations.TeardownFinishesAtTheBoundary := by
  refine ⟨?_, State.teardownFinish_finishes, State.finishTeardowns_none, State.finishTeardowns_one, State.finishTeardowns_run⟩
  rintro s n r _ _ own panel closing others rfl queue rfl owns
  obtain ⟨u, comes, finish, boundary⟩ := s.frameBoundary_finish n r panel closing others queue
  have session : ∀ m, u.session m = s.session m := fun m => by unfold State.session; rw [comes.sessions]
  have own_eq : own = fun w => decide (tget s.layouts.owners w = some n) :=
    funext fun w => Bool.eq_iff_iff.mpr ((owns w).trans decide_eq_true_iff.symm)
  have closes : s.closes = own := (s.closes_one n closing others).trans own_eq.symm
  have after := finish.session_eq
  have link := finish.link_eq
  have jobs := finish.jobNumbers
  rw [session n] at after link jobs
  obtain ⟨pages, surfaces, windows, owners, slots⟩ := u.teardownFinish_returned n
  obtain ⟨_, _, pageCounts, surfaceCounts⟩ := Surfaces.bareView_eq comes.surfaces
  refine ⟨(u.teardownFinish n).settle, by rw [← boundary]; rfl, after, by rw [State.link_settle, link],
    by rw [State.link_settle, link, comes.responses]; rfl,
    fun takeover => ⟨by rw [State.link_settle, link]; exact if_pos takeover, jobs takeover⟩,
    pages, surfaces, windows, owners, slots, fun i f slot owner => ?_, finish.queues.trans comes.queues, fun m hm => ?_,
    fun settled => ⟨comes.finished_layouts finish settled own own_eq closes, fun i f slot other => ?_⟩⟩
  · obtain ⟨gen, owned⟩ := Surfaces.bareView_slot comes.surfaces n i
    have mine : s.surfaces.ownedBy n i = true := (Surfaces.ownedBy_surface n slot).trans (decide_eq_true owner)
    rw [← gen]
    exact finish.slot_owned i (owned.trans mine)
  · obtain ⟨record, issued, completed, pageCount, surfCount⟩ := finish.others m hm
    exact ⟨record.trans (session m), issued.trans (by rw [comes.issued]), completed.trans (by rw [comes.completed]),
      pageCount.trans (by rw [pageCounts]), surfCount.trans (by rw [surfaceCounts])⟩
  · rw [← closes]
    exact comes.finished_slot finish settled (s.closes_one n closing others) i f slot other

end

section
/-! The conditions that every step keeps, at reset (R17, R37, R53, R73, R94, R111, R134, R148): its tables hold no job, no surface and no
window, and all pages are free. -/

namespace Sys2Proof.Machine

/-! ### Links, jobs and the token -/

theorem State.reset_link (n : Port) : State.reset.link n = Link.reset := tget_replicate _ n

theorem State.reset_session (n : Port) : State.reset.session n = Session.reset := tget_replicate _ n

theorem State.reset_queuesBounded : State.reset.queuesBounded := by
  intro n
  rw [State.reset_link, State.reset_session]
  exact ⟨Nat.zero_le _, Nat.zero_le _, Nat.zero_le _, fun closing => nomatch closing⟩

theorem Drawing.reset_sound : Drawing.reset.sound := by
  intro n
  have queue : tget Drawing.reset.queues n = [] := tget_replicate _ n
  unfold Drawing.outstanding
  rw [queue]
  exact ⟨Nat.zero_le _, fun _ job => nomatch job⟩

theorem LayoutController.reset_tokenSound : LayoutController.reset.tokenSound :=
  ⟨List.nodup_nil, fun _ _ => List.not_mem_nil, fun _ => rfl⟩

/-! ### Layouts without windows -/

theorem Layout.empty_record (w : WinSlot) : Layout.empty.record w = none := tget_replicate _ w

theorem Layout.empty_list (k : Band) : Layout.empty.bands.list k = [] := by cases k <;> rfl

theorem Layout.empty_stackSound : Layout.empty.stackSound := by
  intro k
  rw [Layout.empty_list]
  refine ⟨List.nodup_nil, fun w => ⟨(nomatch ·), ?_⟩⟩
  rintro ⟨r, record, _⟩
  cases (Layout.empty_record w).symm.trans record

theorem Layout.empty_without (p : WinSlot → Bool) : Layout.empty.without p = Layout.empty := by
  refine Layout.ext_views (fun w => ?_) (fun k => ?_)
  · rw [Layout.without_record, Layout.empty_record]
    split <;> rfl
  · rw [Layout.without_list, Layout.empty_list]
    rfl

theorem LayoutController.reset_owner (w : WinSlot) : tget LayoutController.reset.owners w = none := tget_replicate _ w

theorem State.reset_recordsOwned : State.reset.recordsOwned :=
  ⟨fun w _ => ⟨Layout.empty_record w, Layout.empty_record w⟩, fun _ w => ⟨Layout.empty_record w, Layout.empty_record w⟩⟩

theorem State.reset_loadsSound : State.reset.loadsSound := ⟨rfl, rfl, fun _ load => nomatch load⟩

theorem LayoutController.reset_alertSound : LayoutController.reset.alertSound := ⟨Nat.zero_le _, fun _ listed => nomatch listed⟩

theorem LayoutController.reset_countsSound : LayoutController.reset.countsSound := by
  intro n
  have count : tget LayoutController.reset.winCount n = 0 := tget_replicate _ n
  have unowned : (allSlots 24).filter (fun w => tget LayoutController.reset.owners w = some n) = [] :=
    List.filter_eq_nil_iff.mpr fun w _ => by simp [LayoutController.reset_owner]
  rw [count, unowned]
  exact ⟨rfl, Nat.zero_le _⟩

/-! ### Free pages and slots -/

theorem Surfaces.reset_slot (i : SurfSlot) : tget Surfaces.reset.slots i = ⟨0, none⟩ := tget_replicate _ i

theorem Surfaces.reset_pages : Surfaces.reset.pagesSound := by
  refine ⟨fun p => ?_, List.Pairwise.imp (fun h => Nat.le_of_lt h) List.pairwise_lt_range'⟩
  have unlisted : ∀ i, (tget Surfaces.reset.slots i).countPage p = 0 := fun i => by rw [Surfaces.reset_slot]; rfl
  have free : Surfaces.reset.freePages.count p = if p ∈ List.range' 0 4096 then 1 else 0 := (List.nodup_range').count
  simp only [unlisted, sum_zero, free, List.mem_range'_1, Nat.zero_le, true_and, Nat.zero_add, Nat.add_zero]
  rfl

theorem Surfaces.reset_accounts : Surfaces.reset.accountsSound := by
  have pages : ∀ n, tget Surfaces.reset.pageCount n = 0 := tget_replicate _
  have counts : ∀ n, tget Surfaces.reset.surfCount n = 0 := tget_replicate _
  refine ⟨fun i f slot => ?_, fun n => ⟨?_, ?_, ?_⟩, by decide⟩
  · rw [Surfaces.reset_slot] at slot
    cases slot
  · have none : ∀ i, Surfaces.reset.pagesIn n i = 0 := fun i => by unfold Surfaces.pagesIn; rw [Surfaces.reset_slot]
    rw [pages, List.map_congr_left fun i _ => none i, sum_zero]
  · have unowned : (allSlots 48).filter (fun i => (tget Surfaces.reset.slots i).surface.any (fun f => f.owner = n)) = [] :=
      List.filter_eq_nil_iff.mpr fun i _ => by simp [Surfaces.reset_slot]
    rw [counts, unowned]
    rfl
  · rw [counts]
    exact Nat.zero_le _

/-! ### The presentation -/

theorem State.reset_showable : State.reset.showable Layout.empty :=
  ⟨Layout.empty_stackSound, Nat.zero_le _, fun _ load => nomatch load⟩

/-- No window and no commit: the empty layout plays, in no steps, to itself. -/
theorem State.reset_presentationSound : State.reset.presentationSound := by
  have records : ∀ w, (Layout.empty.record w).isSome = (tget LayoutController.reset.owners w).isSome := fun w => by
    rw [Layout.empty_record, LayoutController.reset_owner]
    rfl
  refine ⟨fun w => ⟨records w, records w⟩, fun _ => LayoutController.reset_owner, fun w r record => ?_,
    (fun _ commit => nomatch commit), fun i f slot => ?_, State.reset_showable, ?_⟩
  · cases (Layout.empty_record w).symm.trans record
  · cases (congrArg SurfaceEntry.surface (Surfaces.reset_slot i)).symm.trans slot
  · show (Layout.empty.without _).agrees Layout.empty
    rw [Layout.empty_without]
    exact ⟨rfl, fun _ => .inl rfl⟩

end Sys2Proof.Machine

open Sys2Proof Sys2Proof.Machine

/-- Settles O3: each condition, of the block it speaks of. -/
theorem resetMeetsEveryCondition : Obligations.ResetMeetsEveryCondition :=
  ⟨rfl, State.reset_queuesBounded, ⟨rfl, rfl⟩, Drawing.reset_sound, LayoutController.reset_tokenSound, State.reset_recordsOwned,
    State.reset_loadsSound, Layout.empty_stackSound, LayoutController.reset_alertSound, Surfaces.reset_pages, Surfaces.reset_accounts,
    LayoutController.reset_countsSound, State.reset_presentationSound⟩

end

section
/-! The scan engine's record and position (chapter 3): what SET_TIMING leaves, where a pixel clock and a frame boundary move the
position, and that the position stays inside the frame (R38 to R45). -/

namespace Sys2Proof.Machine

/-! ### The timing record and the line position (R38, R42) -/

/-- A valid record has active pixels and lines, and in every line and frame more beyond them (R38). -/
theorem Timing.totals_of_valid {t : Timing} (valid : t.valid = true) :
    0 < t.hactive ∧ t.hactive < t.htotal ∧ 0 < t.vactive ∧ t.vactive < t.vtotal := by
  have range := of_decide_eq_true valid
  unfold Timing.htotal Timing.vtotal
  omega

/-- The position after one inside the frame is inside the frame. -/
theorem Timing.next_inside {t : Timing} (valid : t.valid = true) {line : Nat} (clock : Nat) (inside : line < t.vtotal) :
    (t.next line clock).1 < t.vtotal ∧ (t.next line clock).2 < t.htotal := by
  obtain ⟨_, _, _, _⟩ := t.totals_of_valid valid
  unfold Timing.next
  split
  · exact ⟨inside, by assumption⟩
  · split
    · exact ⟨by assumption, by omega⟩
    · exact ⟨by omega, by omega⟩

theorem Timing.lastActive_iff (t : Timing) (line clock : Nat) :
    t.lastActive line clock = true ↔ line + 1 = t.vactive ∧ clock + 1 = t.hactive := by
  simp [Timing.lastActive]

section Advance

variable (c : Scan) (t : Timing) (line clock : Nat)

@[simp] theorem Scan.advance_timing : (c.advance t line clock).timing = c.timing := by
  unfold Scan.advance
  split <;> rfl

@[simp] theorem Scan.advance_frame : (c.advance t line clock).frame = c.frame := by
  unfold Scan.advance
  split <;> rfl

@[simp] theorem Scan.advance_pos : (c.advance t line clock).pos = some (t.next line clock) := by
  unfold Scan.advance
  split <;> rfl

theorem Scan.advance_within (within : clock + 1 < t.htotal) :
    (c.advance t line clock).shown = c.shown ∧ (c.advance t line clock).fetched = c.fetched := by
  unfold Scan.advance
  rw [if_pos within]
  exact ⟨rfl, rfl⟩

/-- At the end of a line what was fetched becomes what is shown. -/
theorem Scan.advance_lineEnd (ends : clock + 1 = t.htotal) :
    (c.advance t line clock).shown = c.fetched ∧ (c.advance t line clock).fetched = [] := by
  unfold Scan.advance
  rw [if_neg (by omega)]
  exact ⟨rfl, rfl⟩

end Advance

/-! ### The position stays inside the frame -/

theorem Scan.sound_running {c : Scan} {t : Timing} (running : c.timing = some t) :
    c.sound ↔ t.valid = true ∧ ∃ line clock, c.pos = some (line, clock) ∧ line < t.vtotal ∧ clock < t.htotal := by
  unfold Scan.sound
  rw [running]

theorem Scan.sound_configured {t : Timing} (valid : t.valid = true) : (Scan.configured t).sound := by
  obtain ⟨_, _, _, _⟩ := t.totals_of_valid valid
  exact ⟨valid, t.vactive, 0, rfl, by omega, by omega⟩

theorem Scan.sound_advance {c : Scan} {t : Timing} {line clock : Nat} (sound : c.sound) (running : c.timing = some t)
    (place : c.pos = some (line, clock)) : (c.advance t line clock).sound := by
  obtain ⟨valid, l, k, e, inside, _⟩ := (Scan.sound_running running).mp sound
  cases e.symm.trans place
  exact (Scan.sound_running ((c.advance_timing t line clock).trans running)).mpr
    ⟨valid, _, _, c.advance_pos t line clock, t.next_inside valid clock inside⟩

/-- The position that FRAME_BOUNDARY takes is inside the frame (log entry 4). -/
theorem Scan.sound_lastActive {c : Scan} {t : Timing} (sound : c.sound) (running : c.timing = some t) :
    Scan.sound { c with pos := some (t.vactive - 1, t.hactive) } := by
  obtain ⟨valid, _⟩ := (Scan.sound_running running).mp sound
  obtain ⟨_, _, _, _⟩ := t.totals_of_valid valid
  exact (Scan.sound_running (c := { c with pos := some (t.vactive - 1, t.hactive) }) running).mpr
    ⟨valid, _, _, rfl, by omega, by omega⟩

theorem Scan.sound_newFrame {c : Scan} {t : Timing} (sound : c.sound) (running : c.timing = some t) :
    Scan.sound { c with frame := c.frame + 1, shown := [], fetched := [] } :=
  (Scan.sound_running (c := { c with frame := c.frame + 1, shown := [], fetched := [] }) running).mpr
    ((Scan.sound_running running).mp sound)

/-- SET_TIMING stores no record but a valid one, and none over another (R39, R40). -/
theorem State.serveSetTiming_sound (s : State) (p : List Byte) (sound : s.scan.sound) : (s.serveSetTiming p).1.scan.sound := by
  unfold State.serveSetTiming
  split
  · exact sound
  · split
    · exact sound
    · rename_i valid
      split
      · exact Scan.sound_configured (Decidable.not_not.mp valid)
      · split <;> exact sound

theorem State.scanSound_of_eq {s u : State} (same : u.scan = s.scan) (sound : s.scan.sound) : u.scan.sound := same ▸ sound

/-- Beside SET_TIMING and reset only the three operations that move the position touch what the condition looks at. -/
theorem State.scanSoundKept : Kept (fun s => s.scan.sound) where
  link _ _ _ h := h
  session _ _ _ h := h
  pins _ _ h := h
  tick _ h := h
  reset _ _ _ _ _ _ := ⟨rfl, rfl⟩
  jobNumbers _ _ h := h
  setTiming s p h := s.serveSetTiming_sound p h
  createSurface s n p h := State.scanSound_of_eq (s.serveCreateSurface_scan n p) h
  destroySurface _ _ h := h
  drawing s n k q h _ := State.scanSound_of_eq (s.serveDrawing_scan n k q) h
  createWindow s n p h := State.scanSound_of_eq (s.serveCreateWindow_scan n p) h
  commit s n tag p h := State.scanSound_of_eq (s.serveCommit_scan n tag p) h
  acquireAlert s n h := State.scanSound_of_eq (s.serveAcquireAlert_scan n) h
  releaseAlert s n h := State.scanSound_of_eq (s.serveReleaseAlert_scan n) h
  abortJobs s n h := State.scanSound_of_eq (s.abortJobs_scan n) h
  teardownLayouts s n h := State.scanSound_of_eq (s.teardownLayouts_scan n) h
  returnResources s n h := State.scanSound_of_eq (s.returnResources_scan n) h
  drawOn s h := State.scanSound_of_eq s.drawOn_scan h
  completeJob s h := State.scanSound_of_eq s.completeJob_scan h
  fetch s t line clock h := by
    obtain ⟨f, same⟩ := s.fetch_scan t line clock
    show (s.fetch t line clock).scan.sound
    rw [same]
    exact h
  place _ _ _ _ h running place := Scan.sound_advance h running place
  lastActive _ _ h running := Scan.sound_lastActive h running
  newFrame _ _ h running := Scan.sound_newFrame h running
  withdrawClosing s h := State.scanSound_of_eq s.withdrawClosing_scan h
  applyCommits s h := State.scanSound_of_eq s.applyCommits_scan h
  ageWindows s h := State.scanSound_of_eq s.ageWindows_scan h

/-! ### SET_TIMING (R39, R40) -/

section SetTiming

variable (s : State) {p : List Byte} {t u : Timing}

theorem State.serveSetTiming_unconfigured (read : timingOfBytes p = some t) (valid : t.valid = true)
    (unconfigured : s.scan.timing = none) :
    s.serveSetTiming p =
      ((s.withScan (.configured t)).withLayouts (s.layouts.sizeTables t), reply .setTiming .ok (bytes16 t.budget)) := by
  unfold State.serveSetTiming
  rw [read]
  dsimp only
  rw [if_neg (Decidable.not_not.mpr valid), unconfigured]

theorem State.serveSetTiming_locked (read : timingOfBytes p = some t) (valid : t.valid = true) (running : s.scan.timing = some u) :
    s.serveSetTiming p = (s, if t = u then reply .setTiming .ok (bytes16 u.budget) else refusal .setTiming .timingLocked) := by
  unfold State.serveSetTiming
  rw [read]
  dsimp only
  rw [if_neg (Decidable.not_not.mpr valid), running]
  dsimp only
  split <;> rfl

theorem State.serveSetTiming_invalid (invalid : ∀ t, timingOfBytes p = some t → t.valid = false) :
    s.serveSetTiming p = (s, refusal .setTiming .badArgument) := by
  unfold State.serveSetTiming
  split
  · rfl
  · rename_i t read
    rw [if_pos (by rw [invalid t read]; exact Bool.false_ne_true)]

/-- A SET_TIMING that leaves the state as it stands is one transaction that answers it. -/
theorem State.exec_setTiming_same {n : Port} {tag : Byte} {payload : List Byte} (quiet : s.quiet n)
    (session : (s.session n).state ≠ .closed) (length : p.length = 17)
    (served : ∀ v : State, v.scan = s.scan → v.serveSetTiming p = (v, payload)) :
    exec (.setTiming n tag p) s = .next (s.replied n tag payload).settle := by
  rw [exec_carried _ s n ⟨Kind.setTiming.code, tag, p⟩ rfl,
    s.transact_decided n .setTiming tag p payload quiet session (decide_eq_true length) (by rw [length]; decide)
      (congrArg Served.ofPair (served _ (s.heard_scan n _)))]

/-- The scan engine configured and the load tables sized, with the request answered, as one change of the state. -/
theorem State.configured_answer (n : Port) (r : Request) (payload : List Byte) (t : Timing) :
    (((s.heard n r).withScan (.configured t)).withLayouts (s.layouts.sizeTables t)).answer n r.tag payload =
      { s.replied n r.tag payload with
        scan := .configured t
        layouts := s.layouts.sizeTables t } := by
  rw [← s.heard_answer n r payload, State.answer_effect, State.answer_effect]
  rfl

end SetTiming

/-! ### The pixel clock (R42, R44) -/

/-- The state after a pixel clock but for the boundary: the job in flight has drawn on, the fetch has gone on, and the position has
advanced. -/
def State.clocked (s : State) (t : Timing) (line clock : Nat) : State :=
  (s.drawOn.fetch t line clock).withScan ((s.drawOn.fetch t line clock).scan.advance t line clock)

section Clocked

variable (s : State) (t : Timing) (line clock : Nat)

theorem State.pixelClock_eq (running : s.scan.timing = some t) (place : s.scan.pos = some (line, clock)) :
    s.pixelClock = if t.lastActive line clock then (s.clocked t line clock).boundary else s.clocked t line clock := by
  unfold State.pixelClock
  rw [running, place]
  rfl

/-- A pixel clock other than the last active one of the frame takes no boundary. -/
theorem State.pixelClock_inside (running : s.scan.timing = some t) (place : s.scan.pos = some (line, clock))
    (inside : ¬ (line + 1 = t.vactive ∧ clock + 1 = t.hactive)) : s.pixelClock = s.clocked t line clock := by
  rw [s.pixelClock_eq t line clock running place, if_neg (mt (t.lastActive_iff line clock).mp inside)]

@[simp] theorem State.clocked_timing : (s.clocked t line clock).scan.timing = s.scan.timing := by
  obtain ⟨f, same⟩ := s.drawOn.fetch_scan t line clock
  unfold State.clocked
  rw [State.withScan_scan, Scan.advance_timing, same, State.drawOn_scan]

@[simp] theorem State.clocked_frame : (s.clocked t line clock).scan.frame = s.scan.frame := by
  obtain ⟨f, same⟩ := s.drawOn.fetch_scan t line clock
  unfold State.clocked
  rw [State.withScan_scan, Scan.advance_frame, same, State.drawOn_scan]

@[simp] theorem State.clocked_pos : (s.clocked t line clock).scan.pos = some (t.next line clock) := Scan.advance_pos ..

@[simp] theorem State.clocked_links : (s.clocked t line clock).links = s.links := by simp [State.clocked]
@[simp] theorem State.clocked_sessions : (s.clocked t line clock).sessions = s.sessions := by simp [State.clocked]
@[simp] theorem State.clocked_surfaces : (s.clocked t line clock).surfaces = s.surfaces := by simp [State.clocked]
@[simp] theorem State.clocked_layouts : (s.clocked t line clock).layouts = s.layouts := by simp [State.clocked]
@[simp] theorem State.clocked_mem : (s.clocked t line clock).mem = s.drawOn.mem := by simp [State.clocked]
@[simp] theorem State.clocked_drawing : (s.clocked t line clock).drawing = s.drawOn.drawing := by simp [State.clocked]

end Clocked

/-- FRAME_BOUNDARY takes the position after the last active pixel, and the boundary there (log entry 4). -/
theorem State.frameBoundary_scan (s : State) (t : Timing) (running : s.scan.timing = some t) :
    s.frameBoundary.scan =
      { s.scan with pos := some (t.vactive - 1, t.hactive), frame := s.scan.frame + 1, shown := [], fetched := [] } := by
  unfold State.frameBoundary
  rw [running]
  dsimp only
  rw [State.boundary_scan _ t (by simpa using running), State.withScan_scan, State.drawOn_scan]

end Sys2Proof.Machine

open Sys2Proof Sys2Proof.Machine

/-- Settles O6: the operations that a step is made of keep the position inside the frame. -/
theorem scanStaysSound : Obligations.ScanStaysSound :=
  fun s t sound e => State.scanSoundKept.step (fun _ _ h => h) s t sound e

/-- Settles O28, by whether the record is valid and whether one is in force. -/
theorem setTimingIsServed : Obligations.SetTimingIsServed := by
  intro s n tag payload quiet session length
  refine ⟨fun t read valid unconfigured => ?_, fun t u read valid running => ?_, fun invalid => ?_⟩
  · have served : (s.heard n ⟨Kind.setTiming.code, tag, payload⟩).serve n ⟨Kind.setTiming.code, tag, payload⟩ =
        .answered (((s.heard n ⟨Kind.setTiming.code, tag, payload⟩).withScan (.configured t)).withLayouts (s.layouts.sizeTables t))
          (reply .setTiming .ok (bytes16 t.budget)) :=
      (State.serve_known (s.heard n _) n .setTiming tag payload (decide_eq_true length) session).trans
        (congrArg Served.ofPair ((s.heard n _).serveSetTiming_unconfigured read valid unconfigured))
    rw [exec_carried _ s n _ rfl,
      s.transact_answered n _ _ _ quiet (by rw [length]; decide) Kind.setTiming.code_ne_nop served (s.heard_requests n _),
      State.configured_answer]
    rfl
  · rw [s.exec_setTiming_same quiet session length
      (fun v same => v.serveSetTiming_locked read valid ((congrArg Scan.timing same).trans running))]
    rfl
  · exact s.exec_setTiming_same quiet session length (fun v _ => v.serveSetTiming_invalid invalid)

/-- Settles O30: the position is the advanced one, and where no boundary is taken nothing else moves but the job in flight. -/
theorem pixelClockAdvancesThePosition : Obligations.PixelClockAdvancesThePosition := by
  intro s t line clock running place
  have timing := (s.clocked_timing t line clock).trans running
  refine ⟨s.pixelClock.settle, rfl, ?_⟩
  by_cases last : line + 1 = t.vactive ∧ clock + 1 = t.hactive
  · have scan : s.pixelClock.settle.scan =
        { (s.clocked t line clock).scan with frame := (s.clocked t line clock).scan.frame + 1, shown := [], fetched := [] } := by
      rw [State.settle_scan, s.pixelClock_eq t line clock running place, if_pos ((t.lastActive_iff line clock).mpr last),
        State.boundary_scan _ t timing]
    rw [scan, if_pos last]
    exact ⟨timing, s.clocked_pos t line clock, congrArg (· + 1) (s.clocked_frame t line clock), fun inside => absurd last inside⟩
  · rw [s.pixelClock_inside t line clock running place last, if_neg last]
    exact ⟨timing, s.clocked_pos t line clock, s.clocked_frame t line clock, fun _ =>
      ⟨s.clocked_links t line clock, s.clocked_sessions t line clock, s.clocked_surfaces t line clock,
        s.clocked_layouts t line clock,
        State.drawsOn_congr s.drawOn_drawsOn (s.clocked_mem t line clock) (s.clocked_drawing t line clock)⟩⟩

/-- Settles O35: the scan engine is that of State.frameBoundary_scan, and with nothing to apply and no port to tear down only ages
move. -/
theorem frameBoundaryAdvancesTheFrame : Obligations.FrameBoundaryAdvancesTheFrame := by
  intro s t running
  have scan := s.frameBoundary_scan t running
  refine ⟨s.frameBoundary.settle, rfl, ?_, ?_, ?_, fun empty noneClosing => ?_⟩
  · rw [State.settle_scan, scan]
  · rw [State.settle_scan, scan]
    exact running
  · rw [State.settle_scan, scan]
  · obtain ⟨u, layouts, sessions, surfaces, _, _, _, boundary⟩ := s.frameBoundary_quiet t running empty noneClosing
    obtain ⟨ages, aged⟩ := u.ageWindows_layouts
    have cleared : ∀ w, (tget u.ageWindows.layouts.fresh w).refreshed = false := fun w => by rw [State.ageWindows_fresh]
    rw [State.settle_layouts, State.settle_surfaces, State.settle_sessions, boundary, State.ageWindows_surfaces,
      State.ageWindows_sessions]
    rw [aged, layouts] at cleared ⊢
    exact ⟨rfl, rfl, rfl, rfl, rfl, rfl, empty, surfaces, sessions, cleared⟩

end

section
/-! The picture (chapter 3): the blend of one window's colour, the composition of a panel pixel from the stack, and the panel outputs at
the line position (R43, R48 to R52). -/

namespace Sys2Proof.Machine

/-! ### The blend (R51) -/

theorem effectiveAlpha_le (opacity : Byte) {pa : Nat} (full : pa ≤ 255) : effectiveAlpha opacity.toNat pa ≤ 255 := by
  have product : opacity.toNat * pa ≤ 255 * 255 := Nat.mul_le_mul (by omega) full
  unfold effectiveAlpha
  omega

/-- The quotient of R51 fits its byte, being a mean of two bytes rounded. -/
theorem blendComponent_toNat {a : Nat} (full : a ≤ 255) (s d : Byte) :
    (blendComponent a s d).toNat = (s.toNat * a + d.toNat * (255 - a) + 127) / 255 := by
  have upper : s.toNat * a ≤ 255 * a := Nat.mul_le_mul_right a (by omega)
  have lower : d.toNat * (255 - a) ≤ 255 * (255 - a) := Nat.mul_le_mul_right (255 - a) (by omega)
  unfold blendComponent
  rw [BitVec.toNat_ofNat]
  exact Nat.mod_eq_of_lt (by omega)

theorem blendComponent_full (s d : Byte) : blendComponent 255 s d = s := by
  apply BitVec.eq_of_toNat_eq
  rw [blendComponent_toNat (Nat.le_refl 255)]
  omega

theorem blendComponent_zero (s d : Byte) : blendComponent 0 s d = d := by
  apply BitVec.eq_of_toNat_eq
  rw [blendComponent_toNat (Nat.zero_le 255)]
  omega

theorem blend_opaque (c below : Rgb) : blend 255 255 c below = c := by
  have alpha : effectiveAlpha (255 : Byte).toNat 255 = 255 := rfl
  unfold blend
  rw [alpha]
  simp only [blendComponent_full]

theorem blend_transparent {opacity : Byte} {pa : Nat} (alpha : effectiveAlpha opacity.toNat pa = 0) (c below : Rgb) :
    blend opacity pa c below = below := by
  unfold blend
  rw [alpha]
  simp only [blendComponent_zero]

theorem effectiveAlpha_zero_left (pa : Nat) : effectiveAlpha (0 : Byte).toNat pa = 0 := by simp [effectiveAlpha]

theorem effectiveAlpha_zero_right (opacity : Nat) : effectiveAlpha opacity 0 = 0 := by simp [effectiveAlpha]

/-! ### Composition (R48 to R50) -/

theorem WindowRec.covers_iff (r : WindowRec) (px py : Nat) :
    r.covers px py = true ↔ r.x ≤ (px : Int) ∧ (px : Int) < r.x + r.width ∧ r.y ≤ (py : Int) ∧ (py : Int) < r.y + r.height := by
  simp [WindowRec.covers, WindowRec.coversRow, and_assoc]

theorem windowColour_fill {r : WindowRec} {stale : Bool} (bytes : List Byte) (filled : r.source = none ∨ stale = true) :
    windowColour r stale bytes = (r.fill, 255) := by
  unfold windowColour
  obtain unsourced | rfl := filled
  · rw [unsourced]
  · split <;> rfl

theorem windowColour_source {r : WindowRec} {d : SourceDesc} (bytes : List Byte) (source : r.source = some d) :
    windowColour r false bytes = widen d.format bytes := by
  unfold windowColour
  rw [source]
  rfl

theorem Scan.lookup_found {c : Scan} {w : WinSlot} {px : Nat} {e : Fetched}
    (found : c.shown.find? (fun f => f.win = w && f.col = px) = some e) : c.lookup w px = e.bytes := by
  unfold Scan.lookup
  rw [found]

section Pixel

variable (s : State) (px py : Nat) {w : WinSlot} {r : WindowRec} (record : s.layouts.applied.record w = some r)
include record

theorem State.blendWindow_uncovered (below : Rgb) (apart : ¬ (r.visible = true ∧ r.covers px py = true)) :
    s.blendWindow px py below w = below := by
  unfold State.blendWindow
  rw [record]
  exact if_neg (mt (Bool.and_eq_true _ _).mp apart)

theorem State.blendWindow_covered (below : Rgb) (visible : r.visible = true) (covers : r.covers px py = true) :
    s.blendWindow px py below w =
      blend r.opacity (windowColour r (tget s.layouts.fresh w).stale (s.scan.lookup w px)).2
        (windowColour r (tget s.layouts.fresh w).stale (s.scan.lookup w px)).1 below := by
  unfold State.blendWindow
  rw [record]
  exact if_pos ((Bool.and_eq_true _ _).mpr ⟨visible, covers⟩)

end Pixel

/-- The state with `below` alone in the stack of its applied layout. -/
def State.showing (s : State) (below : List WinSlot) : State :=
  { s with layouts := { s.layouts with applied := { s.layouts.applied with bands := ⟨below, [], [], []⟩ } } }

/-- The window at the top of the stack is blended over what the others give. -/
theorem State.pixel_top (s : State) (t : Timing) (px py : Nat) {below : List WinSlot} {w : WinSlot}
    (stack : s.layouts.applied.stack = below ++ [w]) :
    s.pixel t px py = s.blendWindow px py ((s.showing below).pixel t px py) w := by
  have alone : (s.showing below).layouts.applied.stack = below := by simp [State.showing, Layout.stack]
  unfold State.pixel
  rw [stack, alone, List.foldl_append]
  rfl

/-- A P16 pixel is the two bytes of its value, the lower first (R56, R165). -/
theorem widen_p16 (v : Nat) (small : v < 65536) :
    widen .p16 [BitVec.ofNat 8 (v % 256), BitVec.ofNat 8 (v / 256)] =
      (⟨BitVec.ofNat 8 (v / 2048 * 8 + v / 2048 / 4), BitVec.ofNat 8 (v / 32 % 64 * 4 + v / 32 % 64 / 16),
        BitVec.ofNat 8 (v % 32 * 8 + v % 32 / 4)⟩, 255) := by
  have value : field8 [BitVec.ofNat 8 (v % 256), BitVec.ofNat 8 (v / 256)] 1 * 256 +
      field8 [BitVec.ofNat 8 (v % 256), BitVec.ofNat 8 (v / 256)] 0 = v := by
    simp [field8]
    omega
  unfold widen
  dsimp only
  rw [value]

/-! ### The panel outputs (R43, R52) -/

/-- An output is high when it is asserted and active high, or neither. -/
theorem Polarity.level_iff (p : Polarity) {asserted : Bool} {slot : Prop} (h : asserted = true ↔ slot) :
    p.level asserted = true ↔ (slot ↔ p = .activeHigh) := by
  rw [← h]
  cases p <;> simp [Polarity.level]

theorem Timing.inHsync_iff (t : Timing) (clock : Nat) :
    t.inHsync clock = true ↔ t.hactive + t.hfront ≤ clock ∧ clock < t.hactive + t.hfront + t.hsync := by
  simp [Timing.inHsync]

theorem Timing.inVsync_iff (t : Timing) (line : Nat) :
    t.inVsync line = true ↔ t.vactive + t.vfront ≤ line ∧ line < t.vactive + t.vfront + t.vsync := by
  simp [Timing.inVsync]

theorem Timing.inActive_iff (t : Timing) (line clock : Nat) :
    t.inActive line clock = true ↔ line < t.vactive ∧ clock < t.hactive := by
  simp [Timing.inActive]

theorem State.panelPins_unconfigured (s : State) (unconfigured : s.scan.timing = none) : s.panelPins = .quiet := by
  unfold State.panelPins
  rw [unconfigured]

theorem State.panelPins_running (s : State) {t : Timing} {line clock : Nat} (running : s.scan.timing = some t)
    (place : s.scan.pos = some (line, clock)) :
    s.panelPins =
      ⟨true, t.hsyncPolarity.level (t.inHsync clock), t.vsyncPolarity.level (t.inVsync line),
        t.dePolarity.level (t.inActive line clock), if t.inActive line clock then (s.pixel t clock line).lines else 0⟩ := by
  unfold State.panelPins
  rw [running, place]

/-! ### No panel, no clock (R44, R52) -/

theorem State.pixelClock_unconfigured (s : State) (unconfigured : s.scan.timing = none) : s.pixelClock = s := by
  unfold State.pixelClock
  rw [unconfigured]

theorem State.frameBoundary_unconfigured (s : State) (unconfigured : s.scan.timing = none) : s.frameBoundary = s := by
  unfold State.frameBoundary
  rw [unconfigured]

theorem State.becomeStale_unconfigured (s : State) (unconfigured : s.scan.timing = none) (w : WinSlot) : s.becomeStale w = s := by
  unfold State.becomeStale
  rw [s.frameBoundary_unconfigured unconfigured, ite_self]

end Sys2Proof.Machine

open Sys2Proof Sys2Proof.Machine

/-- Settles O34: each component is the quotient of R51, at the extremes of the effective alpha one of the two colours. -/
theorem blendIsTheRule : Obligations.BlendIsTheRule := by
  refine ⟨fun opacity pa c below full => ?_, blend_opaque, fun pa c below _ => blend_transparent (effectiveAlpha_zero_left pa) c below,
    fun opacity c below => blend_transparent (effectiveAlpha_zero_right _) c below, fun _ _ _ _ => rfl⟩
  have alpha := effectiveAlpha_le opacity full
  refine ⟨alpha, fun f component => ?_⟩
  obtain rfl | rfl | rfl : f = Rgb.red ∨ f = Rgb.green ∨ f = Rgb.blue := by simpa using component
  all_goals exact blendComponent_toNat alpha _ _

/-- Settles O32: the pixel is a fold over the stack, whose last turn is the window at the top. -/
theorem compositionOfAPixel : Obligations.CompositionOfAPixel := by
  refine ⟨fun _ => rfl, fun s t px py empty => ?_, ?_, ?_, fun _ _ _ _ => ⟨rfl, rfl⟩⟩
  · unfold State.pixel
    rw [empty]
    rfl
  · rintro s _ t px py w r below record stack rfl
    rw [← r.covers_iff, s.pixel_top t px py stack]
    refine ⟨fun apart => s.blendWindow_uncovered px py record _ apart, fun ⟨visible, covers⟩ => ?_⟩
    rw [s.blendWindow_covered px py record _ visible covers]
    refine ⟨fun filled => ?_, fun d e source current found => ?_⟩
    · rw [windowColour_fill _ filled]
      rfl
    · rw [current, windowColour_source _ source, Scan.lookup_found found]
      rfl
  · rintro v _ _ small rfl rfl
    exact widen_p16 v small

/-- Settles O31: the pins a command ends with are computed from the position and the picture it leaves. -/
theorem panelFollowsThePosition : Obligations.PanelFollowsThePosition := by
  refine ⟨fun c s => ?_, fun s unconfigured => ⟨?_, ?_, fun w => ?_⟩⟩
  · obtain ⟨u, e⟩ := exec_settles c s
    refine ⟨u.settle, e, u.panelPins_unconfigured, fun t line clock running place => ?_⟩
    have panel : u.settle.pins.panel = _ := u.panelPins_running running place
    rw [panel]
    exact ⟨rfl, t.hsyncPolarity.level_iff (t.inHsync_iff clock), t.vsyncPolarity.level_iff (t.inVsync_iff line),
      t.dePolarity.level_iff (t.inActive_iff line clock),
      ite_congr (propext (t.inActive_iff line clock)) (fun _ => rfl) (fun _ => rfl)⟩
  · exact congrArg settled (s.pixelClock_unconfigured unconfigured)
  · exact congrArg settled (s.frameBoundary_unconfigured unconfigured)
  · exact congrArg settled (s.becomeStale_unconfigured unconfigured w)

end

section
/-! The fetch of source pixels (chapter 3): which line is read, which pixels it needs and from where, what one pixel clock reads of them,
and the two line buffers at the clock's end (R47, R49; log entries 9 and 23). -/

namespace Sys2Proof.Machine

/-! ### The line that is read, and the pixels it needs (R47 to R49) -/

theorem Timing.fetchLine_next (t : Timing) {line y : Nat} (valid : t.valid = true)
    (reads : y = line + 1 ∧ line + 1 < t.vactive ∨ y = 0 ∧ line + 1 = t.vtotal) : t.fetchLine line = some y := by
  obtain ⟨_, _, _, _⟩ := t.totals_of_valid valid
  unfold Timing.fetchLine
  obtain ⟨rfl, active⟩ | ⟨rfl, last⟩ := reads
  · rw [if_neg (by omega), if_pos active]
  · rw [if_pos last]

theorem Timing.fetchLine_none (t : Timing) {line : Nat} (beyond : t.vactive ≤ line + 1) (notLast : line + 1 ≠ t.vtotal) :
    t.fetchLine line = none := by
  unfold Timing.fetchLine
  rw [if_neg notLast, if_neg (by omega)]

/-- The pixel at column `px` of the window in slot `w` is needed for line `y`: the window is in the stack, visible, with a source, not
stale, and covers the panel pixel there. -/
def LayoutController.needs (c : LayoutController) (hactive y : Nat) (w : WinSlot) (px : Nat) : Prop :=
  w ∈ c.applied.stack ∧ (tget c.fresh w).stale = false ∧ px < hactive ∧
    ∃ r, c.applied.record w = some r ∧ r.visible = true ∧ r.source.isSome = true ∧
      r.x ≤ (px : Int) ∧ (px : Int) < r.x + r.width ∧ r.y ≤ (y : Int) ∧ (y : Int) < r.y + r.height

/-- The columns counted for the load of a line are those the window covers on the panel (R108). -/
theorem WindowRec.mem_columns (r : WindowRec) (hactive px : Nat) :
    px ∈ List.range' (max 0 r.x).toNat (r.columns hactive) ↔ px < hactive ∧ r.x ≤ (px : Int) ∧ (px : Int) < r.x + r.width := by
  unfold WindowRec.columns
  rw [List.mem_range'_1]
  omega

theorem WindowRec.coversRow_iff (r : WindowRec) (y : Nat) :
    r.coversRow y = true ↔ r.y ≤ (y : Int) ∧ (y : Int) < r.y + r.height := by
  simp [WindowRec.coversRow]

theorem LayoutController.fetches_iff (c : LayoutController) {w : WinSlot} {r : WindowRec} (record : c.applied.record w = some r) :
    c.fetches w = true ↔ r.visible = true ∧ r.source.isSome = true ∧ (tget c.fresh w).stale = false := by
  unfold LayoutController.fetches
  rw [record]
  simp [and_assoc]

/-- The model's list of the pixels to read holds those that are needed. -/
theorem LayoutController.mem_fetchList (c : LayoutController) (hactive y : Nat) (w : WinSlot) (px : Nat) :
    (w, px) ∈ c.fetchList hactive y ↔ c.needs hactive y w px := by
  unfold LayoutController.fetchList
  rw [List.mem_flatMap]
  constructor
  · rintro ⟨v, stacked, turn⟩
    split at turn
    · rename_i r record
      split at turn
      · rename_i reads
        obtain ⟨fetches, row⟩ := (Bool.and_eq_true _ _).mp reads
        obtain ⟨col, columns, e⟩ := List.mem_map.mp turn
        cases e
        obtain ⟨visible, source, current⟩ := (c.fetches_iff record).mp fetches
        obtain ⟨onPanel, left, right⟩ := (r.mem_columns hactive px).mp columns
        obtain ⟨top, bottom⟩ := (r.coversRow_iff y).mp row
        exact ⟨stacked, current, onPanel, r, record, visible, source, left, right, top, bottom⟩
      · cases turn
    · cases turn
  · rintro ⟨stacked, current, onPanel, r, record, visible, source, left, right, top, bottom⟩
    refine ⟨w, stacked, ?_⟩
    rw [record]
    dsimp only
    have fetches := (c.fetches_iff record).mpr ⟨visible, source, current⟩
    have row := (r.coversRow_iff y).mpr ⟨top, bottom⟩
    rw [if_pos ((Bool.and_eq_true _ _).mpr ⟨fetches, row⟩)]
    exact List.mem_map.mpr ⟨px, (r.mem_columns hactive px).mpr ⟨onPanel, left, right⟩, rfl⟩

/-! ### What one pixel clock reads (R47, log entry 9) -/

theorem Scan.hasFetched_iff (c : Scan) (w : WinSlot) (px : Nat) :
    c.hasFetched w px = true ↔ ∃ g ∈ c.fetched, g.win = w ∧ g.col = px := by
  simp [Scan.hasFetched]

/-- The source pixels read for line `y` during a pixel clock, each with the bytes that frame memory holds for it. -/
def State.newlyFetched (s : State) (t : Timing) (y clock : Nat) : List Fetched :=
  ((s.layouts.fetchList t.hactive y).filter (fun p =>
    !(s.scan.hasFetched p.1 p.2) && (decide (clock + 1 = t.htotal) || Config.fetchNow s.free p.1.val p.2))).map
    (fun p => ⟨p.1, p.2, s.sourcePixel p.1 p.2 y⟩)

section Reads

variable (s : State) (t : Timing) {line y : Nat} (clock : Nat)

theorem State.fetch_reading (reads : t.fetchLine line = some y) :
    s.fetch t line clock = (s.withScan { s.scan with fetched := s.scan.fetched ++ s.newlyFetched t y clock }).tick := by
  unfold State.fetch
  rw [reads]
  rfl

theorem State.fetch_idle (idle : t.fetchLine line = none) : s.fetch t line clock = s := by
  unfold State.fetch
  rw [idle]

/-- Nothing is read but what is needed and not yet read. -/
theorem State.newlyFetched_needed {e : Fetched} (new : e ∈ s.newlyFetched t y clock) :
    s.layouts.needs t.hactive y e.win e.col ∧ (∀ g ∈ s.scan.fetched, ¬ (g.win = e.win ∧ g.col = e.col)) ∧
      e.bytes = s.sourcePixel e.win e.col y := by
  obtain ⟨⟨w, px⟩, chosen, rfl⟩ := List.mem_map.mp new
  obtain ⟨listed, now⟩ := List.mem_filter.mp chosen
  have unread : ¬ s.scan.hasFetched w px = true := by
    simp only [Bool.and_eq_true, Bool.not_eq_true'] at now
    exact ne_true_of_eq_false now.1
  exact ⟨(s.layouts.mem_fetchList t.hactive y w px).mp listed,
    fun g old same => unread ((s.scan.hasFetched_iff w px).mpr ⟨g, old, same⟩), rfl⟩

/-- By the last pixel clock of the line all that is needed has been read. -/
theorem State.fetched_all (ends : clock + 1 = t.htotal) {w : WinSlot} {px : Nat} (needed : s.layouts.needs t.hactive y w px) :
    ∃ e ∈ s.scan.fetched ++ s.newlyFetched t y clock, e.win = w ∧ e.col = px := by
  by_cases read : s.scan.hasFetched w px = true
  · obtain ⟨g, old, same⟩ := (s.scan.hasFetched_iff w px).mp read
    exact ⟨g, List.mem_append_left _ old, same⟩
  · refine ⟨⟨w, px, s.sourcePixel w px y⟩, List.mem_append_right _ (List.mem_map.mpr ⟨(w, px), ?_, rfl⟩), rfl, rfl⟩
    exact List.mem_filter.mpr ⟨(s.layouts.mem_fetchList t.hactive y w px).mpr needed, by simp [read, ends]⟩

/-- The source pixel of a needed panel pixel lies at column sx + (px - x) and row sy + (py - y) of its surface (R49). -/
theorem State.sourcePixel_eq {w : WinSlot} {px : Nat} (needed : s.layouts.needs t.hactive y w px) {r : WindowRec} {d : SourceDesc}
    {i : SurfSlot} {f : Surface} {col row : Nat} (record : s.layouts.applied.record w = some r) (source : r.source = some d)
    (named : s.surfaces.named d.handle = some (i, f)) (atCol : (col : Int) = r.sx + ((px : Int) - r.x))
    (atRow : (row : Int) = r.sy + ((y : Int) - r.y)) : s.sourcePixel w px y = readPixel s.mem f col row := by
  obtain ⟨_, _, _, _, same, _, _, left, _, top, _⟩ := needed
  cases record.symm.trans same
  have hcol : r.sx + ((px : Int) - r.x).toNat = col := by omega
  have hrow : r.sy + ((y : Int) - r.y).toNat = row := by omega
  unfold State.sourcePixel
  rw [record]
  dsimp only
  rw [source]
  dsimp only
  rw [named]
  dsimp only
  rw [hcol, hrow]

end Reads

/-! ### The line buffers after a pixel clock -/

section Buffers

variable (s : State) (t : Timing) {line y : Nat} (clock : Nat)

/-- The buffers advance on what was fetched before and during the clock. -/
theorem State.clocked_reading (reads : t.fetchLine line = some y) :
    (s.clocked t line clock).scan =
      Scan.advance { s.scan with fetched := s.scan.fetched ++ s.drawOn.newlyFetched t y clock } t line clock := by
  unfold State.clocked
  rw [State.withScan_scan, State.fetch_reading _ t clock reads, State.tick_scan, State.withScan_scan, State.drawOn_scan]

theorem State.clocked_idle (idle : t.fetchLine line = none) : (s.clocked t line clock).scan = s.scan.advance t line clock := by
  unfold State.clocked
  rw [State.withScan_scan, State.fetch_idle _ t clock idle, State.drawOn_scan]

end Buffers

/-! ### The bytes of a pixel (R49, R56) -/

theorem readPixel_page (m : Memory) (f : Surface) (col row : Nat) {page : Nat}
    (paged : f.pageList[f.pixelOffset col row / 4096]? = some page) :
    readPixel m f col row =
      (List.range f.format.bytes).map (fun k => Memory.read m (page * 4096 + f.pixelOffset col row % 4096 + k)) := by
  have address : f.address (f.pixelOffset col row) = some (page * 4096 + f.pixelOffset col row % 4096) := by
    unfold Surface.address
    exact congrArg (Option.map _) paged
  unfold readPixel
  rw [address]
  dsimp only
  rw [List.range'_eq_map_range, List.map_map]
  rfl

end Sys2Proof.Machine

open Sys2Proof Sys2Proof.Machine

/-- Settles O33: a pixel clock that reads a line takes no boundary, and leaves the buffers advanced on what it has read. -/
theorem sourcePixelsAreFetched : Obligations.SourcePixelsAreFetched := by
  refine ⟨fun s t line clock y needed running place valid reads needs => ?_,
    fun s t line clock running place beyond notLast inside => ?_, ?_⟩
  · obtain ⟨_, _, _, _⟩ := t.totals_of_valid valid
    have clocked := s.pixelClock_inside t line clock running place (by omega)
    have scan := s.clocked_reading t clock (t.fetchLine_next valid reads)
    have needs : ∀ w px, needed w px ↔ s.drawOn.layouts.needs t.hactive y w px := fun w px => by
      rw [State.drawOn_layouts]
      exact needs w px
    refine ⟨s.pixelClock.settle, s.drawOn.newlyFetched t y clock, rfl, fun e new => ?_, fun within => ?_, fun ends => ?_⟩
    · obtain ⟨need, unread, bytes⟩ := s.drawOn.newlyFetched_needed t clock new
      refine ⟨(needs _ _).mpr need, by rwa [State.drawOn_scan] at unread,
        fun r d i f col row record source named atCol atRow => ?_⟩
      rw [State.settle_mem, clocked, State.clocked_mem, bytes]
      exact s.drawOn.sourcePixel_eq t need (by rwa [State.drawOn_layouts]) source (by rwa [State.drawOn_surfaces]) atCol atRow
    · rw [State.settle_scan, clocked, scan]
      exact Scan.advance_within _ t line clock within
    · obtain ⟨shown, fetched⟩ := Scan.advance_lineEnd
        { s.scan with fetched := s.scan.fetched ++ s.drawOn.newlyFetched t y clock } t line clock ends
      rw [State.settle_scan, clocked, scan]
      refine ⟨shown, fetched, fun w px need => ?_⟩
      rw [shown, ← State.drawOn_scan s]
      exact s.drawOn.fetched_all t clock ends ((needs w px).mp need)
  · have scan := s.clocked_idle t clock (t.fetchLine_none beyond notLast)
    refine ⟨s.pixelClock.settle, rfl, ?_⟩
    rw [State.settle_scan, s.pixelClock_inside t line clock running place inside, scan]
    exact ⟨s.scan.advance_within t line clock, s.scan.advance_lineEnd t line clock⟩
  · rintro m f col row _ page _ rfl rfl paged
    have size : (if f.format = .p16 then 2 else 4) = f.format.bytes := by cases f.format <;> rfl
    rw [size] at paged ⊢
    exact readPixel_page m f col row paged

end

section
/-! Frame memory stays in its canonical form (R72, log entry 7): of the operations that a step is made of, only the writes of a job and the
zero-filling of a creation touch it. -/

namespace Sys2Proof.Machine

/-! ### CREATE_SURFACE, by its checks (R61, R62) -/

/-- What CREATE_SURFACE can leave: the state as it is, or a surface created in the lowest FREE slot with its pages zeroed, all checks
passed. -/
theorem State.serveCreateSurface_cases (s : State) (n : Port) (p : List Byte) :
    (s.serveCreateSurface n p).1 = s ∨
      ∃ q i, surfaceRequestOf p = some q ∧ tget s.surfaces.surfCount n < Config.surfacesPerPort ∧ s.surfaces.freeSlot = some i ∧
        poolUse (tmod s.surfaces.pageCount n (· + pagesOf q.width q.height q.format)) ≤ Config.pool ∧
        (s.serveCreateSurface n p).1 = (s.withSurfaces (s.surfaces.create n i q)).withMem
          (Memory.zeroPages s.mem (newSurface s.surfaces n q).pageList) := by
  unfold State.serveCreateSurface
  split
  · exact .inl rfl
  · rename_i q asks
    split
    · exact .inl rfl
    · rename_i room
      split
      · exact .inl rfl
      · rename_i i slot
        split
        · exact .inl rfl
        · rename_i fits
          exact .inr ⟨q, i, asks, Decidable.not_not.mp room, slot, Nat.le_of_not_lt fits, rfl⟩

theorem State.serveCreateSurface_wf (s : State) (n : Port) (p : List Byte) (h : Memory.wf s.mem = true) :
    Memory.wf (s.serveCreateSurface n p).1.mem = true := by
  obtain same | ⟨q, i, _, _, _, _, created⟩ := s.serveCreateSurface_cases n p
  · rwa [same]
  · rw [created]
    exact Memory.wf_zeroPages h _

/-! ### The drawing engine (R91, R93) -/

theorem State.abortJobs_wf (s : State) (n : Port) (h : Memory.wf s.mem = true) : Memory.wf (s.abortJobs n).mem = true := by
  unfold State.abortJobs
  split
  · rw [State.choose_mem]
    exact s.drawOn_wf h
  · exact h

theorem State.completeJob_wf (s : State) (h : Memory.wf s.mem = true) : Memory.wf s.completeJob.mem = true := by
  unfold State.completeJob
  split
  · exact h
  · rw [State.choose_mem, State.retireJob_mem]
    exact s.writeNext_wf _ h

/-! ### Every operation -/

theorem State.memWf_of_eq {s u : State} (same : u.mem = s.mem) (h : Memory.wf s.mem = true) : Memory.wf u.mem = true := same ▸ h

theorem State.memWfKept : Kept (fun s => Memory.wf s.mem = true) where
  link _ _ _ h := h
  session _ _ _ h := h
  pins _ _ h := h
  tick _ h := h
  reset _ _ _ _ _ _ := Memory.wf_nil
  jobNumbers _ _ h := h
  setTiming s p h := State.memWf_of_eq (s.serveSetTiming_mem p) h
  createSurface s n p h := s.serveCreateSurface_wf n p h
  destroySurface _ _ h := h
  drawing s n k q h _ := State.memWf_of_eq (s.serveDrawing_mem n k q) h
  createWindow s n p h := State.memWf_of_eq (s.serveCreateWindow_mem n p) h
  commit s n tag p h := State.memWf_of_eq (s.serveCommit_mem n tag p) h
  acquireAlert s n h := State.memWf_of_eq (s.serveAcquireAlert_mem n) h
  releaseAlert s n h := State.memWf_of_eq (s.serveReleaseAlert_mem n) h
  abortJobs s n h := s.abortJobs_wf n h
  teardownLayouts s n h := State.memWf_of_eq (s.teardownLayouts_mem n) h
  returnResources s n h := State.memWf_of_eq (s.returnResources_mem n) h
  drawOn s h := s.drawOn_wf h
  completeJob s h := s.completeJob_wf h
  fetch s t line clock h := State.memWf_of_eq (s.fetch_mem t line clock) h
  place _ _ _ _ h _ _ := h
  lastActive _ _ h _ := h
  newFrame _ _ h _ := h
  withdrawClosing s h := State.memWf_of_eq s.withdrawClosing_mem h
  applyCommits s h := State.memWf_of_eq s.applyCommits_mem h
  ageWindows s h := State.memWf_of_eq s.ageWindows_mem h

end Sys2Proof.Machine

open Sys2Proof Sys2Proof.Machine

/-- Settles O4: the operations that a step is made of keep frame memory canonical. -/
theorem memoryStaysCanonical : Obligations.MemoryStaysCanonical :=
  fun s t canonical e => State.memWfKept.step (fun _ _ h => h) s t canonical e

end

section
/-! The accounts of pages, surfaces and windows through every command (R54, R57, R60, R95, R103). What they see of the surface manager is
Surfaces.bareView, which only a creation, a destruction and a teardown's return change; what they see of the layout controller is
LayoutController.holdings, which only a window reserved or freed changes. -/

namespace Sys2Proof.Machine

/-! ### Operations that change reference counts alone -/

theorem Surfaces.changed_view (m : Surfaces) (f : SurfSlot → Surface → Surface) (hf : ∀ i g, (f i g).bare = g.bare) :
    (m.changed f).bareView = m.bareView := by
  refine Prod.ext (funext fun i => ?_) rfl
  show (⟨_, _⟩ : SurfaceEntry) = ⟨_, _⟩
  rw [Surfaces.changed_slot]
  cases (tget m.slots i).surface with
  | none => rfl
  | some g => simp only [Option.map_some, hf]

theorem State.serveDrawing_view (s : State) (n : Port) (k : Kind) (q : DrawRequest) :
    (s.serveDrawing n k q).1.surfaces.bareView = s.surfaces.bareView := by
  unfold State.serveDrawing
  split
  · rfl
  · unfold State.acceptJob
    rw [State.choose_surfaces]
    exact Surfaces.mapJob_view _ _ Surface.raiseJobs (fun _ => rfl)

theorem State.serveCommit_view (s : State) (n : Port) (tag : Byte) (p : List Byte) :
    (s.serveCommit n tag p).1.surfaces.bareView = s.surfaces.bareView := by
  unfold State.serveCommit
  dsimp only
  split
  · rfl
  · split
    · rfl
    · split
      · rfl
      · split
        · rfl
        · exact Surfaces.mapQueued_view _ _ Surface.raiseQueued (fun _ => rfl)

theorem State.abortJobs_view (s : State) (n : Port) : (s.abortJobs n).surfaces.bareView = s.surfaces.bareView := by
  rw [State.abortJobs_surfaces]
  exact Surfaces.changed_view _ _ (fun _ _ => rfl)

theorem State.teardownLayouts_view (s : State) (n : Port) : (s.teardownLayouts n).surfaces.bareView = s.surfaces.bareView := by
  unfold State.teardownLayouts State.dropCommits
  rw [State.dropToken_surfaces]
  exact foldl_same Surfaces.bareView _ (fun m (p : Pending) => m.mapQueued_view p.ops Surface.lowerQueued (fun _ => rfl)) _ _

theorem State.completeJob_view (s : State) : s.completeJob.surfaces.bareView = s.surfaces.bareView := by
  have retired : ∀ (u : State) (j : Job), (u.retireJob j).surfaces = u.surfaces.mapJob j Surface.lowerJobs := fun u j => by
    unfold State.retireJob
    dsimp only
    split <;> rfl
  unfold State.completeJob
  split
  · rfl
  · rw [State.choose_surfaces, retired, Surfaces.mapJob_view _ _ Surface.lowerJobs (fun _ => rfl), State.writeNext_surfaces]

theorem State.withdrawClosing_view (s : State) : s.withdrawClosing.surfaces.bareView = s.surfaces.bareView := by
  rw [State.withdrawClosing_effect]
  exact Surfaces.changed_view _ _ (fun _ _ => rfl)

theorem State.applyCommits_view (s : State) : s.applyCommits.surfaces.bareView = s.surfaces.bareView := by
  refine State.applyCommits_keeps (fun u => u.surfaces.bareView = s.surfaces.bareView) (fun u p rest h _ _ => ?_) s rfl
  refine State.applyCommit_keeps (fun u => u.surfaces.bareView = s.surfaces.bareView)
    (fun u => u.surfaces.bareView = s.surfaces.bareView) (fun v op k => ?_) (fun v ops k => ?_) (fun _ _ k => k) (fun _ _ _ k => k) _ p h
  · rw [State.applyOp_view, k]
  · exact (v.surfaces.mapQueued_view ops Surface.lowerQueued (fun _ => rfl)).trans k

/-! ### Conditions on the surface manager -/

theorem surfaceRequestOf_sizes {p : List Byte} {q : SurfaceRequest} (h : surfaceRequestOf p = some q) :
    1 ≤ q.width ∧ q.width ≤ 2048 ∧ 1 ≤ q.height ∧ q.height ≤ 2048 := by
  unfold surfaceRequestOf at h
  split at h
  · split at h
    · rename_i sizes
      cases h
      exact sizes
    · cases h
  · cases h

/-- A condition on the surface manager that looks at no reference count and survives a creation that passes its checks, a destruction
and the return of a port's surfaces. -/
structure Surfaces.Accounted (S : Surfaces → Prop) : Prop where
  congr : ∀ {m k : Surfaces}, m.bareView = k.bareView → S k → S m
  reset : S .reset
  create : ∀ (m : Surfaces) (n : Port) (i : SurfSlot) (q : SurfaceRequest), m.freeSlot = some i →
    (1 ≤ q.width ∧ q.width ≤ 2048 ∧ 1 ≤ q.height ∧ q.height ≤ 2048) → tget m.surfCount n < Config.surfacesPerPort →
    poolUse (tmod m.pageCount n (· + pagesOf q.width q.height q.format)) ≤ Config.pool → S m → S (m.create n i q)
  free : ∀ (m : Surfaces) (i : SurfSlot), S m → S (m.free i)
  freeOwned : ∀ (m : Surfaces) (n : Port), S m → S (m.freeOwned n)

section Accounted

variable {S : Surfaces → Prop}

theorem Surfaces.Accounted.serveCreateSurface (a : Surfaces.Accounted S) (s : State) (n : Port) (p : List Byte) (h : S s.surfaces) :
    S (s.serveCreateSurface n p).1.surfaces := by
  obtain same | ⟨q, i, asks, room, slot, fits, created⟩ := s.serveCreateSurface_cases n p
  · rwa [same]
  · rw [created]
    exact a.create _ n i q slot (surfaceRequestOf_sizes asks) room fits h

theorem Surfaces.Accounted.returnResources (a : Surfaces.Accounted S) (s : State) (n : Port) (h : S s.surfaces) :
    S (s.returnResources n).surfaces :=
  State.returnResources_keeps (fun u => S u.surfaces) (fun u => S u.surfaces) (fun u w k => a.congr (u.freeWindow_view w) k)
    (fun u n k => a.freeOwned u.surfaces n k) s n h

theorem Surfaces.Accounted.of_eq (a : Surfaces.Accounted S) {m k : Surfaces} (same : m = k) (h : S k) : S m :=
  a.congr (congrArg Surfaces.bareView same) h

/-- Every step keeps such a condition: all other operations change reference counts at most. -/
theorem Surfaces.Accounted.kept (a : Surfaces.Accounted S) : Kept (fun s => S s.surfaces) where
  link _ _ _ h := h
  session _ _ _ h := h
  pins _ _ h := h
  tick _ h := h
  reset _ _ _ _ _ _ := a.reset
  jobNumbers _ _ h := h
  setTiming s p h := a.of_eq (s.serveSetTiming_surfaces p) h
  createSurface s n p h := a.serveCreateSurface s n p h
  destroySurface s i h := a.free s.surfaces i h
  drawing s n k q h _ := a.congr (s.serveDrawing_view n k q) h
  createWindow s n p h := a.of_eq (s.serveCreateWindow_surfaces n p) h
  commit s n tag p h := a.congr (s.serveCommit_view n tag p) h
  acquireAlert s n h := a.of_eq (s.serveAcquireAlert_surfaces n) h
  releaseAlert s n h := a.of_eq (s.serveReleaseAlert_surfaces n) h
  abortJobs s n h := a.congr (s.abortJobs_view n) h
  teardownLayouts s n h := a.congr (s.teardownLayouts_view n) h
  returnResources s n h := a.returnResources s n h
  drawOn s h := a.of_eq s.drawOn_surfaces h
  completeJob s h := a.congr s.completeJob_view h
  fetch s t line clock h := a.of_eq (s.fetch_surfaces t line clock) h
  place _ _ _ _ h _ _ := h
  lastActive _ _ h _ := h
  newFrame _ _ h _ := h
  withdrawClosing s h := a.congr s.withdrawClosing_view h
  applyCommits s h := a.congr s.applyCommits_view h
  ageWindows s h := a.of_eq s.ageWindows_surfaces h

end Accounted

theorem Surfaces.pagesSound_accounted : Surfaces.Accounted Surfaces.pagesSound where
  congr := Surfaces.pagesSound_congr
  reset := Surfaces.reset_pages
  create m n i q slot _ _ _ h := m.create_sound n i q slot h
  free m i h := m.free_sound i h
  freeOwned m n h := m.freeOwned_sound n h

/-- With the pages sound the accounts survive a creation: there are pages enough for it. -/
theorem Surfaces.accountsSound_accounted : Surfaces.Accounted (fun m => m.pagesSound ∧ m.accountsSound) where
  congr same h := ⟨Surfaces.pagesSound_congr same h.1, Surfaces.accountsSound_congr same h.2⟩
  reset := ⟨Surfaces.reset_pages, Surfaces.reset_accounts⟩
  create m n i q slot sizes room fits h :=
    ⟨m.create_sound n i q slot h.1, m.create_accounts n i q slot sizes room fits h.1 h.2⟩
  free m i h := ⟨m.free_sound i h.1, m.free_accounts i h.2⟩
  freeOwned m n h := ⟨m.freeOwned_sound n h.1, m.freeOwned_accounts n h.2⟩

/-! ### Counts of windows (R95, R103) -/

/-- What the counts of windows are about: who owns each slot, and the counts. -/
def LayoutController.holdings (c : LayoutController) : Table (Option Port) 24 × Table Nat 4 := (c.owners, c.winCount)

theorem LayoutController.countsSound_congr {c d : LayoutController} (same : c.holdings = d.holdings) (h : d.countsSound) :
    c.countsSound := by
  obtain ⟨owners, counts⟩ := Prod.mk.inj same
  unfold LayoutController.countsSound
  rw [owners, counts]
  exact h

theorem State.serveSetTiming_holdings (s : State) (p : List Byte) :
    (s.serveSetTiming p).1.layouts.holdings = s.layouts.holdings := by
  unfold State.serveSetTiming
  repeat' split
  all_goals rfl

theorem State.serveCommit_holdings (s : State) (n : Port) (tag : Byte) (p : List Byte) :
    (s.serveCommit n tag p).1.layouts.holdings = s.layouts.holdings := by
  unfold State.serveCommit
  dsimp only
  repeat' split
  all_goals rfl

theorem State.passToken_holdings (s : State) : s.passToken.layouts.holdings = s.layouts.holdings := by
  unfold State.passToken
  split <;> rfl

theorem State.dropToken_holdings (s : State) (n : Port) : (s.dropToken n).layouts.holdings = s.layouts.holdings := by
  unfold State.dropToken
  split
  · exact s.passToken_holdings
  · rfl

theorem State.serveAcquireAlert_holdings (s : State) (n : Port) : (s.serveAcquireAlert n).1.layouts.holdings = s.layouts.holdings := by
  unfold State.serveAcquireAlert
  repeat' split
  all_goals rfl

theorem State.serveReleaseAlert_holdings (s : State) (n : Port) : (s.serveReleaseAlert n).1.layouts.holdings = s.layouts.holdings := by
  unfold State.serveReleaseAlert
  split
  · split
    · rfl
    · exact s.passToken_holdings
  · split <;> rfl

theorem State.teardownLayouts_holdings (s : State) (n : Port) : (s.teardownLayouts n).layouts.holdings = s.layouts.holdings :=
  State.dropToken_holdings _ n

theorem State.completeJob_holdings (s : State) : s.completeJob.layouts.holdings = s.layouts.holdings := by
  have retired : ∀ (u : State) (j : Job), (u.retireJob j).layouts.holdings = u.layouts.holdings := fun u j => by
    unfold State.retireJob
    dsimp only
    split <;> rfl
  unfold State.completeJob
  split
  · rfl
  · rw [State.choose_layouts, retired, State.writeNext_layouts]

theorem State.withdrawClosing_holdings (s : State) : s.withdrawClosing.layouts.holdings = s.layouts.holdings := by
  rw [State.withdrawClosing_effect]
  rfl

theorem State.ageWindows_holdings (s : State) : s.ageWindows.layouts.holdings = s.layouts.holdings := by
  obtain ⟨ages, aged⟩ := s.ageWindows_layouts
  rw [aged]
  rfl

theorem LayoutController.restarts_holdings (c : LayoutController) (ws : List WinSlot) :
    (ws.foldl LayoutController.restart c).holdings = c.holdings :=
  Prod.ext (c.restarts_owners ws) (c.restarts_winCount ws)

theorem State.applyChange_holdings (s : State) (op : Op) (w : WinSlot) :
    (s.applyChange op w).layouts.holdings = s.layouts.holdings := by
  unfold State.applyChange
  dsimp only [State.withLayouts_layouts]
  split <;> rfl

theorem State.serveCreateWindow_counts (s : State) (n : Port) (p : List Byte) (h : s.layouts.countsSound) :
    (s.serveCreateWindow n p).1.layouts.countsSound := by
  unfold State.serveCreateWindow
  split
  · exact h
  · split
    · exact h
    · split
      · exact h
      · rename_i room
        split
        · exact h
        · rename_i w slot
          exact s.layouts.reserve_counts n w _ _ slot (Decidable.not_not.mp room) h

/-- A port whose windows are all freed has count 0 (R35). -/
theorem State.returnResources_counts (s : State) (n : Port) (h : s.layouts.countsSound) :
    (s.returnResources n).layouts.countsSound := by
  obtain ⟨_, _, count, unowned, _⟩ := s.returnResources_returned n
  have freed : (s.freeWindowsOf n).layouts.countsSound :=
    State.freeWindowsOf_keeps (fun u => u.layouts.countsSound) (fun u w k => u.freeWindow_counts w k) s n h
  intro p
  by_cases e : n = p
  · subst e
    have absent : (allSlots 24).filter (fun w => tget (s.returnResources n).layouts.owners w = some n) = [] :=
      List.filter_eq_nil_iff.mpr fun w _ own => unowned w (of_decide_eq_true own)
    rw [count, absent]
    exact ⟨rfl, Nat.zero_le _⟩
  · show tget (tput (s.freeWindowsOf n).layouts.winCount n 0) p = _ ∧ tget (tput (s.freeWindowsOf n).layouts.winCount n 0) p ≤ 8
    rw [tget_tput_ne _ _ _ _ e]
    exact freed p

theorem State.applyOp_counts (s : State) (op : Op) (h : s.layouts.countsSound) : (s.applyOp op).layouts.countsSound := by
  unfold State.applyOp
  split
  · exact h
  · split
    · exact s.freeWindow_counts _ h
    · exact LayoutController.countsSound_congr (s.applyChange_holdings _ _) h

theorem State.applyCommits_counts (s : State) (h : s.layouts.countsSound) : s.applyCommits.layouts.countsSound :=
  State.applyCommits_keeps (fun u => u.layouts.countsSound)
    (fun _ p _ k _ _ => State.applyCommit_keeps (fun u => u.layouts.countsSound) (fun u => u.layouts.countsSound)
      (fun v op => v.applyOp_counts op) (fun _ _ k => k)
      (fun v ws => LayoutController.countsSound_congr (v.layouts.restarts_holdings ws)) (fun _ _ _ k => k) _ p k) s h

theorem State.countsSound_of_eq {s u : State} (same : u.layouts = s.layouts) (h : s.layouts.countsSound) : u.layouts.countsSound :=
  same ▸ h

theorem State.countsSoundKept : Kept (fun s => s.layouts.countsSound) where
  link _ _ _ h := h
  session _ _ _ h := h
  pins _ _ h := h
  tick _ h := h
  reset _ _ _ _ _ _ := LayoutController.reset_countsSound
  jobNumbers _ _ h := h
  setTiming s p h := LayoutController.countsSound_congr (s.serveSetTiming_holdings p) h
  createSurface s n p h := State.countsSound_of_eq (s.serveCreateSurface_layouts n p) h
  destroySurface _ _ h := h
  drawing s n k q h _ := State.countsSound_of_eq (s.serveDrawing_layouts n k q) h
  createWindow s n p h := s.serveCreateWindow_counts n p h
  commit s n tag p h := LayoutController.countsSound_congr (s.serveCommit_holdings n tag p) h
  acquireAlert s n h := LayoutController.countsSound_congr (s.serveAcquireAlert_holdings n) h
  releaseAlert s n h := LayoutController.countsSound_congr (s.serveReleaseAlert_holdings n) h
  abortJobs s n h := State.countsSound_of_eq (s.abortJobs_layouts n) h
  teardownLayouts s n h := LayoutController.countsSound_congr (s.teardownLayouts_holdings n) h
  returnResources s n h := s.returnResources_counts n h
  drawOn s h := State.countsSound_of_eq s.drawOn_layouts h
  completeJob s h := LayoutController.countsSound_congr s.completeJob_holdings h
  fetch s t line clock h := State.countsSound_of_eq (s.fetch_layouts t line clock) h
  place _ _ _ _ h _ _ := h
  lastActive _ _ h _ := h
  newFrame _ _ h _ := h
  withdrawClosing s h := LayoutController.countsSound_congr s.withdrawClosing_holdings h
  applyCommits s h := s.applyCommits_counts h
  ageWindows s h := LayoutController.countsSound_congr s.ageWindows_holdings h

end Sys2Proof.Machine

open Sys2Proof Sys2Proof.Machine

/-- Settles O9: the accounts of surfaces survive the operations that create and destroy, the counts of windows those that reserve and
free; the total and the fit of each record are Surfaces.counts_total and Surface.recordSound_laidOut. -/
theorem pagesStayConserved : Obligations.PagesStayConserved := by
  refine ⟨fun s t pages e => ⟨?_, fun accounts => ?_⟩, fun s t counts e => ?_, fun m pages accounts => ⟨?_, fun i f slot => ?_⟩⟩
  · exact Surfaces.pagesSound_accounted.kept.step (fun _ _ h => h) s t pages e
  · exact (Surfaces.accountsSound_accounted.kept.step (fun _ _ h => h) s t ⟨pages, accounts⟩ e).2
  · exact State.countsSoundKept.step (fun _ _ h => h) s t counts e
  · exact m.counts_total pages accounts
  · exact f.recordSound_laidOut (accounts.1 i f slot)

end

section
/-! Requests about surfaces (4.3, 4.4) and CREATE_WINDOW's refusals: each is one transaction of a quiet port, so what it does is what its
owning block decides (R24, log entry 2). -/

namespace Sys2Proof.Machine

/-! ### From a command to its owning block -/

section Requests

variable {c : Instr} {s t : State} {n : Port} {k : Kind} {tag : Byte} {p payload : List Byte}

/-- A command whose request its block answers, leaving the port's request at the head. -/
theorem exec_answered (carries : carried c = some (n, ⟨k.code, tag, p⟩)) (quiet : s.quiet n) (session : (s.session n).state ≠ .closed)
    (length : k.lengthOk p.length = true) (short : p.length ≤ Config.maxPayload)
    (decided : (s.heard n ⟨k.code, tag, p⟩).carryOut n k ⟨k.code, tag, p⟩ = .answered t payload)
    (links : t.links = (s.heard n ⟨k.code, tag, p⟩).links) : exec c s = .next (t.answer n tag payload).settle := by
  have served : (s.heard n ⟨k.code, tag, p⟩).serve n ⟨k.code, tag, p⟩ = .answered t payload :=
    (State.serve_known (s.heard n _) n k tag p length session).trans decided
  have head : (t.link n).requests = [⟨k.code, tag, p⟩] := by
    unfold State.link
    rw [links]
    exact s.heard_requests n _
  rw [exec_carried c s n _ carries, s.transact_answered n _ t payload quiet short k.code_ne_nop served head]

/-- A command whose request its block answers, changing nothing. -/
theorem exec_replied (carries : carried c = some (n, ⟨k.code, tag, p⟩)) (quiet : s.quiet n) (session : (s.session n).state ≠ .closed)
    (length : k.lengthOk p.length = true) (short : p.length ≤ Config.maxPayload)
    (decided : (s.heard n ⟨k.code, tag, p⟩).carryOut n k ⟨k.code, tag, p⟩ = .answered (s.heard n ⟨k.code, tag, p⟩) payload) :
    exec c s = .next (s.replied n tag payload).settle := by
  rw [exec_carried c s n _ carries, s.transact_decided n k tag p payload quiet session length short decided]

end Requests

/-! ### CREATE_SURFACE decided (R61, R62) -/

theorem surfaceRequestOf_eq_some {p : List Byte} {f : Format} {direct : Bool} (format : formatOfCode (field8 p 4) = some f)
    (code : boolOfCode (field8 p 5) = some direct)
    (sizes : 1 ≤ field16 p 0 ∧ field16 p 0 ≤ 2048 ∧ 1 ≤ field16 p 2 ∧ field16 p 2 ≤ 2048) :
    surfaceRequestOf p = some ⟨field16 p 0, field16 p 2, f, direct⟩ := by
  unfold surfaceRequestOf
  rw [format, code]
  exact if_pos sizes

/-- The slot of a creation is the lowest FREE one. -/
theorem Surfaces.freeSlot_eq_some {m : Surfaces} {i : SurfSlot} (free : (tget m.slots i).surface = none)
    (below : ∀ j, j < i → (tget m.slots j).surface.isSome = true) : m.freeSlot = some i :=
  find_allSlots _ i (Option.isNone_iff_eq_none.mpr free) fun j hj =>
    Option.isNone_eq_false_iff.mpr (below j hj)

theorem Surfaces.freeSlot_eq_none {m : Surfaces} (full : ∀ i, (tget m.slots i).surface.isSome = true) : m.freeSlot = none :=
  find_allSlots_none _ fun i => Option.isNone_eq_false_iff.mpr (full i)

theorem Surfaces.freeSlot_isSome {m : Surfaces} {i : SurfSlot} (free : (tget m.slots i).surface = none) : ∃ j, m.freeSlot = some j := by
  have found : m.freeSlot.isSome = true :=
    List.find?_isSome.mpr ⟨i, mem_allSlots i, Option.isNone_iff_eq_none.mpr free⟩
  exact Option.isSome_iff_exists.mp found

section CreateSurface

variable (s : State) (n : Port) {p : List Byte} {q : SurfaceRequest}

theorem State.serveCreateSurface_badArgument (asks : surfaceRequestOf p = none) :
    s.serveCreateSurface n p = (s, refusal .createSurface .badArgument) := by
  unfold State.serveCreateSurface
  rw [asks]

theorem State.serveCreateSurface_full (asks : surfaceRequestOf p = some q)
    (full : Config.surfacesPerPort ≤ tget s.surfaces.surfCount n ∨ s.surfaces.freeSlot = none) :
    s.serveCreateSurface n p = (s, refusal .createSurface .surfaceTableFull) := by
  unfold State.serveCreateSurface
  rw [asks]
  dsimp only
  obtain many | noSlot := full
  · rw [if_pos (Nat.not_lt.mpr many)]
  · rw [noSlot]
    exact ite_self _

variable {i : SurfSlot}

theorem State.serveCreateSurface_noMemory (asks : surfaceRequestOf p = some q)
    (room : tget s.surfaces.surfCount n < Config.surfacesPerPort) (slot : s.surfaces.freeSlot = some i)
    (exceeds : Config.pool < poolUse (tmod s.surfaces.pageCount n (· + pagesOf q.width q.height q.format))) :
    s.serveCreateSurface n p = (s, refusal .createSurface .noMemory) := by
  unfold State.serveCreateSurface
  rw [asks]
  dsimp only
  rw [if_neg (Decidable.not_not.mpr room), slot]
  exact if_pos exceeds

theorem State.serveCreateSurface_created (asks : surfaceRequestOf p = some q)
    (room : tget s.surfaces.surfCount n < Config.surfacesPerPort) (slot : s.surfaces.freeSlot = some i)
    (fits : poolUse (tmod s.surfaces.pageCount n (· + pagesOf q.width q.height q.format)) ≤ Config.pool) :
    s.serveCreateSurface n p =
      ((s.withSurfaces (s.surfaces.create n i q)).withMem (Memory.zeroPages s.mem (newSurface s.surfaces n q).pageList),
        reply .createSurface .ok (bytes16 (surfaceHandle i (tget s.surfaces.slots i).gen) ++
          bytes16 (newSurface s.surfaces n q).stride ++ bytes16 (newSurface s.surfaces n q).pageCount)) := by
  unfold State.serveCreateSurface
  rw [asks]
  dsimp only
  rw [if_neg (Decidable.not_not.mpr room), slot]
  exact if_neg (Nat.not_lt.mpr fits)

/-- The tables after a creation in a FREE slot. -/
theorem Surfaces.create_eq (m : Surfaces) {gen : Nat} (free : tget m.slots i = ⟨gen, none⟩) :
    m.create n i q =
      { slots := tput m.slots i ⟨gen, some (newSurface m n q)⟩
        freePages := m.freePages.drop (pagesOf q.width q.height q.format)
        pageCount := tput m.pageCount n (tget m.pageCount n + pagesOf q.width q.height q.format)
        surfCount := tput m.surfCount n (tget m.surfCount n + 1) } := by
  unfold Surfaces.create tmod
  rw [free]

/-- The surface manager and frame memory changed, with the request answered, as one change of the state. -/
theorem State.surfaces_answer (r : Request) (payload : List Byte) (m : Surfaces) (mem : Memory) :
    (((s.heard n r).withSurfaces m).withMem mem).answer n r.tag payload =
      { s.replied n r.tag payload with surfaces := m, mem := mem } := by
  rw [← s.heard_answer n r payload, State.answer_effect, State.answer_effect]
  rfl

end CreateSurface

/-! ### CREATE_WINDOW refused (R100) -/

theorem LayoutController.freeSlot_eq_none {c : LayoutController} (full : ∀ w, (tget c.owners w).isSome = true) : c.freeSlot = none :=
  find_allSlots_none _ fun w => Option.isNone_eq_false_iff.mpr (full w)

section CreateWindow

variable (s : State) (n : Port) {p : List Byte}

theorem State.serveCreateWindow_noPanel (unconfigured : s.scan.timing = none) :
    s.serveCreateWindow n p = (s, refusal .createWindow .noPanel) :=
  if_pos (Option.isNone_iff_eq_none.mpr unconfigured)

theorem Scan.timing_not_isNone {c : Scan} (panel : c.timing.isSome = true) : ¬ c.timing.isNone = true := by
  rw [Option.isNone_iff_eq_none]
  exact Option.isSome_iff_ne_none.mp panel

theorem State.serveCreateWindow_badArgument (panel : s.scan.timing.isSome = true)
    (sizes : ¬ (1 ≤ field16 p 0 ∧ field16 p 0 ≤ 2048 ∧ 1 ≤ field16 p 2 ∧ field16 p 2 ≤ 2048)) :
    s.serveCreateWindow n p = (s, refusal .createWindow .badArgument) := by
  unfold State.serveCreateWindow
  rw [if_neg (Scan.timing_not_isNone panel), if_pos sizes]

theorem State.serveCreateWindow_full (panel : s.scan.timing.isSome = true)
    (sizes : 1 ≤ field16 p 0 ∧ field16 p 0 ≤ 2048 ∧ 1 ≤ field16 p 2 ∧ field16 p 2 ≤ 2048)
    (full : Config.windowsPerPort ≤ tget s.layouts.winCount n ∨ s.layouts.freeSlot = none) :
    s.serveCreateWindow n p = (s, refusal .createWindow .windowTableFull) := by
  unfold State.serveCreateWindow
  rw [if_neg (Scan.timing_not_isNone panel), if_neg (Decidable.not_not.mpr sizes)]
  obtain many | noSlot := full
  · rw [if_pos (Nat.not_lt.mpr many)]
  · rw [noSlot]
    exact ite_self _

end CreateWindow

/-! ### DESTROY_SURFACE decided (R69, R70) -/

theorem Surface.locked_iff (f : Surface) : f.locked = true ↔ 0 < f.shownRefs ∨ 0 < f.queuedRefs := by
  unfold Surface.locked
  rw [Bool.or_eq_true, decide_eq_true_eq, decide_eq_true_eq]

section DestroySurface

variable (m : Surfaces) (n : Port) {p : List Byte} {i : SurfSlot} {f : Surface}

theorem Surfaces.judgeDestroy_unnamed (unnamed : m.named (field16 p 0) = none) :
    m.judgeDestroy n p = .refused .noSuchSurface := by
  unfold Surfaces.judgeDestroy Surfaces.resolve
  rw [unnamed]

theorem Surfaces.judgeDestroy_notOwner (named : m.named (field16 p 0) = some (i, f)) (other : f.owner ≠ n) :
    m.judgeDestroy n p = .refused .notOwner := by
  unfold Surfaces.judgeDestroy Surfaces.resolve
  rw [named]
  dsimp only
  rw [if_neg other]

theorem Surfaces.judgeDestroy_own (named : m.named (field16 p 0) = some (i, f)) (own : f.owner = n) :
    m.judgeDestroy n p =
      if f.locked then .refused .surfaceLocked else if 0 < f.jobRefs then .waits else .destroys i f := by
  unfold Surfaces.judgeDestroy Surfaces.resolve
  rw [named]
  dsimp only
  rw [if_pos own]

variable {m n} {s : State} {st : Status}

theorem State.serveDestroySurface_refused (judged : s.surfaces.judgeDestroy n p = .refused st) :
    s.serveDestroySurface n p = .answered s (refusal .destroySurface st) := by
  unfold State.serveDestroySurface
  rw [judged]

theorem State.serveDestroySurface_waits (judged : s.surfaces.judgeDestroy n p = .waits) :
    s.serveDestroySurface n p = .waits .jobRefs := by
  unfold State.serveDestroySurface
  rw [judged]

theorem State.serveDestroySurface_destroys (judged : s.surfaces.judgeDestroy n p = .destroys i f) :
    s.serveDestroySurface n p =
      .answered (s.withSurfaces (s.surfaces.free i)) (reply .destroySurface .ok (bytes16 f.pageCount)) := by
  unfold State.serveDestroySurface
  rw [judged]

/-- The tables after the surface of a slot is destroyed. -/
theorem Surfaces.free_eq (slot : (tget m.slots i).surface = some f) :
    m.free i =
      { slots := tput m.slots i ⟨nextGeneration Config.surfaceGenerations (tget m.slots i).gen, none⟩
        freePages := f.pageList.foldr insertPage m.freePages
        pageCount := tput m.pageCount f.owner (tget m.pageCount f.owner - f.pageCount)
        surfCount := tput m.surfCount f.owner (tget m.surfCount f.owner - 1) } := by
  unfold Surfaces.free
  rw [slot]
  rfl

/-- A DESTROY_SURFACE of a quiet port that its judgement refuses. -/
theorem exec_destroySurface_refused {tag : Byte} (quiet : s.quiet n) (session : (s.session n).state ≠ .closed) (length : p.length = 2)
    (judged : s.surfaces.judgeDestroy n p = .refused st) :
    exec (.destroySurface n tag p) s = .next (s.replied n tag (refusal .destroySurface st)).settle :=
  exec_replied (k := .destroySurface) rfl quiet session (decide_eq_true length) (by rw [length]; decide)
    (State.serveDestroySurface_refused (s := s.heard n _) judged)

end DestroySurface

end Sys2Proof.Machine

open Sys2Proof Sys2Proof.Machine

/-- Settles O37: the checks passed, the creation is State.serveCreateSurface_created, and memory is that of Memory.read_zeroPages. -/
theorem createSurfaceCreates : Obligations.CreateSurfaceCreates := by
  rintro s n tag payload _ _ _ _ f direct i gen quiet session length rfl rfl format code w1 w2 h1 h2 rfl rfl room free below fits
  have asks := surfaceRequestOf_eq_some format code ⟨w1, w2, h1, h2⟩
  have slot : s.surfaces.freeSlot = some i := Surfaces.freeSlot_eq_some (by rw [free]) below
  have created := (s.heard n ⟨Kind.createSurface.code, tag, payload⟩).serveCreateSurface_created n asks room slot fits
  refine ⟨_, exec_answered (k := .createSurface) rfl quiet session (decide_eq_true length) (by rw [length]; decide)
    (congrArg Served.ofPair created) rfl, ?_, fun a => ?_⟩
  · rw [State.surfaces_answer s n ⟨Kind.createSurface.code, tag, payload⟩, State.heard_surfaces, s.surfaces.create_eq n free, free]
    rfl
  · exact Memory.read_zeroPages s.mem _ a

/-- Settles O38: each check, the ones before it passed. -/
theorem creationsAreRefused : Obligations.CreationsAreRefused := by
  intro s n tag payload quiet session
  refine ⟨fun length => ?_, fun length => ?_⟩
  · have refused : ∀ st, (s.heard n ⟨Kind.createSurface.code, tag, payload⟩).serveCreateSurface n payload =
          (s.heard n ⟨Kind.createSurface.code, tag, payload⟩, refusal .createSurface st) →
        exec (.createSurface n tag payload) s = .next (s.replied n tag (refusal .createSurface st)).settle := fun st decided =>
      exec_replied (k := .createSurface) rfl quiet session (decide_eq_true length) (by rw [length]; decide)
        (congrArg Served.ofPair decided)
    refine ⟨fun asks => ?_, fun q asks => ⟨fun full => ?_, fun room ⟨i, free⟩ exceeds => ?_⟩⟩
    · exact refused _ (State.serveCreateSurface_badArgument _ n asks)
    · exact refused _ (State.serveCreateSurface_full _ n asks (full.imp_right Surfaces.freeSlot_eq_none))
    · obtain ⟨j, slot⟩ := Surfaces.freeSlot_isSome free
      exact refused _ (State.serveCreateSurface_noMemory (s.heard n _) n asks room slot exceeds)
  · have refused : ∀ st, (s.heard n ⟨Kind.createWindow.code, tag, payload⟩).serveCreateWindow n payload =
          (s.heard n ⟨Kind.createWindow.code, tag, payload⟩, refusal .createWindow st) →
        exec (.createWindow n tag payload) s = .next (s.replied n tag (refusal .createWindow st)).settle := fun st decided =>
      exec_replied (k := .createWindow) rfl quiet session (decide_eq_true length) (by rw [length]; decide)
        (congrArg Served.ofPair decided)
    refine ⟨fun unconfigured => ?_, fun panel sizes => ?_, fun panel sizes full => ?_⟩
    · exact refused _ (State.serveCreateWindow_noPanel (s.heard n _) n unconfigured)
    · exact refused _ (State.serveCreateWindow_badArgument (s.heard n _) n panel sizes)
    · exact refused _ (State.serveCreateWindow_full (s.heard n _) n panel sizes (full.imp_right LayoutController.freeSlot_eq_none))

/-- Settles O39, by the judgement of R69 and what a destruction leaves. -/
theorem destroySurfaceDestroys : Obligations.DestroySurfaceDestroys := by
  intro s n tag payload quiet session length
  refine ⟨fun unnamed => ?_, fun i f named => ⟨fun other => ?_, fun own locked => ?_, fun own shown queued jobs => ?_,
    fun own shown queued jobs => ?_⟩⟩
  · exact exec_destroySurface_refused quiet session length (s.surfaces.judgeDestroy_unnamed n unnamed)
  · exact exec_destroySurface_refused quiet session length (s.surfaces.judgeDestroy_notOwner n named other)
  · exact exec_destroySurface_refused quiet session length
      ((s.surfaces.judgeDestroy_own n named own).trans (if_pos (f.locked_iff.mpr locked)))
  · have unlocked : ¬ f.locked = true := by rw [f.locked_iff]; omega
    have judged : s.surfaces.judgeDestroy n payload = .waits := by
      rw [s.surfaces.judgeDestroy_own n named own, if_neg unlocked, if_pos jobs]
    have served : (s.heard n ⟨Kind.destroySurface.code, tag, payload⟩).serve n ⟨Kind.destroySurface.code, tag, payload⟩ =
        .waits .jobRefs :=
      (State.serve_known (s.heard n _) n .destroySurface tag payload (decide_eq_true length) session).trans
        (State.serveDestroySurface_waits (s := s.heard n _) judged)
    rw [exec_carried _ s n _ rfl,
      s.transact_waits n _ _ quiet (by rw [length]; decide) Kind.destroySurface.code_ne_nop served]
    rfl
  · have unlocked : ¬ f.locked = true := by rw [f.locked_iff]; omega
    have judged : s.surfaces.judgeDestroy n payload = .destroys i f := by
      rw [s.surfaces.judgeDestroy_own n named own, if_neg unlocked, if_neg (by omega)]
    obtain ⟨_, slot, _⟩ := (s.surfaces.named_iff _ _ _).mp named
    refine ⟨_, exec_answered (k := .destroySurface) rfl quiet session (decide_eq_true length) (by rw [length]; decide)
      (State.serveDestroySurface_destroys (s := s.heard n _) judged) rfl,
      s.heard_answer n ⟨Kind.destroySurface.code, tag, payload⟩ _, ?_⟩
    rw [State.answer_surfaces, State.withSurfaces_surfaces, State.heard_surfaces, Surfaces.free_eq slot, own]
    refine ⟨rfl, fun q => ?_, rfl, rfl⟩
    rw [insertPages_count, Nat.add_comm]

end

section
/-! Handles of surfaces and windows (R58, R96): which slot and generation each names, and how generations move. -/

namespace Sys2Proof.Machine

theorem windowSlotOf_eq_some (handle : Nat) (w : WinSlot) : windowSlotOf handle = some w ↔ handle % 32 = w.val := by
  unfold windowSlotOf
  split
  · rw [Option.some.injEq, Fin.ext_iff]
  · rename_i beyond
    refine ⟨(nomatch ·), fun slot => absurd w.isLt ?_⟩
    rwa [← slot]

/-- A window handle names the window of its slot field when its generation field is the slot's (R96). -/
theorem LayoutController.named_iff (c : LayoutController) (handle : Nat) (w : WinSlot) (n : Port) :
    c.named handle = some (w, n) ↔ handle % 32 = w.val ∧ tget c.owners w = some n ∧ handle / 32 = tget c.gens w := by
  rw [← windowSlotOf_eq_some]
  unfold LayoutController.named
  constructor
  · intro named
    split at named
    · cases named
    · rename_i v slot
      split at named
      · cases named
      · rename_i m owner
        split at named
        · rename_i gen
          cases named
          exact ⟨slot, owner, gen⟩
        · cases named
  · rintro ⟨slot, owner, gen⟩
    rw [slot]
    dsimp only
    rw [owner]
    exact if_pos gen

theorem surfaceHandle_fields (i : SurfSlot) (gen : Nat) : surfaceHandle i gen % 64 = i.val ∧ surfaceHandle i gen / 64 = gen := by
  have := i.isLt
  unfold surfaceHandle
  omega

theorem windowHandle_fields (w : WinSlot) (gen : Nat) : windowHandle w gen % 32 = w.val ∧ windowHandle w gen / 32 = gen := by
  have := w.isLt
  unfold windowHandle
  omega

theorem Surfaces.create_gen (m : Surfaces) (n : Port) (i : SurfSlot) (q : SurfaceRequest) :
    (tget (m.create n i q).slots i).gen = (tget m.slots i).gen := by
  show (tget (tput m.slots i _) i).gen = _
  rw [tget_tput_same]

theorem State.freeWindow_gen (s : State) {w : WinSlot} (owned : (tget s.layouts.owners w).isSome = true) :
    tget (s.freeWindow w).layouts.gens w = nextGeneration Config.windowGenerations (tget s.layouts.gens w) := by
  obtain ⟨n, owner⟩ := Option.isSome_iff_exists.mp owned
  obtain ⟨layouts, _⟩ := s.freeWindow_effect w n owner
  rw [layouts]
  exact tget_tput_same ..

end Sys2Proof.Machine

open Sys2Proof Sys2Proof.Machine

/-- Settles O40: Surfaces.named_iff and LayoutController.named_iff, the fields of a handle, and each operation's generations. -/
theorem handlesName : Obligations.HandlesName := by
  refine ⟨⟨fun m handle i f => m.named_iff handle i f, fun i gen => ⟨rfl, surfaceHandle_fields i gen⟩, fun m i held => ?_,
      fun m n i q => m.create_gen n i q, fun s a b c d i => ?_⟩,
    fun c handle w n => c.named_iff handle w n, fun w gen => ⟨rfl, windowHandle_fields w gen⟩, fun s w owned => ⟨?_, ?_⟩,
    fun c n w width height => rfl, fun s a b c d w => tget_replicate _ w⟩
  · obtain ⟨f, slot⟩ := Option.isSome_iff_exists.mp held
    rw [Surfaces.free_eq slot]
    exact tget_tput_same ..
  · exact congrArg SurfaceEntry.gen (Surfaces.reset_slot i)
  · rw [s.freeWindow_owner w w, if_pos rfl]
  · exact s.freeWindow_gen owned

end

section
/-! The jobs of the ports through every command (R74): each operation of the drawing engine by what it does to the queues and to the job
in flight. -/

namespace Sys2Proof.Machine

/-! ### A choice (R85) -/

/-- A choice changes nothing, or the head of a queue becomes the job in flight. -/
theorem State.choose_cases (s : State) :
    s.choose = s ∨ ∃ n j rest, s.drawing.inFlight = none ∧ tget s.drawing.queues n = j :: rest ∧
      s.choose = s.withDrawing
        { s.drawing with
          queues := tput s.drawing.queues n rest
          inFlight := some ⟨j, j.takes s.mem s.surfaces, 0⟩
          pointer := n + 1 } := by
  unfold State.choose
  cases idle : s.drawing.inFlight with
  | some f => exact .inl rfl
  | none =>
    dsimp only
    cases s.drawing.choice with
    | none => exact .inl rfl
    | some n =>
      dsimp only
      cases queue : tget s.drawing.queues n with
      | nil => exact .inl rfl
      | cons j rest => exact .inr ⟨n, j, rest, rfl, queue, rfl⟩

theorem State.choose_busy (s : State) (busy : s.drawing.inFlight.isSome = true) : s.choose = s := by
  obtain same | ⟨_, _, _, idle, _⟩ := s.choose_cases
  · exact same
  · rw [idle] at busy
    cases busy

theorem State.choose_queues (s : State) (m : Port) : (tget s.choose.drawing.queues m).Sublist (tget s.drawing.queues m) := by
  obtain same | ⟨n, j, rest, _, queue, chosen⟩ := s.choose_cases
  · simp only [same, List.Sublist.refl]
  · rw [chosen, State.withDrawing_drawing]
    by_cases e : n = m
    · subst e
      rw [tget_tput_same, queue]
      exact List.sublist_cons_self j rest
    · simp only [tget_tput_ne _ _ _ _ e, List.Sublist.refl]

/-! ### Job queues of their own ports, four jobs at most (R74) -/

variable {d e : Drawing}

/-- An engine with the same job in flight, or none, and queues with no job more. -/
theorem Drawing.sound_of_fewer (h : d.sound) (flight : e.inFlight = d.inFlight ∨ e.inFlight = none)
    (queues : ∀ m, (tget e.queues m).Sublist (tget d.queues m)) : e.sound := by
  intro n
  obtain ⟨bound, own⟩ := h n
  refine ⟨Nat.le_trans ?_ bound, fun j hj => own j ((queues n).subset hj)⟩
  have own : (e.inFlightOf n).toList.Sublist (d.inFlightOf n).toList := by
    unfold Drawing.inFlightOf
    obtain same | none := flight
    · simp only [same, List.Sublist.refl]
    · rw [none]
      exact List.nil_sublist _
  exact (own.append (queues n)).length_le

theorem Drawing.emptied_queue (d : Drawing) (n m : Port) : (tget (tput d.queues n []) m).Sublist (tget d.queues m) := by
  rw [tget_tput]
  split
  · exact List.nil_sublist _
  · exact List.Sublist.refl _

variable {s : State}

theorem State.choose_sound (h : s.drawing.sound) : s.choose.drawing.sound := by
  cases idle : s.drawing.inFlight with
  | some f =>
    rw [s.choose_busy (by rw [idle]; rfl)]
    exact h
  | none =>
    intro n
    obtain ⟨bound, own⟩ := h n
    rw [s.choose_keeps_outstanding n idle (fun k => (h k).2)]
    exact ⟨bound, fun j hj => own j ((s.choose_queues n).subset hj)⟩

/-- A job joins the queue of its port, which has room for it. -/
theorem State.acceptJob_sound (j : Job) (h : s.drawing.sound) (room : (s.drawing.outstanding j.port).length < Config.jobDepth) :
    (s.acceptJob j).drawing.sound := by
  refine State.choose_sound fun n => ?_
  obtain ⟨bound, own⟩ := h n
  have flight : ∀ queues issued, ({ s.drawing with queues := queues, issued := issued } : Drawing).inFlightOf n =
      s.drawing.inFlightOf n := fun _ _ => rfl
  unfold Drawing.outstanding at room bound ⊢
  rw [State.withDrawing_drawing, flight]
  dsimp only
  rw [tget_tmod]
  split
  · rename_i port
    subst port
    refine ⟨by simp only [List.length_append, List.length_singleton] at room ⊢; omega, fun i hi => ?_⟩
    obtain old | new := List.mem_append.mp hi
    · exact own i old
    · rw [List.mem_singleton.mp new]
  · exact ⟨bound, own⟩

theorem State.serveDrawing_sound (n : Port) (k : Kind) (q : DrawRequest) (h : s.drawing.sound)
    (room : (s.drawing.outstanding n).length < Config.jobDepth) : (s.serveDrawing n k q).1.drawing.sound := by
  unfold State.serveDrawing
  split
  · exact h
  · exact State.acceptJob_sound (q.job n _ _ _) h room

/-- After the abort the port has no job, and the engine may have made a choice among the others. -/
theorem State.abortJobs_sound (n : Port) (h : s.drawing.sound) : (s.abortJobs n).drawing.sound := by
  by_cases own : ∃ f, s.drawing.inFlight = some f ∧ f.job.port = n
  · obtain ⟨f, flight, port⟩ := own
    obtain ⟨u, chosen, _, _, engine⟩ := s.abortJobs_inFlight n f flight port
    rw [chosen]
    exact State.choose_sound (engine ▸ Drawing.sound_of_fewer h (.inr rfl) (s.drawing.emptied_queue n))
  · obtain ⟨_, engine⟩ := s.abortJobs_queued n fun f flight port => own ⟨f, flight, port⟩
    rw [engine]
    exact Drawing.sound_of_fewer h (.inl rfl) (s.drawing.emptied_queue n)

theorem State.drawOn_sound (h : s.drawing.sound) : s.drawOn.drawing.sound := by
  intro n
  rw [s.drawOn_outstanding n, s.drawOn_drawing.1]
  exact h n

/-! ### A completion (R91) -/

/-- Writing on changes nothing of the engine but how far the job in flight has written. -/
theorem State.writeNext_drawing (s : State) (k : Nat) : ∃ g, (s.writeNext k).drawing = { s.drawing with inFlight := g } := by
  unfold State.writeNext
  split
  · exact ⟨_, rfl⟩
  · split
    · exact ⟨_, rfl⟩
    · exact ⟨_, rfl⟩

theorem State.retireJob_drawing (s : State) (j : Job) :
    (s.retireJob j).drawing =
      { s.drawing with completed := tput s.drawing.completed j.port j.number, inFlight := none } := by
  unfold State.retireJob
  split <;> rfl

/-- The state in which the job in flight is retired, its writes made and the engine IDLE; a completion is a choice in it. -/
def State.retired (s : State) (f : InFlight) : State := (s.writeNext (f.job.writeOrder.length - f.written)).retireJob f.job

theorem State.completeJob_retired (s : State) (f : InFlight) (h : s.drawing.inFlight = some f) :
    s.completeJob = (s.retired f).choose := by
  unfold State.completeJob
  rw [h]
  rfl

theorem State.retired_drawing (s : State) (f : InFlight) :
    (s.retired f).drawing =
      { s.drawing with completed := tput s.drawing.completed f.job.port f.job.number, inFlight := none } := by
  obtain ⟨g, engine⟩ := s.writeNext_drawing (f.job.writeOrder.length - f.written)
  unfold State.retired
  rw [State.retireJob_drawing, engine]

theorem State.completeJob_sound (h : s.drawing.sound) : s.completeJob.drawing.sound := by
  cases flight : s.drawing.inFlight with
  | none =>
    unfold State.completeJob
    rw [flight]
    exact h
  | some f =>
    rw [s.completeJob_retired f flight]
    refine State.choose_sound ?_
    rw [s.retired_drawing f]
    exact Drawing.sound_of_fewer h (.inr rfl) fun m => List.Sublist.refl _

/-! ### Every operation -/

theorem State.drawingSound_of_eq {u : State} (same : u.drawing = s.drawing) (h : s.drawing.sound) : u.drawing.sound := same ▸ h

/-- Beside reset only the operations of the drawing engine change it; job numbers are not looked at. -/
theorem State.drawingSoundKept : Kept (fun s => s.drawing.sound) where
  link _ _ _ h := h
  session _ _ _ h := h
  pins _ _ h := h
  tick _ h := h
  reset _ _ _ _ _ _ := Drawing.reset_sound
  jobNumbers _ _ h := h
  setTiming s p h := State.drawingSound_of_eq (s.serveSetTiming_drawing p) h
  createSurface s n p h := State.drawingSound_of_eq (s.serveCreateSurface_drawing n p) h
  destroySurface _ _ h := h
  drawing _ n k q h room := State.serveDrawing_sound n k q h room
  createWindow s n p h := State.drawingSound_of_eq (s.serveCreateWindow_drawing n p) h
  commit s n tag p h := State.drawingSound_of_eq (s.serveCommit_drawing n tag p) h
  acquireAlert s n h := State.drawingSound_of_eq (s.serveAcquireAlert_drawing n) h
  releaseAlert s n h := State.drawingSound_of_eq (s.serveReleaseAlert_drawing n) h
  abortJobs _ n h := State.abortJobs_sound n h
  teardownLayouts s n h := State.drawingSound_of_eq (s.teardownLayouts_drawing n) h
  returnResources s n h := State.drawingSound_of_eq (s.returnResources_drawing n) h
  drawOn _ h := State.drawOn_sound h
  completeJob _ h := State.completeJob_sound h
  fetch s t line clock h := State.drawingSound_of_eq (s.fetch_drawing t line clock) h
  place _ _ _ _ h _ _ := h
  lastActive _ _ h _ := h
  newFrame _ _ h _ := h
  withdrawClosing s h := State.drawingSound_of_eq s.withdrawClosing_drawing h
  applyCommits s h := State.drawingSound_of_eq s.applyCommits_drawing h
  ageWindows s h := State.drawingSound_of_eq s.ageWindows_drawing h

end Sys2Proof.Machine

open Sys2Proof Sys2Proof.Machine

/-- Settles O7: a job joins only where there is room, and every other operation of the engine leaves each port as many jobs or fewer. -/
theorem jobsStayBounded : Obligations.JobsStayBounded :=
  fun s t sound e => State.drawingSoundKept.step (fun _ _ h => h) s t sound e

end

section
/-! The arbiter's choice, and drawing requests from the command to the answer (5.2, 5.3): the checks of R78, the job that an accepted one
becomes, and a refusal. -/

namespace Sys2Proof.Machine

/-- What a COPY takes at its choice, its source as the surface manager holds it (R89). -/
theorem Job.takes_source (j : Job) (m : Memory) (t : Surfaces) {source sx sy a b : Nat} {i : SurfSlot} {g : Surface}
    (work : j.work = .copy source sx sy) (named : t.named source = some (i, g)) (ha : a < j.w) (hb : b < j.h) :
    (j.takes m t)[b * j.w + a]? = some (readPixel m g (sx + a) (sy + b)) := by
  have taken := j.takes_at m t (fun _ f => f) (fun _ _ => ⟨rfl, rfl, rfl⟩) work named ha hb
  rwa [t.changed_id _ (fun _ _ => rfl)] at taken

end Sys2Proof.Machine

open Sys2Proof Sys2Proof.Machine

/-- Settles O44: the choice at the queue it finds, and the two cases in which there is none. -/
theorem arbiterTakesTurns : Obligations.ArbiterTakesTurns := by
  refine ⟨fun s k j rest idle queue before => ?_, fun s empty => s.choose_empty empty, fun s busy => s.choose_busy busy⟩
  rw [s.choose_at k j rest idle queue before]
  exact ⟨rfl, ⟨_, rfl, rfl, rfl, fun _ _ _ _ _ _ _ work named ha hb => j.takes_source s.mem s.surfaces work named ha hb⟩,
    rfl, rfl, rfl, rfl, rfl⟩

namespace Sys2Proof.Machine

/-! ### The checks of a drawing request (R59, R78 to R82) -/

section Judgement

variable (m : Surfaces) {n : Port} {handle : Nat} {i : SurfSlot} {f : Surface}

theorem Surfaces.resolve_unnamed (n : Port) (unnamed : m.named handle = none) : m.resolve n handle = .error .noSuchSurface := by
  unfold Surfaces.resolve
  rw [unnamed]

theorem Surfaces.resolve_notOwner (named : m.named handle = some (i, f)) (other : f.owner ≠ n) :
    m.resolve n handle = .error .notOwner := by
  unfold Surfaces.resolve
  rw [named]
  exact if_neg other

theorem Surfaces.resolve_own (named : m.named handle = some (i, f)) (own : f.owner = n) : m.resolve n handle = .ok (i, f) := by
  unfold Surfaces.resolve
  rw [named]
  exact if_pos own

theorem Surface.holdsRect_iff (f : Surface) (x y w h : Nat) :
    f.holdsRect x y w h = true ↔ 1 ≤ w ∧ 1 ≤ h ∧ x + w ≤ f.width ∧ y + h ≤ f.height := by
  unfold Surface.holdsRect
  simp only [Bool.and_eq_true, decide_eq_true_eq, and_assoc]

/-- A drawing target is refused when it is locked and not DIRECT (R67, R68). -/
theorem Surface.not_writable_iff (f : Surface) :
    ¬ f.writable = true ↔ (0 < f.shownRefs ∨ 0 < f.queuedRefs) ∧ f.direct = false := by
  unfold Surface.writable
  rw [← f.locked_iff, Bool.not_eq_true, Bool.or_eq_false_iff, Bool.not_eq_false']

variable {q : DrawRequest} {st : Status} {notify : Bool} {t : Surface}

theorem Surfaces.judgeDrawing_notify (unknown : q.notify = none) : m.judgeDrawing n q = .error .badArgument := by
  unfold Surfaces.judgeDrawing
  rw [unknown]

theorem Surfaces.judgeDrawing_target (known : q.notify = some notify) (target : m.resolve n q.target = .error st) :
    m.judgeDrawing n q = .error st := by
  unfold Surfaces.judgeDrawing
  rw [known, target]

theorem Surfaces.judgeDrawing_source {source sx sy : Nat} (known : q.notify = some notify) (target : m.resolve n q.target = .ok (i, t))
    (body : q.body = .copy source sx sy) (refused : m.resolve n source = .error st) : m.judgeDrawing n q = .error st := by
  unfold Surfaces.judgeDrawing
  rw [known, target, body]
  dsimp only
  rw [refused]

/-- The checks of a WRITE from the rectangle on (R78, R79). -/
theorem Surfaces.judgeDrawing_write {bytes : List Byte} (known : q.notify = some notify) (target : m.resolve n q.target = .ok (i, t))
    (body : q.body = .write bytes) :
    m.judgeDrawing n q =
      if ¬ (1 ≤ q.w ∧ 1 ≤ q.h ∧ q.x + q.w ≤ t.width ∧ q.y + q.h ≤ t.height) then .error .badRect
      else if bytes.length ≠ q.w * q.h * t.format.bytes then .error .badLength
      else if (0 < t.shownRefs ∨ 0 < t.queuedRefs) ∧ t.direct = false then .error .surfaceLocked
      else .ok (notify, .write bytes) := by
  unfold Surfaces.judgeDrawing
  rw [known, target, body]
  simp only [Surface.holdsRect_iff, Surface.not_writable_iff]

/-- The checks of a FILL from the rectangle on (R78, R80). -/
theorem Surfaces.judgeDrawing_fill {colour : Rgb} {alpha : Byte} (known : q.notify = some notify)
    (target : m.resolve n q.target = .ok (i, t)) (body : q.body = .fill colour alpha) :
    m.judgeDrawing n q =
      if ¬ (1 ≤ q.w ∧ 1 ≤ q.h ∧ q.x + q.w ≤ t.width ∧ q.y + q.h ≤ t.height) then .error .badRect
      else if (0 < t.shownRefs ∨ 0 < t.queuedRefs) ∧ t.direct = false then .error .surfaceLocked
      else .ok (notify, .fill (fillPixel t.format colour alpha)) := by
  unfold Surfaces.judgeDrawing
  rw [known, target, body]
  simp only [Surface.holdsRect_iff, Surface.not_writable_iff]

/-- The check of a CHECKSUM's rectangle (R78, R82). -/
theorem Surfaces.judgeDrawing_checksum (known : q.notify = some notify) (target : m.resolve n q.target = .ok (i, t))
    (body : q.body = .checksum) :
    m.judgeDrawing n q =
      if ¬ (1 ≤ q.w ∧ 1 ≤ q.h ∧ q.x + q.w ≤ t.width ∧ q.y + q.h ≤ t.height) then .error .badRect
      else .ok (notify, .checksum) := by
  unfold Surfaces.judgeDrawing
  rw [known, target, body]
  simp only [Surface.holdsRect_iff]

/-- The checks of a COPY from the rectangle on (R78, R81). -/
theorem Surfaces.judgeDrawing_copy {source sx sy : Nat} {j : SurfSlot} (known : q.notify = some notify)
    (target : m.resolve n q.target = .ok (i, t)) (body : q.body = .copy source sx sy) (origin : m.resolve n source = .ok (j, f)) :
    m.judgeDrawing n q =
      if ¬ (1 ≤ q.w ∧ 1 ≤ q.h ∧ q.x + q.w ≤ t.width ∧ q.y + q.h ≤ t.height) then .error .badRect
      else if ¬ (1 ≤ q.w ∧ 1 ≤ q.h ∧ sx + q.w ≤ f.width ∧ sy + q.h ≤ f.height) then .error .badRect
      else if f.format ≠ t.format then .error .formatMismatch
      else if (0 < t.shownRefs ∨ 0 < t.queuedRefs) ∧ t.direct = false then .error .surfaceLocked
      else .ok (notify, .copy source sx sy) := by
  unfold Surfaces.judgeDrawing
  rw [known, target, body]
  dsimp only
  rw [origin]
  simp only [Surface.holdsRect_iff, Surface.not_writable_iff]

/-- A byte takes its value modulo 256. -/
theorem byte_mod (v : Nat) : BitVec.ofNat 8 (v % 256) = BitVec.ofNat 8 v := by
  apply BitVec.eq_of_toNat_eq
  simp

/-- The stored bytes of a FILL's pixel, format by format (R80, R165). -/
theorem fillPixel_eq {format : Format} {colour : Rgb} {alpha : Byte} {pixel : List Byte} {v : Nat}
    (value : v = colour.red.toNat / 8 * 2048 + colour.green.toNat / 4 * 32 + colour.blue.toNat / 8)
    (stored : (format = .p16 ∧ pixel = [BitVec.ofNat 8 (v % 256), BitVec.ofNat 8 (v / 256)]) ∨
      (format = .p32 ∧ pixel = [colour.blue, colour.green, colour.red, 0]) ∨
      (format = .p32a ∧ pixel = [colour.blue, colour.green, colour.red, alpha])) :
    fillPixel format colour alpha = pixel := by
  obtain ⟨rfl, rfl⟩ | ⟨rfl, rfl⟩ | ⟨rfl, rfl⟩ := stored
  · rw [byte_mod, value]
    rfl
  · rfl
  · rfl

end Judgement

end Sys2Proof.Machine

/-- Settles O43: each check, the ones before it passed; from the rectangle on, kind by kind. -/
theorem drawingIsJudgedInOrder : Obligations.DrawingIsJudgedInOrder := by
  refine fun m n q => ⟨fun unknown => m.judgeDrawing_notify unknown, fun notify known =>
    ⟨fun unnamed => m.judgeDrawing_target known (m.resolve_unnamed n unnamed), fun i t named =>
      ⟨fun other => m.judgeDrawing_target known (m.resolve_notOwner named other), fun own => ?_⟩⟩⟩
  have target := m.resolve_own named own
  refine ⟨fun bytes body => m.judgeDrawing_write known target body, fun colour alpha pixel v body value stored => ?_,
    fun body => m.judgeDrawing_checksum known target body, fun source sx sy body =>
      ⟨fun unnamed => m.judgeDrawing_source known target body (m.resolve_unnamed n unnamed), fun j f origin =>
        ⟨fun other => m.judgeDrawing_source known target body (m.resolve_notOwner origin other), fun own =>
          m.judgeDrawing_copy known target body (m.resolve_own origin own)⟩⟩⟩
  rw [m.judgeDrawing_fill known target body, fillPixel_eq value stored]

namespace Sys2Proof.Machine

/-! ### From the command to the answer (R83, R84) -/

/-- Command `c` sends drawing request `q`, of kind `k`, on port `n`: target, rectangle, notify and the rest stand in the payload at the
offsets of R161. -/
def DrawRequest.SentBy (q : DrawRequest) (c : Instr) (n : Port) (k : Kind) (tag : Byte) (payload : List Byte) : Prop :=
  q.target = field16 payload 0 ∧ q.x = field16 payload 2 ∧ q.y = field16 payload 4 ∧ q.w = field16 payload 6 ∧
    q.h = field16 payload 8 ∧
    ((c = .write n tag payload ∧ k = .write ∧ q.notify = boolOfCode (field8 payload 10) ∧
        q.body = .write (payload.drop 12)) ∨
      (c = .fill n tag payload ∧ k = .fill ∧ q.notify = boolOfCode (field8 payload 10) ∧
        q.body = .fill ⟨payload.getD 11 0, payload.getD 12 0, payload.getD 13 0⟩ (payload.getD 14 0)) ∨
      (c = .copy n tag payload ∧ k = .copy ∧ q.notify = boolOfCode (field8 payload 10) ∧
        q.body = .copy (field16 payload 11) (field16 payload 13) (field16 payload 15)) ∨
      (c = .checksum n tag payload ∧ k = .checksum ∧ q.notify = some true ∧ q.body = .checksum))

section Requests

variable {q : DrawRequest} {c : Instr} {n : Port} {k : Kind} {tag : Byte} {payload : List Byte}

theorem DrawRequest.SentBy.carried_eq (h : q.SentBy c n k tag payload) : carried c = some (n, ⟨k.code, tag, payload⟩) := by
  obtain ⟨_, _, _, _, _, ⟨rfl, rfl, _⟩ | ⟨rfl, rfl, _⟩ | ⟨rfl, rfl, _⟩ | ⟨rfl, rfl, _⟩⟩ := h
  · rfl
  · rfl
  · rfl
  · rfl

/-- The request read from the payload is `q`. -/
theorem DrawRequest.SentBy.carryOut_eq (h : q.SentBy c n k tag payload) (s : State) :
    s.carryOut n k ⟨k.code, tag, payload⟩ = s.serveDrawingKind n k q := by
  obtain ⟨target, x, y, w, h, notify, body⟩ := q
  obtain ⟨rfl, rfl, rfl, rfl, rfl, ⟨_, rfl, rfl, rfl⟩ | ⟨_, rfl, rfl, rfl⟩ | ⟨_, rfl, rfl, rfl⟩ | ⟨_, rfl, rfl, rfl⟩⟩ := h
  · rfl
  · rfl
  · rfl
  · rfl

/-- A refused drawing request is answered with its status and job number 0. -/
theorem DrawRequest.SentBy.refusal_eq (h : q.SentBy c n k tag payload) (st : Status) : refusal k st = [k.code, st.code, 0, 0] := by
  obtain ⟨_, _, _, _, _, ⟨_, rfl, _⟩ | ⟨_, rfl, _⟩ | ⟨_, rfl, _⟩ | ⟨_, rfl, _⟩⟩ := h
  · rfl
  · rfl
  · rfl
  · rfl

variable {s : State} {st : Status} {notify : Bool} {work : Work}

theorem State.serveDrawingKind_refused (room : (s.drawing.outstanding n).length < Config.jobDepth)
    (judged : s.surfaces.judgeDrawing n q = .error st) : s.serveDrawingKind n k q = .answered s (refusal k st) := by
  unfold State.serveDrawingKind State.serveDrawing
  rw [if_pos room, judged]
  rfl

theorem State.serveDrawingKind_accepted (room : (s.drawing.outstanding n).length < Config.jobDepth)
    (judged : s.surfaces.judgeDrawing n q = .ok (notify, work)) :
    s.serveDrawingKind n k q =
      .answered (s.acceptJob (q.job n (nextJobNumber (tget s.drawing.issued n)) notify work))
        (reply k .ok (bytes16 (nextJobNumber (tget s.drawing.issued n)))) := by
  unfold State.serveDrawingKind State.serveDrawing
  rw [if_pos room, judged]
  rfl

/-- An accepted job and the answer to its request, as one change of the state before the choice. -/
theorem State.acceptJob_answer (s : State) (r : Request) (payload : List Byte) (j : Job) (port : j.port = n) :
    ((s.heard n r).acceptJob j).answer n r.tag payload =
      State.choose
        { s.replied n r.tag payload with
          surfaces := s.surfaces.changed (fun i f => { f with jobRefs := f.jobRefs + j.refsOn i })
          drawing :=
            { s.drawing with
              queues := tput s.drawing.queues n (tget s.drawing.queues n ++ [j])
              issued := tput s.drawing.issued n j.number } } := by
  unfold State.acceptJob
  rw [State.choose_answer, port, Surfaces.mapJob_raise, ← s.heard_answer n r payload, State.answer_effect, State.answer_effect]
  rfl

end Requests

end Sys2Proof.Machine

/-- Settles O41: the request is carried out as its judgement says, and what it changes is State.acceptJob_answer. -/
theorem drawingRequestsBecomeJobs : Obligations.DrawingRequestsBecomeJobs := by
  rintro c s n k tag payload q notify work _ _ quiet session short length room target x y w h sent judged rfl rfl
  have sent : q.SentBy c n k tag payload := ⟨target, x, y, w, h, sent⟩
  have decided := (sent.carryOut_eq (s.heard n ⟨k.code, tag, payload⟩)).trans (State.serveDrawingKind_accepted room judged)
  rw [exec_answered sent.carried_eq quiet session length short decided (State.acceptJob_links ..),
    s.acceptJob_answer (n := n) ⟨k.code, tag, payload⟩ _ _ rfl]
  rfl

/-- Settles O42: the block answers with the status that the judgement gives. -/
theorem refusedDrawingChangesNothing : Obligations.RefusedDrawingChangesNothing := by
  intro c s n k tag payload q st quiet session short length room target x y w h sent judged
  have sent : q.SentBy c n k tag payload := ⟨target, x, y, w, h, sent⟩
  rw [← sent.refusal_eq]
  exact exec_replied sent.carried_eq quiet session length short
    ((sent.carryOut_eq (s.heard n ⟨k.code, tag, payload⟩)).trans (State.serveDrawingKind_refused room judged))

end

section
/-! Completion (5.5): what JOB_COMPLETION leaves of every block, and the pixels of a job that writes. A completion is a choice in the state
State.retired, whose parts are said one by one. -/

namespace Sys2Proof.Machine

variable (s : State) (f : InFlight)

/-! ### The job retired (R66, R91, R92) -/

theorem State.retireJob_layouts (j : Job) : (s.retireJob j).layouts = s.layouts.reachFences j.port j.number := by
  unfold State.retireJob
  split <;> rfl

theorem State.retireJob_surfaces (j : Job) :
    (s.retireJob j).surfaces = s.surfaces.changed (fun i g => { g with jobRefs := g.jobRefs - j.refsOn i }) := by
  rw [← Surfaces.mapJob_lower]
  unfold State.retireJob
  split <;> rfl

theorem State.retireJob_silent (j : Job) (silent : j.notify = false) : (s.retireJob j).links = s.links := by
  unfold State.retireJob
  rw [silent]
  rfl

theorem State.retireJob_notified (j : Job) (notify : j.notify = true) :
    (s.retireJob j).links = tput s.links j.port ((s.link j.port).post (jobDonePayload j (j.crc s.mem s.surfaces))) := by
  unfold State.retireJob
  rw [notify]
  rfl

theorem State.retired_layouts : (s.retired f).layouts = s.layouts.reachFences f.job.port f.job.number := by
  unfold State.retired
  rw [State.retireJob_layouts, State.writeNext_layouts]

theorem State.retired_surfaces :
    (s.retired f).surfaces = s.surfaces.changed (fun i g => { g with jobRefs := g.jobRefs - f.job.refsOn i }) := by
  unfold State.retired
  rw [State.retireJob_surfaces, State.writeNext_surfaces]

theorem State.retired_frame :
    (s.retired f).sessions = s.sessions ∧ (s.retired f).scan = s.scan ∧ (s.retired f).pending = s.pending := by
  unfold State.retired
  rw [State.retireJob_sessions, State.retireJob_scan, State.retireJob_pending, State.writeNext_sessions, State.writeNext_scan,
    State.writeNext_pending]
  exact ⟨rfl, rfl, rfl⟩

theorem State.retired_silent (silent : f.job.notify = false) : (s.retired f).links = s.links := by
  unfold State.retired
  rw [State.retireJob_silent _ _ silent, State.writeNext_links]

/-- JOB_DONE, with the CRC of what the job leaves in memory (R90, R92). -/
theorem State.retired_notified (notify : f.job.notify = true) :
    (s.retired f).links =
      tput s.links f.job.port ((s.link f.job.port).post (jobDonePayload f.job (f.job.crc (s.retired f).mem s.surfaces))) := by
  unfold State.retired State.link
  rw [State.retireJob_notified _ _ notify, State.retireJob_mem, State.writeNext_surfaces, State.link, State.writeNext_links]

/-- The writes that a completion has still to make. -/
theorem State.retired_mem : (s.retired f).mem = (s.writeNext (f.job.writeOrder.length - f.written)).mem := State.retireJob_mem ..

theorem State.completeJob_mem (h : s.drawing.inFlight = some f) :
    s.completeJob.mem = (s.writeNext (f.job.writeOrder.length - f.written)).mem := by
  rw [s.completeJob_retired f h, State.choose_mem, s.retired_mem f]

/-- A CHECKSUM writes nothing (R87). -/
theorem State.writeNext_checksum (k : Nat) (h : s.drawing.inFlight = some f) (work : f.job.work = .checksum) :
    (s.writeNext k).mem = s.mem := by
  cases named : s.surfaces.named f.job.target with
  | none =>
    unfold State.writeNext
    rw [h]
    dsimp only
    rw [named]
  | some target =>
    have nothing : f.job.order = [] := by
      unfold Job.order
      rw [work]
    rw [s.writeNext_mem f k target.1 target.2 h named, nothing, List.drop_nil, List.take_nil]
    rfl

/-! ### The CRC that a completion reports (R90, R92) -/

theorem Job.crc_writing (j : Job) (m : Memory) (t : Surfaces) (writes : j.work ≠ .checksum) : j.crc m t = 0 := by
  unfold Job.crc
  split
  · rename_i work
    exact absurd work writes
  all_goals rfl

theorem Job.crc_checksum (j : Job) (m : Memory) {t : Surfaces} {i : SurfSlot} {g : Surface} (work : j.work = .checksum)
    (named : t.named j.target = some (i, g)) :
    j.crc m t = crc32 ((List.range j.h).flatMap (fun b =>
      (List.range j.w).flatMap (fun a => readPixel m g (j.x + a) (j.y + b)))) := by
  unfold Job.crc rectBytes rectPositions
  rw [work]
  dsimp only
  rw [named]
  simp only [List.range_eq_range', List.flatMap_assoc, List.flatMap_map]

/-! ### The command -/

theorem State.jobCompletion_idle (idle : s.drawing.inFlight = none) : s.jobCompletion = s := by
  unfold State.jobCompletion
  rw [idle]

/-- A completion, then the examination of a head that waits on jobs (R91). -/
theorem State.jobCompletion_completes (h : s.drawing.inFlight = some f) :
    s.jobCompletion =
      if (s.session f.job.port).headWait = .jobRoom ∨ (s.session f.job.port).headWait = .jobRefs
      then s.completeJob.examine f.job.port else s.completeJob := by
  have sessions : s.completeJob.session f.job.port = s.session f.job.port := by
    unfold State.session
    rw [s.completeJob_sessions]
  unfold State.jobCompletion State.examineWaiting
  rw [h]
  dsimp only
  rw [sessions]

end Sys2Proof.Machine

open Sys2Proof Sys2Proof.Machine

/-- Settles O45: the job is retired, part by part, and the choice that follows is State.choose_empty or State.choose_at. -/
theorem jobCompletionCompletes : Obligations.JobCompletionCompletes := by
  refine ⟨fun s idle => congrArg settled (s.jobCompletion_idle idle), fun s f flight => ?_⟩
  refine ⟨s.completeJob, congrArg settled (s.jobCompletion_completes f flight), ?_⟩
  have engine := s.retired_drawing f
  have unwritten : f.job.work = .checksum → (s.retired f).mem = s.mem := fun work =>
    (s.retired_mem f).trans (s.writeNext_checksum f _ flight work)
  obtain ⟨sessions, scan, pending⟩ := s.retired_frame f
  obtain ⟨issued, completed⟩ := (s.retired f).choose_numbers
  rw [s.completeJob_retired f flight, issued, completed, State.choose_layouts, State.choose_surfaces, State.choose_sessions,
    State.choose_scan, State.choose_pending, State.choose_mem, State.choose_links, s.retired_surfaces f, engine]
  refine ⟨rfl, rfl, s.retired_layouts f, rfl, sessions, scan, pending, unwritten, fun empty => ?_, fun k j rest queue before => ?_,
    s.retired_silent f, fun notify => ⟨_, s.retired_notified f notify, f.job.crc_writing _ _, fun i g work named => ?_⟩⟩
  · rw [State.choose_empty _ (by rw [engine]; exact empty), engine]
    exact ⟨rfl, rfl, rfl⟩
  · rw [State.choose_at _ k j rest (by rw [engine]) (by rw [engine]; exact queue) (by rw [engine]; exact before), engine]
    refine ⟨rfl, rfl, _, rfl, rfl, rfl, fun source sx sy i g a b work named ha hb => ?_⟩
    rw [s.retired_surfaces f]
    exact j.takes_at _ s.surfaces (fun i g => { g with jobRefs := g.jobRefs - f.job.refsOn i }) (fun _ _ => ⟨rfl, rfl, rfl⟩) work
      named ha hb
  · rw [unwritten work]
    exact f.job.crc_checksum s.mem work named

namespace Sys2Proof.Machine

/-! ### What a completed job has written (R87 to R89) -/

/-- A job with a pixel to place is none that writes nothing. -/
theorem InFlight.places_writes {f : InFlight} {bytes : Nat} {p : Nat × Nat} {pixel : List Byte} (h : f.places bytes p pixel) :
    f.job.work ≠ .checksum := by
  obtain ⟨_, ⟨given, work, _⟩ | work | ⟨source, sx, sy, work, _⟩⟩ := h
  all_goals
    rw [work]
    exact nofun

/-- The rest of its order written, the whole of a job's order holds its pixels. -/
theorem InFlight.stands_complete {f : InFlight} {g : Surface} (laid : g.laidOut) (right : f.job.x + f.job.w ≤ g.width)
    (bottom : f.job.y + f.job.h ≤ g.height) {m : Memory} (canonical : Memory.wf m = true) (stands : f.stands m g f.written) :
    f.stands (f.writePositions g m ((f.job.order.drop f.written).take (f.job.order.length - f.written))) g f.job.order.length := by
  have all := (f.stands_write g laid right bottom m canonical (f.job.order.length - f.written)).1 stands
  intro p hp
  rw [List.take_length] at hp
  refine all p ?_
  rwa [List.take_of_length_le (by omega)]

/-- Every position of the rectangle stands in the order of a job that writes. -/
theorem Job.mem_order_of_writes {j : Job} (writes : j.work ≠ .checksum) {a b : Nat} (ha : a < j.w) (hb : b < j.h) :
    (a, b) ∈ j.order := by
  rw [Job.order_eq]
  exact ((j.writeOrder_spec writes).2 a b).mpr ⟨ha, hb⟩

end Sys2Proof.Machine

/-- Settles O46: the completion writes the rest of the job's order, which holds every position of the rectangle. -/
theorem jobsWriteTheirRectangle : Obligations.JobsWriteTheirRectangle := by
  intro s f i g canonical flight named laid stands right bottom noRoom noRefs
  refine ⟨s.completeJob.settle, congrArg settled ((s.jobCompletion_completes f flight).trans (if_neg (by simp [noRoom, noRefs]))), ?_⟩
  rw [State.settle_mem, s.completeJob_mem f flight]
  refine ⟨fun a b pixel ha hb places => ?_, fun x outside => s.writeNext_read f _ flight canonical x outside⟩
  rw [s.writeNext_mem f _ i g flight named, ← Job.order_eq]
  refine InFlight.stands_complete laid right bottom canonical stands (a, b) ?_ pixel places
  rw [List.take_length]
  exact Job.mem_order_of_writes (InFlight.places_writes places) ha hb

end

section
/-! Device reset: every block at the values of its reset table. -/

namespace Sys2Proof.Machine

/-! ### The reset values of each block (R73, R94, R111) -/

theorem Surfaces.reset_counts (n : Port) : tget Surfaces.reset.pageCount n = 0 ∧ tget Surfaces.reset.surfCount n = 0 :=
  ⟨tget_replicate _ n, tget_replicate _ n⟩

theorem Drawing.reset_port (n : Port) :
    tget Drawing.reset.queues n = [] ∧ tget Drawing.reset.issued n = 0 ∧ tget Drawing.reset.completed n = 0 :=
  ⟨tget_replicate _ n, tget_replicate _ n, tget_replicate _ n⟩

theorem LayoutController.reset_gen (w : WinSlot) : tget LayoutController.reset.gens w = 0 := tget_replicate _ w

theorem LayoutController.reset_winCount (n : Port) : tget LayoutController.reset.winCount n = 0 := tget_replicate _ n

end Sys2Proof.Machine

open Sys2Proof Sys2Proof.Machine

/-- Settles O2: the blocks are those of State.reset, the pins follow, and only a link's transaction state depends on its select. -/
theorem deviceResetLeavesTheResetValues : Obligations.DeviceResetLeavesTheResetValues := by
  intro s a b c d
  refine ⟨(s.deviceReset a b c d).settle, rfl, State.reset_session,
    ⟨rfl, rfl, rfl, rfl, (s.deviceReset a b c d).panelPins_unconfigured rfl⟩,
    ⟨Surfaces.reset_slot, List.range_eq_range'.symm, Surfaces.reset_counts, show poolUse Surfaces.reset.pageCount = 0 by decide⟩,
    ⟨Drawing.reset_port, rfl, rfl, rfl⟩,
    ⟨fun w => ⟨LayoutController.reset_owner w, LayoutController.reset_gen w⟩, LayoutController.reset_winCount,
      fun k => ⟨Layout.empty_list k, Layout.empty_list k⟩, rfl, rfl, rfl, rfl⟩,
    rfl, rfl, rfl, fun n => ?_, rfl, rfl, rfl, rfl⟩
  obtain ⟨selected, link⟩ := s.deviceReset_link a b c d n
  rw [State.settle_attention, State.link_settle, link]
  exact ⟨rfl, rfl, rfl, rfl, rfl, rfl, rfl, rfl⟩

end

section
/-! The presentation of commits through every command (R105, R126, R128). That each operation keeps it sound is shown operation by
operation; here these are put together over the session controllers, a frame boundary and the commands, and what a sound
presentation says of the two layouts is drawn from it. -/

namespace Sys2Proof.Machine

variable {s t : State}

/-! ### The session controllers -/

/-- The controllers of the CLOSING ports, in whatever order they act, keep what each of their acts keeps (R34, log entry 10). -/
theorem State.ControllersRun.keeps {P : State → Prop} (free : ∀ (s : State) k, P s → P { s with free := k })
    (finish : ∀ (s : State) n, P s → (s.session n).state = .closing → P (s.teardownFinish n))
    (head : ∀ (s : State) n, P s → P (s.examineHead n).1) {todo : List (Port × Bool)} (run : State.ControllersRun todo s t) :
    s.Finishing todo → P s → P t := by
  induction run with
  | done s => exact fun _ h => h
  | finish s t before after n k _ ih =>
    intro todo h
    have closing : (s.session n).state = .closing := todo.2 (n, true) (by simp) rfl
    exact ih (todo.acted (State.teardownFinish_onlyAt ({ s with free := k } : State) n).session).1
      (finish _ n (free s k h) closing)
  | more s t before after n k _ _ ih =>
    intro todo h
    exact ih (todo.acted (State.examineHead_step ({ s with free := k } : State) n).session).1 (head _ n (free s k h))
  | last s t before after n k _ _ ih =>
    intro todo h
    exact ih (todo.acted (State.examineHead_step ({ s with free := k } : State) n).session).2 (head _ n (free s k h))

/-- What the presentation reads is where it was, and so are the session records. -/
theorem State.presents_eq (h : s.presents) (layouts : t.layouts = s.layouts) (sessions : t.sessions = s.sessions)
    (timing : t.scan.timing = s.scan.timing) (surfaces : t.surfaces = s.surfaces) : t.presents :=
  State.presents_same (.of_eq layouts.symm sessions.symm timing.symm surfaces.symm) sessions h

theorem State.presents_mapLink (h : s.presents) (n : Port) (f : Link → Link) : (s.mapLink n f).presents :=
  State.presents_eq h rfl rfl rfl rfl

theorem State.presents_examine (h : s.presents) (n : Port) : (s.examine n).presents := (State.headKept_presents n).examine s h

theorem State.presents_finishTeardowns (h : s.presents) : s.finishTeardowns.presents :=
  (State.finishTeardowns_run s).keeps (fun _ _ k => State.presents_eq k rfl rfl rfl rfl)
    (fun u n => (State.headKept_presents n).teardownFinish u) (fun u n => (State.headKept_presents n).examineHead u)
    s.closingPorts_finishing h

/-! ### A frame boundary (R126) -/

theorem State.presents_boundary (h : s.presents) : s.boundary.presents := by
  have advanced : (s.withScan { s.scan with frame := s.scan.frame + 1, shown := [], fetched := [] }).presents :=
    State.presents_eq h rfl rfl rfl rfl
  unfold State.boundary
  generalize s.withScan _ = u at advanced
  have applied : u.withdrawClosing.applyCommits.presents :=
    State.presents_of (State.applyCommits_presentation _ (State.withdrawClosing_presentation u advanced.1)) (by simp) advanced
  exact State.presents_finishTeardowns (State.presents_same (State.ageWindows_sameShow _) (by simp) applied)

theorem State.presents_frameBoundary (h : s.presents) : s.frameBoundary.presents := by
  unfold State.frameBoundary
  split
  · exact h
  · exact State.presents_boundary (State.presents_eq h (by simp) (by simp) (by simp) (by simp))

theorem State.presents_pixelClock (h : s.presents) : s.pixelClock.presents := by
  unfold State.pixelClock
  split
  · rename_i t line clock _ _
    obtain ⟨f, fetched⟩ := State.fetch_scan s.drawOn t line clock
    have placed : ((s.drawOn.fetch t line clock).withScan ((s.drawOn.fetch t line clock).scan.advance t line clock)).presents :=
      State.presents_eq h (by simp) (by simp) (by simp [Scan.advance_timing, fetched]) (by simp)
    dsimp only
    split
    · exact State.presents_boundary placed
    · exact placed
  · exact h

theorem State.presents_becomeStale (h : s.presents) (w : WinSlot) : (s.becomeStale w).presents := by
  unfold State.becomeStale
  split
  · exact State.presents_frameBoundary h
  · exact h

/-! ### Every command -/

/-- A completion marks commits as ready and lowers job_refs, neither of which the presentation looks at. -/
theorem State.retired_sameShow (s : State) (f : InFlight) : s.SameShow (s.retired f) := by
  obtain ⟨sessions, scan, _⟩ := s.retired_frame f
  have layouts := s.retired_layouts f
  refine ⟨by rw [layouts]; rfl, by rw [layouts]; rfl, by rw [layouts]; rfl, by rw [layouts]; rfl, ?_,
    fun n => by unfold State.session; rw [sessions], by rw [scan], ?_⟩
  · rw [layouts, LayoutController.reachFences_commits, List.map_map]
    refine List.map_congr_left fun p _ => ?_
    dsimp only [Function.comp_apply]
    split <;> rfl
  · rw [State.retired_surfaces]
    exact Surfaces.looksLike_changed _ _ fun _ _ => rfl

theorem State.completeJob_sameShow (s : State) : s.SameShow s.completeJob := by
  cases flight : s.drawing.inFlight with
  | none =>
    unfold State.completeJob
    rw [flight]
    exact State.SameShow.refl s
  | some f =>
    rw [s.completeJob_retired f flight]
    exact (s.retired_sameShow f).trans (s.retired f).choose_sameShow

theorem State.presents_jobCompletion (h : s.presents) : s.jobCompletion.presents := by
  have completed : s.completeJob.presents := State.presents_same s.completeJob_sameShow (by simp) h
  unfold State.jobCompletion
  split
  · exact h
  · unfold State.examineWaiting
    split
    · exact State.presents_examine completed _
    · exact completed

theorem State.presents_selectInactive (h : s.presents) (n : Port) : (s.selectInactive n).presents := by
  unfold State.selectInactive
  split
  · dsimp only
    split
    · exact State.presents_examine (State.presents_mapLink h n _) n
    · exact State.presents_mapLink h n _
  · exact State.presents_mapLink h n _
  · exact h

theorem State.presents_transact (h : s.presents) (n : Port) (r : Request) : (s.transact n r).presents := by
  have released : (s.release n).presents := by
    unfold State.release
    split
    · exact h
    · exact State.presents_selectInactive h n
    · exact State.presents_selectInactive h n
  exact State.presents_selectInactive (State.presents_mapLink (State.presents_mapLink released n Link.selectActive) n _) n

theorem State.presents_deviceReset (s : State) (a b c d : Bool) : (s.deviceReset a b c d).presents := by
  refine State.presents_eq (s := State.reset) ⟨State.reset_presentationSound, fun n closing => ?_⟩ rfl rfl rfl rfl
  rw [State.reset_session] at closing
  cases closing

theorem exec_presents (c : Instr) (s : State) (h : s.presents) : ∃ u : State, exec c s = .next u.settle ∧ u.presents := by
  cases c
  case selectActive n => exact ⟨_, rfl, State.presents_mapLink h n _⟩
  case selectInactive n => exact ⟨_, rfl, State.presents_selectInactive h n⟩
  case deviceReset a b c d => exact ⟨_, rfl, s.presents_deviceReset a b c d⟩
  case frameBoundary => exact ⟨_, rfl, State.presents_frameBoundary h⟩
  case stale w => exact ⟨_, rfl, State.presents_becomeStale h w⟩
  case jobCompletion => exact ⟨_, rfl, State.presents_jobCompletion h⟩
  case pixelClock => exact ⟨_, rfl, State.presents_pixelClock h⟩
  case byteClocked n di => exact ⟨_, rfl, State.presents_mapLink h n _⟩
  all_goals exact ⟨_, rfl, State.presents_transact h _ _⟩

theorem step_presents (h : s.presents) (e : step s = .next t) : t.presents := by
  unfold step at e
  split at e
  · cases e
    exact h
  · rename_i c rest _
    obtain ⟨u, ends, sound⟩ := exec_presents c (s.withPending rest) (State.presents_eq h rfl rfl rfl rfl)
    rw [ends] at e
    cases e
    exact State.presents_eq sound rfl rfl rfl rfl

/-! ### What a sound presentation says of the two layouts -/

/-- With no commit pending and no port CLOSING nothing is between the two layouts: a record absent or WITHDRAWN in one would be of a
FREE slot, and so absent in both. -/
theorem State.presentationSound.settled (h : s.presentationSound) (idle : s.layouts.commits = [])
    (unclosing : ∀ n, (s.session n).state ≠ .closing) :
    s.layouts.applied.bands = s.layouts.projected.bands ∧ ∀ w, s.layouts.applied.record w = s.layouts.projected.record w := by
  obtain ⟨held, _, withdrawn, _, _, _, plays⟩ := h
  have closes : ∀ w, s.closes w = false := fun w => by
    unfold State.closes
    cases tget s.layouts.owners w with
    | none => rfl
    | some n => exact decide_eq_false (unclosing n)
  rw [idle, Layout.without_none _ _ closes] at plays
  obtain ⟨bands, records⟩ : s.layouts.applied.agrees s.layouts.projected := plays
  refine ⟨bands, fun w => (records w).elim id fun ⟨dead, _⟩ => ?_⟩
  obtain ⟨applied, projected⟩ := held w
  cases record : s.layouts.applied.record w with
  | none =>
    rw [← applied, record] at projected
    exact (Option.not_isSome_iff_eq_none.mp (Bool.eq_false_iff.mp projected)).symm
  | some r =>
    by_cases gone : r.state = .withdrawn
    · cases (closes w).symm.trans (withdrawn w r record gone)
    · exact absurd ⟨r, record, gone⟩ dead

end Sys2Proof.Machine

open Sys2Proof Sys2Proof.Machine

/-- Settles O12: every operation of a command keeps the presentation sound, and a layout that can be shown is within the budget. -/
theorem layoutsStayInAgreement : Obligations.LayoutsStayInAgreement := by
  refine ⟨fun s t bounded sound e => (step_presents ⟨sound, fun n closing => ?_⟩ e).1, fun s sound => ?_⟩
  · obtain ⟨_, _, _, closes⟩ := bounded n
    exact (closes closing).1
  · obtain ⟨_, _, _, _, _, ⟨stack, alert, within⟩, _⟩ := id sound
    exact ⟨fun loads => loads.1 ▸ within, stack, alert, sound.settled⟩

end

section
/-! What commands do to windows, bands, loads and the alert token, said once. Of the operations that a step is made of (Kept), all that
touch none of these or take windows away clear windows (State.Clears); the rest configure the panel, reserve a window, accept a
commit, move the token, or withdraw a port's projected windows. -/

namespace Sys2Proof.Machine

/-! ### Layouts with windows taken out or put in -/

theorem Layout.lacking_none (l : Layout) : l.lacking (fun _ => false) = l :=
  Layout.ext_views (fun w => by rw [Layout.lacking_record]; rfl)
    fun k => by rw [Layout.lacking_list]; exact List.filter_eq_self.mpr fun _ _ => rfl

theorem Layout.lacking_stack (l : Layout) (p : WinSlot → Bool) (h : l.stackSound) : (l.lacking p).stackSound := by
  intro k
  obtain ⟨once, listed⟩ := h k
  rw [Layout.lacking_list]
  refine ⟨once.filter _, fun w => ?_⟩
  rw [List.mem_filter, listed w, Layout.lacking_record]
  cases p w <;> simp

theorem Layout.lacking_cost (l : Layout) (p : WinSlot → Bool) (h y : Nat) (w : WinSlot) :
    (l.lacking p).slotCost h y w ≤ l.slotCost h y w := by
  refine Layout.slotCost_le_of _ _ h y w ?_
  rw [Layout.lacking_record]
  cases p w
  · exact .inr (.inl rfl)
  · exact .inl rfl

theorem Layout.put_stack {l : Layout} {w : WinSlot} {r : WindowRec} (absent : l.record w = none) (reserved : r.state = .reserved)
    (h : l.stackSound) : (l.put w r).stackSound := by
  intro k
  obtain ⟨once, listed⟩ := h k
  refine ⟨once, fun v => (listed v).trans ?_⟩
  rw [Layout.put_record]
  by_cases e : w = v
  · subst e
    simp [absent, reserved]
  · rw [if_neg e]

/-- A RESERVED window costs nothing, as the absent one did (R108). -/
theorem Layout.put_cost {l : Layout} {w : WinSlot} {r : WindowRec} (absent : l.record w = none) (reserved : r.state = .reserved)
    (h y : Nat) (v : WinSlot) : (l.put w r).slotCost h y v = l.slotCost h y v := by
  unfold Layout.slotCost
  rw [Layout.put_record]
  by_cases e : w = v
  · subst e
    rw [if_pos rfl, absent]
    show r.cost h y = 0
    unfold WindowRec.cost
    split
    · rfl
    · exact if_neg (by simp [reserved])
  · rw [if_neg e]

/-! ### Windows cleared -/

/-- Both load tables are the tables of their layouts (R109). -/
def State.tabled (s : State) : Prop :=
  s.layouts.appliedLoad = loadTable s.scan.timing s.layouts.applied ∧
    s.layouts.projectedLoad = loadTable s.scan.timing s.layouts.projected

/-- `t` is `s` with the windows that `gone` picks freed, whatever else has changed in the applied layout's records and lists; the token
and the timing record stand. -/
structure State.Clears (s : State) (gone : WinSlot → Bool) (t : State) : Prop where
  owners : ∀ w, tget t.layouts.owners w = if gone w then none else tget s.layouts.owners w
  applied : ∀ w, gone w = true ∨ s.layouts.applied.record w = none → t.layouts.applied.record w = none
  projected : t.layouts.projected = s.layouts.projected.lacking gone
  holder : t.layouts.holder = s.layouts.holder
  waiting : t.layouts.waiting = s.layouts.waiting
  timing : t.scan.timing = s.scan.timing

/-- Some windows are cleared, and the load tables right if they were. -/
def State.Cleared (s t : State) : Prop := (∃ gone, s.Clears gone t) ∧ (s.tabled → t.tabled)

variable {s t u : State}

theorem State.Clears.trans {p q : WinSlot → Bool} (h : s.Clears p t) (k : t.Clears q u) : s.Clears (fun w => p w || q w) u where
  owners w := by
    rw [k.owners, h.owners]
    cases p w <;> cases q w <;> rfl
  applied w gone := by
    refine k.applied w ?_
    rw [Bool.or_eq_true] at gone
    obtain (first | second) | absent := gone
    · exact .inr (h.applied w (.inl first))
    · exact .inl second
    · exact .inr (h.applied w (.inr absent))
  projected := by rw [k.projected, h.projected, Layout.lacking_lacking]
  holder := k.holder.trans h.holder
  waiting := k.waiting.trans h.waiting
  timing := k.timing.trans h.timing

/-- No window is freed. -/
theorem State.clears_none (owners : t.layouts.owners = s.layouts.owners)
    (applied : ∀ w, s.layouts.applied.record w = none → t.layouts.applied.record w = none)
    (projected : t.layouts.projected = s.layouts.projected) (holder : t.layouts.holder = s.layouts.holder)
    (waiting : t.layouts.waiting = s.layouts.waiting) (timing : t.scan.timing = s.scan.timing) : s.Clears (fun _ => false) t where
  owners w := by rw [owners]; rfl
  applied w gone := applied w (gone.resolve_left Bool.false_ne_true)
  projected := projected.trans (Layout.lacking_none _).symm
  holder := holder
  waiting := waiting
  timing := timing

theorem State.clears_refl (s : State) : s.Clears (fun _ => false) s := State.clears_none rfl (fun _ h => h) rfl rfl rfl rfl

theorem State.Cleared.trans (h : s.Cleared t) (k : t.Cleared u) : s.Cleared u := by
  obtain ⟨⟨_, first⟩, tables⟩ := h
  obtain ⟨⟨_, second⟩, tables'⟩ := k
  exact ⟨⟨_, first.trans second⟩, fun right => tables' (tables right)⟩

/-- Nothing that the layout controller holds but commits, ages, generations and counts has changed. -/
theorem State.cleared_same (owners : t.layouts.owners = s.layouts.owners) (applied : t.layouts.applied = s.layouts.applied)
    (projected : t.layouts.projected = s.layouts.projected) (appliedLoad : t.layouts.appliedLoad = s.layouts.appliedLoad)
    (projectedLoad : t.layouts.projectedLoad = s.layouts.projectedLoad) (holder : t.layouts.holder = s.layouts.holder)
    (waiting : t.layouts.waiting = s.layouts.waiting) (timing : t.scan.timing = s.scan.timing) : s.Cleared t := by
  refine ⟨⟨_, State.clears_none owners (fun w h => by rw [applied]; exact h) projected holder waiting timing⟩, fun right => ?_⟩
  unfold State.tabled
  rw [applied, projected, appliedLoad, projectedLoad, timing]
  exact right

theorem State.cleared_of_eq (layouts : t.layouts = s.layouts) (timing : t.scan.timing = s.scan.timing) : s.Cleared t :=
  State.cleared_same (congrArg _ layouts) (congrArg _ layouts) (congrArg _ layouts) (congrArg _ layouts) (congrArg _ layouts)
    (congrArg _ layouts) (congrArg _ layouts) timing

theorem State.completeJob_cleared (s : State) : s.Cleared s.completeJob := by
  cases flight : s.drawing.inFlight with
  | none =>
    unfold State.completeJob
    rw [flight]
    exact State.cleared_of_eq rfl rfl
  | some f =>
    obtain ⟨_, scan, _⟩ := s.retired_frame f
    have layouts : s.completeJob.layouts = s.layouts.reachFences f.job.port f.job.number := by
      rw [s.completeJob_retired f flight, State.choose_layouts, State.retired_layouts]
    refine State.cleared_same ?_ ?_ ?_ ?_ ?_ ?_ ?_ (congrArg Scan.timing s.completeJob_scan) <;> rw [layouts] <;> rfl

theorem State.ageWindows_cleared (s : State) : s.Cleared s.ageWindows := by
  obtain ⟨ages, aged⟩ := s.ageWindows_layouts
  refine State.cleared_same ?_ ?_ ?_ ?_ ?_ ?_ ?_ (congrArg Scan.timing s.ageWindows_scan) <;> rw [aged]

/-! ### Windows freed -/

theorem State.freeWindow_clears (s : State) (w : WinSlot) : ∃ gone, s.Clears gone (s.freeWindow w) := by
  cases owner : tget s.layouts.owners w with
  | none =>
    unfold State.freeWindow
    rw [owner]
    exact ⟨_, s.clears_refl⟩
  | some n =>
    obtain ⟨layouts, scan, _⟩ := s.freeWindow_effect w n owner
    refine ⟨fun v => v = w, ⟨fun v => ?_, fun v gone => ?_, ?_, ?_, ?_, congrArg Scan.timing scan⟩⟩
    · rw [State.freeWindow_owner]
      simp only [decide_eq_true_eq, @eq_comm _ v w]
    · rw [layouts, LayoutController.release_applied, Layout.forget_lacking, Layout.lacking_record]
      split
      · rfl
      · rename_i kept
        exact gone.resolve_left kept
    · rw [layouts, LayoutController.release_projected, Layout.forget_lacking]
    · rw [layouts, LayoutController.release_holder]
    · rw [layouts, LayoutController.release_waiting]

theorem State.applyChange_clears (s : State) (op : Op) (w : WinSlot) : s.Clears (fun _ => false) (s.applyChange op w) := by
  obtain ⟨applied, projected, owners, _, _, scan, _⟩ := s.applyChange_effect op w
  refine State.clears_none owners (fun v absent => ?_) projected ?_ ?_ (congrArg Scan.timing scan)
  · rw [applied, Op.carryOut_none]
    exact absent
  all_goals
    unfold State.applyChange
    dsimp only [State.withLayouts_layouts]
    split <;> rfl

theorem State.applyOp_clears (s : State) (op : Op) : ∃ gone, s.Clears gone (s.applyOp op) := by
  unfold State.applyOp
  split
  · exact ⟨_, s.clears_refl⟩
  · split
    · exact s.freeWindow_clears _
    · exact ⟨_, s.applyChange_clears _ _⟩

/-- The load tables computed again are right. -/
theorem State.reload_tabled (s : State) : s.reload.tabled := ⟨rfl, rfl⟩

theorem State.applyCommit_cleared (s : State) (p : Pending) : s.Cleared (s.applyCommit p) := by
  have extend {u v : State} {p : WinSlot → Bool} (h : ∃ gone, s.Clears gone u) (k : u.Clears p v) : ∃ gone, s.Clears gone v :=
    h.elim fun _ h => ⟨_, h.trans k⟩
  have both : (∃ gone, s.Clears gone (s.applyCommit p)) ∧ (s.applyCommit p).tabled :=
    State.applyCommit_keeps (fun u => ∃ gone, s.Clears gone u) (fun u => (∃ gone, s.Clears gone u) ∧ u.tabled)
      (fun u op h => by
        obtain ⟨_, applied⟩ := u.applyOp_clears op
        exact extend h applied)
      (fun _ _ h => extend h (State.clears_none rfl (fun _ h => h) rfl rfl rfl rfl))
      (fun u ws h => extend h (by
        rw [LayoutController.restart_fresh]
        exact State.clears_none rfl (fun _ h => h) rfl rfl rfl rfl))
      (fun u _ _ h => ⟨extend h (State.clears_none rfl (fun _ h => h) rfl rfl rfl rfl), u.reload_tabled⟩) s p ⟨_, s.clears_refl⟩
  exact ⟨both.1, fun _ => both.2⟩

theorem State.applyCommits_cleared (s : State) : s.Cleared s.applyCommits :=
  State.applyCommits_keeps (fun u => s.Cleared u)
    (fun u p rest h _ _ =>
      have taken : u.Cleared (u.withLayouts { u.layouts with commits := rest }) := State.cleared_same rfl rfl rfl rfl rfl rfl rfl rfl
      h.trans (taken.trans (State.applyCommit_cleared _ p))) s (State.cleared_of_eq rfl rfl)

theorem State.withdrawClosing_cleared (s : State) : s.Cleared s.withdrawClosing := by
  rw [State.withdrawClosing_effect]
  refine ⟨⟨_, State.clears_none rfl (fun w absent => ?_) rfl rfl rfl rfl⟩, fun _ => State.reload_tabled _⟩
  show (s.layouts.applied.without s.closes).record w = none
  rw [Layout.without_record, absent]
  split <;> rfl

theorem State.returnResources_cleared (s : State) (n : Port) : s.Cleared (s.returnResources n) := by
  obtain ⟨m, returned, _⟩ := State.returnResources_effect s n _ _ rfl rfl
  rw [returned]
  refine ⟨⟨_, ⟨fun w => tget_tabulate _ w, fun w gone => ?_, rfl, rfl, rfl, rfl⟩⟩, fun _ => ⟨rfl, rfl⟩⟩
  refine (Layout.lacking_record _ _ w).trans ?_
  split
  · rfl
  · rename_i kept
    exact gone.resolve_left kept

/-! ### The alert token -/

/-- How the alert token and its waiting list may change: a port takes the free token, joins the list, or leaves it, or the holder, with no
window in band ALERT of the projected layout, passes the token on (R136 to R140). -/
inductive LayoutController.TokenMove (c : LayoutController) : Option Port → List Port → Prop
  | take (n : Port) (free : c.holder = none) : TokenMove c (some n) c.waiting
  | join (h n : Port) (held : c.holder = some h) (other : h ≠ n) (apart : n ∉ c.waiting) : TokenMove c (some h) (c.waiting ++ [n])
  | leave (n : Port) : TokenMove c c.holder (c.waiting.filter (· != n))
  | pass (n : Port) (holds : c.holder = some n) (unused : ∀ w ∈ c.projected.bands.alert, tget c.owners w ≠ some n) :
      TokenMove c c.waiting.head? c.waiting.tail

theorem State.passToken_layouts (s : State) :
    s.passToken.layouts = s.layouts.withToken s.layouts.waiting.head? s.layouts.waiting.tail := by
  unfold State.passToken
  cases s.layouts.waiting <;> rfl

theorem LayoutController.usesAlert_eq_false {c : LayoutController} {n : Port} (unused : ¬ c.usesAlert n = true) (w : WinSlot)
    (listed : w ∈ c.projected.bands.alert) : tget c.owners w ≠ some n := by
  intro own
  refine unused ?_
  unfold LayoutController.usesAlert
  rw [Bool.or_eq_true]
  exact .inr (List.any_eq_true.mpr ⟨w, listed, decide_eq_true own⟩)

/-! ### The operations that a step is made of -/

/-- The windows of port `n` withdrawn from the projected layout, its load table computed again (R106). -/
def State.withdrawProjected (s : State) (n : Port) : State :=
  s.withLayouts { s.layouts with
    projected := s.layouts.projected.without (fun w => tget s.layouts.owners w = some n)
    projectedLoad := loadTable s.scan.timing (s.layouts.projected.without (fun w => tget s.layouts.owners w = some n)) }

/-- A teardown start withdraws the port's projected windows and drops its claim on the token; of commits nothing is read here. -/
theorem State.teardownLayouts_withdraws (s : State) (n : Port) :
    ∃ u, (s.withdrawProjected n).Cleared u ∧ s.teardownLayouts n = u.dropToken n := by
  unfold State.teardownLayouts State.dropCommits State.withdrawProjected
  rw [← Layout.withdrawOwned_eq]
  refine ⟨_, ?_, rfl⟩
  exact State.cleared_same rfl rfl rfl rfl rfl rfl rfl rfl

/-- What a condition on windows, bands, loads and the token must survive to be kept by every command, where condition `A` holds too. -/
structure StackKept (A P : State → Prop) : Prop where
  reset : A .reset → P .reset
  cleared : ∀ s t, A s → P s → s.Cleared t → P t
  configure : ∀ s t, A s → P s → s.scan.timing = none → P ((s.withScan (.configured t)).withLayouts (s.layouts.sizeTables t))
  reserve : ∀ s n w width height, A s → P s → s.scan.timing.isSome = true → tget s.layouts.owners w = none →
    P (s.withLayouts (s.layouts.reserve n w width height))
  accept : ∀ s n tag bs l ops, A s → P s → s.layouts.tryOps s.surfaces n 0 bs s.layouts.projected = .ok (l, ops) →
    firstOver s.scan.budget 0 (loadTable s.scan.timing l) = none → P (s.acceptCommit n tag l ops)
  withdraw : ∀ s n, A s → P s → P (s.withdrawProjected n)
  token : ∀ s holder waiting, A s → P s → s.layouts.TokenMove holder waiting →
    P (s.withLayouts (s.layouts.withToken holder waiting))

/-- A condition kept where another is kept is kept with it. -/
theorem StackKept.and {A P Q : State → Prop} (k : StackKept A P) (j : StackKept (fun s => A s ∧ P s) Q) :
    StackKept A (fun s => P s ∧ Q s) where
  reset a := ⟨k.reset a, j.reset ⟨a, k.reset a⟩⟩
  cleared s t a h e := ⟨k.cleared s t a h.1 e, j.cleared s t ⟨a, h.1⟩ h.2 e⟩
  configure s t a h e := ⟨k.configure s t a h.1 e, j.configure s t ⟨a, h.1⟩ h.2 e⟩
  reserve s n w x y a h e f := ⟨k.reserve s n w x y a h.1 e f, j.reserve s n w x y ⟨a, h.1⟩ h.2 e f⟩
  accept s n tag bs l ops a h e f := ⟨k.accept s n tag bs l ops a h.1 e f, j.accept s n tag bs l ops ⟨a, h.1⟩ h.2 e f⟩
  withdraw s n a h := ⟨k.withdraw s n a h.1, j.withdraw s n ⟨a, h.1⟩ h.2⟩
  token s holder waiting a h e := ⟨k.token s holder waiting a h.1 e, j.token s holder waiting ⟨a, h.1⟩ h.2 e⟩

/-- What holds besides may be taken for stronger. -/
theorem StackKept.mono {A B P : State → Prop} (k : StackKept A P) (weaker : ∀ s, B s → A s) : StackKept B P where
  reset b := k.reset (weaker _ b)
  cleared s t b := k.cleared s t (weaker _ b)
  configure s t b := k.configure s t (weaker _ b)
  reserve s n w x y b := k.reserve s n w x y (weaker _ b)
  accept s n tag bs l ops b := k.accept s n tag bs l ops (weaker _ b)
  withdraw s n b := k.withdraw s n (weaker _ b)
  token s holder waiting b := k.token s holder waiting (weaker _ b)

section Kept

variable {P : State → Prop} (k : StackKept (fun _ => True) P)

include k

theorem StackKept.of_eq (h : P s) (layouts : t.layouts = s.layouts) (timing : t.scan.timing = s.scan.timing) : P t :=
  k.cleared s t trivial h (State.cleared_of_eq layouts timing)

theorem StackKept.serveSetTiming (s : State) (p : List Byte) (h : P s) : P (s.serveSetTiming p).1 := by
  unfold State.serveSetTiming
  split
  · exact h
  · split
    · exact h
    · split
      · rename_i unconfigured
        exact k.configure s _ trivial h unconfigured
      · split <;> exact h

theorem StackKept.serveCreateWindow (s : State) (n : Port) (p : List Byte) (h : P s) : P (s.serveCreateWindow n p).1 := by
  unfold State.serveCreateWindow
  split
  · exact h
  · rename_i panel
    split
    · exact h
    · split
      · exact h
      · split
        · exact h
        · rename_i w slot
          have free : (tget s.layouts.owners w).isNone = true :=
            List.find?_some (p := fun w => (tget s.layouts.owners w).isNone) slot
          rw [Bool.not_eq_true, Option.isNone_eq_false_iff] at panel
          exact k.reserve s n w _ _ trivial h panel (Option.isNone_iff_eq_none.mp free)

theorem StackKept.serveCommit (s : State) (n : Port) (tag : Byte) (p : List Byte) (h : P s) : P (s.serveCommit n tag p).1 := by
  unfold State.serveCommit
  dsimp only
  split
  · exact h
  · split
    · exact h
    · split
      · exact h
      · rename_i l ops judged
        split
        · exact h
        · rename_i within
          exact k.accept s n tag _ l ops trivial h judged within

theorem StackKept.passToken (s : State) (n : Port) (h : P s) (holds : s.layouts.holder = some n)
    (unused : ∀ w ∈ s.layouts.projected.bands.alert, tget s.layouts.owners w ≠ some n) : P s.passToken :=
  k.of_eq (k.token s _ _ trivial h (.pass n holds unused)) s.passToken_layouts (by rw [State.passToken_scan]; rfl)

theorem StackKept.serveAcquireAlert (s : State) (n : Port) (h : P s) : P (s.serveAcquireAlert n).1 := by
  unfold State.serveAcquireAlert
  split
  · rename_i free
    exact k.token s _ _ trivial h (.take n free)
  · rename_i q held
    split
    · exact h
    · rename_i other
      split
      · exact h
      · rename_i apart
        exact k.token s _ _ trivial h (.join q n held other apart)

theorem StackKept.serveReleaseAlert (s : State) (n : Port) (h : P s) : P (s.serveReleaseAlert n).1 := by
  unfold State.serveReleaseAlert
  split
  · rename_i holds
    split
    · exact h
    · rename_i unused
      exact k.passToken s n h holds (LayoutController.usesAlert_eq_false unused)
  · split
    · exact k.token s _ _ trivial h (.leave n)
    · exact h

/-- No window of the port is left in the projected layout, so it may pass the token (R106, R140). -/
theorem StackKept.teardownLayouts (s : State) (n : Port) (h : P s) : P (s.teardownLayouts n) := by
  obtain ⟨u, ⟨⟨gone, clears⟩, tables⟩, drops⟩ := s.teardownLayouts_withdraws n
  have withdrawn : P u := k.cleared _ u trivial (k.withdraw s n trivial h) ⟨⟨gone, clears⟩, tables⟩
  rw [drops]
  unfold State.dropToken
  split
  · rename_i holds
    refine k.passToken u n withdrawn holds fun w listed own => ?_
    rw [clears.owners] at own
    rw [clears.projected] at listed
    have kept : w ∈ (s.withdrawProjected n).layouts.projected.bands.alert := (List.mem_filter.mp listed).1
    have others : (!decide (tget s.layouts.owners w = some n)) = true := (List.mem_filter.mp kept).2
    split at own
    · cases own
    · have own : tget s.layouts.owners w = some n := own
      rw [decide_eq_true own] at others
      cases others
  · exact k.token u _ _ trivial withdrawn (.leave n)

/-- Such a condition is kept by the operations that a step is made of. -/
theorem StackKept.kept : Kept P where
  link _ _ _ h := k.of_eq h rfl rfl
  session _ _ _ h := k.of_eq h rfl rfl
  pins _ _ h := k.of_eq h rfl rfl
  tick _ h := k.of_eq h rfl rfl
  reset _ _ _ _ _ _ := k.of_eq (k.reset trivial) rfl rfl
  jobNumbers _ _ h := k.of_eq h rfl rfl
  setTiming s p h := k.serveSetTiming s p h
  createSurface s n p h := k.of_eq h (s.serveCreateSurface_layouts n p) (congrArg Scan.timing (s.serveCreateSurface_scan n p))
  destroySurface _ _ h := k.of_eq h rfl rfl
  drawing s n d q h _ := k.of_eq h (s.serveDrawing_layouts n d q) (congrArg Scan.timing (s.serveDrawing_scan n d q))
  createWindow s n p h := k.serveCreateWindow s n p h
  commit s n tag p h := k.serveCommit s n tag p h
  acquireAlert s n h := k.serveAcquireAlert s n h
  releaseAlert s n h := k.serveReleaseAlert s n h
  abortJobs s n h := k.of_eq h (s.abortJobs_layouts n) (congrArg Scan.timing (s.abortJobs_scan n))
  teardownLayouts s n h := k.teardownLayouts s n h
  returnResources s n h := k.cleared s _ trivial h (s.returnResources_cleared n)
  drawOn s h := k.of_eq h s.drawOn_layouts (congrArg Scan.timing s.drawOn_scan)
  completeJob s h := k.cleared s _ trivial h s.completeJob_cleared
  fetch s t line clock h := by
    obtain ⟨_, fetched⟩ := s.fetch_scan t line clock
    exact k.of_eq h (s.fetch_layouts t line clock) (by rw [fetched])
  place s t line clock h _ _ := k.of_eq h rfl (s.scan.advance_timing t line clock)
  lastActive _ _ h _ := k.of_eq h rfl rfl
  newFrame _ _ h _ := k.of_eq h rfl rfl
  withdrawClosing s h := k.cleared s _ trivial h s.withdrawClosing_cleared
  applyCommits s h := k.cleared s _ trivial h s.applyCommits_cleared
  ageWindows s h := k.cleared s _ trivial h s.ageWindows_cleared

theorem StackKept.step (h : P s) (e : step s = .next t) : P t :=
  k.kept.step (fun _ _ h => k.of_eq h rfl rfl) s t h e

end Kept

end Sys2Proof.Machine

end

section
/-! Windows, loads and the stack through every command: records only of owned slots, load tables of their layouts within the budget, band
lists of the windows STACKED, and band ALERT with the token's holder (R98, R103, R104, R109, R119, R135, R142). -/

namespace Sys2Proof.Machine

/-! ### Records and owners (R98, R103) -/

theorem State.recordsOwned_kept : StackKept (fun _ => True) State.recordsOwned where
  reset _ := State.reset_recordsOwned
  cleared s t _ h e := by
    obtain ⟨⟨gone, clears⟩, _⟩ := e
    have cleared : ∀ w, gone w = true ∨ s.layouts.applied.record w = none ∧ s.layouts.projected.record w = none →
        t.layouts.applied.record w = none ∧ t.layouts.projected.record w = none := fun w absent => by
      refine ⟨clears.applied w (absent.imp_right And.left), ?_⟩
      rw [clears.projected, Layout.lacking_record]
      split
      · rfl
      · rename_i kept
        exact (absent.resolve_left kept).2
    refine ⟨fun w free => cleared w ?_, fun unconfigured w => cleared w (.inr (h.2 (clears.timing ▸ unconfigured) w))⟩
    rw [clears.owners] at free
    split at free
    · rename_i freed
      exact .inl freed
    · exact .inr (h.1 w free)
  configure s t _ h _ := ⟨h.1, fun unconfigured => nomatch unconfigured⟩
  reserve s n w width height _ h panel _ := by
    refine ⟨fun v free => ?_, fun unconfigured => nomatch unconfigured ▸ panel⟩
    have apart : w ≠ v := by
      rintro rfl
      cases (tget_tput_same s.layouts.owners w (some n)).symm.trans free
    have free : tget s.layouts.owners v = none := (tget_tput_ne s.layouts.owners w v (some n) apart).symm.trans free
    obtain ⟨applied, projected⟩ := h.1 v free
    exact ⟨(tget_tput_ne _ _ _ _ apart).trans applied, (tget_tput_ne _ _ _ _ apart).trans projected⟩
  accept s n tag bs l ops _ h judged _ := by
    have same : ∀ w, l.record w = none ↔ s.layouts.projected.record w = none := fun w =>
      LayoutController.tryOps_none s.layouts s.surfaces n bs w 0 _ l ops judged
    exact ⟨fun w free => (h.1 w free).imp_right (same w).mpr, fun unconfigured w => (h.2 unconfigured w).imp_right (same w).mpr⟩
  withdraw s n _ h := by
    have absent : ∀ w, s.layouts.projected.record w = none → (s.withdrawProjected n).layouts.projected.record w = none :=
      fun w e => by
        refine (Layout.without_record _ _ w).trans ?_
        rw [e]
        split <;> rfl
    exact ⟨fun w free => (h.1 w free).imp_right (absent w), fun unconfigured w => (h.2 unconfigured w).imp_right (absent w)⟩
  token _ _ _ _ h _ := h

/-! ### Loads (R109, R122) -/

theorem State.loadsSound_kept : StackKept State.recordsOwned State.loadsSound where
  reset _ := State.reset_loadsSound
  cleared s t _ h e := by
    obtain ⟨⟨gone, clears⟩, tables⟩ := e
    obtain ⟨applied, projected, within⟩ := h
    obtain ⟨applied', projected'⟩ := tables ⟨applied, projected⟩
    refine ⟨applied', projected', ?_⟩
    unfold Scan.budget at within ⊢
    rw [projected', clears.timing, clears.projected]
    exact loadTable_le _ _ _ _ (Layout.lacking_cost _ gone) (projected ▸ within)
  configure s t owned _ unconfigured := by
    have empty := owned.2 unconfigured
    refine ⟨(loadTable_empty _ t fun w => (empty w).1).symm, (loadTable_empty _ t fun w => (empty w).2).symm, fun x load => ?_⟩
    rw [List.eq_of_mem_replicate load]
    exact Nat.zero_le _
  reserve s n w width height owned h _ free := by
    obtain ⟨applied, projected, within⟩ := h
    obtain ⟨absent, absent'⟩ := owned.1 w free
    exact ⟨applied.trans (loadTable_congr _ _ _ fun a y v => (Layout.put_cost absent rfl a y v).symm),
      projected.trans (loadTable_congr _ _ _ fun a y v => (Layout.put_cost absent' rfl a y v).symm), within⟩
  accept s n tag bs l ops _ h _ fits := ⟨h.1, rfl, firstOver_within fits⟩
  withdraw s n _ h := by
    obtain ⟨applied, projected, within⟩ := h
    exact ⟨applied, rfl, loadTable_le _ _ _ _ (Layout.without_cost _ _) (projected ▸ within)⟩
  token _ _ _ _ h _ := h

/-! ### The token and its waiting list (R135) -/

theorem State.tokenSound_kept : StackKept (fun _ => True) (fun s => s.layouts.tokenSound) where
  reset _ := LayoutController.reset_tokenSound
  cleared s t _ h e := by
    obtain ⟨⟨_, clears⟩, _⟩ := e
    unfold LayoutController.tokenSound
    rw [clears.holder, clears.waiting]
    exact h
  configure _ _ _ h _ := h
  reserve _ _ _ _ _ _ h _ _ := h
  accept _ _ _ _ _ _ _ h _ _ := h
  withdraw _ _ _ h := h
  token s holder waiting _ h move := by
    obtain ⟨once, apart, idle⟩ := id h
    cases move with
    | take n free =>
      refine ⟨once, fun m _ => ?_, fun none => nomatch none⟩
      show m ∉ s.layouts.waiting
      rw [idle free]
      exact List.not_mem_nil
    | join q n held other absent =>
      refine ⟨?_, fun m holds => ?_, fun none => nomatch none⟩
      · exact (List.perm_append_singleton n s.layouts.waiting).nodup_iff.mpr (List.nodup_cons.mpr ⟨absent, once⟩)
      · cases holds
        show q ∉ s.layouts.waiting ++ [n]
        rw [List.mem_append, List.mem_singleton]
        exact fun e => e.elim (apart q held) other
    | leave n =>
      refine ⟨once.filter _, fun m holds listed => apart m holds (List.mem_filter.mp listed).1, fun none => ?_⟩
      show s.layouts.waiting.filter _ = []
      rw [idle none]
      rfl
    | pass n _ _ =>
      have passed := s.passToken_sound h
      rwa [State.passToken_layouts] at passed

/-! ### The projected stack and band ALERT (R104, R119, R142) -/

/-- Of a holder or of none, band ALERT is not disturbed by a move of the token: the free token has no window there, and neither has a
holder that passes it on. -/
theorem LayoutController.TokenMove.alertSound {c : LayoutController} {holder : Option Port} {waiting : List Port}
    (move : c.TokenMove holder waiting) (h : c.alertSound) : (c.withToken holder waiting).alertSound := by
  obtain ⟨one, held⟩ := h
  have still (same : holder = c.holder) : (c.withToken holder waiting).alertSound := ⟨one, same ▸ held⟩
  cases move with
  | take n free =>
    refine ⟨one, fun w listed => ?_⟩
    obtain ⟨m, _, holds⟩ := held w listed
    cases free.symm.trans holds
  | join q n holds _ _ => exact still holds.symm
  | leave n => exact still rfl
  | pass n holds unused =>
    refine ⟨one, fun w listed => ?_⟩
    obtain ⟨m, own, holds'⟩ := held w listed
    cases holds.symm.trans holds'
    exact absurd own (unused w listed)

theorem State.projectedStack_kept :
    StackKept State.recordsOwned (fun s => s.layouts.projected.stackSound ∧ s.layouts.alertSound) where
  reset _ := ⟨Layout.empty_stackSound, LayoutController.reset_alertSound⟩
  cleared s t _ h e := by
    obtain ⟨⟨gone, clears⟩, _⟩ := e
    obtain ⟨stack, one, held⟩ := h
    rw [LayoutController.alertSound, clears.projected, clears.holder]
    refine ⟨Layout.lacking_stack _ gone stack, Nat.le_trans (List.length_filter_le _ _) one, fun w listed => ?_⟩
    obtain ⟨listed, kept⟩ := List.mem_filter.mp listed
    obtain ⟨n, own, holds⟩ := held w listed
    rw [clears.owners, if_neg (by simpa using kept)]
    exact ⟨n, own, holds⟩
  configure _ _ _ h _ := h
  reserve s n w width height owned h _ free := by
    obtain ⟨stack, one, held⟩ := h
    have absent := (owned.1 w free).2
    refine ⟨Layout.put_stack absent rfl stack, one, fun v listed => ?_⟩
    have apart : w ≠ v := by
      rintro rfl
      obtain ⟨r, record, _⟩ := ((stack .alert).2 w).mp listed
      cases absent.symm.trans record
    obtain ⟨m, own, holds⟩ := held v listed
    exact ⟨m, (tget_tput_ne _ _ _ _ apart).trans own, holds⟩
  accept s n tag bs l ops _ h judged _ :=
    LayoutController.tryOps_stack s.layouts s.surfaces n bs 0 _ l ops judged h.1 h.2
  withdraw s n _ h := by
    obtain ⟨stack, one, held⟩ := h
    exact ⟨Layout.without_stack _ _ stack, Nat.le_trans (List.length_filter_le _ _) one,
      fun w listed => held w (List.mem_filter.mp listed).1⟩
  token s _ _ _ h move := ⟨h.1, move.alertSound h.2⟩

/-- The records, the token and the projected stack together. -/
theorem State.stacks_kept : StackKept (fun _ => True) (fun s =>
    s.recordsOwned ∧ s.layouts.tokenSound ∧ s.layouts.projected.stackSound ∧ s.layouts.alertSound) :=
  State.recordsOwned_kept.and ((State.tokenSound_kept.mono fun _ _ => trivial).and
    (State.projectedStack_kept.mono fun _ ⟨⟨_, owned⟩, _⟩ => owned))

end Sys2Proof.Machine

open Sys2Proof Sys2Proof.Machine

/-- Settles O10: windows freed or withdrawn raise no load, a window reserved costs nothing, and a commit is accepted within the budget. -/
theorem loadsStayWithinBudget : Obligations.LoadsStayWithinBudget := fun _ _ owned loads e =>
  (State.recordsOwned_kept.and (State.loadsSound_kept.mono fun _ ⟨_, owned⟩ => owned)).step ⟨owned, loads⟩ e

/-- Settles O11: a commit's checks keep the lists and band ALERT right, and no port parts with the token while it has a window there. -/
theorem projectedStackStaysSound : Obligations.ProjectedStackStaysSound := fun _ _ owned token stack alert e =>
  State.stacks_kept.step ⟨owned, token, stack, alert⟩ e

end

section
/-! CREATE_WINDOW granted (R98, R100, R101), and the cost of a window on a line with a port's share of its load (R108, R110). -/

namespace Sys2Proof.Machine

/-! ### CREATE_WINDOW granted (R101) -/

/-- The slot of a creation is the lowest FREE one. -/
theorem LayoutController.freeSlot_eq_some {c : LayoutController} {w : WinSlot} (free : tget c.owners w = none)
    (below : ∀ v, v < w → (tget c.owners v).isSome = true) : c.freeSlot = some w :=
  find_allSlots _ w (Option.isNone_iff_eq_none.mpr free) fun v hv => Option.isNone_eq_false_iff.mpr (below v hv)

theorem State.serveCreateWindow_created (s : State) (n : Port) {p : List Byte} {w : WinSlot} (panel : s.scan.timing.isSome = true)
    (sizes : 1 ≤ field16 p 0 ∧ field16 p 0 ≤ 2048 ∧ 1 ≤ field16 p 2 ∧ field16 p 2 ≤ 2048)
    (room : tget s.layouts.winCount n < Config.windowsPerPort) (slot : s.layouts.freeSlot = some w) :
    s.serveCreateWindow n p =
      (s.withLayouts (s.layouts.reserve n w (field16 p 0) (field16 p 2)),
        reply .createWindow .ok (bytes16 (windowHandle w (tget s.layouts.gens w)))) := by
  unfold State.serveCreateWindow
  rw [if_neg (Scan.timing_not_isNone panel), if_neg (Decidable.not_not.mpr sizes), if_neg (Decidable.not_not.mpr room), slot]

/-- The layout controller changed, with the request answered, as one change of the state. -/
theorem State.layouts_answer (s : State) (n : Port) (r : Request) (payload : List Byte) (c : LayoutController) :
    ((s.heard n r).withLayouts c).answer n r.tag payload = { s.replied n r.tag payload with layouts := c } := by
  rw [← s.heard_answer n r payload, State.answer_effect, State.answer_effect]
  rfl

/-! ### The cost of a window (R108) -/

/-- The columns counted one by one are those between the edges of window and panel. -/
theorem range_filter_between (a b : Int) (n : Nat) :
    ((List.range n).filter (fun (c : Nat) => decide (a ≤ (c : Int) ∧ (c : Int) < b))).length = (min (n : Int) b - max 0 a).toNat := by
  induction n with
  | zero => simp; omega
  | succ n ih =>
    rw [List.range_succ, List.filter_append, List.length_append, ih]
    by_cases within : a ≤ (n : Int) ∧ (n : Int) < b
    · rw [List.filter_cons_of_pos (by exact decide_eq_true within), List.filter_nil, List.length_singleton]
      omega
    · rw [List.filter_cons_of_neg (by simpa using within), List.filter_nil, List.length_nil]
      omega

theorem WindowRec.cost_counts {r : WindowRec} {d : SourceDesc} {line : Nat} (hactive : Nat) (sourced : r.source = some d)
    (stacked : r.state = .stacked) (visible : r.visible = true) (row : r.coversRow line = true) :
    r.cost hactive line =
      ((List.range hactive).filter (fun (c : Nat) => decide (r.x ≤ (c : Int) ∧ (c : Int) < r.x + r.width))).length *
        d.format.bytes := by
  unfold WindowRec.cost
  rw [sourced, range_filter_between]
  exact if_pos ⟨stacked, visible, row⟩

theorem WindowRec.cost_zero {r : WindowRec} {line : Nat} (hactive : Nat)
    (hidden : r.source = none ∨ ¬ (r.state = .stacked ∧ r.visible = true ∧ r.coversRow line = true)) : r.cost hactive line = 0 := by
  unfold WindowRec.cost
  split
  · rfl
  · rename_i d sourced
    exact if_neg (hidden.resolve_left (by rw [sourced]; exact Option.some_ne_none d))

/-! ### The shares of the ports (R110) -/

/-- A sum over slots is the sum of its parts by owner, a slot of none adding nothing. -/
theorem sum_by_port (owner : WinSlot → Option Port) (f : WinSlot → Nat) (free : ∀ w, owner w = none → f w = 0) (ws : List WinSlot) :
    ((ws.filter (fun w => owner w = some 0)).map f).sum + ((ws.filter (fun w => owner w = some 1)).map f).sum +
      ((ws.filter (fun w => owner w = some 2)).map f).sum + ((ws.filter (fun w => owner w = some 3)).map f).sum = (ws.map f).sum := by
  induction ws with
  | nil => rfl
  | cons w ws ih =>
    have part (n : Port) : (((w :: ws).filter (fun w => owner w = some n)).map f).sum =
        (if owner w = some n then f w else 0) + ((ws.filter (fun w => owner w = some n)).map f).sum := by
      rw [List.filter_cons]
      by_cases own : owner w = some n <;> simp [own]
    have once : (if owner w = some 0 then f w else 0) + (if owner w = some 1 then f w else 0) +
        (if owner w = some 2 then f w else 0) + (if owner w = some 3 then f w else 0) = f w := by
      cases own : owner w with
      | none => simp [free w own]
      | some n =>
        match n with
        | 0 => simp
        | 1 => simp
        | 2 => simp
        | 3 => simp
    rw [part, part, part, part, List.map_cons, List.sum_cons]
    omega

end Sys2Proof.Machine

open Sys2Proof Sys2Proof.Machine

/-- Settles O47: the checks passed, the slot is the lowest FREE one, and the creation is State.serveCreateWindow_created. -/
theorem createWindowReserves : Obligations.CreateWindowReserves := by
  rintro s n tag payload w _ quiet session length panel w1 w2 h1 h2 room free below rfl
  have slot := LayoutController.freeSlot_eq_some free below
  have created := (s.heard n ⟨Kind.createWindow.code, tag, payload⟩).serveCreateWindow_created n panel ⟨w1, w2, h1, h2⟩ room slot
  rw [exec_answered (k := .createWindow) rfl quiet session (decide_eq_true length) (by rw [length]; decide)
    (congrArg Served.ofPair created) rfl, State.layouts_answer s n ⟨Kind.createWindow.code, tag, payload⟩]
  rfl

/-- Settles O48: the columns between the edges are those counted, and each slot's cost falls to its owner's share. -/
theorem costCountsTheColumns : Obligations.CostCountsTheColumns := by
  refine ⟨fun r hactive line => ⟨fun d sourced stacked visible top bottom => ?_, fun hidden => ?_⟩, fun s hactive line owned => ?_⟩
  · exact r.cost_counts hactive sourced stacked visible ((r.coversRow_iff line).mpr ⟨top, bottom⟩)
  · refine WindowRec.cost_zero hactive (hidden.imp_right fun hidden shown => ?_)
    obtain ⟨stacked, visible, row⟩ := shown
    obtain ⟨top, bottom⟩ := (r.coversRow_iff line).mp row
    obtain other | dark | above | below := hidden
    · exact other stacked
    · cases dark.symm.trans visible
    · omega
    · omega
  · refine sum_by_port (tget s.layouts.owners) _ (fun w free => ?_) (allSlots 24)
    unfold Layout.slotCost
    rw [(owned.1 w free).2]

end

section
/-! The operations of a commit: their bytes, how they are judged in order, and what each kind checks (R97, R107, R114 to R121, R162). -/

namespace Sys2Proof.Machine

/-! ### The bytes of an operation (R162) -/

/-- No code but 1 to 10 is that of an operation. -/
theorem opOfBytes_eq_none {b : List Byte} (code : ¬ (1 ≤ field8 b 0 ∧ field8 b 0 ≤ 10)) : opOfBytes b = none := by
  unfold opOfBytes
  dsimp only
  split
  case h_11 => rfl
  all_goals omega

/-- The sign of a 2-byte field is the top bit of its first byte. -/
theorem field16_lt_half (p : List Byte) (o : Nat) : field16 p o < 32768 ↔ (p.getD o 0).toNat < 128 := by
  have low := (p.getD (o + 1) 0).isLt
  unfold field16 field8
  omega

/-! ### Judgement in order (R114, R115) -/

section Judgement

variable {c : LayoutController} {m : Surfaces} {n : Port} {l l' : Layout} {i : Nat} {b : List Byte} {bs : List (List Byte)} {op : Op}
  {st : Status} {w : WinSlot} {r : WindowRec}

theorem LayoutController.resolveIn_unnamed {handle : Nat} (unnamed : c.named handle = none) :
    c.resolveIn l n handle = .error .noSuchWindow := by
  unfold LayoutController.resolveIn
  rw [unnamed]

theorem LayoutController.resolveIn_named {handle : Nat} {owner : Port} (named : c.named handle = some (w, owner))
    (record : l.record w = some r) :
    c.resolveIn l n handle =
      if r.state = .withdrawn then .error .noSuchWindow else if owner = n then .ok (w, r) else .error .notOwner := by
  unfold LayoutController.resolveIn
  rw [named]
  dsimp only
  rw [record]

/-- An operation whose window passes is judged by its kind's checks. -/
theorem LayoutController.tryOp_refused (resolved : c.resolveIn l n op.window = .ok (w, r))
    (refused : op.refusedBy c m n l w r = some st) : c.tryOp m n l op = .error st := by
  unfold LayoutController.tryOp
  rw [resolved]
  dsimp only
  rw [refused]

theorem LayoutController.tryOp_passed (resolved : c.resolveIn l n op.window = .ok (w, r))
    (passes : op.refusedBy c m n l w r = none) : c.tryOp m n l op = .ok (op.carryOut m w l) := by
  unfold LayoutController.tryOp
  rw [resolved]
  dsimp only
  rw [passes]

theorem LayoutController.tryOp_unresolved (resolved : c.resolveIn l n op.window = .error st) : c.tryOp m n l op = .error st := by
  unfold LayoutController.tryOp
  rw [resolved]

theorem LayoutController.tryOps_unread (unread : opOfBytes b = none) : c.tryOps m n i (b :: bs) l = .error (.badArgument, i) := by
  unfold LayoutController.tryOps
  rw [unread]

theorem LayoutController.tryOps_refused (read : opOfBytes b = some op) (judged : c.tryOp m n l op = .error st) :
    c.tryOps m n i (b :: bs) l = .error (st, i) := by
  unfold LayoutController.tryOps
  rw [read]
  dsimp only
  rw [judged]

/-- After an operation that passes, the rest is judged against the layout it leaves. -/
theorem LayoutController.tryOps_passed (read : opOfBytes b = some op) (judged : c.tryOp m n l op = .ok l') :
    c.tryOps m n i (b :: bs) l = (c.tryOps m n (i + 1) bs l').map (fun t => (t.1, op :: t.2)) := by
  conv => lhs; unfold LayoutController.tryOps
  rw [read]
  dsimp only
  rw [judged]
  dsimp only
  cases c.tryOps m n (i + 1) bs l' <;> rfl

end Judgement

/-! ### What each kind checks (R107, R116 to R121) -/

theorem fits_iff (sx sy width height srcWidth srcHeight : Nat) :
    fits sx sy width height srcWidth srcHeight = true ↔ sx + width ≤ srcWidth ∧ sy + height ≤ srcHeight := by
  unfold fits
  rw [Bool.and_eq_true, decide_eq_true_eq, decide_eq_true_eq]

/-- A reference is a window of the port, not the moved one, STACKED in the band the moved one stands in (R120). -/
theorem LayoutController.refOk_iff (c : LayoutController) (l : Layout) (n : Port) (w : WinSlot) (ref : Nat) :
    c.refOk l n w ref = true ↔
      ∃ v p q, c.named ref = some (v, n) ∧ v ≠ w ∧ l.record w = some p ∧ l.record v = some q ∧ q.state = .stacked ∧
        q.band = p.band := by
  unfold LayoutController.refOk
  constructor
  · intro ok
    split at ok
    · rename_i v owner p named record
      simp only [Bool.and_eq_true, decide_eq_true_eq, Option.any_eq_true] at ok
      obtain ⟨⟨rfl, other⟩, q, reference, stacked, band⟩ := ok
      exact ⟨v, p, q, named, other, record, reference, stacked, band⟩
    · cases ok
  · rintro ⟨v, p, q, named, other, record, reference, stacked, band⟩
    rw [named, record]
    simp [other, reference, stacked, band]

section Checks

variable (c : LayoutController) (m : Surfaces) (n : Port) (l : Layout) (w : WinSlot) (r : WindowRec) (h : Nat)

/-- The ranges of a PLACE (R116). -/
def placeRanges (x y : Int) (width height : Nat) : Prop :=
  -2048 ≤ x ∧ x ≤ 2047 ∧ -2048 ≤ y ∧ y ≤ 2047 ∧ 1 ≤ width ∧ width ≤ 2048 ∧ 1 ≤ height ∧ height ≤ 2048

variable {x y : Int} {width height : Nat}

theorem Op.refusedBy_place_range (outside : ¬ placeRanges x y width height) :
    Op.refusedBy (.place h x y width height) c m n l w r = some .badArgument :=
  if_pos outside

theorem Op.refusedBy_place_fit (within : placeRanges x y width height) :
    Op.refusedBy (.place h x y width height) c m n l w r =
      match r.source with
      | none => none
      | some d => if r.sx + width ≤ d.width ∧ r.sy + height ≤ d.height then none else some .badRect := by
  refine (if_neg (not_not_intro within)).trans ?_
  cases r.source with
  | none => rfl
  | some d => exact ite_congr (propext (fits_iff ..)) (fun _ => rfl) (fun _ => rfl)

variable {present surface sx sy : Nat}

theorem Op.refusedBy_source_range (outside : ¬ (present ≤ 1 ∧ sx ≤ 2047 ∧ sy ≤ 2047)) :
    Op.refusedBy (.source h present surface sx sy) c m n l w r = some .badArgument :=
  if_pos outside

theorem Op.refusedBy_source_none (left : sx ≤ 2047) (top : sy ≤ 2047) :
    Op.refusedBy (.source h 0 surface sx sy) c m n l w r = none :=
  if_neg (not_not_intro ⟨Nat.zero_le 1, left, top⟩)

theorem Op.refusedBy_source_surface (left : sx ≤ 2047) (top : sy ≤ 2047) :
    Op.refusedBy (.source h 1 surface sx sy) c m n l w r =
      match m.named surface with
      | none => some .noSuchSurface
      | some (_, f) =>
        if f.owner ≠ n then some .notOwner
        else if sx + r.width ≤ f.width ∧ sy + r.height ≤ f.height then none else some .badRect := by
  refine (if_neg (not_not_intro ⟨Nat.le_refl 1, left, top⟩)).trans ((if_neg Nat.one_ne_zero).trans ?_)
  unfold Surfaces.resolve
  cases m.named surface with
  | none => rfl
  | some named =>
    obtain ⟨i, f⟩ := named
    dsimp only
    by_cases own : f.owner = n
    · rw [if_pos own, if_neg (not_not_intro own)]
      exact ite_congr (propext (fits_iff ..)) (fun _ => rfl) (fun _ => rfl)
    · rw [if_neg own, if_pos own]

theorem Op.refusedBy_band (code : Nat) :
    Op.refusedBy (.band h code) c m n l w r =
      if 3 < code then some .badArgument
      else if code = 3 ∧ c.holder ≠ some n then some .noAlertToken
      else if code = 3 ∧ ∃ v ∈ l.bands.alert, v ≠ w then some .alertOccupied
      else none := by
  match code with
  | 0 => rfl
  | 1 => rfl
  | 2 => rfl
  | 3 =>
    have occupied : l.bands.alert.any (· != w) = true ↔ ∃ v ∈ l.bands.alert, v ≠ w := by
      simp only [List.any_eq_true, bne_iff_ne]
    unfold Op.refusedBy
    simp only [bandOfCode, Nat.lt_irrefl, if_false, true_and, occupied]
  | code + 4 => exact (if_pos (by omega)).symm

/-- RESTACK ABOVE and BELOW look at the reference as the window stands once it is STACKED. -/
theorem Op.refusedBy_restack_ref {code : Nat} (ref : Nat) (relative : code = 2 ∨ code = 3) :
    Op.refusedBy (.restack h code ref) c m n l w r = if c.refOk (l.stackIfReserved w) n w ref then none else some .badStackRef := by
  obtain rfl | rfl := relative <;> rfl

theorem Op.refusedBy_restack_code {code : Nat} (ref : Nat) (unknown : 3 < code) :
    Op.refusedBy (.restack h code ref) c m n l w r = some .badArgument := by
  match code with
  | code + 4 => rfl

theorem Op.refusedBy_restack_edge {code : Nat} (ref : Nat) (edge : code < 2) :
    Op.refusedBy (.restack h code ref) c m n l w r = none := by
  match code with
  | 0 => rfl
  | 1 => rfl

end Checks

end Sys2Proof.Machine

open Sys2Proof Sys2Proof.Machine

/-- Settles O51: each check, the ones before it passed; and the bytes of each code. -/
theorem operationsAreJudgedInOrder : Obligations.OperationsAreJudgedInOrder := by
  refine ⟨fun c m n i b bs l => ⟨fun code => ?_, fun op read => ⟨fun unnamed => ?_, fun w owner r named record =>
    ⟨fun withdrawn => ?_, fun live foreign => ?_, fun live own => ?_⟩⟩⟩, ?_⟩
  · exact LayoutController.tryOps_unread (opOfBytes_eq_none code)
  · exact LayoutController.tryOps_refused read
      (LayoutController.tryOp_unresolved (LayoutController.resolveIn_unnamed unnamed))
  · exact LayoutController.tryOps_refused read
      (LayoutController.tryOp_unresolved ((LayoutController.resolveIn_named named record).trans (if_pos withdrawn)))
  · exact LayoutController.tryOps_refused read
      (LayoutController.tryOp_unresolved
        ((LayoutController.resolveIn_named named record).trans ((if_neg live).trans (if_neg foreign))))
  · have resolved : c.resolveIn l n op.window = .ok (w, r) :=
      (LayoutController.resolveIn_named named record).trans ((if_neg live).trans (if_pos own))
    refine ⟨fun st refused => LayoutController.tryOps_refused read (LayoutController.tryOp_refused resolved refused),
      fun passes => ?_⟩
    rw [LayoutController.tryOps_passed read (LayoutController.tryOp_passed resolved passes)]
    exact ⟨fun e failed => by rw [failed]; rfl, fun l' ops passed => by rw [passed]; rfl⟩
  · rintro _ b1 b2 b3 b4 b5 b6 b7 b8 b9 b10 b11 v z word signed rfl
    have field : ∀ p o, field16 p o = v (p.getD o 0) (p.getD (o + 1) 0) := fun p o => (word _ _).symm
    have offset : ∀ p o, signed16 p o = z (p.getD o 0) (p.getD (o + 1) 0) := fun p o => by
      rw [signed, ← field]
      exact ite_congr (propext (field16_lt_half p o)) (fun _ => rfl) (fun _ => rfl)
    unfold opOfBytes
    simp only [field, offset]
    exact ⟨rfl, rfl, rfl, rfl, rfl, rfl, rfl, rfl, rfl, rfl⟩

/-- Settles O52, kind by kind. -/
theorem operationsAreChecked : Obligations.OperationsAreChecked := by
  refine fun c m n l w r h => ⟨fun x y width height => ⟨?_, fun within => ⟨fun bare => ?_, fun d sourced => ?_⟩⟩,
    fun present surface sx sy => ⟨?_, fun left top => ⟨?_, fun unnamed => ?_, fun i f named => ?_⟩⟩, ?_,
    fun code ref => ⟨?_, ?_, fun relative => ⟨fun reference => ?_, fun reference => ?_⟩⟩,
    fun _ _ _ => ⟨rfl, rfl, rfl, rfl, rfl, rfl⟩⟩
  · exact Op.refusedBy_place_range c m n l w r h
  · rw [Op.refusedBy_place_fit c m n l w r h within, bare]
  · rw [Op.refusedBy_place_fit c m n l w r h within, sourced]
  · exact Op.refusedBy_source_range c m n l w r h
  · exact Op.refusedBy_source_none c m n l w r h left top
  · rw [Op.refusedBy_source_surface c m n l w r h left top, unnamed]
  · rw [Op.refusedBy_source_surface c m n l w r h left top, named]
  · exact Op.refusedBy_band c m n l w r h
  · exact Op.refusedBy_restack_code c m n l w r h ref
  · exact Op.refusedBy_restack_edge c m n l w r h ref
  · rw [Op.refusedBy_restack_ref c m n l w r h ref relative, if_pos ((c.refOk_iff _ n w ref).mpr reference)]
  · rw [Op.refusedBy_restack_ref c m n l w r h ref relative, if_neg (mt (c.refOk_iff _ n w ref).mp reference)]

end

section
/-! What the operations of a commit do to a layout: the record of their window, and its place in the lists (R104, R115 to R121). -/

namespace Sys2Proof.Machine

/-! ### A window's record and insertion (R115) -/

section Window

variable {l : Layout} {w : WinSlot} {r : WindowRec}

theorem Layout.mapRecord_put (record : l.record w = some r) (f : WindowRec → WindowRec) : l.mapRecord w f = l.put w (f r) := by
  unfold Layout.mapRecord tmod
  rw [show tget l.recs w = some r from record]
  rfl

theorem Layout.put_same (record : l.record w = some r) : l.put w r = l := by
  unfold Layout.put
  rw [← record]
  exact congrArg (fun recs => { l with recs := recs }) (tput_tget l.recs w)

/-- A STACKED window needs no insertion. -/
theorem Layout.stackIfReserved_of_stacked (record : l.record w = some r) (stacked : r.state = .stacked) :
    l.stackIfReserved w = l := by
  unfold Layout.stackIfReserved
  rw [record, Option.any_some, stacked]
  rfl

/-- A RESERVED window is inserted at the top of MAIN. -/
theorem Layout.stackIfReserved_of_reserved (record : l.record w = some r) (reserved : r.state = .reserved) :
    l.stackIfReserved w =
      { recs := tput l.recs w (some { r with state := .stacked, band := .main })
        bands :=
          ⟨l.bands.base.filter (· != w), l.bands.main.filter (· != w) ++ [w], l.bands.overlay.filter (· != w),
            l.bands.alert.filter (· != w)⟩ } := by
  unfold Layout.stackIfReserved
  rw [record, Option.any_some, reserved]
  unfold Layout.moveToTop
  rw [Layout.mapRecord_put record]
  rfl

/-- An operation other than DESTROY looks only at the layout with its window inserted. -/
theorem Op.carryOut_inserted {op : Op} (m : Surfaces) {l' : Layout} (stays : ∀ h, op ≠ .destroy h)
    (inserted : l'.stackIfReserved w = l.stackIfReserved w) : op.carryOut m w l = op.carryOut m w l' := by
  cases op
  case destroy h => exact absurd rfl (stays h)
  all_goals
    unfold Op.carryOut
    rw [inserted]

/-! ### Moves in the stack (R104, R119, R120) -/

theorem Layout.moveToTop_list (l : Layout) (w : WinSlot) (k j : Band) :
    (l.moveToTop w k).bands.list j =
      if j = k then (l.bands.list j).filter (· != w) ++ [w] else (l.bands.list j).filter (· != w) := by
  unfold Layout.moveToTop
  rw [Bands.list_setList, Bands.list_remove, Bands.list_remove]
  by_cases same : k = j
  · rw [if_pos same, if_pos same.symm, same]
  · rw [if_neg same, if_neg (Ne.symm same)]

/-- RESTACK rearranges the list of the window's band, and leaves the other lists. -/
theorem Layout.restack_list (record : l.record w = some r) (mode : StackMode) (ref : Option WinSlot) (j : Band) :
    (l.restack w mode ref).bands.list j =
      if r.band = j then restackList mode ref w (l.bands.list r.band) else l.bands.list j := by
  unfold Layout.restack
  rw [record]
  exact Bands.list_setList ..

theorem Layout.restack_recs (l : Layout) (w : WinSlot) (mode : StackMode) (ref : Option WinSlot) :
    (l.restack w mode ref).recs = l.recs := by
  unfold Layout.restack
  split <;> rfl

theorem insertAbove_at {v : WinSlot} (w : WinSlot) {below : List WinSlot} (above : List WinSlot) (first : v ∉ below) :
    insertAbove v w (below ++ v :: above) = below ++ v :: w :: above := by
  induction below with
  | nil => exact if_pos rfl
  | cons x below ih =>
    obtain ⟨other, first⟩ := not_or.mp (mt List.mem_cons.mpr first)
    exact (if_neg (Ne.symm other)).trans (congrArg (x :: ·) (ih first))

theorem insertBelow_at {v : WinSlot} (w : WinSlot) {below : List WinSlot} (above : List WinSlot) (first : v ∉ below) :
    insertBelow v w (below ++ v :: above) = below ++ w :: v :: above := by
  induction below with
  | nil => exact if_pos rfl
  | cons x below ih =>
    obtain ⟨other, first⟩ := not_or.mp (mt List.mem_cons.mpr first)
    exact (if_neg (Ne.symm other)).trans (congrArg (x :: ·) (ih first))

theorem Op.carryOut_band (m : Surfaces) (record : l.record w = some r) (stacked : r.state = .stacked) {code : Nat} {k : Band}
    (named : bandOfCode code = some k) (h : Nat) : Op.carryOut (.band h code) m w l = l.moveToTop w k := by
  unfold Op.carryOut
  dsimp only
  rw [named, Layout.stackIfReserved_of_stacked record stacked]

theorem Op.carryOut_restack (m : Surfaces) (record : l.record w = some r) (stacked : r.state = .stacked) {code : Nat}
    {mode : StackMode} (named : stackModeOfCode code = some mode) (h ref : Nat) :
    Op.carryOut (.restack h code ref) m w l = l.restack w mode (windowSlotOf ref) := by
  unfold Op.carryOut
  dsimp only
  rw [named, Layout.stackIfReserved_of_stacked record stacked]

/-- Each code below 4 is that of a RESTACK mode. -/
theorem stackModeOfCode_isSome {code : Nat} (known : code < 4) : ∃ mode, stackModeOfCode code = some mode := by
  match code with
  | 0 => exact ⟨.top, rfl⟩
  | 1 => exact ⟨.bottom, rfl⟩
  | 2 => exact ⟨.above, rfl⟩
  | 3 => exact ⟨.below, rfl⟩

end Window

theorem sourceDescOf_named {m : Surfaces} {surface : Nat} {i : SurfSlot} {f : Surface} (named : m.named surface = some (i, f)) :
    sourceDescOf m surface = some ⟨surface, f.width, f.height, f.format⟩ := by
  unfold sourceDescOf
  rw [named]
  rfl

end Sys2Proof.Machine

open Sys2Proof Sys2Proof.Machine

/-- Settles O53: a STACKED window is not inserted, so the operation is one change of its record. -/
theorem operationsSetTheirFields : Obligations.OperationsSetTheirFields := by
  intro m l w r record stacked op q sets
  have inserted := Layout.stackIfReserved_of_stacked record stacked
  have change (f : WindowRec → WindowRec) : (l.stackIfReserved w).mapRecord w f = l.put w (f r) := by
    rw [inserted, Layout.mapRecord_put record]
  obtain ⟨h, x, y, width, height, rfl, rfl⟩ | ⟨h, surface, sx, sy, i, f, rfl, named, rfl⟩ | ⟨h, surface, sx, sy, rfl, rfl⟩ |
    ⟨h, opacity, fill, rfl, rfl⟩ | ⟨h, rfl, rfl⟩ | ⟨h, rfl, rfl⟩ | ⟨h, deadline, rfl, rfl⟩ | ⟨h, rfl, rfl⟩ := sets
  · exact change _
  · rw [← sourceDescOf_named named]
    exact change _
  · exact change _
  · exact change _
  · exact change _
  · exact change _
  · exact change _
  · exact inserted.trans (Layout.put_same record).symm

/-- Settles O54: insertion, then the lists of each move. -/
theorem operationsMoveWindows : Obligations.OperationsMoveWindows := by
  refine ⟨fun m l w r op record reserved stays => ?_, fun m l w r h code k record stacked codes => ?_,
    fun m l w r h code ref record stacked known => ?_, fun m l w r h record => ⟨?_, fun j => l.withdraw_list w j⟩⟩
  · rw [← Layout.stackIfReserved_of_reserved record reserved]
    refine Op.carryOut_inserted m stays (Layout.stackIfReserved_of_stacked (r := { r with state := .stacked, band := .main }) ?_ rfl)
    rw [Layout.stackIfReserved_record, if_pos rfl, record]
    exact congrArg some (if_pos reserved)
  · have named : bandOfCode code = some k := by
      obtain ⟨rfl, rfl⟩ | ⟨rfl, rfl⟩ | ⟨rfl, rfl⟩ | ⟨rfl, rfl⟩ := codes <;> rfl
    rw [Op.carryOut_band m record stacked named]
    refine ⟨?_, l.moveToTop_list w k⟩
    rw [stacked]
    exact congrArg Layout.recs (Layout.mapRecord_put record _)
  · obtain ⟨mode, named⟩ := stackModeOfCode_isSome known
    rw [Op.carryOut_restack m record stacked named]
    have own : ∀ mode', stackModeOfCode code = some mode' → (l.restack w mode (windowSlotOf ref)).bands.list r.band =
        restackList mode' (windowSlotOf ref) w (l.bands.list r.band) := fun mode' named' => by
      cases named.symm.trans named'
      exact (Layout.restack_list record mode _ r.band).trans (if_pos rfl)
    refine ⟨l.restack_recs w mode _, fun j other => (Layout.restack_list record mode _ j).trans (if_neg (Ne.symm other)), ?_, ?_,
      fun v below above slot other first list => ?_⟩
    · rintro rfl
      exact own .top rfl
    · rintro rfl
      exact own .bottom rfl
    · rw [(windowSlotOf_eq_some ref v).mpr slot] at own ⊢
      refine ⟨?_, ?_⟩
      · rintro rfl
        exact (own .above rfl).trans ((congrArg (insertAbove v w) list).trans (insertAbove_at w above first))
      · rintro rfl
        exact (own .below rfl).trans ((congrArg (insertBelow v w) list).trans (insertBelow_at w above first))
  · exact congrArg Layout.recs (Layout.mapRecord_put record _)

end

section
/-! COMMIT at the head of its queue: each step of R114 that fails it, and its acceptance (R65, R109, R113, R114, R122 to R124). -/

namespace Sys2Proof.Machine

/-! ### The lowest line over the budget (R122) -/

theorem firstOver_eq_none {budget : Nat} {loads : List Nat} (within : ∀ x ∈ loads, x ≤ budget) (line : Nat) :
    firstOver budget line loads = none := by
  induction loads generalizing line with
  | nil => rfl
  | cons x loads ih =>
    obtain ⟨first, rest⟩ := List.forall_mem_cons.mp within
    exact (if_neg (Nat.not_lt.mpr first)).trans (ih rest (line + 1))

theorem firstOver_eq_some {budget : Nat} {loads : List Nat} {line x : Nat} (load : loads[line]? = some x) (exceeds : budget < x)
    (below : ∀ j x, j < line → loads[j]? = some x → x ≤ budget) (start : Nat) :
    firstOver budget start loads = some (start + line) := by
  induction loads generalizing line start with
  | nil => cases load
  | cons y loads ih =>
    cases line with
    | zero =>
      cases load
      exact if_pos exceeds
    | succ line =>
      have later := ih load (fun j x hj => below (j + 1) x (Nat.succ_lt_succ hj)) (start + 1)
      rw [Nat.add_right_comm] at later
      exact (if_neg (Nat.not_lt.mpr (below 0 y (Nat.succ_pos line) rfl))).trans later

/-! ### The refreshed windows (R124) -/

theorem mem_windowsOf (p : Op → Bool) (ops : List Op) (w : WinSlot) :
    w ∈ windowsOf p ops ↔ ∃ op ∈ ops, p op = true ∧ op.window % 32 = w.val := by
  unfold windowsOf
  simp only [List.mem_filter, mem_allSlots, true_and, List.any_eq_true, Bool.and_eq_true, decide_eq_true_eq, windowSlotOf_eq_some]

theorem mem_refreshedWindows (ops : List Op) (w : WinSlot) :
    w ∈ refreshedWindows ops ↔
      (∃ op ∈ ops, op.window % 32 = w.val ∧
        ((∃ h present surface sx sy, op = .source h present surface sx sy) ∨ ∃ h, op = .touch h)) ∧
      ¬ ∃ h, Op.destroy h ∈ ops ∧ h % 32 = w.val := by
  unfold refreshedWindows
  dsimp only
  rw [List.mem_filter, Bool.not_eq_true', List.contains_eq_mem, decide_eq_false_iff_not, mem_windowsOf, mem_windowsOf]
  refine and_congr (exists_congr fun op => and_congr_right fun _ => ?_) (not_congr ⟨?_, ?_⟩)
  · rw [and_comm]
    refine and_congr_right fun _ => ?_
    cases op <;> simp
  · rintro ⟨op, listed, destroys, slot⟩
    cases op
    case destroy h => exact ⟨h, listed, slot⟩
    all_goals cases destroys
  · rintro ⟨h, listed, slot⟩
    exact ⟨_, listed, rfl, slot⟩

theorem refreshedWindows_nodup (ops : List Op) : (refreshedWindows ops).Nodup :=
  ((allSlots_nodup 24).filter _).filter _

/-! ### The steps of R114 -/

section Serve

variable (s : State) (n : Port) (tag : Byte) {p : List Byte}

/-- The count and the length of a COMMIT are ones that R113 allows. -/
def commitLengthOk (p : List Byte) : Prop := 1 ≤ field8 p 0 ∧ field8 p 0 ≤ 16 ∧ p.length = 4 + 12 * field8 p 0

theorem State.serveCommit_badLength (length : ¬ commitLengthOk p) : s.serveCommit n tag p = (s, commitReply .badLength 255 0 0) :=
  if_pos length

theorem State.serveCommit_commitLimit (length : commitLengthOk p) (full : 2 ≤ (s.layouts.commitsOf n).length) :
    s.serveCommit n tag p = (s, commitReply .commitLimit 255 0 0) :=
  (if_neg (not_not_intro length)).trans (if_pos (Nat.not_lt.mpr full))

variable (length : commitLengthOk p) (room : (s.layouts.commitsOf n).length < 2)

include length room

theorem State.serveCommit_failed {st : Status} {i : Nat}
    (judged : s.layouts.tryOps s.surfaces n 0 (opChunks (field8 p 0) (p.drop 4)) s.layouts.projected = .error (st, i)) :
    s.serveCommit n tag p = (s, commitReply st i 0 0) := by
  refine (if_neg (not_not_intro length)).trans ((if_neg (not_not_intro room)).trans ?_)
  rw [judged]

variable {l : Layout} {ops : List Op}
  (judged : s.layouts.tryOps s.surfaces n 0 (opChunks (field8 p 0) (p.drop 4)) s.layouts.projected = .ok (l, ops))

include judged

theorem State.serveCommit_overBudget {line : Nat} (exceeds : firstOver s.scan.budget 0 (loadTable s.scan.timing l) = some line) :
    s.serveCommit n tag p = (s, commitReply .overBudget 255 0 line) := by
  refine (if_neg (not_not_intro length)).trans ((if_neg (not_not_intro room)).trans ?_)
  rw [judged]
  dsimp only
  rw [exceeds]

theorem State.serveCommit_accepted (within : ∀ x ∈ loadTable s.scan.timing l, x ≤ s.scan.budget) :
    s.serveCommit n tag p = (s.acceptCommit n tag l ops, commitReply .ok 255 (tget s.drawing.issued n) 0) := by
  refine (if_neg (not_not_intro length)).trans ((if_neg (not_not_intro room)).trans ?_)
  rw [judged]
  dsimp only
  rw [firstOver_eq_none within]

end Serve

/-! ### From the command to its steps -/

theorem commitLengthOk.known {p : List Byte} (length : commitLengthOk p) :
    Kind.commit.lengthOk p.length = true ∧ p.length ≤ Config.maxPayload := by
  obtain ⟨least, most, length⟩ := length
  refine ⟨Bool.and_eq_true_iff.mpr ⟨decide_eq_true ?_, decide_eq_true ?_⟩, ?_⟩
  · omega
  · omega
  · unfold Config.maxPayload
    omega

/-- A COMMIT of a quiet port that its steps refuse. -/
theorem exec_commit_refused {s : State} {n : Port} {tag : Byte} {p payload : List Byte} (quiet : s.quiet n)
    (session : (s.session n).state ≠ .closed) (least : 4 ≤ p.length) (most : p.length ≤ 1024)
    (decided : (s.heard n ⟨Kind.commit.code, tag, p⟩).serveCommit n tag p = (s.heard n ⟨Kind.commit.code, tag, p⟩, payload)) :
    exec (.commit n tag p) s = .next (s.replied n tag payload).settle :=
  exec_replied (k := .commit) rfl quiet session
    (Bool.and_eq_true_iff.mpr ⟨decide_eq_true least, decide_eq_true most⟩) most (congrArg Served.ofPair decided)

/-- The surface and layout tables changed, with the request answered, as one change of the state. -/
theorem State.tables_answer (s : State) (n : Port) (r : Request) (payload : List Byte) (m : Surfaces) (c : LayoutController) :
    (((s.heard n r).withSurfaces m).withLayouts c).answer n r.tag payload =
      { s.replied n r.tag payload with surfaces := m, layouts := c } := by
  rw [← s.heard_answer n r payload, State.answer_effect, State.answer_effect]
  rfl

end Sys2Proof.Machine

open Sys2Proof Sys2Proof.Machine

/-- Settles O49: every step passed, the request is answered with State.acceptCommit. -/
theorem commitIsAccepted : Obligations.CommitIsAccepted := by
  rintro s n tag payload _ l ops quiet session rfl least most length room judged within
  have ok : commitLengthOk payload := ⟨least, most, length⟩
  obtain ⟨known, short⟩ := ok.known
  have accepted := (s.heard n ⟨Kind.commit.code, tag, payload⟩).serveCommit_accepted n tag ok room judged within
  refine ⟨refreshedWindows ops, refreshedWindows_nodup ops, mem_refreshedWindows ops, ?_⟩
  rw [exec_answered (k := .commit) rfl quiet session known short (congrArg Served.ofPair accepted) rfl, ← Surfaces.mapQueued_raise]
  exact congrArg (fun t => Host.Outcome.next (State.settle t)) (s.tables_answer n ⟨Kind.commit.code, tag, payload⟩ _ _ _)

/-- Settles O50: the first step that fails answers. -/
theorem commitIsRefused : Obligations.CommitIsRefused := by
  rintro s n tag payload _ quiet session least most rfl
  have refused {answer : List Byte} := exec_commit_refused (tag := tag) (payload := answer) quiet session least most
  refine ⟨fun length => ?_, fun few many length => ⟨fun full => ?_, fun room => ⟨fun st i judged => ?_,
    fun l ops line judged ⟨x, load, exceeds⟩ below => ?_⟩⟩⟩
  · exact refused (State.serveCommit_badLength _ n tag length)
  · exact refused (State.serveCommit_commitLimit (s.heard n _) n tag ⟨few, many, length⟩ full)
  · exact refused (State.serveCommit_failed (s.heard n _) n tag ⟨few, many, length⟩ room judged)
  · refine refused (State.serveCommit_overBudget (s.heard n _) n tag ⟨few, many, length⟩ room judged ?_)
    exact (firstOver_eq_some load exceeds below 0).trans (congrArg some (Nat.zero_add line))

end

section
/-! The frame boundary (R44, R126), and the application of a ready commit, one operation at a time (R64, R65, R103, R127, R129, R130,
R144). -/

namespace Sys2Proof.Machine

/-! ### The four steps (R126) -/

/-- FRAME_BOUNDARY, and PIXEL_CLOCK at the last active pixel, take the boundary's steps at the state in which the frame counter has
advanced. -/
theorem exec_boundary {c : Instr} {s : State} {t : Timing} (running : s.scan.timing = some t)
    (boundary : c = .frameBoundary ∨ c = .pixelClock ∧ t.valid = true ∧ s.scan.pos = some (t.vactive - 1, t.hactive - 1)) :
    ∃ v : State, v.links = s.links ∧ v.sessions = s.sessions ∧ v.surfaces = s.surfaces ∧ v.layouts = s.layouts ∧
      v.mem = s.drawOn.mem ∧ v.drawing = s.drawOn.drawing ∧
      v.scan = ⟨some t, s.scan.frame + 1, some (t.vactive - 1, t.hactive), [], []⟩ ∧
      exec c s = .next v.withdrawClosing.applyCommits.ageWindows.finishTeardowns.settle := by
  obtain rfl | ⟨rfl, valid, place⟩ := boundary
  · obtain ⟨v, links, sessions, surfaces, layouts, mem, drawing, scan, steps⟩ := s.frameBoundary_steps t running
    exact ⟨v, links, sessions, surfaces, layouts, mem, drawing, scan, congrArg settled steps⟩
  · obtain ⟨v, links, sessions, surfaces, layouts, mem, drawing, scan, steps⟩ := s.pixelClock_steps t running valid place
    exact ⟨v, links, sessions, surfaces, layouts, mem, drawing, scan, congrArg settled steps⟩

/-! ### The head of the queue (R127, R129) -/

theorem State.applyCommits_idle (s : State) (waits : ∀ p rest, s.layouts.commits = p :: rest → p.reached = false) :
    s.applyCommits = s := by
  unfold State.applyCommits
  cases queue : s.layouts.commits with
  | nil => rfl
  | cons p rest =>
    rw [List.length_cons]
    unfold State.applyReady
    rw [queue]
    exact if_neg (Bool.eq_false_iff.mp (waits p rest queue))

section Head

variable {s : State} {p : Pending} {rest : List Pending}

/-- A ready head applied in part: the state after its first operation, with what is left of it at the head. -/
theorem State.applyCommits_operation {op : Op} {ops : List Op} {t : State} (queue : s.layouts.commits = p :: rest)
    (ready : p.reached = true) (operations : p.ops = op :: ops)
    (applied : State.lessQueued (fun i => op.refsOn i) ((s.withLayouts { s.layouts with commits := rest }).applyOp op) =
      t.withLayouts { t.layouts with commits := rest })
    (left : t.layouts.commits = { p with ops := ops } :: rest) : s.applyCommits = t.applyCommits := by
  rw [s.applyCommits_cons p rest queue ready, t.applyCommits_cons { p with ops := ops } rest left ready,
    State.applyCommit_cons _ p op ops operations, applied]

/-- A ready head with no operation left leaves the queue. -/
theorem State.applyCommits_finished {t : State} (queue : s.layouts.commits = p :: rest) (ready : p.reached = true)
    (finished : (s.withLayouts { s.layouts with commits := rest }).applyCommit p = t) (left : t.layouts.commits = rest) :
    s.applyCommits = t.applyCommits := by
  rw [s.applyCommits_cons p rest queue ready, finished]
  unfold State.applyCommits
  rw [left]

end Head

/-! ### One operation, and the end of a commit, as one change of the state -/

/-- The ages after an operation: that of its window restarted if the operation restarts it (R144). -/
def LayoutController.freshAfter (c : LayoutController) (op : Op) (w : WinSlot) : Table Freshness 24 :=
  if op.restarts c.applied w then tput c.fresh w ⟨0, false, true⟩ else c.fresh

/-- An operation other than DESTROY moves shown_refs from its window's old record to the new one. -/
theorem State.applyChange_eq (s : State) (op : Op) (w : WinSlot) :
    s.applyChange op w =
      { s with
        surfaces := s.surfaces.changed (fun i f =>
          { f with
            shownRefs := f.shownRefs + (op.carryOut s.surfaces w s.layouts.applied).refsOn w i - s.layouts.applied.refsOn w i })
        layouts :=
          { s.layouts with
            applied := op.carryOut s.surfaces w s.layouts.applied
            fresh := s.layouts.freshAfter op w } } := by
  unfold State.applyChange LayoutController.freshAfter
  dsimp only
  rw [Surfaces.moveShown_changed]
  split <;> rfl

/-- A window freed leaves the tables, both layouts and shown_refs (R103). -/
theorem State.freeWindow_eq (s : State) {w : WinSlot} {n : Port} (owner : tget s.layouts.owners w = some n) :
    s.freeWindow w =
      { s with
        surfaces := s.surfaces.changed (fun i f => { f with shownRefs := f.shownRefs - s.layouts.applied.refsOn w i })
        layouts :=
          { s.layouts with
            owners := tput s.layouts.owners w none
            gens := tput s.layouts.gens w (if tget s.layouts.gens w + 1 ≥ 2048 then 0 else tget s.layouts.gens w + 1)
            winCount := tput s.layouts.winCount n (tget s.layouts.winCount n - 1)
            applied :=
              { recs := tput s.layouts.applied.recs w none, bands := (s.layouts.applied.without (fun v => v = w)).bands }
            projected :=
              { recs := tput s.layouts.projected.recs w none, bands := (s.layouts.projected.without (fun v => v = w)).bands }
            fresh := tput s.layouts.fresh w ⟨0, false, false⟩ } } := by
  unfold State.freeWindow
  rw [owner]
  dsimp only
  rw [Surfaces.lowerShown_changed]
  unfold LayoutController.release
  rw [Layout.forget_eq, Layout.forget_eq]
  rfl

/-- After its last operation a commit restarts its refreshed windows, and PRESENTED is posted (R130, R144). -/
theorem State.applyCommit_finished (s : State) (p : Pending) (finished : p.ops = []) :
    s.applyCommit p =
      { s with
        links := tput s.links p.port ((s.link p.port).post ([0x01, p.tag] ++ bytes32 s.scan.frame))
        layouts :=
          { s.layouts with
            fresh := tabulate (fun w => if w ∈ p.refreshed then ⟨0, false, true⟩ else tget s.layouts.fresh w)
            appliedLoad := loadTable s.scan.timing s.layouts.applied
            projectedLoad := loadTable s.scan.timing s.layouts.projected } } := by
  unfold State.applyCommit
  rw [finished]
  dsimp only
  rw [LayoutController.restart_fresh]
  rfl

theorem Layout.refsOn_of_record {l : Layout} {w : WinSlot} {r : WindowRec} (record : l.record w = some r) (i : SurfSlot) :
    l.refsOn w i = r.refsOn i := by
  unfold Layout.refsOn
  rw [record]

/-- A FRESHNESS restarts the age, and a SHOW of a hidden window. -/
theorem LayoutController.freshAfter_eq {c : LayoutController} {w : WinSlot} {r : WindowRec} (record : c.applied.record w = some r)
    (op : Op) :
    c.freshAfter op w =
      match op with
      | .showWindow _ => if r.visible then c.fresh else tput c.fresh w ⟨0, false, true⟩
      | .freshness _ _ => tput c.fresh w ⟨0, false, true⟩
      | _ => c.fresh := by
  unfold LayoutController.freshAfter
  cases op
  case showWindow h =>
    show (if (c.applied.record w).any (fun r => !r.visible) = true then _ else _) = _
    rw [record, Option.any_some]
    cases r.visible <;> rfl
  all_goals rfl

end Sys2Proof.Machine

open Sys2Proof Sys2Proof.Machine

/-- Settles O55: the steps of a boundary, and the head of the queue carried one operation on. -/
theorem readyCommitsAreApplied : Obligations.ReadyCommitsAreApplied := by
  refine ⟨fun c s t running boundary => ?_, State.withdrawClosing_effect, State.applyCommits_idle,
    fun s p rest queue ready => ⟨fun op ops w n r operations named record => ⟨fun q stays changed => ?_, ?_⟩, fun finished => ?_⟩⟩
  · obtain ⟨v, links, sessions, surfaces, layouts, mem, drawing, scan, steps⟩ := exec_boundary running boundary
    exact ⟨v, _, links, sessions, surfaces, layouts, State.drawsOn_congr s.drawOn_drawsOn mem drawing, scan, rfl, steps⟩
  · refine State.applyCommits_operation queue ready operations ?_ rfl
    rw [State.applyOp_change (s.withLayouts { s.layouts with commits := rest }) op w n named stays, State.applyChange_eq,
      LayoutController.freshAfter_eq (c := (s.withLayouts { s.layouts with commits := rest }).layouts) record op]
    unfold State.lessQueued
    simp only [State.withLayouts_layouts, State.withLayouts_surfaces, Surfaces.changed_changed, Layout.refsOn_of_record record,
      Layout.refsOn_of_record changed]
    rfl
  · rintro h rfl
    refine State.applyCommits_operation queue ready operations ?_ rfl
    rw [State.applyOp_destroy (s.withLayouts { s.layouts with commits := rest }) h w n named,
      State.freeWindow_eq (s.withLayouts { s.layouts with commits := rest }) (State.named_owner named).2]
    unfold State.lessQueued
    simp only [State.withLayouts_layouts, State.withLayouts_surfaces, Surfaces.changed_changed, Layout.refsOn_of_record record]
    rfl
  · exact State.applyCommits_finished queue ready (State.applyCommit_finished _ p finished) rfl

end

section
/-! The alert token (R135 to R139) and the freshness of windows (R143, R145): who holds, waits for and passes the token, and the boundary
at which a window becomes stale. -/

namespace Sys2Proof.Machine

/-! ### ACQUIRE_ALERT by the token's state (R135, R136) -/

/-- A port's position counts it and those before it. -/
theorem alertPosition_append {n : Port} {before : List Port} (first : n ∉ before) (after : List Port) :
    alertPosition (before ++ n :: after) n = before.length + 1 := by
  have passed : before.findIdx (fun q => decide (q = n)) = before.length :=
    List.findIdx_eq_length_of_false fun q listed => decide_eq_false (by rintro rfl; exact first listed)
  unfold alertPosition
  rw [List.findIdx_append, passed, if_neg (Nat.lt_irrefl _), List.findIdx_cons, decide_eq_true rfl, cond_true, Nat.zero_add]

section Token

variable (s : State) {n : Port}

theorem State.serveAcquireAlert_takes (free : s.layouts.holder = none) :
    s.serveAcquireAlert n = (s.withLayouts { s.layouts with holder := some n }, acquireReply .granted 0) := by
  unfold State.serveAcquireAlert
  rw [free]
  rfl

theorem State.serveAcquireAlert_held (holds : s.layouts.holder = some n) :
    s.serveAcquireAlert n = (s, acquireReply .granted 0) := by
  unfold State.serveAcquireAlert
  rw [holds]
  exact if_pos rfl

theorem State.serveAcquireAlert_listed {h : Port} (held : s.layouts.holder = some h) (other : h ≠ n) (listed : n ∈ s.layouts.waiting) :
    s.serveAcquireAlert n = (s, acquireReply .waiting (alertPosition s.layouts.waiting n)) := by
  unfold State.serveAcquireAlert
  rw [held]
  exact (if_neg other).trans (if_pos listed)

theorem State.serveAcquireAlert_joins {h : Port} (held : s.layouts.holder = some h) (other : h ≠ n) (apart : n ∉ s.layouts.waiting) :
    s.serveAcquireAlert n =
      (s.withLayouts { s.layouts with waiting := s.layouts.waiting ++ [n] },
        acquireReply .waiting (s.layouts.waiting.length + 1)) := by
  have token : s.layouts.withToken (some h) (s.layouts.waiting ++ [n]) = { s.layouts with waiting := s.layouts.waiting ++ [n] } := by
    rw [← held]
    rfl
  unfold State.serveAcquireAlert
  rw [held]
  exact (if_neg other).trans ((if_neg apart).trans (by rw [token]))

/-! ### RELEASE_ALERT by case (R137, R138) -/

theorem LayoutController.usesAlert_iff (c : LayoutController) (n : Port) :
    c.usesAlert n = true ↔
      ∃ w, (w ∈ c.applied.bands.alert ∨ w ∈ c.projected.bands.alert) ∧ tget c.owners w = some n := by
  simp only [LayoutController.usesAlert, Bool.or_eq_true, List.any_eq_true, decide_eq_true_eq, or_and_right, exists_or]

theorem State.serveReleaseAlert_inUse (holds : s.layouts.holder = some n) (used : s.layouts.usesAlert n = true) :
    s.serveReleaseAlert n = (s, refusal .releaseAlert .alertInUse) := by
  unfold State.serveReleaseAlert
  rw [if_pos holds, if_pos used]

theorem State.serveReleaseAlert_passes (holds : s.layouts.holder = some n) (unused : ¬ s.layouts.usesAlert n = true) :
    s.serveReleaseAlert n = (s.passToken, releaseReply .released) := by
  unfold State.serveReleaseAlert
  rw [if_pos holds, if_neg unused]

theorem State.serveReleaseAlert_leaves (other : s.layouts.holder ≠ some n) (listed : n ∈ s.layouts.waiting) :
    s.serveReleaseAlert n =
      (s.withLayouts { s.layouts with waiting := s.layouts.waiting.filter (· != n) }, releaseReply .leftWaiting) := by
  unfold State.serveReleaseAlert
  rw [if_neg other, if_pos listed]
  rfl

theorem State.serveReleaseAlert_notHeld (other : s.layouts.holder ≠ some n) (apart : n ∉ s.layouts.waiting) :
    s.serveReleaseAlert n = (s, releaseReply .notHeld) := by
  unfold State.serveReleaseAlert
  rw [if_neg other, if_neg apart]

theorem State.passToken_none (empty : s.layouts.waiting = []) :
    s.passToken = s.withLayouts { s.layouts with holder := none } := by
  unfold State.passToken
  rw [empty]
  dsimp only
  rw [← empty]
  rfl

theorem State.passToken_first {q : Port} {rest : List Port} (list : s.layouts.waiting = q :: rest) :
    s.passToken = (s.withLayouts { s.layouts with holder := some q, waiting := rest }).post q [0x04] := by
  unfold State.passToken
  rw [list]
  rfl

/-! ### From the command to the token -/

theorem tput_comm {α : Type} {k : Nat} (t : Table α k) {i j : Fin k} (apart : i ≠ j) (a b : α) :
    tput (tput t i a) j b = tput (tput t j b) i a :=
  Vector.set_comm a b fun same => apart (Fin.ext same)

/-- A post to one port and an answer to another touch different links, so their order does not matter. -/
theorem State.post_answer {q : Port} (apart : q ≠ n) (tag : Byte) (payload event : List Byte) :
    (s.post q event).answer n tag payload = (s.answer n tag payload).post q event := by
  have posted : (s.post q event).link n = s.link n := State.link_mapLink_ne s q n _ apart
  have answered : (s.answer n tag payload).link q = s.link q := tget_tput_ne _ _ _ _ apart.symm
  unfold State.post State.mapLink at *
  rw [answered, State.answer_effect, posted, State.answer_effect]
  exact congrArg (fun links => { s with links := links, sessions := tput s.sessions n { s.session n with headWait := .none } })
    (tput_comm _ apart _ _)

section Request

variable {d : Instr} {k : Kind} {tag : Byte} {payload : List Byte} {c : LayoutController} {s}

/-- A request without operands that changes the layout controller alone. -/
theorem exec_layouts (carries : carried d = some (n, ⟨k.code, tag, []⟩)) (quiet : s.quiet n) (session : (s.session n).state ≠ .closed)
    (length : k.lengthOk 0 = true)
    (decided : (s.heard n ⟨k.code, tag, []⟩).carryOut n k ⟨k.code, tag, []⟩ =
      .answered ((s.heard n ⟨k.code, tag, []⟩).withLayouts c) payload) :
    exec d s = .next ({ s.replied n tag payload with layouts := c } : State).settle := by
  rw [exec_answered carries quiet session length (Nat.zero_le _) decided rfl, State.layouts_answer s n ⟨k.code, tag, []⟩]

/-- The same with an event posted to another port. -/
theorem exec_layouts_post {q : Port} {event : List Byte} (carries : carried d = some (n, ⟨k.code, tag, []⟩)) (quiet : s.quiet n)
    (session : (s.session n).state ≠ .closed) (length : k.lengthOk 0 = true) (apart : q ≠ n)
    (decided : (s.heard n ⟨k.code, tag, []⟩).carryOut n k ⟨k.code, tag, []⟩ =
      .answered (((s.heard n ⟨k.code, tag, []⟩).withLayouts c).post q event) payload) :
    exec d s = .next (({ s.replied n tag payload with layouts := c } : State).post q event).settle := by
  have head : ((((s.heard n ⟨k.code, tag, []⟩).withLayouts c).post q event).link n).requests = [⟨k.code, tag, []⟩] :=
    (congrArg Link.requests (State.link_mapLink_ne _ q n _ apart)).trans (s.heard_requests n _)
  have served := (State.serve_known (s.heard n _) n k tag [] length session).trans decided
  rw [exec_carried d s n _ carries, s.transact_answered n _ _ payload quiet (Nat.zero_le _) k.code_ne_nop served head,
    State.post_answer _ apart, State.layouts_answer s n ⟨k.code, tag, []⟩]

end Request

end Token

/-! ### A window's aging at a boundary (R143, R145) -/

section Aging

variable {c : LayoutController} {s : State} {w : WinSlot} {r : WindowRec}

theorem LayoutController.ages_iff (record : c.applied.record w = some r) :
    c.ages w = true ↔ r.state = .stacked ∧ r.visible = true ∧ 0 < r.deadline ∧ (tget c.fresh w).refreshed = false := by
  unfold LayoutController.ages
  rw [record]
  simp only [Option.any_some, Bool.and_eq_true, decide_eq_true_eq, Bool.not_eq_true', and_assoc]

theorem LayoutController.deadline_eq (record : c.applied.record w = some r) : c.deadline w = r.deadline := by
  unfold LayoutController.deadline
  rw [record]

theorem State.ageWindow_unaged (unaged : ¬ s.layouts.ages w = true) : s.ageWindow w = s := if_neg unaged

theorem State.ageWindow_due {owner : Port} (ages : s.layouts.ages w = true)
    (due : s.layouts.deadline w ≤ nextAge (tget s.layouts.fresh w).age ∧ (tget s.layouts.fresh w).stale = false)
    (own : tget s.layouts.owners w = some owner) :
    s.ageWindow w =
      (s.withLayouts { s.layouts with
        fresh := tput s.layouts.fresh w { tget s.layouts.fresh w with age := nextAge (tget s.layouts.fresh w).age, stale := true }
        }).post owner (stalePayload (windowHandle w (tget s.layouts.gens w)) s.scan.frame) := by
  unfold State.ageWindow
  rw [if_pos ages]
  dsimp only
  rw [if_pos due, own]

theorem State.ageWindow_early (ages : s.layouts.ages w = true)
    (early : ¬ (s.layouts.deadline w ≤ nextAge (tget s.layouts.fresh w).age ∧ (tget s.layouts.fresh w).stale = false)) :
    s.ageWindow w =
      s.withLayouts { s.layouts with
        fresh := tput s.layouts.fresh w { tget s.layouts.fresh w with age := nextAge (tget s.layouts.fresh w).age } } := by
  unfold State.ageWindow
  rw [if_pos ages]
  exact if_neg early

theorem LayoutController.aged_due (ages : c.ages w = true) (mark : (tget c.fresh w).refreshed = false)
    (due : c.deadline w ≤ nextAge (tget c.fresh w).age ∧ (tget c.fresh w).stale = false) :
    c.aged w = ⟨nextAge (tget c.fresh w).age, true, false⟩ := by
  unfold LayoutController.aged
  rw [if_pos ages, if_pos due]
  dsimp only
  rw [mark]

theorem LayoutController.aged_unaged (unaged : ¬ c.ages w = true) : c.aged w = tget c.fresh w := if_neg unaged

/-! ### The command STALE (log entry 5) -/

/-- With nothing to apply and no port CLOSING, a boundary keeps the applied layout and leaves each window its aging, the mark cleared. -/
theorem State.frameBoundary_ages (panel : s.scan.timing.isSome = true) (empty : s.layouts.commits = [])
    (noneClosing : ∀ n, (s.session n).state ≠ .closing) :
    (∀ w, tget s.frameBoundary.layouts.fresh w = { s.layouts.aged w with refreshed := false }) ∧
      s.frameBoundary.layouts.applied = s.layouts.applied := by
  obtain ⟨t, running⟩ := Option.isSome_iff_exists.mp panel
  obtain ⟨u, layouts, _, _, _, _, _, boundary⟩ := s.frameBoundary_quiet t running empty noneClosing
  obtain ⟨_, ages⟩ := u.ageWindows_layouts
  rw [boundary]
  refine ⟨fun w => ?_, ?_⟩
  · rw [State.ageWindows_fresh, layouts]
    rfl
  · rw [ages, layouts]
    rfl

/-- A window that is not aged is not made stale by the command STALE. -/
theorem State.becomeStale_unaged (unaged : ¬ s.layouts.ages w = true) (empty : s.layouts.commits = [])
    (noneClosing : ∀ n, (s.session n).state ≠ .closing) : s.becomeStale w = s := by
  cases panel : s.scan.timing with
  | none => exact s.becomeStale_unconfigured panel w
  | some t =>
    refine if_neg fun ⟨fresh, stale⟩ => ?_
    obtain ⟨after, _⟩ := State.frameBoundary_ages (Option.isSome_iff_exists.mpr ⟨t, panel⟩) empty noneClosing
    rw [after, LayoutController.aged_unaged unaged] at stale
    cases fresh.symm.trans stale

end Aging

end Sys2Proof.Machine

open Sys2Proof Sys2Proof.Machine

/-- Settles O8: every move of the token keeps its list right, and no other operation touches it. -/
theorem alertTokenStaysSound : Obligations.AlertTokenStaysSound := fun _ _ sound e => State.tokenSound_kept.step sound e

/-- Settles O36: one window's aging by its cases; with nothing to apply and no port CLOSING the boundary leaves each window its own. -/
theorem staleComesAtTheDeadline : Obligations.StaleComesAtTheDeadline := by
  rintro s w r _ owner _ record rfl own rfl
  have ages := LayoutController.ages_iff record
  have deadline := LayoutController.deadline_eq record
  refine ⟨fun unaged => State.ageWindow_unaged (mt ages.mp unaged), fun aging => ⟨fun due => ?_, fun early => ?_⟩,
    fun empty noneClosing => ⟨fun panel stacked visible limit mark fresh due => ?_, fun never => ?_⟩⟩
  · exact State.ageWindow_due (ages.mpr aging) (deadline.symm ▸ due) own
  · exact State.ageWindow_early (ages.mpr aging) (deadline.symm ▸ early)
  · obtain ⟨t, running⟩ := Option.isSome_iff_exists.mp panel
    obtain ⟨aged, applied⟩ := State.frameBoundary_ages panel empty noneClosing
    have after := aged w
    rw [LayoutController.aged_due (ages.mpr ⟨stacked, visible, limit, mark⟩) mark ⟨deadline.symm ▸ due, fresh⟩] at after
    have comes : s.becomeStale w = s.frameBoundary := if_pos ⟨fresh, congrArg Freshness.stale after⟩
    refine ⟨s.frameBoundary.settle, congrArg settled comes, rfl, after, ?_, applied⟩
    rw [State.settle_scan, s.frameBoundary_scan t running]
  · refine congrArg settled ?_
    obtain stale | unlimited := never
    · exact if_neg fun ⟨fresh, _⟩ => Bool.false_ne_true (fresh.symm.trans stale)
    · exact State.becomeStale_unaged (mt ages.mp fun ⟨_, _, limit, _⟩ => absurd unlimited (Nat.ne_of_gt limit)) empty noneClosing

/-- Settles O56, by the token's state. -/
theorem acquireAlertAnswers : Obligations.AcquireAlertAnswers := by
  intro s n tag quiet session
  have replied {payload : List Byte} := exec_replied (c := .acquireAlert n tag []) (k := .acquireAlert) (payload := payload) rfl quiet
    session rfl (Nat.zero_le _)
  refine ⟨fun free => ?_, fun holds => ?_, fun h held other => ⟨fun before after list first => ?_, fun apart => ?_⟩⟩
  · exact exec_layouts (k := .acquireAlert) rfl quiet session rfl (congrArg Served.ofPair ((s.heard n _).serveAcquireAlert_takes free))
  · exact replied (congrArg Served.ofPair ((s.heard n _).serveAcquireAlert_held holds))
  · have listed : n ∈ s.layouts.waiting := list ▸ List.mem_append_right _ (List.mem_cons_self ..)
    have position : alertPosition s.layouts.waiting n = before.length + 1 := list ▸ alertPosition_append first after
    rw [replied (congrArg Served.ofPair ((s.heard n _).serveAcquireAlert_listed held other listed)), s.heard_layouts, position]
    rfl
  · exact exec_layouts (k := .acquireAlert) rfl quiet session rfl
      (congrArg Served.ofPair ((s.heard n _).serveAcquireAlert_joins held other apart))

/-- Settles O57, by what the port is to the token: its holder, with a window in the band or without, a waiting port, or neither. -/
theorem releaseAlertAnswers : Obligations.ReleaseAlertAnswers := by
  rintro s n tag quiet session ⟨_, apart, _⟩
  have replied {payload : List Byte} := exec_replied (c := .releaseAlert n tag []) (k := .releaseAlert) (payload := payload) rfl quiet
    session rfl (Nat.zero_le _)
  have used := s.layouts.usesAlert_iff n
  refine ⟨fun holds inBand => ?_, fun holds outside => ?_, fun listed => ?_, fun other absent => ?_⟩
  · exact replied (congrArg Served.ofPair ((s.heard n _).serveReleaseAlert_inUse holds (used.mpr inBand)))
  · have unused : ¬ s.layouts.usesAlert n = true := fun h => by
      obtain ⟨w, inBand, own⟩ := used.mp h
      exact outside w inBand own
    have passes := (s.heard n ⟨Kind.releaseAlert.code, tag, []⟩).serveReleaseAlert_passes holds unused
    refine ⟨fun empty => ?_, fun q rest list => ?_⟩
    · rw [(s.heard n _).passToken_none empty] at passes
      exact exec_layouts (k := .releaseAlert) rfl quiet session rfl (congrArg Served.ofPair passes)
    · have other : q ≠ n := by
        rintro rfl
        exact apart q holds (list ▸ List.mem_cons_self ..)
      rw [(s.heard n _).passToken_first list] at passes
      exact exec_layouts_post (k := .releaseAlert) rfl quiet session rfl other (congrArg Served.ofPair passes)
  · exact exec_layouts (k := .releaseAlert) rfl quiet session rfl
      (congrArg Served.ofPair ((s.heard n _).serveReleaseAlert_leaves (fun holds => apart n holds listed) listed))
  · exact replied (congrArg Served.ofPair ((s.heard n _).serveReleaseAlert_notHeld other absent))

end

section
/-! IDENTIFY and the queries (chapter 9): the reply of each by what it reports, and the 26 bytes of a window record (R163). -/

namespace Sys2Proof.Machine

/-! ### IDENTIFY and the panel (R150, R154) -/

/-- IDENTIFY is served whatever the port's session (R23). -/
theorem State.serve_identify (s : State) (n : Port) (tag : Byte) :
    s.serve n ⟨Kind.identify.code, tag, []⟩ = .answered s identifyReply := by
  have served : ¬ ((s.session n).state = .closed ∧ Kind.identify.needsNoSession = false) := fun ⟨_, needs⟩ => nomatch needs
  unfold State.serve
  rw [Kind.ofCode_code]
  exact (if_neg (not_not_intro rfl)).trans (if_neg served)

theorem State.queryPanelReply_unconfigured {s : State} (unconfigured : s.scan.timing = none) :
    s.queryPanelReply = 0x11 :: 0x00 :: List.replicate 25 0 := by
  unfold State.queryPanelReply
  rw [unconfigured]
  rfl

theorem State.queryPanelReply_running {s : State} {t : Timing} (running : s.scan.timing = some t) :
    s.queryPanelReply = [0x11, 0x00, 1, 1] ++ bytesTiming t ++ bytes32 s.scan.frame ++ bytes16 (6 * t.htotal) := by
  unfold State.queryPanelReply
  rw [running]
  rfl

/-! ### QUERY_SURFACE by its handle (R59, R152) -/

section Surface

variable {s : State} {n : Port} {p : List Byte} {i : SurfSlot} {f : Surface}

/-- The handle made of the slot and generation that a handle names is that handle (R58). -/
theorem Surfaces.surfaceHandle_of_named {m : Surfaces} {handle : Nat} (named : m.named handle = some (i, f)) :
    surfaceHandle i (tget m.slots i).gen = handle := by
  obtain ⟨slot, _, gen⟩ := (m.named_iff handle i f).mp named
  unfold surfaceHandle
  omega

theorem State.querySurfaceReply_unnamed (n : Port) (unnamed : s.surfaces.named (field16 p 0) = none) :
    s.querySurfaceReply n p = refusal .querySurface .noSuchSurface := by
  unfold State.querySurfaceReply
  rw [s.surfaces.resolve_unnamed n unnamed]

theorem State.querySurfaceReply_notOwner (named : s.surfaces.named (field16 p 0) = some (i, f)) (other : f.owner ≠ n) :
    s.querySurfaceReply n p = refusal .querySurface .notOwner := by
  unfold State.querySurfaceReply
  rw [s.surfaces.resolve_notOwner named other]

theorem State.querySurfaceReply_own (named : s.surfaces.named (field16 p 0) = some (i, f)) (own : f.owner = n) :
    s.querySurfaceReply n p =
      reply .querySurface .ok
        (bytes16 (field16 p 0) ++ bytes8 n.val ++ bytes16 f.width ++ bytes16 f.height ++ bytes8 f.format.code ++
          bytesBool f.direct ++ bytes16 f.stride ++ bytes16 f.pageCount ++ bytes8 f.shownRefs ++ bytes8 f.queuedRefs ++
          bytes8 f.jobRefs) := by
  unfold State.querySurfaceReply
  rw [s.surfaces.resolve_own named own]
  dsimp only
  rw [Surfaces.surfaceHandle_of_named named, own]

end Surface

/-! ### QUERY_ALERT (R157) -/

/-- The three positions that QUERY_ALERT reports of a waiting list, 255 for one that no port has. -/
theorem bytes_waiting {waiting : List Port} {p1 p2 p3 : Byte}
    (reports :
      match waiting with
      | [] => p1 = 0xFF ∧ p2 = 0xFF ∧ p3 = 0xFF
      | [a] => p1 = BitVec.ofNat 8 a.val ∧ p2 = 0xFF ∧ p3 = 0xFF
      | [a, b] => p1 = BitVec.ofNat 8 a.val ∧ p2 = BitVec.ofNat 8 b.val ∧ p3 = 0xFF
      | a :: b :: c :: _ => p1 = BitVec.ofNat 8 a.val ∧ p2 = BitVec.ofNat 8 b.val ∧ p3 = BitVec.ofNat 8 c.val) :
    [0, 1, 2].flatMap (fun i => bytes8 (portCode waiting[i]?)) = [p1, p2, p3] := by
  match waiting, reports with
  | [], ⟨e1, e2, e3⟩ => rw [e1, e2, e3]; rfl
  | [_], ⟨e1, e2, e3⟩ => rw [e1, e2, e3]; rfl
  | [_, _], ⟨e1, e2, e3⟩ => rw [e1, e2, e3]; rfl
  | _ :: _ :: _ :: _, ⟨e1, e2, e3⟩ => rw [e1, e2, e3]; rfl

/-! ### QUERY_WINDOW by its handle (R96, R153) -/

section Window

variable {s : State} {n : Port} {p : List Byte} {w : WinSlot} {owner : Port}

/-- The handle made of the slot and generation that a handle names is that handle (R96). -/
theorem LayoutController.windowHandle_of_named {c : LayoutController} {handle : Nat} (named : c.named handle = some (w, owner)) :
    windowHandle w (tget c.gens w) = handle := by
  obtain ⟨slot, _, gen⟩ := (c.named_iff handle w owner).mp named
  unfold windowHandle
  omega

theorem State.queryWindowReply_unnamed (n : Port) (unnamed : s.layouts.named (field16 p 0) = none) :
    s.queryWindowReply n p = refusal .queryWindow .noSuchWindow := by
  unfold State.queryWindowReply
  rw [unnamed]

theorem State.queryWindowReply_notOwner (named : s.layouts.named (field16 p 0) = some (w, owner)) (other : owner ≠ n) :
    s.queryWindowReply n p = refusal .queryWindow .notOwner := by
  unfold State.queryWindowReply
  rw [named]
  exact if_pos other

theorem State.queryWindowReply_own {a j : WindowRec} (named : s.layouts.named (field16 p 0) = some (w, n))
    (applied : s.layouts.applied.record w = some a) (projected : s.layouts.projected.record w = some j) :
    s.queryWindowReply n p =
      reply .queryWindow .ok
        (bytes16 (field16 p 0) ++
          s.layouts.applied.recordBytes w a (tget s.layouts.fresh w).age (tget s.layouts.fresh w).stale ++
          s.layouts.projected.recordBytes w j 0 false) := by
  unfold State.queryWindowReply
  rw [named]
  dsimp only
  rw [if_neg (not_not_intro rfl), applied, projected, LayoutController.windowHandle_of_named named]

end Window

/-! ### The 26 bytes of a window record (R163) -/

section Record

variable {l : Layout} {w : WinSlot} {r : WindowRec}

/-- The bytes of a record, its band, its index in the band's list and its source's handle being given. -/
theorem Layout.recordBytes_eq {age : Nat} {stale : Bool} {band index handle : Nat}
    (inBand : (if r.state = .stacked then r.band else .main).code = band)
    (listed : (if r.state = .stacked then (l.bands.list r.band).findIdx (· = w) else 0xFF) = index)
    (sourced : (r.source = none ∧ handle = 0) ∨ ∃ d, r.source = some d ∧ handle = d.handle) :
    l.recordBytes w r age stale =
      [BitVec.ofNat 8 r.state.code, BitVec.ofNat 8 band, BitVec.ofNat 8 index] ++ bytes16 (r.x % 65536).toNat ++
        bytes16 (r.y % 65536).toNat ++ bytes16 r.width ++ bytes16 r.height ++ [if r.source = none then 0 else 1] ++
        bytes16 handle ++ bytes16 r.sx ++ bytes16 r.sy ++
        [r.opacity, r.fill.red, r.fill.green, r.fill.blue, if r.visible then 1 else 0, BitVec.ofNat 8 r.deadline,
          BitVec.ofNat 8 age, if stale then 1 else 0] := by
  unfold Layout.recordBytes bytesSigned16 bytesRgb bytesBool bytes8
  simp only [decide_eq_true_eq, inBand, listed]
  obtain ⟨source, rfl⟩ | ⟨d, source, rfl⟩ := sourced
  · simp [source]
  · simp [source]

/-- A window's index in a list is the number of windows before it. -/
theorem findIdx_of_split {below above list : List WinSlot} (split : list = below ++ w :: above) (first : w ∉ below) :
    list.findIdx (· = w) = below.length := by
  have passed : below.findIdx (fun v => decide (v = w)) = below.length :=
    List.findIdx_eq_length_of_false fun v before => decide_eq_false (by rintro rfl; exact first before)
  rw [split, List.findIdx_append, passed, if_neg (Nat.lt_irrefl _), List.findIdx_cons, decide_eq_true rfl, cond_true, Nat.zero_add]

theorem Band.code_eq (b : Band) {band : Nat}
    (named : (b = .base ∧ band = 0) ∨ (b = .main ∧ band = 1) ∨ (b = .overlay ∧ band = 2) ∨ (b = .alert ∧ band = 3)) : b.code = band := by
  obtain ⟨rfl, rfl⟩ | ⟨rfl, rfl⟩ | ⟨rfl, rfl⟩ | ⟨rfl, rfl⟩ := named <;> rfl

end Record

/-! ### Peaks of a load table (R156) -/

section Peak

variable {table : List Nat} {a line : Nat}

theorem peak_eq (held : a ∈ table) (highest : ∀ x ∈ table, x ≤ a) : peak table = a := by
  unfold peak
  rw [List.foldl_max, List.max?_eq_some_iff.mpr ⟨held, highest⟩]
  exact Nat.zero_max a

theorem peak_zero (zero : ∀ x ∈ table, x = 0) : peak table = 0 := by
  cases table with
  | nil => rfl
  | cons x xs =>
    have head : x = 0 := zero x (List.mem_cons_self ..)
    exact peak_eq (head ▸ List.mem_cons_self ..) fun y held => Nat.le_of_eq (zero y held)

theorem peakLine_zero (zero : ∀ x ∈ table, x = 0) : peakLine table = 0 := if_pos (peak_zero zero)

theorem peakLine_eq (entry : table[line]? = some a) (positive : 0 < a) (highest : ∀ x ∈ table, x ≤ a)
    (lowest : ∀ i, i < line → table[i]? ≠ some a) : peakLine table = line := by
  obtain ⟨within, at_line⟩ := List.getElem?_eq_some_iff.mp entry
  unfold peakLine
  rw [peak_eq (List.mem_of_getElem? entry) highest, if_neg (Nat.ne_of_gt positive), List.findIdx_eq within]
  refine ⟨decide_eq_true at_line, fun i before => decide_eq_false fun same => lowest i before ?_⟩
  rw [List.getElem?_eq_getElem (Nat.lt_trans before within), same]

/-- The peak of a table with its line, said by what they are. -/
theorem peak_and_line
    (top : table[line]? = some a ∧ 0 < a ∧ (∀ x ∈ table, x ≤ a) ∧ (∀ i, i < line → table[i]? ≠ some a) ∨
      a = 0 ∧ line = 0 ∧ ∀ x ∈ table, x = 0) : peak table = a ∧ peakLine table = line := by
  obtain ⟨entry, positive, highest, lowest⟩ | ⟨rfl, rfl, zero⟩ := top
  · exact ⟨peak_eq (List.mem_of_getElem? entry) highest, peakLine_eq entry positive highest lowest⟩
  · exact ⟨peak_zero zero, peakLine_zero zero⟩

end Peak

/-! ### QUERY_LOAD (R156) -/

section Load

variable {s : State}

theorem State.peakShare_zero (s : State) (n : Port) (zero : peak s.layouts.projectedLoad = 0) : s.peakShare n = 0 := by
  unfold State.peakShare
  split
  · rfl
  · exact if_pos zero

theorem State.queryLoadReply_unconfigured (n : Port) (unconfigured : s.scan.timing = none) (applied : s.layouts.appliedLoad = [])
    (projected : s.layouts.projectedLoad = []) : s.queryLoadReply n = 0x15 :: 0x00 :: List.replicate 12 0 := by
  have none_held : ∀ x ∈ ([] : List Nat), x = 0 := nofun
  have budget : s.scan.budget = 0 := by
    unfold Scan.budget
    rw [unconfigured]
  unfold State.queryLoadReply
  rw [budget, s.peakShare_zero n (projected ▸ rfl), applied, projected, peak_zero none_held, peakLine_zero none_held]
  rfl

theorem State.peakShare_running (s : State) (n : Port) {t : Timing} {p line : Nat} (running : s.scan.timing = some t)
    (top : peak s.layouts.projectedLoad = p ∧ peakLine s.layouts.projectedLoad = line) (positive : 0 < p) :
    s.peakShare n = s.layouts.share t.hactive line n := by
  obtain ⟨rfl, rfl⟩ := top
  unfold State.peakShare
  rw [running]
  exact if_neg (Nat.ne_of_gt positive)

theorem State.queryLoadReply_running {n : Port} {t : Timing} {a al p pl share : Nat} (running : s.scan.timing = some t)
    (applied : peak s.layouts.appliedLoad = a ∧ peakLine s.layouts.appliedLoad = al)
    (projected : peak s.layouts.projectedLoad = p ∧ peakLine s.layouts.projectedLoad = pl) (shared : s.peakShare n = share) :
    s.queryLoadReply n =
      reply .queryLoad .ok
        (bytes16 (6 * t.htotal) ++ bytes16 a ++ bytes16 al ++ bytes16 p ++ bytes16 pl ++ bytes16 share) := by
  obtain ⟨rfl, rfl⟩ := applied
  obtain ⟨rfl, rfl⟩ := projected
  have budget : s.scan.budget = 6 * t.htotal := by
    unfold Scan.budget
    rw [running]
    rfl
  unfold State.queryLoadReply
  rw [budget, shared]

end Load

end Sys2Proof.Machine

open Sys2Proof Sys2Proof.Machine

/-- Settles O58: each reply is spelled by its own definition; IDENTIFY asks for no session. -/
theorem identifyAndSessionQueries : Obligations.IdentifyAndSessionQueries := by
  intro s n tag quiet
  refine ⟨?_, fun session => ⟨?_, fun unconfigured => ?_, fun t running => ?_⟩⟩
  · rw [exec_carried _ s n ⟨Kind.identify.code, tag, []⟩ rfl,
      s.transact_replied n _ _ quiet (Nat.zero_le _) Kind.identify.code_ne_nop (State.serve_identify _ n tag)]
    rfl
  · exact exec_replied (k := .querySession) rfl quiet session rfl (Nat.zero_le _) rfl
  · exact exec_replied (k := .queryPanel) rfl quiet session rfl (Nat.zero_le _)
      (congrArg (Served.answered _) (State.queryPanelReply_unconfigured (s := s.heard n _) unconfigured))
  · exact exec_replied (k := .queryPanel) rfl quiet session rfl (Nat.zero_le _)
      (congrArg (Served.answered _) (State.queryPanelReply_running (s := s.heard n _) running))

/-- Settles O59, by whom the surface's handle names and by the length of the waiting list. -/
theorem surfaceMemoryAndAlertQueries : Obligations.SurfaceMemoryAndAlertQueries := by
  intro s n tag quiet session
  refine ⟨?_, fun holder p1 p2 p3 held reports => ?_, fun payload length => ?_⟩
  · exact exec_replied (k := .queryMemory) rfl quiet session rfl (Nat.zero_le _) rfl
  · refine exec_replied (k := .queryAlert) rfl quiet session rfl (Nat.zero_le _) (congrArg (Served.answered _) ?_)
    have holds : bytes8 (portCode s.layouts.holder) = [holder] := by
      rw [held]
      cases s.layouts.holder <;> rfl
    unfold State.queryAlertReply
    rw [s.heard_layouts, bytes_waiting reports, holds]
    rfl
  · have replied {answer : List Byte} (reported : s.querySurfaceReply n payload = answer) :
        exec (.querySurface n tag payload) s = .next (s.replied n tag answer).settle :=
      exec_replied (k := .querySurface) rfl quiet session (decide_eq_true length) (by rw [length]; decide)
        (congrArg (Served.answered _) reported)
    refine ⟨fun unnamed => ?_, fun i f named => ⟨fun other => ?_, fun own => ?_⟩⟩
    · exact replied (State.querySurfaceReply_unnamed n unnamed)
    · exact replied (State.querySurfaceReply_notOwner named other)
    · exact replied (State.querySurfaceReply_own named own)

/-- Settles O60: the record's bytes by its state in the layout, QUERY_WINDOW by whom the handle names, QUERY_LOAD by the peaks. -/
theorem windowAndLoadQueries : Obligations.WindowAndLoadQueries := by
  refine ⟨?_, fun s n tag quiet session => ⟨fun payload length => ?_, fun unconfigured applied projected => ?_, ?_⟩⟩
  · rintro l w r age stale state band index source handle rfl placed sourced
    have apart (other : r.state ≠ .stacked) := Layout.recordBytes_eq (l := l) (w := w) (age := age) (stale := stale)
      (congrArg Band.code (if_neg other)) (if_neg other) sourced
    obtain ⟨reserved, rfl, rfl, rfl⟩ | ⟨withdrawn, rfl, rfl, rfl⟩ | ⟨stacked, rfl, named, below, above, list, first, rfl⟩ := placed
    · rw [apart (by rw [reserved]; exact nofun), reserved]
      rfl
    · rw [apart (by rw [withdrawn]; exact nofun), withdrawn]
      rfl
    · rw [Layout.recordBytes_eq ((congrArg Band.code (if_pos stacked)).trans (r.band.code_eq named))
        ((if_pos stacked).trans (findIdx_of_split list first)) sourced, stacked]
      rfl
  · have replied {answer : List Byte} (reported : s.queryWindowReply n payload = answer) :
        exec (.queryWindow n tag payload) s = .next (s.replied n tag answer).settle :=
      exec_replied (k := .queryWindow) rfl quiet session (decide_eq_true length) (by rw [length]; decide)
        (congrArg (Served.answered _) reported)
    refine ⟨fun unnamed => ?_, fun w owner named => ⟨fun other => ?_, fun a j own applied projected => ?_⟩⟩
    · exact replied (State.queryWindowReply_unnamed n unnamed)
    · exact replied (State.queryWindowReply_notOwner named other)
    · exact replied (State.queryWindowReply_own (own ▸ named) applied projected)
  · exact exec_replied (k := .queryLoad) rfl quiet session rfl (Nat.zero_le _)
      (congrArg (Served.answered _) (State.queryLoadReply_unconfigured (s := s.heard n _) n unconfigured applied projected))
  · intro t a al p pl share running applied projected
    have projectedPeak : (peak s.layouts.projectedLoad = p ∧ peakLine s.layouts.projectedLoad = pl) ∧ s.peakShare n = share := by
      obtain ⟨entry, positive, highest, lowest, rfl⟩ | ⟨rfl, rfl, rfl, zero⟩ := projected
      · have top := peak_and_line (Or.inl ⟨entry, positive, highest, lowest⟩)
        exact ⟨top, s.peakShare_running n running top positive⟩
      · exact ⟨⟨peak_zero zero, peakLine_zero zero⟩, s.peakShare_zero n (peak_zero zero)⟩
    obtain ⟨top, shared⟩ := projectedPeak
    exact exec_replied (k := .queryLoad) rfl quiet session rfl (Nat.zero_le _) (congrArg (Served.answered _)
      (State.queryLoadReply_running (s := s.heard n _) running (peak_and_line applied) top shared))

end

section
/-! The timing record as bytes (R161, R38): which byte holds which field, and that reading them back loses nothing. -/

namespace Sys2Proof.Machine

/-! ### Fields read where they were written (R159, R160) -/

section Field

variable {p : List Byte} {o v : Nat}

theorem field8_of_byte (byte : p.getD o 0 = BitVec.ofNat 8 v) (fits : v < 256) : field8 p o = v := by
  unfold field8
  rw [byte, BitVec.toNat_ofNat]
  exact Nat.mod_eq_of_lt fits

theorem field16_of_bytes (high : p.getD o 0 = BitVec.ofNat 8 (v / 256)) (low : p.getD (o + 1) 0 = BitVec.ofNat 8 (v % 256))
    (fits : v < 65536) : field16 p o = v := by
  unfold field16
  rw [field8_of_byte high (by omega), field8_of_byte low (Nat.mod_lt v (by decide))]
  exact Nat.div_add_mod' v 256

end Field

/-- The low byte written is that of the remainder, a byte being cut off at 256. -/
theorem bytes16_eq (v : Nat) : bytes16 v = [BitVec.ofNat 8 (v / 256), BitVec.ofNat 8 (v % 256)] := by
  have low : BitVec.ofNat 8 v = BitVec.ofNat 8 (v % 256) := by
    apply BitVec.eq_of_toNat_eq
    rw [BitVec.toNat_ofNat, BitVec.toNat_ofNat]
    exact (Nat.mod_mod v 256).symm
  unfold bytes16
  rw [low]

theorem Polarity.byte_eq (p : Polarity) : BitVec.ofNat 8 p.code = if p = .activeHigh then 0 else 1 := by
  cases p <;> rfl

theorem Polarity.code_lt (p : Polarity) : p.code < 256 := by
  cases p <;> decide

theorem polarityOfCode_code (p : Polarity) : polarityOfCode p.code = some p := by
  cases p <;> rfl

/-! ### The timing record (R161, R38) -/

theorem bytesTiming_eq (t : Timing) :
    bytesTiming t =
      [BitVec.ofNat 8 (t.hactive / 256), BitVec.ofNat 8 (t.hactive % 256), BitVec.ofNat 8 t.hfront, BitVec.ofNat 8 t.hsync,
        BitVec.ofNat 8 t.hback, BitVec.ofNat 8 (t.vactive / 256), BitVec.ofNat 8 (t.vactive % 256), BitVec.ofNat 8 t.vfront,
        BitVec.ofNat 8 t.vsync, BitVec.ofNat 8 t.vback, BitVec.ofNat 8 t.hsyncPolarity.code,
        BitVec.ofNat 8 t.vsyncPolarity.code, BitVec.ofNat 8 t.dePolarity.code, BitVec.ofNat 8 t.divider, t.background.red,
        t.background.green, t.background.blue] := by
  unfold bytesTiming
  rw [bytes16_eq, bytes16_eq]
  rfl

/-- A polarity is read back from the byte that holds its code. -/
theorem polarityOfCode_field8 {b : List Byte} {o : Nat} {p : Polarity} (byte : b.getD o 0 = BitVec.ofNat 8 p.code) :
    polarityOfCode (field8 b o) = some p := by
  rw [field8_of_byte byte p.code_lt, polarityOfCode_code]

/-- Every number of the record is small enough for the bytes that R161 gives it. -/
def Timing.fitsBytes (t : Timing) : Prop :=
  (t.hactive < 65536 ∧ t.hfront < 256 ∧ t.hsync < 256 ∧ t.hback < 256) ∧
    (t.vactive < 65536 ∧ t.vfront < 256 ∧ t.vsync < 256 ∧ t.vback < 256) ∧ t.divider < 256

/-- The ranges of R38 lie within the bytes of R161. -/
theorem Timing.fitsBytes_of_valid {t : Timing} (valid : t.valid = true) : t.fitsBytes := by
  unfold Timing.valid at valid
  rw [decide_eq_true_eq] at valid
  unfold Timing.fitsBytes
  omega

/-- A record that fits its bytes is read back from them, in the ranges of R38 or not. -/
theorem timingOfBytes_bytesTiming {t : Timing} (fits : t.fitsBytes) : timingOfBytes (bytesTiming t) = some t := by
  obtain ⟨⟨hactive, hfront, hsync, hback⟩, ⟨vactive, vfront, vsync, vback⟩, divider⟩ := fits
  rw [bytesTiming_eq]
  unfold timingOfBytes
  rw [polarityOfCode_field8 (p := t.hsyncPolarity) rfl, polarityOfCode_field8 (p := t.vsyncPolarity) rfl,
    polarityOfCode_field8 (p := t.dePolarity) rfl]
  dsimp only
  rw [field16_of_bytes rfl rfl hactive, field8_of_byte rfl hfront, field8_of_byte rfl hsync, field8_of_byte rfl hback,
    field16_of_bytes rfl rfl vactive, field8_of_byte rfl vfront, field8_of_byte rfl vsync, field8_of_byte rfl vback,
    field8_of_byte rfl divider]
  rfl

end Sys2Proof.Machine

open Sys2Proof Sys2Proof.Machine

/-- Settles O29: the bytes by the record's layout, and read back because the ranges of R38 fit them. -/
theorem timingRecordsAreReadBack : Obligations.TimingRecordsAreReadBack := by
  intro t valid
  refine ⟨?_, congrArg List.length (bytesTiming_eq t), timingOfBytes_bytesTiming (Timing.fitsBytes_of_valid valid)⟩
  rintro h v d rfl rfl rfl
  rw [bytesTiming_eq, Polarity.byte_eq, Polarity.byte_eq, Polarity.byte_eq]

end

section
/-! The queue of commands and the step (log entries 1 and 6): no operation of the block looks at the commands that wait, so a command
hands on the queue it is given, and only `step` takes from it. -/

namespace Sys2Proof.Machine

/-- Every operation that a step is made of leaves the queue of commands at what it was, device reset too (log entry 6). -/
theorem State.pendingKept (q : List Instr) : Kept (fun s => s.pending = q) where
  link _ _ _ h := h
  session _ _ _ h := h
  pins _ _ h := h
  tick _ h := h
  reset _ _ _ _ _ h := h
  jobNumbers _ _ h := h
  setTiming s p h := (s.serveSetTiming_pending p).trans h
  createSurface s n p h := (s.serveCreateSurface_pending n p).trans h
  destroySurface _ _ h := h
  drawing s n k r h _ := (s.serveDrawing_pending n k r).trans h
  createWindow s n p h := (s.serveCreateWindow_pending n p).trans h
  commit s n tag p h := (s.serveCommit_pending n tag p).trans h
  acquireAlert s n h := (s.serveAcquireAlert_pending n).trans h
  releaseAlert s n h := (s.serveReleaseAlert_pending n).trans h
  abortJobs s n h := (s.abortJobs_pending n).trans h
  teardownLayouts s n h := (s.teardownLayouts_pending n).trans h
  returnResources s n h := (s.returnResources_pending n).trans h
  drawOn s h := s.drawOn_pending.trans h
  completeJob s h := s.completeJob_pending.trans h
  fetch s t line clock h := (s.fetch_pending t line clock).trans h
  place _ _ _ _ h _ _ := h
  lastActive _ _ h _ := h
  newFrame _ _ h _ := h
  withdrawClosing s h := s.withdrawClosing_pending.trans h
  applyCommits s h := s.applyCommits_pending.trans h
  ageWindows s h := s.ageWindows_pending.trans h

theorem exec_pending {c : Instr} {s t : State} (next : exec c s = .next t) : t.pending = s.pending :=
  (State.pendingKept s.pending).exec c s t rfl next

/-- The queue has a front, which is taken and carried out on the queue's rest. -/
theorem step_of_pending_cons {s : State} {c : Instr} {rest : List Instr} (queued : s.pending = c :: rest) :
    step s = exec c (s.withPending rest) := by
  unfold step
  rw [queued]

/-- On an empty queue the block idles (log entry 1). -/
theorem step_of_pending_nil {s : State} (empty : s.pending = []) : step s = .next s := by
  unfold step
  rw [empty]

end Sys2Proof.Machine

open Sys2Proof Sys2Proof.Machine

/-- Settles O1: the step by whether a command waits, and a command's queue by the operations that the command is made of. -/
theorem stepTakesTheFrontCommand : Obligations.StepTakesTheFrontCommand := by
  intro s
  refine ⟨fun c rest => step_of_pending_cons, step_of_pending_nil, fun c => ?_⟩
  obtain ⟨u, next⟩ := exec_settles c s
  exact ⟨u.settle, next, exec_pending next⟩

end
